-- ==== Sys2Proof/Word.lean ====
section
/-! DEFINITION. The words and numbers of the LS64 (spec/00_scope.md, "Units and number conventions"): bytes on the ports, the
32-bit time value, line, detector and slot numbers. -/

namespace Sys2Proof

/-- A byte as it crosses a port (R184). -/
abbrev Byte := BitVec 8

/-- A 32-bit, wrapping count of time units of 125 µs (R170). -/
abbrev Time := BitVec 32

/-- A line number 0..63 (R1). -/
abbrev LineNo := Fin 64

/-- A tone detector number, d0..d15 (R97). -/
abbrev DetNo := Fin 16

/-- A sweep number, S0..S3 (R135). -/
abbrev SweepNo := Fin 4

/-- A shadow slot number 0..3 (R157). -/
abbrev ShadowNo := Fin 4

/-- A profile number P0..P7 (R7). -/
abbrev ProfileNo := Fin 8

/-- A highway timeslot 0..127 (R5). -/
abbrev Timeslot := Fin 128

/-- A digit code 0..15 (spec/00_scope.md: 0..9, 10 for *, 11 for #, 12..15 for A..D). -/
abbrev DigitCode := Fin 16

end Sys2Proof
end

