-- ==== Sys2Proof/Syntax.lean ====
section
/-! DEFINITION. The commands of the LS64: one constructor per row of spec/opcode_table.json. A port request is one whole
transaction of a port (R184): the row's code byte, and in `tail` every byte clocked after it (the length byte, the payload and
any fill). The other rows are the part's own events; their operands are what the outside supplies at that event: highway bytes,
converter readings, battery samples, filter bank energies, elapsed oscillator cycles. -/

namespace Sys2Proof

/-- The three serial ports (R184). -/
inductive Port
  | a
  | b
  | t
deriving DecidableEq, Repr

/-- The two converter banks: bank 0 serves lines 0..31, bank 1 lines 32..63 (R21). -/
inductive Bank
  | zero
  | one
deriving DecidableEq, Repr

/-- The nine energies a detector's filter bank forms at a block end, measured inputs of the part (R100). -/
structure Energies where
  /-- 697 Hz -/
  f697 : Nat
  /-- 770 Hz -/
  f770 : Nat
  /-- 852 Hz -/
  f852 : Nat
  /-- 941 Hz -/
  f941 : Nat
  /-- 1209 Hz -/
  f1209 : Nat
  /-- 1336 Hz -/
  f1336 : Nat
  /-- 1477 Hz -/
  f1477 : Nat
  /-- 1633 Hz -/
  f1633 : Nat
  /-- Etot, the total block energy -/
  total : Nat
deriving DecidableEq, Repr

/-- The commands: one constructor per row of spec/opcode_table.json, in the table's order. -/
inductive Instr
  /-- R2: power-on or the RESET input. -/
  | reset
  /-- R185, code 0x00. -/
  | nop (p : Port) (tail : List Byte)
  /-- R185: a frame whose code byte is in no row of the request table. -/
  | unknownCodeRequest (p : Port) (code : Byte) (tail : List Byte)
  /-- R186, code 0x01. -/
  | attach (p : Port) (tail : List Byte)
  /-- R189, code 0x02. -/
  | detach (p : Port) (tail : List Byte)
  /-- R187, code 0x03. -/
  | keepalive (p : Port) (tail : List Byte)
  /-- R192, code 0x04. -/
  | readEvents (p : Port) (tail : List Byte)
  /-- R194, code 0x05. -/
  | setAlertMask (p : Port) (tail : List Byte)
  /-- R195, code 0x06. -/
  | readStatus (p : Port) (tail : List Byte)
  /-- R8, code 0x10. -/
  | writeProfile (p : Port) (tail : List Byte)
  /-- R10, code 0x11. -/
  | readProfile (p : Port) (tail : List Byte)
  /-- R11, code 0x12. -/
  | writeRange (p : Port) (tail : List Byte)
  /-- R12, code 0x13. -/
  | writeOverride (p : Port) (tail : List Byte)
  /-- R4, code 0x14. -/
  | setSubscription (p : Port) (tail : List Byte)
  /-- R5, code 0x15. -/
  | setTimeslot (p : Port) (tail : List Byte)
  /-- R19, code 0x16. -/
  | readLine (p : Port) (tail : List Byte)
  /-- R180, code 0x17. -/
  | setFeedLimits (p : Port) (tail : List Byte)
  /-- R99, code 0x18. -/
  | setLaw (p : Port) (tail : List Byte)
  /-- R76, code 0x20. -/
  | block (p : Port) (tail : List Byte)
  /-- R77, code 0x21. -/
  | unblock (p : Port) (tail : List Byte)
  /-- R123, code 0x22. -/
  | ring (p : Port) (tail : List Byte)
  /-- R126, code 0x23. -/
  | ringStop (p : Port) (tail : List Byte)
  /-- R94, code 0x24. -/
  | endDial (p : Port) (tail : List Byte)
  /-- R95, code 0x25. -/
  | clearDial (p : Port) (tail : List Byte)
  /-- R116, code 0x26. -/
  | lockDetector (p : Port) (tail : List Byte)
  /-- R118, code 0x27. -/
  | unlockDetector (p : Port) (tail : List Byte)
  /-- R136, code 0x30. -/
  | writeSweep (p : Port) (tail : List Byte)
  /-- R137, code 0x31. -/
  | startSweep (p : Port) (tail : List Byte)
  /-- R138, code 0x32. -/
  | stopSweep (p : Port) (tail : List Byte)
  /-- R158, code 0x40. -/
  | hold (p : Port) (tail : List Byte)
  /-- R166, code 0x41. -/
  | release (p : Port) (tail : List Byte)
  /-- R163, code 0x42. -/
  | setTestFeed (p : Port) (tail : List Byte)
  /-- R164, code 0x43. -/
  | measure (p : Port) (tail : List Byte)
  /-- R172, R176: a frame sync arrives `cycles` internal cycles after the last Time Base event, with the frame's highway bytes. -/
  | frameSync (cycles : Nat) (frame : Vector Byte 128)
  /-- R173 -/
  | flywheelUnit
  /-- R174 -/
  | lossOfLock
  /-- R175 -/
  | freeUnit
  /-- R176 -/
  | relockWindowExpiry
  /-- R20, R180: a round begins, and the battery sense gives `sample`. -/
  | roundStart (sample : Nat)
  /-- R181 -/
  | feedStateChange
  /-- R21 -/
  | slotStart
  /-- R39: the LOOP measurement of line `l` completes with the raw readings It and Ir. -/
  | loopMeasurement (l : LineNo) (it ir : Int)
  /-- R32: the item in progress on a bank completes; the readings are It and Ir, Vtg and Vrg, or Vtr and nothing (R28). -/
  | itemComplete (bank : Bank) (r1 r2 : Int)
  /-- R144 -/
  | endOfPass (n : SweepNo)
  /-- R74 -/
  | hangupExpiry (l : LineNo)
  /-- R87 -/
  | interdigitExpiry (l : LineNo)
  /-- R88 -/
  | interdigitHeldSettle (l : LineNo)
  /-- R93 -/
  | firstDigitExpiry (l : LineNo)
  /-- R124 -/
  | ringPhaseExpiry (l : LineNo)
  /-- R125 -/
  | ringLimitExpiry (l : LineNo)
  /-- R112 -/
  | poolReview
  /-- R100: detector `d` ends a block with the energies `e`. -/
  | toneBlockEnd (d : DetNo) (e : Energies)
  /-- R188 -/
  | windowExpiry (p : Port)
deriving DecidableEq, Repr

end Sys2Proof
end

