-- ==== Sys2Proof/Config.lean ====
section
/-! DEFINITION. The fixed numbers of the LS64, each from the rule named beside it. No rule was found to leave a value to the
implementation, so there is no opaque constant here (log 30). -/

namespace Sys2Proof.Config

/-- The most entries the Event Journal holds (R190). -/
def journalCapacity : Nat := 256

/-- The highest gap count (R191). -/
def gapMax : Nat := 65535

/-- The most bytes of a transaction, the code byte included (R184). -/
def transactionMax : Nat := 64

/-- The number of entries a Dial Record holds (R91). -/
def dialRecordMax : Nat := 24

/-- The acquire count at which an acquisition ends as unstable (R62). -/
def acquireMax : Nat := 400

/-- The samples of a tone block (R100). -/
def blockSamples : Nat := 96

/-- The energy floor of the block decision and of the used bit (R101, R104). -/
def energyFloor : Nat := 2000

/-- The top of the range of an energy (R100). -/
def energyMax : Nat := 16777215

/-- The time units between pool reviews (R112). -/
def reviewPeriod : Nat := 1600

/-- The most locked detectors (R116). -/
def lockMax : Nat := 8

/-- The most items of the Test Queue (R164). -/
def testQueueMax : Nat := 8

/-- The time units of a scan round (R20). -/
def roundUnits : Nat := 20

/-- The slots of a scan round (R20). -/
def roundSlots : Nat := 40

/-- The first sweep slot of a round (R21). -/
def sweepSlot : Nat := 32

/-- The good syncs of a relock run, and of a calibration window (R176, R177). -/
def syncRun : Nat := 64

/-- Nominal Cal: internal cycles of 64 frames (R171). -/
def calNominal : Nat := 131072

/-- The least accepted calibration count (R178). -/
def calMin : Nat := 117965

/-- The greatest accepted calibration count (R178). -/
def calMax : Nat := 144179

/-- The samples of a battery change run (R181). -/
def changeRun : Nat := 8

/-- Time units per millisecond of a profile time (R7). -/
def unitsPerMs : Nat := 8

/-- Time units per second of a profile time (R7). -/
def unitsPerS : Nat := 8000

/-- Voltage codes per volt (R7). -/
def codesPerVolt : Nat := 4

/-- The battery hysteresis in codes (R180). -/
def hysteresis : Nat := 8

end Sys2Proof.Config
end

