-- ==== Sys2Proof/WellFormed.lean ====
section
/-! DEFINITION. Which commands are well formed: operands within the ranges the spec gives the inputs. The meanings are total; a
command outside these ranges is one that no sender of the spec produces. -/

namespace Sys2Proof

/-- The code bytes of the request table (R185). -/
def requestCodes : List Byte :=
  [0x00, 0x01, 0x02, 0x03, 0x04, 0x05, 0x06, 0x10, 0x11, 0x12, 0x13, 0x14, 0x15, 0x16, 0x17, 0x18,
   0x20, 0x21, 0x22, 0x23, 0x24, 0x25, 0x26, 0x27, 0x30, 0x31, 0x32, 0x40, 0x41, 0x42, 0x43]

/-- A code byte that is in the request table. -/
def knownCode (c : Byte) : Bool := requestCodes.contains c

/-- A signed current code (R23). -/
def isCurrentCode (x : Int) : Bool := decide (-8192 ≤ x) && decide (x ≤ 8191)

/-- A battery sample (R180). -/
def isBatteryCode (v : Nat) : Bool := decide (v ≤ 1023)

/-- Energies within their range (R100). -/
def energiesInRange (e : Energies) : Bool :=
  [e.f697, e.f770, e.f852, e.f941, e.f1209, e.f1336, e.f1477, e.f1633, e.total].all (fun x => decide (x ≤ Config.energyMax))

/-- Operands within the ranges of the spec: an unknown code is one outside the request table (R185), converter readings are
current codes (R23; a voltage code lies within them, R28), a battery sample is 0..1023 (R180), energies are 0..2^24−1 (R100). -/
def WellFormed (i : Instr) : Bool :=
  match i with
  | .unknownCodeRequest _ code _ => !knownCode code
  | .loopMeasurement _ it ir => isCurrentCode it && isCurrentCode ir
  | .itemComplete _ r1 r2 => isCurrentCode r1 && isCurrentCode r2
  | .roundStart v => isBatteryCode v
  | .toneBlockEnd _ e => energiesInRange e
  | .reset => true
  | .nop _ _ => true
  | .attach _ _ => true
  | .detach _ _ => true
  | .keepalive _ _ => true
  | .readEvents _ _ => true
  | .setAlertMask _ _ => true
  | .readStatus _ _ => true
  | .writeProfile _ _ => true
  | .readProfile _ _ => true
  | .writeRange _ _ => true
  | .writeOverride _ _ => true
  | .setSubscription _ _ => true
  | .setTimeslot _ _ => true
  | .readLine _ _ => true
  | .setFeedLimits _ _ => true
  | .setLaw _ _ => true
  | .block _ _ => true
  | .unblock _ _ => true
  | .ring _ _ => true
  | .ringStop _ _ => true
  | .endDial _ _ => true
  | .clearDial _ _ => true
  | .lockDetector _ _ => true
  | .unlockDetector _ _ => true
  | .writeSweep _ _ => true
  | .startSweep _ _ => true
  | .stopSweep _ _ => true
  | .hold _ _ => true
  | .release _ _ => true
  | .setTestFeed _ _ => true
  | .measure _ _ => true
  | .frameSync _ _ => true
  | .flywheelUnit => true
  | .lossOfLock => true
  | .freeUnit => true
  | .relockWindowExpiry => true
  | .feedStateChange => true
  | .slotStart => true
  | .endOfPass _ => true
  | .hangupExpiry _ => true
  | .interdigitExpiry _ => true
  | .interdigitHeldSettle _ => true
  | .firstDigitExpiry _ => true
  | .ringPhaseExpiry _ => true
  | .ringLimitExpiry _ => true
  | .poolReview => true
  | .windowExpiry _ => true

end Sys2Proof
end

