-- ==== Sys2Proof/Decode.lean ====
section
/-! DEFINITION. Reading a command from its bits. The table gives no row any bits, so no word spells a command (decodeTableWord). What
the spec does spell in bytes is the transaction of a port: its code byte names the request (R185), and decodeRequest reads it;
encodeRequest writes it. -/

namespace Sys2Proof

/-- The command a word spells by the table's bits: the table gives no row bits, so a word spells none. -/
def decodeTableWord (_nbits _w : Nat) : Option Instr := none

/-- The command of a transaction on port `p` whose code byte is `code` and whose later bytes are `tail` (R185). -/
def decodeCode (p : Port) (code : Byte) (tail : List Byte) : Instr :=
  if code = 0x00 then .nop p tail
  else if code = 0x01 then .attach p tail
  else if code = 0x02 then .detach p tail
  else if code = 0x03 then .keepalive p tail
  else if code = 0x04 then .readEvents p tail
  else if code = 0x05 then .setAlertMask p tail
  else if code = 0x06 then .readStatus p tail
  else if code = 0x10 then .writeProfile p tail
  else if code = 0x11 then .readProfile p tail
  else if code = 0x12 then .writeRange p tail
  else if code = 0x13 then .writeOverride p tail
  else if code = 0x14 then .setSubscription p tail
  else if code = 0x15 then .setTimeslot p tail
  else if code = 0x16 then .readLine p tail
  else if code = 0x17 then .setFeedLimits p tail
  else if code = 0x18 then .setLaw p tail
  else if code = 0x20 then .block p tail
  else if code = 0x21 then .unblock p tail
  else if code = 0x22 then .ring p tail
  else if code = 0x23 then .ringStop p tail
  else if code = 0x24 then .endDial p tail
  else if code = 0x25 then .clearDial p tail
  else if code = 0x26 then .lockDetector p tail
  else if code = 0x27 then .unlockDetector p tail
  else if code = 0x30 then .writeSweep p tail
  else if code = 0x31 then .startSweep p tail
  else if code = 0x32 then .stopSweep p tail
  else if code = 0x40 then .hold p tail
  else if code = 0x41 then .release p tail
  else if code = 0x42 then .setTestFeed p tail
  else if code = 0x43 then .measure p tail
  else .unknownCodeRequest p code tail

/-- The command of a transaction with these whole bytes; one with no whole byte is no transaction (R184). -/
def decodeRequest (p : Port) (bytes : List Byte) : Option Instr :=
  match bytes with
  | [] => none
  | code :: tail => some (decodeCode p code tail)

/-- The port and the bytes of a request's transaction (R185); none for a command that is no request. -/
def encodeRequest (i : Instr) : Option (Port × List Byte) :=
  match i with
  | .nop p tail => some (p, 0x00 :: tail)
  | .unknownCodeRequest p code tail => some (p, code :: tail)
  | .attach p tail => some (p, 0x01 :: tail)
  | .detach p tail => some (p, 0x02 :: tail)
  | .keepalive p tail => some (p, 0x03 :: tail)
  | .readEvents p tail => some (p, 0x04 :: tail)
  | .setAlertMask p tail => some (p, 0x05 :: tail)
  | .readStatus p tail => some (p, 0x06 :: tail)
  | .writeProfile p tail => some (p, 0x10 :: tail)
  | .readProfile p tail => some (p, 0x11 :: tail)
  | .writeRange p tail => some (p, 0x12 :: tail)
  | .writeOverride p tail => some (p, 0x13 :: tail)
  | .setSubscription p tail => some (p, 0x14 :: tail)
  | .setTimeslot p tail => some (p, 0x15 :: tail)
  | .readLine p tail => some (p, 0x16 :: tail)
  | .setFeedLimits p tail => some (p, 0x17 :: tail)
  | .setLaw p tail => some (p, 0x18 :: tail)
  | .block p tail => some (p, 0x20 :: tail)
  | .unblock p tail => some (p, 0x21 :: tail)
  | .ring p tail => some (p, 0x22 :: tail)
  | .ringStop p tail => some (p, 0x23 :: tail)
  | .endDial p tail => some (p, 0x24 :: tail)
  | .clearDial p tail => some (p, 0x25 :: tail)
  | .lockDetector p tail => some (p, 0x26 :: tail)
  | .unlockDetector p tail => some (p, 0x27 :: tail)
  | .writeSweep p tail => some (p, 0x30 :: tail)
  | .startSweep p tail => some (p, 0x31 :: tail)
  | .stopSweep p tail => some (p, 0x32 :: tail)
  | .hold p tail => some (p, 0x40 :: tail)
  | .release p tail => some (p, 0x41 :: tail)
  | .setTestFeed p tail => some (p, 0x42 :: tail)
  | .measure p tail => some (p, 0x43 :: tail)
  | .reset => none
  | .frameSync _ _ => none
  | .flywheelUnit => none
  | .lossOfLock => none
  | .freeUnit => none
  | .relockWindowExpiry => none
  | .roundStart _ => none
  | .feedStateChange => none
  | .slotStart => none
  | .loopMeasurement _ _ _ => none
  | .itemComplete _ _ _ => none
  | .endOfPass _ => none
  | .hangupExpiry _ => none
  | .interdigitExpiry _ => none
  | .interdigitHeldSettle _ => none
  | .firstDigitExpiry _ => none
  | .ringPhaseExpiry _ => none
  | .ringLimitExpiry _ => none
  | .poolReview => none
  | .toneBlockEnd _ _ => none
  | .windowExpiry _ => none

end Sys2Proof
end

