-- ==== Sys2Proof/Machine/State.lean ====
section
/-! DEFINITION. The state of the LS64 as plain data: every field of the line record, of the profile store, of the fifteen blocks
and of the ports, its reset value (State.reset), and the stop reasons. A field marked "model's own" is not named by the spec as a
field; it holds something the spec's rules say in words (an expiry held, an event due and not yet taken). -/

namespace Sys2Proof.Machine

/-! ### Enumerations (R2, R7, R97, R135, R146, R171, R180, R186) -/

/-- The state of a line (R2). -/
inductive LineState
  | acquire
  | idle
  | ringing
  | dialling
  | talk
  | blocked
  | held
deriving DecidableEq, Repr

/-- The loop condition of a line (R2). -/
inductive LoopCond
  | unknown
  | opened
  | closed
deriving DecidableEq, Repr

/-- The direction of a debounce run: toward OPEN or toward CLOSED (R2). -/
inductive LoopDir
  | opened
  | closed
deriving DecidableEq, Repr

/-- The class of a measurement (R43). -/
inductive MeasClass
  | opened
  | between
  | closed
deriving DecidableEq, Repr

/-- The mode a feed circuit is driven in (R37). -/
inductive FeedMode
  | normal
  | highZ
  | ring
  | diagUp
  | diagDown
deriving DecidableEq, Repr

/-- The test feed mode of a HELD line (R163). -/
inductive TestFeed
  | normal
  | highZ
  | diagUp
  | diagDown
deriving DecidableEq, Repr

/-- A measurement's mark (R26). -/
inductive Mark
  | valid
  | discard
deriving DecidableEq, Repr

/-- The ring phase of a RINGING line (R122). -/
inductive RingPhase
  | ring
  | pause
deriving DecidableEq, Repr

/-- How a digit was dialled (R2). -/
inductive DigitMethod
  | pulse
  | tone
deriving DecidableEq, Repr

/-- The dial method of a profile (R7). -/
inductive DialMethod
  | pulse
  | tone
  | both
deriving DecidableEq, Repr

/-- The seven fault kinds, in the order of the Fault Set (R2). -/
inductive FaultKind
  | groundTip
  | groundRing
  | short
  | leakage
  | foreignVoltage
  | openPair
  | permanentLoop
deriving DecidableEq, Repr

/-- The state of a fault entry (R146). -/
inductive FaultState
  | clear
  | suspect
  | present
  | easing
deriving DecidableEq, Repr

/-- The verdict of a fault observation (R53). -/
inductive Verdict
  | good
  | bad
deriving DecidableEq, Repr

/-- The kind of a measurement item (R28). -/
inductive ItemKind
  | loop
  | foreign
  | diagUp
  | diagDown
deriving DecidableEq, Repr

/-- The kind of a sweep (R135). -/
inductive SweepKind
  | foreign
  | diagUp
  | diagDown
deriving DecidableEq, Repr

/-- The step of a sweep (R135). -/
inductive SweepStep
  | up
  | down
  | fixed
deriving DecidableEq, Repr

/-- The repeat of a sweep (R135). -/
inductive SweepRepeat
  | once
  | cyclic
deriving DecidableEq, Repr

/-- The state of a sweep (R135). -/
inductive SweepState
  | idle
  | active
  | paused
deriving DecidableEq, Repr

/-- The companding law (R98). -/
inductive Law
  | lawA
  | lawMu
deriving DecidableEq, Repr

/-- The lock state of the Time Base (R171). -/
inductive LockState
  | freeRun
  | locked
deriving DecidableEq, Repr

/-- The calibration status (R171). -/
inductive CalStatus
  | nominal
  | calibrated
deriving DecidableEq, Repr

/-- The quality of an event (R179). -/
inductive Quality
  | locked
  | freeCal
  | freeNominal
deriving DecidableEq, Repr

/-- The feed state of the Battery Monitor (R180). -/
inductive FeedState
  | normal
  | low
  | lost
deriving DecidableEq, Repr

/-- The state of a port (R186). -/
inductive PortState
  | detached
  | attached
  | lapsed
deriving DecidableEq, Repr

/-- The mode of a RELEASE (R166). -/
inductive ReleaseMode
  | restore
  | fresh
deriving DecidableEq, Repr

/-- Why a line was released (R168). -/
inductive ReleaseReason
  | request
  | lapse
deriving DecidableEq, Repr

/-- The cause carried by PORT_LAPSED (R198). -/
inductive LapseCause
  | lapse
  | detach
deriving DecidableEq, Repr

/-- The outcome carried by INITIAL (R61, R62). -/
inductive InitialOutcome
  | opened
  | closed
  | unstable
deriving DecidableEq, Repr

/-- What decided a HANGUP (R73). -/
inductive HangupBy
  | expiry
  | make
deriving DecidableEq, Repr

/-! ### Small records -/

/-- A subset of the ports (R190). -/
structure PortSet where
  /-- Port A -/
  a : Bool
  /-- Port B -/
  b : Bool
  /-- Port T -/
  t : Bool
deriving DecidableEq, Repr

/-- A subset of the controller ports {A, B} (R3). -/
structure Subscription where
  /-- Port A -/
  a : Bool
  /-- Port B -/
  b : Bool
deriving DecidableEq, Repr

/-- A subset of {CONTROLLER, FAULT} (R76). -/
structure Reasons where
  /-- CONTROLLER -/
  controller : Bool
  /-- FAULT -/
  fault : Bool
deriving DecidableEq, Repr

/-- A debounce run (R2); the answer run of a RINGING line (R122). -/
structure Run where
  /-- direction -/
  dir : LoopDir
  /-- count 0..15 -/
  count : Nat
  /-- run start time -/
  start : Time
deriving DecidableEq, Repr

/-- An entry of a Dial Record (R2). -/
structure DialEntry where
  /-- digit code 0..15 -/
  code : DigitCode
  /-- method -/
  method : DigitMethod
deriving DecidableEq, Repr

/-- An entry of a Fault Set (R146). -/
structure FaultEntry where
  /-- state -/
  state : FaultState
  /-- count 0..15 -/
  count : Nat
  /-- run start, present only while SUSPECT or EASING -/
  runStart : Option Time
deriving DecidableEq, Repr

/-- A Fault Set (R146): seven entries and the decimation counter of R49. -/
structure FaultSet where
  /-- GROUND_TIP -/
  groundTip : FaultEntry
  /-- GROUND_RING -/
  groundRing : FaultEntry
  /-- SHORT -/
  short : FaultEntry
  /-- LEAKAGE -/
  leakage : FaultEntry
  /-- FOREIGN_VOLTAGE -/
  foreignVoltage : FaultEntry
  /-- OPEN_PAIR -/
  openPair : FaultEntry
  /-- PERMANENT_LOOP -/
  permanentLoop : FaultEntry
  /-- decimation counter 0..7 -/
  decimation : Nat
deriving DecidableEq, Repr

/-- A line's detector status (R2). -/
inductive DetStatus
  | none
  | waiting
  | assigned (d : DetNo)
  | locked (d : DetNo)
deriving DecidableEq, Repr

/-- A LOOP measurement whose slot has begun and whose result is not yet handed on (R24). -/
structure LoopSlot where
  /-- the time stamp of the measurement (R20) -/
  stamp : Time
  /-- the feed mode of the slot (R24) -/
  feed : FeedMode
  /-- the mark VALID or DISCARD (R26) -/
  mark : Mark
deriving DecidableEq, Repr

/-! ### The line record (R2) -/

/-- The record of one line (R2), with the line's feed mode last sent (R36) and the LOOP measurement in progress on it (R24). -/
structure Line where
  /-- state -/
  state : LineState
  /-- loop condition -/
  loop : LoopCond
  /-- debounce run; the answer run while RINGING (R122) -/
  run : Option Run
  /-- acquire count 0..400 -/
  acquireCount : Nat
  /-- break start -/
  breakStart : Option Time
  /-- hang-up expiry -/
  hangupExpiry : Option Time
  /-- pulse counter 0..10 -/
  pulseCounter : Nat
  /-- pulse discard flag -/
  pulseDiscard : Bool
  /-- digit onset -/
  digitOnset : Option Time
  /-- last make start -/
  lastMakeStart : Option Time
  /-- interdigit expiry -/
  interdigitExpiry : Option Time
  /-- the interdigit expiry is held (R87); model's own -/
  interdigitHeld : Bool
  /-- first-digit expiry -/
  firstDigitExpiry : Option Time
  /-- Dial Record: the entries -/
  dialRecord : List DialEntry
  /-- Dial Record: the overflow marker -/
  overflow : Bool
  /-- baseline B 0..4095 -/
  baseline : Nat
  /-- last Im -/
  lastIm : Int
  /-- last Il -/
  lastIl : Int
  /-- last Mc 0..8191 -/
  lastMc : Nat
  /-- OVERRANGE flag -/
  overrange : Bool
  /-- recovery-discard flag -/
  recoveryDiscard : Bool
  /-- block reasons -/
  reasons : Reasons
  /-- subscription -/
  subscription : Subscription
  /-- timeslot, or NONE -/
  timeslot : Option Timeslot
  /-- detector status -/
  detStatus : DetStatus
  /-- ring phase -/
  ringPhase : Option RingPhase
  /-- ring phase expiry -/
  ringPhaseExpiry : Option Time
  /-- ring limit expiry -/
  ringLimitExpiry : Option Time
  /-- Fault Set -/
  faults : FaultSet
  /-- shadow slot, or none -/
  shadowSlot : Option ShadowNo
  /-- test feed mode, present only while HELD -/
  testFeed : Option TestFeed
  /-- the derived feed mode last sent on the link (Scan Engine, chapter 2; R36) -/
  sentMode : FeedMode
  /-- the LOOP measurement in progress on the line (R24); model's own -/
  measuring : Option LoopSlot
deriving DecidableEq, Repr

/-! ### Profile Store (R7, R11, R12) -/

/-- A profile: the 27 fields of R7, in its order. -/
structure Profile where
  /-- off-hook threshold on Mc -/
  tOn : Nat
  /-- on-hook threshold on Mc -/
  tOff : Nat
  /-- debounce count D -/
  debounce : Nat
  /-- ring-trip threshold on Mc -/
  tTrip : Nat
  /-- trip debounce -/
  tripDebounce : Nat
  /-- shortest pulse break, ms -/
  pbMin : Nat
  /-- longest pulse break, ms -/
  pbMax : Nat
  /-- shortest flash, ms -/
  flashMin : Nat
  /-- longest flash, ms -/
  flashMax : Nat
  /-- shortest hang-up break, ms -/
  hangupMin : Nat
  /-- interdigit time, ms -/
  interdigit : Nat
  /-- first digit timeout, s -/
  firstDigitTimeout : Nat
  /-- dial method -/
  dialMethod : DialMethod
  /-- auto detector -/
  autoDetector : Bool
  /-- ring phase length, ms -/
  ringOn : Nat
  /-- pause phase length, ms -/
  ringOff : Nat
  /-- ring limit, s -/
  ringMax : Nat
  /-- ground threshold on |Il| -/
  ground : Nat
  /-- short threshold on Im -/
  shortThr : Nat
  /-- leak ceiling on B -/
  leakCeiling : Nat
  /-- baseline shift k -/
  shift : Nat
  /-- foreign threshold, V -/
  foreign : Nat
  /-- open threshold, V -/
  openThr : Nat
  /-- confirm count -/
  confirm : Nat
  /-- clear count -/
  clear : Nat
  /-- auto block -/
  autoBlock : Bool
  /-- takeover -/
  takeover : Bool
deriving DecidableEq, Repr

/-- A range entry (R11). -/
structure RangeEntry where
  /-- first line -/
  first : LineNo
  /-- last line -/
  last : LineNo
  /-- profile -/
  profile : ProfileNo
  /-- enabled -/
  enabled : Bool
deriving DecidableEq, Repr

/-- The Profile Store: eight profiles, eight range entries, one override per line. -/
structure Store where
  /-- P0..P7 (R7) -/
  profiles : Vector Profile 8
  /-- range entries 0..7 (R11) -/
  ranges : Vector RangeEntry 8
  /-- overrides, unset or a profile (R12) -/
  overrides : Vector (Option ProfileNo) 64
deriving DecidableEq, Repr

/-! ### Tone Pool (R97) -/

/-- A detector's decision state, with the candidate (only in MUTE) and the release count (only in TONE). -/
inductive Decision
  /-- MUTE, and the candidate: a digit code and the start of the block that showed it. -/
  | mute (candidate : Option (DigitCode × Time))
  /-- TONE(code), and the release count 0..1. -/
  | tone (code : DigitCode) (release : Nat)
deriving DecidableEq, Repr

/-- A block whose ninety-sixth sample is taken and whose end is not yet taken (R100, R107). -/
structure EndedBlock where
  /-- the block start -/
  start : Time
  /-- a time unit of the block was emitted in FREE_RUN (R103) -/
  freeRun : Bool
deriving DecidableEq, Repr

/-- A tone detector (R97). -/
structure Detector where
  /-- line, or free -/
  line : Option LineNo
  /-- locked -/
  locked : Bool
  /-- used bit -/
  used : Bool
  /-- block start; absent while free -/
  blockStart : Option Time
  /-- samples taken in the block in progress, 0..95 -/
  sampleCount : Nat
  /-- decision state, candidate and release count -/
  decision : Decision
  /-- block discard mark -/
  discardMark : Bool
  /-- a time unit of the block in progress was emitted in FREE_RUN (R103); model's own -/
  freeRun : Bool
  /-- the linear samples of the block in progress, oldest first; none for a free unit's sample, which is of no account (R98) -/
  samples : List (Option Int)
  /-- the block end that is due and not yet taken (R107); model's own -/
  ended : Option EndedBlock
deriving DecidableEq, Repr

/-- The Tone Pool (R97). -/
structure TonePool where
  /-- d0..d15 -/
  detectors : Vector Detector 16
  /-- the Wait Queue, head first (R108) -/
  waitQueue : List LineNo
  /-- the companding law (R99) -/
  law : Law
  /-- the pool review counter: time units since the last 1600th one (R112) -/
  reviewCount : Nat
  /-- a review is due and not yet taken (R112); model's own -/
  reviewDue : Bool
deriving DecidableEq, Repr

/-! ### Scan Engine (chapter 2) and Sweep Unit (R135) -/

/-- Where an item came from (R27). -/
inductive Origin
  | test
  | sweep (n : SweepNo)
deriving DecidableEq, Repr

/-- An item in progress (R31). -/
structure Item where
  /-- line -/
  line : LineNo
  /-- kind -/
  kind : ItemKind
  /-- a test item, or the sweep whose item it is -/
  origin : Origin
  /-- the last slot of the item -/
  last : Nat
  /-- a slot of the item ran under another mode (R33) -/
  disturbed : Bool
  /-- a slot of the item ran under HIGH_Z, DIAG_UP or DIAG_DOWN (R25) -/
  transient : Bool
  /-- `disturbed` before the slot begun last, which a change at that slot's boundary makes again (R22) -/
  disturbedBefore : Bool
  /-- `transient` before the slot begun last -/
  transientBefore : Bool
deriving DecidableEq, Repr

/-- The Scan Engine's position and occupancy (chapter 2). -/
structure Scan where
  /-- the start time of the round (R20) -/
  roundStart : Time
  /-- the slot that starts next, 0..40 (R20) -/
  nextSlot : Nat
  /-- the round's battery sample is taken (R180) -/
  sampled : Bool
  /-- the item in progress on bank 0, which occupies the bank to its last slot (R31) -/
  item0 : Option Item
  /-- the item in progress on bank 1 -/
  item1 : Option Item
  /-- how many of the Test Queue's first items are fixed in the round's test part and not yet issued (R27) -/
  testPart : Nat
  /-- a request for an offer has ended with no offer in this round (R141) -/
  noOffer : Bool
deriving DecidableEq, Repr

/-- A sweep descriptor (R135). -/
structure Sweep where
  /-- kind -/
  kind : SweepKind
  /-- first line -/
  first : LineNo
  /-- count 1..64 -/
  count : Nat
  /-- step -/
  step : SweepStep
  /-- repeat -/
  rept : SweepRepeat
  /-- block length 1..64 -/
  blockLength : Nat
  /-- state -/
  state : SweepState
  /-- cursor 0..count−1 -/
  cursor : Nat
  /-- measured tally 0..64 -/
  measured : Nat
  /-- skipped tally 0..64 -/
  skipped : Nat
  /-- pass closing -/
  closing : Bool
  /-- items in progress 0..2 -/
  items : Nat
deriving DecidableEq, Repr

/-- An offer given to the Scan Engine that has not yet issued (R135, R140). -/
structure Offer where
  /-- the sweep -/
  sweep : SweepNo
  /-- the line of the visit -/
  line : LineNo
  /-- the kind -/
  kind : SweepKind
deriving DecidableEq, Repr

/-- The Sweep Unit (R135, R139). -/
structure SweepUnit where
  /-- S0..S3 -/
  sweeps : Vector Sweep 4
  /-- the sweep that holds the turn, or none -/
  holder : Option SweepNo
  /-- visits used in the turn 0..64 -/
  used : Nat
  /-- the last sweep served -/
  lastServed : SweepNo
  /-- the pending offer -/
  offer : Option Offer
deriving DecidableEq, Repr

/-! ### Test Access Unit (R157) -/

/-- What an occupied shadow slot holds (R157). -/
structure Shadow where
  /-- line number -/
  line : LineNo
  /-- stored state -/
  state : LineState
  /-- stored loop condition -/
  loop : LoopCond
  /-- stored Dial Record -/
  dialRecord : List DialEntry
  /-- its overflow marker -/
  overflow : Bool
  /-- stored Fault Set -/
  faults : FaultSet
  /-- stored baseline B -/
  baseline : Nat
deriving DecidableEq, Repr

/-- A test item of the Test Queue (R157). -/
structure TestItem where
  /-- line -/
  line : LineNo
  /-- kind -/
  kind : ItemKind
deriving DecidableEq, Repr

/-- The Test Access Unit (R157). -/
structure TestUnit where
  /-- shadow slots 0..3, free or occupied -/
  shadows : Vector (Option Shadow) 4
  /-- the Test Queue, oldest first, at most 8 items -/
  queue : List TestItem
deriving DecidableEq, Repr

/-! ### Time Base (R170, R171) and Battery Monitor (R180) -/

/-- An open calibration window (R177). -/
structure CalWindow where
  /-- internal cycles from its opening sync -/
  cycles : Nat
  /-- its good syncs 0..63 -/
  good : Nat
deriving DecidableEq, Repr

/-- The Time Base (R170, R171). -/
structure TimeBase where
  /-- the time-unit counter (R170) -/
  counter : Time
  /-- lock state -/
  lock : LockState
  /-- Cal, internal cycles per 64 frames -/
  cal : Nat
  /-- calibration status -/
  calStatus : CalStatus
  /-- there is a reference sync -/
  hasRef : Bool
  /-- cycles since the reference sync, g -/
  g : Nat
  /-- frame expected, n, 1..3 -/
  n : Nat
  /-- cycles since the last unit emitted, u -/
  u : Nat
  /-- phase accumulator 0..Cal−1 -/
  acc : Nat
  /-- relock run 0..64 -/
  relockRun : Nat
  /-- calibration window -/
  window : Option CalWindow
  /-- accepted counts: how many, 0..3 -/
  acceptedCount : Nat
  /-- accepted counts: their sum -/
  acceptedSum : Nat
  /-- the time value of the last good sync's paced unit, or of the relocking sync (R179) -/
  refTime : Time
  /-- the time unit in which the first good sync of the relock run arrived (R179) -/
  relockTime : Time
deriving DecidableEq, Repr

/-- A battery change run (R180). -/
structure ChangeRun where
  /-- count 1..7 -/
  count : Nat
  /-- run start time -/
  start : Time
deriving DecidableEq, Repr

/-- A change of feed state that is due and not yet taken (R180, R181). -/
structure FeedChange where
  /-- the class of the eighth sample -/
  cls : FeedState
  /-- its code -/
  code : Nat
  /-- the run start -/
  start : Time
deriving DecidableEq, Repr

/-- The Battery Monitor (R180). -/
structure Battery where
  /-- feed state -/
  feed : FeedState
  /-- lost limit, V -/
  lostLimit : Nat
  /-- low limit, V -/
  lowLimit : Nat
  /-- the change run, absent when its count is 0 -/
  run : Option ChangeRun
  /-- the eighth sample of a run is taken and its change is due (R181); model's own -/
  due : Option FeedChange
deriving DecidableEq, Repr

/-! ### Events and the journal (R190, R197, R198) -/

/-- The kind of a DIAL_ERROR (R198). -/
inductive DialErrorKind
  | invalidBreak (duration : Nat)
  | pulseAbort
  | pulseOvercount
  | recordFull
deriving DecidableEq, Repr

/-- The readings of a TEST_RESULT (R165, R198). -/
inductive TestReading
  | loop (it ir : Int) (b : Nat)
  | foreign (vtg vrg : Int)
  | diagUp (vtr : Int)
  | diagDown (vtr : Int)
deriving DecidableEq, Repr

/-- The item a PROFILE_CHANGED names (R14). -/
inductive StoreItem
  | profile (n : ProfileNo)
  | range (i : Fin 8)
  | override (l : LineNo)
deriving DecidableEq, Repr

/-- What an event reports: its kind with its payload (R197, R198). -/
inductive EventBody
  | initial (o : InitialOutcome)
  | seize (profile : ProfileNo)
  | hangup (decided : HangupBy)
  | flash (duration : Nat)
  | blockChanged (r : Reasons)
  | digit (code : DigitCode) (m : DigitMethod) (index : Option Nat)
  | dialError (k : DialErrorKind)
  | dialTimeout
  | toneUnavailable
  | ringTrip (phase : RingPhase)
  | ringTimeout
  | faultRaised (k : FaultKind)
  | faultCleared (k : FaultKind)
  | sweepDone (n : SweepNo) (kind : SweepKind) (measured skipped : Nat)
  | holdTaken (forced : Bool) (slot : ShadowNo) (stored : LineState)
  | holdReleased (m : ReleaseMode) (r : ReleaseReason) (after : LineState)
  | testResult (r : TestReading) (disturbed : Bool)
  | timebase (lock : LockState) (cal : CalStatus)
  | feed (f : FeedState) (code : Nat)
  | portAttached (p : Port) (before : PortState)
  | portLapsed (p : Port) (c : LapseCause)
  | takeover (p : Port) (moved : Nat)
  | profileChanged (writer : Port) (item : StoreItem)
deriving DecidableEq, Repr

/-- An event record (R197): line, or none for the device (255). -/
structure Event where
  /-- the line, or the device -/
  line : Option LineNo
  /-- condition time -/
  time : Time
  /-- quality -/
  quality : Quality
  /-- kind and payload -/
  body : EventBody
deriving DecidableEq, Repr

/-- A journal entry (R190). -/
structure Entry where
  /-- the event record -/
  event : Event
  /-- the ports that have yet to read it -/
  pend : PortSet
deriving DecidableEq, Repr

/-! ### Ports (R186) and feed-control links (R37) -/

/-- The record of one port (R186). -/
structure PortRec where
  /-- state -/
  state : PortState
  /-- window in ms, 500..8000 -/
  window : Nat
  /-- window expiry, present while ATTACHED -/
  expiry : Option Time
  /-- expected phase: false 0, true 1 -/
  phase : Bool
  /-- alert mask: bit c for alert class c (R194) -/
  alertMask : BitVec 6
  /-- gap count 0..65535 -/
  gap : Nat
  /-- response buffer -/
  response : List Byte
  /-- the bytes given on data out in the port's last transaction (R184) -/
  dataOut : List Byte
deriving DecidableEq, Repr

/-- What a feed-control command does with the Diagnostic Source (R37). DESIGN CHOICE (log 36): a connection carries no pull direction of its
own, as R37 names none; it is the item's kind that gives it (R28). -/
inductive SourceOrder
  | none
  | connect
  | disconnect
deriving DecidableEq, Repr

/-- A mode command on a feed-control link (R37). -/
structure LinkCommand where
  /-- the line's position in its bank -/
  position : Fin 32
  /-- the mode -/
  mode : FeedMode
  /-- the source connection that travels in the command -/
  source : SourceOrder
deriving DecidableEq, Repr

/-! ### The state -/

/-- The state of the LS64, and the queue of the commands that are waiting. -/
structure State where
  /-- the Line Table (R1) -/
  lines : Vector Line 64
  /-- the Profile Store -/
  store : Store
  /-- the Tone Pool -/
  pool : TonePool
  /-- the Scan Engine -/
  scan : Scan
  /-- the Sweep Unit -/
  sweep : SweepUnit
  /-- the Test Access Unit -/
  test : TestUnit
  /-- the Time Base -/
  tb : TimeBase
  /-- the Battery Monitor -/
  bat : Battery
  /-- the Event Journal, oldest entry first (R190) -/
  journal : List Entry
  /-- Port A -/
  portA : PortRec
  /-- Port B -/
  portB : PortRec
  /-- Port T -/
  portT : PortRec
  /-- the commands sent on feed-control link 0 since reset, oldest first (R37) -/
  link0 : List LinkCommand
  /-- the commands sent on feed-control link 1 since reset, oldest first -/
  link1 : List LinkCommand
  /-- the commands that are waiting, first in, first out -/
  pending : List Instr
deriving DecidableEq, Repr

/-! ### Stops -/

/-- The faults of a command. There is none: every command of the table has an effect in every state, so no meaning faults. -/
inductive Fault
deriving DecidableEq, Repr

/-- The refusals of a command. -/
inductive Refusal
  /-- Raised by the dispatch for a command without a meaning. No arm answers it: every row has its meaning. Safe. -/
  | notModelled (mnemonic : String)
deriving DecidableEq, Repr

/-! ### Reset (R2, R7, R11, R12, R38, R97, R135, R157, R171, R180, R186, R190) -/

/-- A fault entry after reset: CLEAR, count 0, no run start (R146). -/
def resetFaultEntry : FaultEntry := ⟨.clear, 0, none⟩

/-- A Fault Set after reset (R146). -/
def resetFaultSet : FaultSet :=
  ⟨resetFaultEntry, resetFaultEntry, resetFaultEntry, resetFaultEntry, resetFaultEntry, resetFaultEntry, resetFaultEntry, 0⟩

/-- A line record after reset (R2). -/
def resetLine : Line where
  state := .acquire
  loop := .unknown
  run := none
  acquireCount := 0
  breakStart := none
  hangupExpiry := none
  pulseCounter := 0
  pulseDiscard := false
  digitOnset := none
  lastMakeStart := none
  interdigitExpiry := none
  interdigitHeld := false
  firstDigitExpiry := none
  dialRecord := []
  overflow := false
  baseline := 0
  lastIm := 0
  lastIl := 0
  lastMc := 0
  overrange := false
  recoveryDiscard := false
  reasons := ⟨false, false⟩
  subscription := ⟨false, false⟩
  timeslot := none
  detStatus := .none
  ringPhase := none
  ringPhaseExpiry := none
  ringLimitExpiry := none
  faults := resetFaultSet
  shadowSlot := none
  testFeed := none
  sentMode := .normal
  measuring := none

/-- A profile after reset: the defaults of R7. -/
def resetProfile : Profile where
  tOn := 1000
  tOff := 700
  debounce := 4
  tTrip := 1500
  tripDebounce := 3
  pbMin := 20
  pbMax := 80
  flashMin := 100
  flashMax := 400
  hangupMin := 600
  interdigit := 250
  firstDigitTimeout := 15
  dialMethod := .both
  autoDetector := true
  ringOn := 1000
  ringOff := 4000
  ringMax := 60
  ground := 100
  shortThr := 6000
  leakCeiling := 400
  shift := 6
  foreign := 50
  openThr := 40
  confirm := 3
  clear := 3
  autoBlock := false
  takeover := true

/-- The Profile Store after reset (R7, R11, R12). -/
def resetStore : Store where
  profiles := Vector.replicate 8 resetProfile
  ranges := Vector.replicate 8 ⟨0, 63, 0, false⟩
  overrides := Vector.replicate 64 none

/-- A detector after reset: free (R97). -/
def resetDetector : Detector where
  line := none
  locked := false
  used := false
  blockStart := none
  sampleCount := 0
  decision := .mute none
  discardMark := false
  freeRun := false
  samples := []
  ended := none

/-- The Tone Pool after reset (R97). -/
def resetPool : TonePool where
  detectors := Vector.replicate 16 resetDetector
  waitQueue := []
  law := .lawA
  reviewCount := 0
  reviewDue := false

/-- The Scan Engine after reset (R38): a round at slot 0 in time unit 0, banks and source free. -/
def resetScan : Scan where
  roundStart := 0
  nextSlot := 0
  sampled := false
  item0 := none
  item1 := none
  testPart := 0
  noOffer := false

/-- A sweep descriptor after reset (R135). -/
def resetSweep : Sweep where
  kind := .foreign
  first := 0
  count := 64
  step := .up
  rept := .once
  blockLength := 8
  state := .idle
  cursor := 0
  measured := 0
  skipped := 0
  closing := false
  items := 0

/-- The Sweep Unit after reset (R135): no turn, last served S3, no offer. -/
def resetSweepUnit : SweepUnit where
  sweeps := Vector.replicate 4 resetSweep
  holder := none
  used := 0
  lastServed := 3
  offer := none

/-- The Test Access Unit after reset (R157). -/
def resetTestUnit : TestUnit where
  shadows := Vector.replicate 4 none
  queue := []

/-- The Time Base after reset (R170, R171). -/
def resetTimeBase : TimeBase where
  counter := 0
  lock := .freeRun
  cal := Config.calNominal
  calStatus := .nominal
  hasRef := false
  g := 0
  n := 1
  u := 0
  acc := 0
  relockRun := 0
  window := none
  acceptedCount := 0
  acceptedSum := 0
  refTime := 0
  relockTime := 0

/-- The Battery Monitor after reset (R180). -/
def resetBattery : Battery where
  feed := .lost
  lostLimit := 32
  lowLimit := 42
  run := none
  due := none

/-- A port after reset (R186); its response buffer holds the response of NOP (R184). -/
def resetPort : PortRec where
  state := .detached
  window := 500
  expiry := none
  phase := false
  alertMask := 0
  gap := 0
  response := [0x00, 0x00, 0x00]
  dataOut := []

/-- The commands a reset sends on each link: NORMAL to the 32 positions, in ascending order (R38). -/
def resetLink : List LinkCommand := (List.finRange 32).map (fun i => ⟨i, .normal, .none⟩)

/-- The machine right after reset, power-on or the RESET input (R2). -/
def State.reset : State where
  lines := Vector.replicate 64 resetLine
  store := resetStore
  pool := resetPool
  scan := resetScan
  sweep := resetSweepUnit
  test := resetTestUnit
  tb := resetTimeBase
  bat := resetBattery
  journal := []
  portA := resetPort
  portB := resetPort
  portT := resetPort
  link0 := resetLink
  link1 := resetLink
  pending := []

end Sys2Proof.Machine
end

