-- ==== Sys2Proof/Machine/Flags.lean ====
section
/-! DEFINITION. The levels, classes and verdicts of the LS64 that are computed from values and held nowhere: time comparisons,
the quality of the Time Base, its sync windows, the current arithmetic and the measurement classes, the baseline step, the bands
of a break, the verdicts of the fault observations, the classes of battery samples, alert classes, the block decision. -/

namespace Sys2Proof.Machine

/-! ### Time values (R170, spec/00_scope.md "Time differences") -/

/-- The time value `n` time units after `t`, modulo 2^32. -/
def timeAfter (t : Time) (n : Nat) : Time := t + BitVec.ofNat 32 n

/-- The time units from `a` to `b`, modulo 2^32. -/
def timeSince (a b : Time) : Nat := (b - a).toNat

/-- One time lies before another (R86): the second less the first, modulo 2^32, lies in 1..2^31−1. -/
def timeBefore (a b : Time) : Bool := decide (1 ≤ timeSince a b) && decide (timeSince a b < 2 ^ 31)

/-- The counter at `now` has reached the time `e` of a timer (R170); the difference is taken modulo 2^32, and an interval the part
measures is far shorter than half the wrap period. -/
def timeReached (now e : Time) : Bool := decide (timeSince e now < 2 ^ 31)

/-- An armed timer that has fallen due (R170). -/
def expiryDue (now : Time) (e : Option Time) : Bool :=
  match e with
  | some t => timeReached now t
  | none => false

/-- A profile time in milliseconds, in time units (R7). -/
def msUnits (ms : Nat) : Nat := ms * Config.unitsPerMs

/-- A profile time in seconds, in time units (R7). -/
def sUnits (s : Nat) : Nat := s * Config.unitsPerS

/-! ### Numbers -/

/-- A number kept in lo..hi. -/
def clampNat (lo hi x : Nat) : Nat := max lo (min hi x)

/-- An integer kept in lo..hi. -/
def clampInt (lo hi x : Int) : Int := max lo (min hi x)

/-- A current code as the converter gives it: beyond either end of its range, the end value (R39). -/
def currentCode (x : Int) : Int := clampInt (-8192) 8191 x

/-- A voltage code as the converter gives it (R28, R147). -/
def voltageCode (x : Int) : Int := clampInt (-2048) 2047 x

/-! ### Sets of ports (R190) -/

/-- The empty set of ports. -/
def noPorts : PortSet := ⟨false, false, false⟩

/-- The set holds no port. -/
def PortSet.isEmpty (q : PortSet) : Bool := !(q.a || q.b || q.t)

/-- A port is in the set. -/
def PortSet.has (q : PortSet) (p : Port) : Bool :=
  match p with
  | .a => q.a
  | .b => q.b
  | .t => q.t

/-- The set without one port. -/
def PortSet.without (q : PortSet) (p : Port) : PortSet :=
  match p with
  | .a => { q with a := false }
  | .b => { q with b := false }
  | .t => { q with t := false }

/-- The set of one port. -/
def onlyPort (p : Port) : PortSet := ⟨p = .a, p = .b, p = .t⟩

/-! ### Time Base (R171 to R179) -/

/-- The quality of an event written now (R179). -/
def qualityOf (tb : TimeBase) : Quality :=
  match tb.lock, tb.calStatus with
  | .locked, _ => .locked
  | .freeRun, .calibrated => .freeCal
  | .freeRun, .nominal => .freeNominal

/-- A sync is in window for frame `n`: |1024 × g − 16 × n × Cal| ≤ Cal (R171). -/
def inWindow (cal g n : Nat) : Bool := decide (1024 * g ≤ 16 * n * cal + cal) && decide (16 * n * cal ≤ 1024 * g + cal)

/-- The first count of cycles past the upper bound of the window for frame `n`: 1024 × g > (16 × n + 1) × Cal (R173). -/
def windowPassedAt (cal n : Nat) : Nat := (16 * n + 1) * cal / 1024 + 1

/-- The first count of cycles above floor(3 × Cal / 64) (R174). -/
def lossAt (cal : Nat) : Nat := 3 * cal / 64 + 1

/-- The cycles until the phase accumulator is at or above Cal (R175). -/
def cyclesToFreeUnit (cal acc : Nat) : Nat := (cal - acc + 63) / 64

/-- A calibration count is accepted (R178). -/
def countAccepted (c : Nat) : Bool := decide (Config.calMin ≤ c) && decide (c ≤ Config.calMax)

/-! ### Loop arithmetic (R39 to R41) and classes (R43, R44) -/

/-- OVERRANGE: a raw reading at an end of the converter's range (R39). -/
def isOverrange (it ir : Int) : Bool :=
  decide (it = -8192) || decide (it = 8191) || decide (ir = -8192) || decide (ir = 8191)

/-- Im: half the sum, rounded down (R40). -/
def metallic (it ir : Int) : Int := (it + ir) / 2

/-- Il: tip less ring (R40). -/
def longitudinal (it ir : Int) : Int := it - ir

/-- Mc: 8191 when OVERRANGE, else Im − B and 0 where that is below 0 (R41). -/
def compensated (ovr : Bool) (im : Int) (b : Nat) : Nat := if ovr then 8191 else (im - (b : Int)).toNat

/-- The class of a VALID measurement under feed NORMAL (R43). -/
def classNormal (tOn tOff mc : Nat) : MeasClass :=
  if tOn ≤ mc then .closed else if mc < tOff then .opened else .between

/-- The class of a VALID measurement under feed RING: the CLOSED test first (R44). -/
def classRing (tTrip tOff mc : Nat) : MeasClass :=
  if tTrip ≤ mc then .closed else if mc < tOff then .opened else .between

/-- The class of a measurement by the feed of its slot (R43, R44). -/
def classOf (p : Profile) (feed : FeedMode) (mc : Nat) : MeasClass :=
  if feed = .ring then classRing p.tTrip p.tOff mc else classNormal p.tOn p.tOff mc

/-- The direction a class counts toward, if any (R56). -/
def classDir (c : MeasClass) : Option LoopDir :=
  match c with
  | .opened => some .opened
  | .closed => some .closed
  | .between => none

/-- The loop condition a confirmed run gives (R57). -/
def condOf (d : LoopDir) : LoopCond :=
  match d with
  | .opened => .opened
  | .closed => .closed

/-- The baseline's step: the gap divided by 2^k and truncated toward zero, at least one code while there is a gap (R47). -/
def baselineStep (d : Int) (k : Nat) : Int :=
  let q : Int := if 0 ≤ d then d / (2 ^ k : Nat) else -((-d) / (2 ^ k : Nat))
  if q = 0 then (if 0 < d then 1 else if d < 0 then -1 else 0) else q

/-- The baseline after an update with Im (R47). -/
def nextBaseline (b : Nat) (im : Int) (k : Nat) : Nat :=
  (clampInt 0 4095 ((b : Int) + baselineStep (im - (b : Int)) k)).toNat

/-! ### Breaks (R68) -/

/-- The band of a break's duration (R68). -/
inductive Band
  | short
  | pulse
  | invalid
  | flash
  | hangup
deriving DecidableEq, Repr

/-- The band of a duration in time units (R68); both invalid bands have one outcome in each state (R69, R70). -/
def bandOf (p : Profile) (dur : Nat) : Band :=
  if dur < msUnits p.pbMin then .short
  else if dur ≤ msUnits p.pbMax then .pulse
  else if dur < msUnits p.flashMin then .invalid
  else if dur ≤ msUnits p.flashMax then .flash
  else if dur < msUnits p.hangupMin then .invalid
  else .hangup

/-! ### The Fault Set (R146 to R154) -/

/-- The entry of a kind. -/
def FaultSet.entry (f : FaultSet) (k : FaultKind) : FaultEntry :=
  match k with
  | .groundTip => f.groundTip
  | .groundRing => f.groundRing
  | .short => f.short
  | .leakage => f.leakage
  | .foreignVoltage => f.foreignVoltage
  | .openPair => f.openPair
  | .permanentLoop => f.permanentLoop

/-- The Fault Set with one entry replaced. -/
def FaultSet.setEntry (f : FaultSet) (k : FaultKind) (e : FaultEntry) : FaultSet :=
  match k with
  | .groundTip => { f with groundTip := e }
  | .groundRing => { f with groundRing := e }
  | .short => { f with short := e }
  | .leakage => { f with leakage := e }
  | .foreignVoltage => { f with foreignVoltage := e }
  | .openPair => { f with openPair := e }
  | .permanentLoop => { f with permanentLoop := e }

/-- The seven kinds, in order (R2). -/
def faultKinds : List FaultKind :=
  [.groundTip, .groundRing, .short, .leakage, .foreignVoltage, .openPair, .permanentLoop]

/-- The states in which a fault stands: PRESENT or EASING (R150). -/
def faultStands (e : FaultEntry) : Bool := e.state = .present || e.state = .easing

/-- One of GROUND_TIP, GROUND_RING, SHORT and FOREIGN_VOLTAGE stands (R154). -/
def isolatingFault (f : FaultSet) : Bool :=
  faultStands f.groundTip || faultStands f.groundRing || faultStands f.short || faultStands f.foreignVoltage

/-- An entry CLEAR with count 0 and no run start. -/
def clearEntry : FaultEntry := ⟨.clear, 0, none⟩

/-- An entry PRESENT with count 0 and no run start. -/
def presentEntry : FaultEntry := ⟨.present, 0, none⟩

/-- What counting one observation does to an entry, and the fault event it reports, if any: raised true, cleared false, with its
condition time (R150). `c` is the confirm count, `k` the clear count, `t` the observation's time stamp. -/
def countObservation (e : FaultEntry) (v : Verdict) (c k : Nat) (t : Time) : FaultEntry × Option (Bool × Time) :=
  match e.state, v with
  | .clear, .bad => if c ≤ 1 then (presentEntry, some (true, t)) else (⟨.suspect, 1, some t⟩, none)
  | .clear, .good => (e, none)
  | .suspect, .bad =>
    if c ≤ e.count + 1 then (presentEntry, some (true, e.runStart.getD t)) else (⟨.suspect, e.count + 1, e.runStart⟩, none)
  | .suspect, .good => (clearEntry, none)
  | .present, .bad => (e, none)
  | .present, .good => if k ≤ 1 then (clearEntry, some (false, t)) else (⟨.easing, 1, some t⟩, none)
  | .easing, .bad => (presentEntry, none)
  | .easing, .good =>
    if k ≤ e.count + 1 then (clearEntry, some (false, e.runStart.getD t)) else (⟨.easing, e.count + 1, e.runStart⟩, none)

/-- BAD when the condition holds. -/
def verdictOf (bad : Bool) : Verdict := if bad then .bad else .good

/-- The observations of the ground kinds (R50): none from an OVERRANGE sample. -/
def groundObservations (p : Profile) (ovr : Bool) (il : Int) : List (FaultKind × Verdict) :=
  if ovr then []
  else [(.groundTip, verdictOf (decide ((p.ground : Int) ≤ il))), (.groundRing, verdictOf (decide (il ≤ -(p.ground : Int))))]

/-- The observation of SHORT (R51). -/
def shortObservation (p : Profile) (ovr : Bool) (im : Int) : List (FaultKind × Verdict) :=
  [(.short, verdictOf (ovr || decide ((p.shortThr : Int) ≤ im)))]

/-- The observation of LEAKAGE, taken of an IDLE line only (R52). -/
def leakageObservation (p : Profile) (st : LineState) (b : Nat) : List (FaultKind × Verdict) :=
  if st = .idle then [(.leakage, verdictOf (decide (p.leakCeiling ≤ b)))] else []

/-- The observation of FOREIGN_VOLTAGE from Vtg and Vrg (R147). -/
def foreignObservation (p : Profile) (vtg vrg : Int) : List (FaultKind × Verdict) :=
  [(.foreignVoltage, verdictOf (decide (Config.codesPerVolt * p.foreign ≤ vtg.natAbs) || decide (Config.codesPerVolt * p.foreign ≤ vrg.natAbs)))]

/-- The observation of OPEN_PAIR from Vtr, compared as signed (R148). -/
def openPairObservation (p : Profile) (vtr : Int) : List (FaultKind × Verdict) :=
  [(.openPair, verdictOf (decide (((Config.codesPerVolt * p.openThr : Nat) : Int) ≤ vtr)))]

/-! ### Battery samples (R181) -/

/-- The class of a battery sample under the feed state in force (R181); limits in volts, 4 codes per volt. -/
def batteryClass (f : FeedState) (lostLimit lowLimit v : Nat) : FeedState :=
  let l := Config.codesPerVolt * lostLimit
  let w := Config.codesPerVolt * lowLimit
  match f with
  | .normal => if w ≤ v then .normal else if l ≤ v then .low else .lost
  | .low => if w + Config.hysteresis ≤ v then .normal else if l ≤ v then .low else .lost
  | .lost => if w + Config.hysteresis ≤ v then .normal else if l + Config.hysteresis ≤ v then .low else .lost

/-! ### Tone blocks (R98, R101, R102) -/

/-- The linear value of a highway byte under LAW_A (R98). -/
def expandA (x : Byte) : Int :=
  let c := x ^^^ 0x55
  let s := (c.toNat / 16) % 8
  let q := c.toNat % 16
  let m : Nat := if s = 0 then 2 * q + 1 else (2 * q + 33) * 2 ^ (s - 1)
  if c.msb then (m : Int) else -(m : Int)

/-- The linear value of a highway byte under LAW_MU (R98). -/
def expandMu (x : Byte) : Int :=
  let c := ~~~x
  let s := (c.toNat / 16) % 8
  let q := c.toNat % 16
  let m : Int := ((2 * q + 33) * 2 ^ s : Nat) - 33
  if c.msb then -m else m

/-- The linear value of a highway byte by the law in force (R98). -/
def expand (law : Law) (x : Byte) : Int :=
  match law with
  | .lawA => expandA x
  | .lawMu => expandMu x

/-- The energies held at the top of their range (R100). -/
def capEnergies (e : Energies) : Energies :=
  ⟨min e.f697 Config.energyMax, min e.f770 Config.energyMax, min e.f852 Config.energyMax, min e.f941 Config.energyMax,
   min e.f1209 Config.energyMax, min e.f1336 Config.energyMax, min e.f1477 Config.energyMax, min e.f1633 Config.energyMax,
   min e.total Config.energyMax⟩

/-- The largest of four energies and its place, and the second largest, which equals the largest at a tie (R101). -/
def topTwo (w x y z : Nat) : Nat × Fin 4 × Nat :=
  if x ≤ w ∧ y ≤ w ∧ z ≤ w then (w, 0, max x (max y z))
  else if y ≤ x ∧ z ≤ x then (x, 1, max w (max y z))
  else if z ≤ y then (y, 2, max w (max x z))
  else (z, 3, max w (max x y))

/-- Row and column of the keypad to the digit code (R102). -/
def keypad (row col : Fin 4) : DigitCode :=
  match row, col with
  | 0, 0 => 1
  | 0, 1 => 2
  | 0, 2 => 3
  | 0, 3 => 12
  | 1, 0 => 4
  | 1, 1 => 5
  | 1, 2 => 6
  | 1, 3 => 13
  | 2, 0 => 7
  | 2, 1 => 8
  | 2, 2 => 9
  | 2, 3 => 14
  | 3, 0 => 10
  | 3, 1 => 0
  | 3, 2 => 11
  | 3, 3 => 15

/-- Elo with its row and L2 (R101). -/
def lowTop (e : Energies) : Nat × Fin 4 × Nat := topTwo e.f697 e.f770 e.f852 e.f941

/-- Ehi with its column and H2 (R101). -/
def highTop (e : Energies) : Nat × Fin 4 × Nat := topTwo e.f1209 e.f1336 e.f1477 e.f1633

/-- Elo or Ehi reaches the floor, which sets the used bit (R104). -/
def aboveFloor (e : Energies) : Bool := decide (Config.energyFloor ≤ (lowTop e).1) || decide (Config.energyFloor ≤ (highTop e).1)

/-- The digit a block gives, or none for NONE: floor, dominance, twist and purity (R101), then the keypad (R102). -/
def blockDigit (e : Energies) : Option DigitCode :=
  let (elo, row, l2) := lowTop e
  let (ehi, col, h2) := highTop e
  if Config.energyFloor ≤ elo ∧ Config.energyFloor ≤ ehi ∧ 6 * l2 ≤ elo ∧ 6 * h2 ≤ ehi
      ∧ elo * 2 ≤ ehi * 5 ∧ ehi ≤ elo * 6 ∧ e.total * 5 ≤ (elo + ehi) * 8 then
    some (keypad row col)
  else none

/-! ### Event kinds and alert classes (R194, R197) -/

/-- The code of a measurement kind (R196). -/
def itemKindCode (k : ItemKind) : Nat :=
  match k with
  | .loop => 0
  | .foreign => 1
  | .diagUp => 2
  | .diagDown => 3

/-- The measurement kind of a test reading (R165). -/
def TestReading.kind (r : TestReading) : ItemKind :=
  match r with
  | .loop _ _ _ => .loop
  | .foreign _ _ => .foreign
  | .diagUp _ => .diagUp
  | .diagDown _ => .diagDown

/-- The kind value of an event (R197). -/
def kindValue (b : EventBody) : Nat :=
  match b with
  | .initial _ => 0x01
  | .seize _ => 0x02
  | .hangup _ => 0x03
  | .flash _ => 0x04
  | .blockChanged _ => 0x05
  | .digit _ _ _ => 0x10
  | .dialError _ => 0x11
  | .dialTimeout => 0x12
  | .toneUnavailable => 0x13
  | .ringTrip _ => 0x20
  | .ringTimeout => 0x21
  | .faultRaised _ => 0x30
  | .faultCleared _ => 0x31
  | .sweepDone _ _ _ _ => 0x32
  | .holdTaken _ _ _ => 0x40
  | .holdReleased _ _ _ => 0x41
  | .testResult r d => 0x44 + itemKindCode r.kind + (if d then 0x08 else 0)
  | .timebase _ _ => 0x50
  | .feed _ _ => 0x51
  | .portAttached _ _ => 0x52
  | .portLapsed _ _ => 0x53
  | .takeover _ _ => 0x54
  | .profileChanged _ _ => 0x55

/-- The alert class of an event: its kind value divided by 16, rounded down (R194). -/
def alertClass (b : EventBody) : Nat := kindValue b / 16

end Sys2Proof.Machine
end

