-- ==== Sys2Proof/Machine/Ops.lean ====
section
/-! DEFINITION. The named operations every block uses: reading and writing a line record, a profile, a port; writing an event to the
journal; deriving a line's feed mode and sending a change of it on the feed-control link. -/

namespace Sys2Proof.Machine

/-! ### The Line Table (R1) -/

/-- The record of a line. -/
def State.line (s : State) (l : LineNo) : Line := s.lines[l]

/-- The state with one line's record replaced. -/
def State.setLine (s : State) (l : LineNo) (r : Line) : State := { s with lines := s.lines.set l r }

/-- The state with one line's record changed by a function. -/
def State.modLine (s : State) (l : LineNo) (f : Line → Line) : State := s.setLine l (f (s.line l))

/-- The time unit in progress (R170). -/
def State.now (s : State) : Time := s.tb.counter

/-- Every line, in ascending order. -/
def allLines : List LineNo := List.finRange 64

/-- An operation on each line of a list in turn. -/
def forLines (ls : List LineNo) (f : LineNo → State → State) (s : State) : State := ls.foldl (fun s l => f l s) s

/-! ### The Profile Store (R13) -/

/-- A range entry that is enabled and covers a line (R13). -/
def covers (r : RangeEntry) (l : LineNo) : Bool := r.enabled && decide (r.first ≤ l) && decide (l ≤ r.last)

/-- The number of a line's effective profile: its override, else the lowest-numbered covering range entry, else P0 (R13). -/
def State.effectiveNo (s : State) (l : LineNo) : ProfileNo :=
  match s.store.overrides[l] with
  | some p => p
  | none =>
    match s.store.ranges.toList.find? (fun r => covers r l) with
    | some r => r.profile
    | none => 0

/-- A line's effective profile (R13). -/
def State.effective (s : State) (l : LineNo) : Profile := s.store.profiles[s.effectiveNo l]

/-! ### Ports (R186) -/

/-- The record of a port. -/
def State.port (s : State) (p : Port) : PortRec :=
  match p with
  | .a => s.portA
  | .b => s.portB
  | .t => s.portT

/-- The state with one port's record replaced. -/
def State.setPort (s : State) (p : Port) (r : PortRec) : State :=
  match p with
  | .a => { s with portA := r }
  | .b => { s with portB := r }
  | .t => { s with portT := r }

/-- The port is ATTACHED. -/
def State.attached (s : State) (p : Port) : Bool := (s.port p).state = .attached

/-- Port A or Port B. -/
def isController (p : Port) : Bool := p = .a || p = .b

/-- Every attached port (R190). -/
def State.attachedPorts (s : State) : PortSet := ⟨s.attached .a, s.attached .b, s.attached .t⟩

/-- Every attached controller port (R190). -/
def State.attachedControllers (s : State) : PortSet := ⟨s.attached .a, s.attached .b, false⟩

/-- The pending set of a line's event: its subscription and the attached controller ports (R3). -/
def State.linePorts (s : State) (l : LineNo) : PortSet :=
  ⟨(s.line l).subscription.a && s.attached .a, (s.line l).subscription.b && s.attached .b, false⟩

/-- The pending set of HOLD_TAKEN and HOLD_RELEASED: that of a line event, and Port T when it is attached (R3). -/
def State.holdPorts (s : State) (l : LineNo) : PortSet := { s.linePorts l with t := s.attached .t }

/-! ### The Event Journal (R190, R191) -/

/-- One more lost entry for a port; the count stays at its top (R191). -/
def bumpGap (r : PortRec) : PortRec := { r with gap := min (r.gap + 1) Config.gapMax }

/-- The gap counts raised for the ports of an evicted entry (R191). -/
def raiseGaps (q : PortSet) (s : State) : State :=
  { s with
    portA := if q.a then bumpGap s.portA else s.portA
    portB := if q.b then bumpGap s.portB else s.portB
    portT := if q.t then bumpGap s.portT else s.portT }

/-- A full journal loses its oldest entry before a write (R191). -/
def makeRoom (s : State) : State :=
  if Config.journalCapacity ≤ s.journal.length then
    match s.journal with
    | [] => s
    | e :: rest => { raiseGaps e.pend s with journal := rest }
  else s

/-- An event is written with a pending set, a line or the device, its condition time and its body; with an empty pending set it is
not written (R190). Its quality is that of the Time Base now (R179). -/
def writeEvent (q : PortSet) (line : Option LineNo) (t : Time) (body : EventBody) (s : State) : State :=
  if q.isEmpty then s
  else
    let s1 := makeRoom s
    { s1 with journal := s1.journal ++ [⟨⟨line, t, qualityOf s1.tb, body⟩, q⟩] }

/-- A line event of class HOOK, DIAL, RING or FAULT (R3). -/
def lineEvent (l : LineNo) (t : Time) (body : EventBody) (s : State) : State := writeEvent (s.linePorts l) (some l) t body s

/-- A device event to every attached port (R190). -/
def deviceEvent (t : Time) (body : EventBody) (s : State) : State := writeEvent s.attachedPorts none t body s

/-- A port is taken out of every pending set, and entries left with an empty set are freed (R186, R188). -/
def dropPort (p : Port) (s : State) : State :=
  { s with journal := (s.journal.map (fun e => { e with pend := e.pend.without p })).filter (fun e => !e.pend.isEmpty) }

/-- The entries pending for a port, oldest first. -/
def State.pendingFor (s : State) (p : Port) : List Entry := s.journal.filter (fun e => e.pend.has p)

/-- A port's cursor: the place of the oldest entry pending for it, or the tail (R186). -/
def State.cursor (s : State) (p : Port) : Nat := s.journal.findIdx (fun e => e.pend.has p)

/-- A port's ALERT output: asserted while it is ATTACHED and has a gap, or a pending entry of a class in its mask (R194). -/
def State.alert (s : State) (p : Port) : Bool :=
  s.attached p &&
    (decide (0 < (s.port p).gap) || (s.pendingFor p).any (fun e => (s.port p).alertMask.getLsbD (alertClass e.event.body)))

/-! ### Feed modes and the feed-control links (R35 to R37) -/

/-- A line's bank (R21). -/
def bankOf (l : LineNo) : Bank := if l.val < 32 then .zero else .one

/-- A line's position in its bank (R21). -/
def positionOf (l : LineNo) : Fin 32 := ⟨l.val % 32, Nat.mod_lt _ (by decide)⟩

/-- The item in progress on a bank. -/
def State.bankItem (s : State) (b : Bank) : Option Item :=
  match b with
  | .zero => s.scan.item0
  | .one => s.scan.item1

/-- The state with a bank's item in progress replaced. -/
def State.setBankItem (s : State) (b : Bank) (i : Option Item) : State :=
  match b with
  | .zero => { s with scan := { s.scan with item0 := i } }
  | .one => { s with scan := { s.scan with item1 := i } }

/-- The item in progress on a line, if any. -/
def State.itemOn (s : State) (l : LineNo) : Option Item := (s.bankItem (bankOf l)).filter (fun i => decide (i.line = l))

/-- The feed mode of an item's slots (R28). -/
def itemMode (k : ItemKind) : FeedMode :=
  match k with
  | .loop => .normal
  | .foreign => .highZ
  | .diagUp => .diagUp
  | .diagDown => .diagDown

/-- A test feed mode as a feed mode. -/
def testFeedMode (m : TestFeed) : FeedMode :=
  match m with
  | .normal => .normal
  | .highZ => .highZ
  | .diagUp => .diagUp
  | .diagDown => .diagDown

/-- Cases 3 to 5 of R35. -/
def State.plainMode (s : State) (l : LineNo) : FeedMode :=
  match s.itemOn l with
  | some ⟨_, k, .sweep _, _, _, _, _, _⟩ => itemMode k
  | _ => if (s.line l).state = .ringing ∧ (s.line l).ringPhase = some .ring then .ring else .normal

/-- The line is in foreign isolation: FOREIGN_VOLTAGE PRESENT under auto block (R35, R155). -/
def State.isolated (s : State) (l : LineNo) : Bool :=
  decide ((s.line l).faults.foreignVoltage.state = .present) && (s.effective l).autoBlock

/-- A HELD line's mode: its test item's during that item, else its test feed mode (R35 case 1). -/
def State.heldMode (s : State) (l : LineNo) : FeedMode :=
  match s.itemOn l with
  | some ⟨_, k, .test, _, _, _, _, _⟩ => itemMode k
  | _ => testFeedMode ((s.line l).testFeed.getD .highZ)

/-- The derived feed mode of a line (R35). -/
def State.derivedMode (s : State) (l : LineNo) : FeedMode :=
  if (s.line l).state = .held then s.heldMode l
  else if s.isolated l then .highZ
  else s.plainMode l

/-- A mode command goes out on the link of the line's bank (R37). -/
def sendCommand (l : LineNo) (m : FeedMode) (src : SourceOrder) (s : State) : State :=
  match bankOf l with
  | .zero => { s with link0 := s.link0 ++ [⟨positionOf l, m, src⟩] }
  | .one => { s with link1 := s.link1 ++ [⟨positionOf l, m, src⟩] }

/-- The mode a recomputation leaves: recorded as sent, and the recovery-discard flag set on a move to or from RING (R25). -/
def noteMode (m : FeedMode) (r : Line) : Line :=
  { r with sentMode := m, recoveryDiscard := r.recoveryDiscard || decide (r.sentMode ≠ m ∧ (r.sentMode = .ring ∨ m = .ring)) }

/-- The derived mode is recomputed with a source order: a command goes out when the mode differs from the one last sent, or when the
command carries a source order (R36, R37). -/
def recomputeFeedWith (src : SourceOrder) (l : LineNo) (s : State) : State :=
  let m := s.derivedMode l
  if m = (s.line l).sentMode ∧ src = .none then s
  else sendCommand l m src (s.modLine l (noteMode m))

/-- The derived mode of a line is recomputed (R36). -/
def recomputeFeed (l : LineNo) (s : State) : State := recomputeFeedWith .none l s

/-- A LOOP measurement in progress is to end at its last values: its mark becomes DISCARD (R42, R160). -/
def discardMeasuring (r : Line) : Line := { r with measuring := r.measuring.map (fun m => { m with mark := .discard }) }

/-- A LOOP measurement in progress under feed RING, of a line that leaves RINGING, ends at its last values (R42). -/
def discardRingMeasuring (r : Line) : Line :=
  { r with measuring := r.measuring.map (fun m => if m.feed = .ring then { m with mark := .discard } else m) }

/-- A LOOP slot begins on a line (R23, R25, R26): the flag is examined and cleared, and the measurement takes the slot's feed. -/
def beginMeasuring (stamp : Time) (feed : FeedMode) (lost : Bool) (r : Line) : Line :=
  { r with
    measuring := some ⟨stamp, feed, if r.recoveryDiscard || lost then .discard else .valid⟩
    recoveryDiscard := false }

/-- An expiry taken at the boundary at which the line's LOOP slot began changed the mode or the flag: the slot is made under the mode
that stands once the change is taken, and its measurement is the first after the change (R22, R124). Only a slot that begins with a
time unit, an even one, shares its boundary with an expiry. -/
def rebeginSlot (l : LineNo) (s : State) : State :=
  match (s.line l).measuring with
  | some m =>
    if m.stamp = s.now ∧ (positionOf l).val % 2 = 0 ∧ (s.line l).sentMode ≠ m.feed then
      s.modLine l (beginMeasuring m.stamp (s.line l).sentMode (decide (m.mark = .discard)))
    else s
  | none => s

end Sys2Proof.Machine
end

