-- ==== Sys2Proof/Machine/Pool.lean ====
section
/-! DEFINITION. The Tone Pool's shared operations (chapter 6): giving a detector to a line and taking it back, the Wait Queue, the
release causes, the samples of a time unit, and the pool review (R112 to R114). -/

namespace Sys2Proof.Machine

/-- The record of a detector. -/
def State.det (s : State) (d : DetNo) : Detector := s.pool.detectors[d]

/-- The state with one detector's record replaced. -/
def State.setDet (s : State) (d : DetNo) (r : Detector) : State :=
  { s with pool := { s.pool with detectors := s.pool.detectors.set d r } }

/-- The state with another Wait Queue. -/
def State.setQueue (s : State) (q : List LineNo) : State := { s with pool := { s.pool with waitQueue := q } }

/-- The state with a line's detector status replaced. -/
def State.setStatus (s : State) (l : LineNo) (d : DetStatus) : State := s.modLine l (fun r => { r with detStatus := d })

/-- Every detector, in ascending order. -/
def allDets : List DetNo := List.finRange 16

/-- The lowest-numbered free detector (R108). -/
def State.freeDet (s : State) : Option DetNo := allDets.find? (fun d => (s.det d).line.isNone)

/-- The number of detectors assigned, locked or not (R195). -/
def State.assignedCount (s : State) : Nat := (allDets.filter (fun d => (s.det d).line.isSome)).length

/-- The number of locked detectors (R116). -/
def State.lockedCount (s : State) : Nat := (allDets.filter (fun d => (s.det d).locked)).length

/-- The detector a line holds, if any. -/
def heldDet (st : DetStatus) : Option DetNo :=
  match st with
  | .assigned d => some d
  | .locked d => some d
  | .none => none
  | .waiting => none

/-- A detector newly assigned to a line in time unit `t`: used, in MUTE with no candidate, its first block at t + 1 (R109). -/
def freshDetector (l : LineNo) (lock : Bool) (t : Time) : Detector where
  line := some l
  locked := lock
  used := true
  blockStart := some (timeAfter t 1)
  sampleCount := 0
  decision := .mute none
  discardMark := false
  freeRun := false
  samples := []
  ended := none

/-- A free detector (R97, R110). -/
def freedDetector : Detector where
  line := none
  locked := false
  used := false
  blockStart := none
  sampleCount := 0
  decision := .mute none
  discardMark := false
  freeRun := false
  samples := []
  ended := none

/-- A detector is assigned to a line (R109). -/
def assignDet (d : DetNo) (l : LineNo) (lock : Bool) (s : State) : State :=
  (s.setDet d (freshDetector l lock s.now)).setStatus l (if lock then .locked d else .assigned d)

/-- A free detector is given to the line at the head of the Wait Queue, which leaves the queue (R110). -/
def handOn (d : DetNo) (s : State) : State :=
  match s.pool.waitQueue with
  | [] => s
  | l :: rest => assignDet d l false (s.setQueue rest)

/-- A detector is released from a line (R110). -/
def releaseDet (d : DetNo) (l : LineNo) (s : State) : State := handOn d ((s.setDet d freedDetector).setStatus l .none)

/-- A waiting line leaves the Wait Queue, wherever it stands (R110). -/
def leaveQueue (l : LineNo) (s : State) : State := (s.setQueue (s.pool.waitQueue.filter (fun x => decide (x ≠ l)))).setStatus l .none

/-- A release cause that keeps a locked detector (R111). -/
def releaseUnlocked (l : LineNo) (s : State) : State :=
  match (s.line l).detStatus with
  | .assigned d => releaseDet d l s
  | .waiting => leaveQueue l s
  | .locked _ => s
  | .none => s

/-- A release cause that takes every detector: HOLD, SET_TIMESLOT NONE (R111). -/
def releaseAny (l : LineNo) (s : State) : State :=
  match (s.line l).detStatus with
  | .assigned d => releaseDet d l s
  | .locked d => releaseDet d l s
  | .waiting => leaveQueue l s
  | .none => s

/-- A line asks for a detector: the lowest free one, else the tail of the Wait Queue (R108). -/
def requestDet (l : LineNo) (s : State) : State :=
  match s.freeDet with
  | some d => assignDet d l false s
  | none => (s.setQueue (s.pool.waitQueue ++ [l])).setStatus l .waiting

/-! ### Samples (R98, R100) -/

/-- What a time unit gives the detectors: the highway's bytes, or no frame (R98). -/
inductive UnitKind
  /-- emitted on a good frame sync -/
  | paced (frame : Vector Byte 128)
  /-- emitted in place of a missed sync: linear value 0 -/
  | flywheel
  /-- emitted in FREE_RUN: its samples are of no account -/
  | free

/-- The sample of a line's timeslot in a time unit (R98). -/
def sampleOf (k : UnitKind) (law : Law) (slot : Option Timeslot) : Option Int :=
  match k with
  | .paced frame => slot.map (fun i => expand law frame[i])
  | .flywheel => some 0
  | .free => none

/-- The time unit was emitted in FREE_RUN. -/
def isFreeUnit (k : UnitKind) : Bool :=
  match k with
  | .free => true
  | .paced _ => false
  | .flywheel => false

/-- An assigned detector takes one sample in time unit `t`; at the ninety-sixth the block ends, its end falls due, and the next block
begins with the time unit after (R100). -/
def takeSample (k : UnitKind) (law : Law) (slot : Option Timeslot) (t : Time) (r : Detector) : Detector :=
  if r.sampleCount + 1 = Config.blockSamples then
    { r with
      ended := some ⟨r.blockStart.getD t, r.freeRun || isFreeUnit k⟩
      blockStart := some (timeAfter t 1)
      sampleCount := 0
      freeRun := false
      samples := [] }
  else
    { r with
      sampleCount := r.sampleCount + 1
      freeRun := r.freeRun || isFreeUnit k
      samples := r.samples ++ [sampleOf k law slot] }

/-- Each assigned detector takes one sample of the time unit in progress (R98). -/
def sampleAll (k : UnitKind) (s : State) : State :=
  { s with
    pool := { s.pool with
      detectors := s.pool.detectors.map (fun r =>
        match r.line with
        | some l => takeSample k s.pool.law (s.line l).timeslot s.now r
        | none => r) } }

/-- The pool review counter counts a time unit of any kind; at the 1600th a review falls due (R112). DESIGN CHOICE (log 33): one review
is due at most; one that is not taken before the 1600th unit after it is merged with the review due then. -/
def countReview (p : TonePool) : TonePool :=
  if p.reviewCount + 1 = Config.reviewPeriod then { p with reviewCount := 0, reviewDue := true }
  else { p with reviewCount := p.reviewCount + 1 }

/-! ### Pool review (R112 to R114) -/

/-- A detector the review may take: unlocked, used bit clear, in MUTE, and assigned (R113). -/
def isVictim (r : Detector) : Bool :=
  r.line.isSome && !r.locked && !r.used &&
    match r.decision with
    | .mute _ => true
    | .tone _ _ => false

/-- The lowest-numbered victim with its line (R113). -/
def State.victim (s : State) : Option (DetNo × LineNo) :=
  match allDets.find? (fun d => isVictim (s.det d)) with
  | some d => (s.det d).line.map (fun v => (d, v))
  | none => none

/-- The victim leaves its line, which joins the tail of the Wait Queue, and goes to the line at the head (R113). -/
def evictDet (d : DetNo) (v : LineNo) (s : State) : State :=
  handOn d (((s.setDet d freedDetector).setStatus v .waiting).setQueue (s.pool.waitQueue ++ [v]))

/-- The used bit of every unlocked assigned detector is cleared (R114). -/
def clearUsedBits (s : State) : State :=
  { s with
    pool := { s.pool with
      detectors := s.pool.detectors.map (fun r => if r.line.isSome && !r.locked then { r with used := false } else r) } }

/-- What a review does: nothing on an empty queue, else an eviction, else the used bits cleared (R112 to R114). -/
def reviewPool (s : State) : State :=
  if s.pool.waitQueue = [] then s
  else
    match s.victim with
    | some (d, v) => evictDet d v s
    | none => clearUsedBits s

/-- POOL_REVIEW (R112): the review that is due is taken; where none is due, nothing is taken. -/
def execPoolReview (s : State) : Host.Outcome State Fault Refusal :=
  if s.pool.reviewDue then .next (reviewPool { s with pool := { s.pool with reviewDue := false } })
  else .next s

end Sys2Proof.Machine
end

