-- ==== Sys2Proof/Machine/Operands.lean ====
section
/-! DEFINITION. What crosses the ports: the byte codings of R196, the event record (R197, R198), the line report and the profile form
(R199), the status report (R195), and the frame every request is served in (R184, R185). -/

namespace Sys2Proof.Machine

/-! ### Numbers as bytes (R196) -/

/-- A number in one byte. -/
def byteOf (n : Nat) : Byte := BitVec.ofNat 8 n

/-- A number in two bytes, most significant first. -/
def bytes2 (n : Nat) : List Byte := [byteOf (n / 256), byteOf n]

/-- A number in three bytes, most significant first. -/
def bytes3 (n : Nat) : List Byte := [byteOf (n / 65536), byteOf (n / 256), byteOf n]

/-- A number in four bytes, most significant first. -/
def bytes4 (n : Nat) : List Byte := [byteOf (n / 16777216), byteOf (n / 65536), byteOf (n / 256), byteOf n]

/-- A signed number in two bytes, two's complement. -/
def signed2 (x : Int) : List Byte := bytes2 (BitVec.ofInt 16 x).toNat

/-- A two-byte unsigned number at a place of a payload. -/
def word2 (pl : List Byte) (i : Nat) : Nat := (pl.getD i 0).toNat * 256 + (pl.getD (i + 1) 0).toNat

/-! ### Enumerations as bytes (R196) -/

/-- The code of a line state. -/
def stateCode (x : LineState) : Nat :=
  match x with
  | .acquire => 0
  | .idle => 1
  | .ringing => 2
  | .dialling => 3
  | .talk => 4
  | .blocked => 5
  | .held => 6

/-- The code of a loop condition. -/
def loopCode (x : LoopCond) : Nat :=
  match x with
  | .unknown => 0
  | .opened => 1
  | .closed => 2

/-- The code of a fault kind. -/
def faultKindCode (x : FaultKind) : Nat :=
  match x with
  | .groundTip => 0
  | .groundRing => 1
  | .short => 2
  | .leakage => 3
  | .foreignVoltage => 4
  | .openPair => 5
  | .permanentLoop => 6

/-- The code of a fault state. -/
def faultStateCode (x : FaultState) : Nat :=
  match x with
  | .clear => 0
  | .suspect => 1
  | .present => 2
  | .easing => 3

/-- The code of a port. -/
def portCode (x : Port) : Nat :=
  match x with
  | .a => 0
  | .b => 1
  | .t => 2

/-- The code of a port state. -/
def portStateCode (x : PortState) : Nat :=
  match x with
  | .detached => 0
  | .attached => 1
  | .lapsed => 2

/-- The code of a lock state. -/
def lockCode (x : LockState) : Nat :=
  match x with
  | .freeRun => 0
  | .locked => 1

/-- The code of a calibration status. -/
def calCode (x : CalStatus) : Nat :=
  match x with
  | .nominal => 0
  | .calibrated => 1

/-- The code of a quality. -/
def qualityCode (x : Quality) : Nat :=
  match x with
  | .locked => 0
  | .freeCal => 1
  | .freeNominal => 2

/-- The code of a feed state. -/
def feedCode (x : FeedState) : Nat :=
  match x with
  | .normal => 0
  | .low => 1
  | .lost => 2

/-- The measurement kind of a sweep kind. -/
def sweepKindCode (x : SweepKind) : Nat :=
  match x with
  | .foreign => 1
  | .diagUp => 2
  | .diagDown => 3

/-- The code of a sweep state. -/
def sweepStateCode (x : SweepState) : Nat :=
  match x with
  | .idle => 0
  | .active => 1
  | .paused => 2

/-- The code of a release mode. -/
def releaseModeCode (x : ReleaseMode) : Nat :=
  match x with
  | .restore => 0
  | .fresh => 1

/-- The code of a dial method. -/
def dialMethodCode (x : DialMethod) : Nat :=
  match x with
  | .pulse => 0
  | .tone => 1
  | .both => 2

/-- The code of yes and no. -/
def yesCode (b : Bool) : Nat := if b then 1 else 0

/-- The code of a ring phase, 255 when absent. -/
def phaseCode (x : Option RingPhase) : Nat :=
  match x with
  | some .ring => 0
  | some .pause => 1
  | none => 255

/-- The code of a digit method. -/
def digitMethodCode (x : DigitMethod) : Nat :=
  match x with
  | .pulse => 0
  | .tone => 1

/-- The code of a detector status. -/
def detStatusCode (x : DetStatus) : Nat :=
  match x with
  | .assigned d => d.val
  | .locked d => 16 + d.val
  | .waiting => 32
  | .none => 255

/-- A set of block reasons as a bit map. -/
def reasonBits (r : Reasons) : Nat := yesCode r.controller + 2 * yesCode r.fault

/-- A subscription as a bit map. -/
def subscriptionBits (q : Subscription) : Nat := yesCode q.a + 2 * yesCode q.b

/-- Yes or no from a byte. -/
def yesOf (b : Byte) : Option Bool :=
  match b.toNat with
  | 0 => some false
  | 1 => some true
  | _ => none

/-- A dial method from a byte. -/
def dialMethodOf (b : Byte) : Option DialMethod :=
  match b.toNat with
  | 0 => some .pulse
  | 1 => some .tone
  | 2 => some .both
  | _ => none

/-- A sweep kind from a byte; LOOP is outside the sweep kinds (R196). -/
def sweepKindOf (b : Byte) : Option SweepKind :=
  match b.toNat with
  | 1 => some .foreign
  | 2 => some .diagUp
  | 3 => some .diagDown
  | _ => none

/-- A sweep step from a byte. -/
def sweepStepOf (b : Byte) : Option SweepStep :=
  match b.toNat with
  | 0 => some .up
  | 1 => some .down
  | 2 => some .fixed
  | _ => none

/-- A sweep repeat from a byte. -/
def sweepRepeatOf (b : Byte) : Option SweepRepeat :=
  match b.toNat with
  | 0 => some .once
  | 1 => some .cyclic
  | _ => none

/-- A measurement kind from a byte. -/
def itemKindOf (b : Byte) : Option ItemKind :=
  match b.toNat with
  | 0 => some .loop
  | 1 => some .foreign
  | 2 => some .diagUp
  | 3 => some .diagDown
  | _ => none

/-- A release mode from a byte. -/
def releaseModeOf (b : Byte) : Option ReleaseMode :=
  match b.toNat with
  | 0 => some .restore
  | 1 => some .fresh
  | _ => none

/-- A start mode from a byte: true is REWIND (R137). -/
def rewindOf (b : Byte) : Option Bool :=
  match b.toNat with
  | 0 => some true
  | 1 => some false
  | _ => none

/-- A law from a byte. -/
def lawOf (b : Byte) : Option Law :=
  match b.toNat with
  | 0 => some .lawA
  | 1 => some .lawMu
  | _ => none

/-- A test feed mode from the selector and the flags byte, pull-up in bit 0 and pull-down in bit 1 (R163, R185). -/
def testFeedOf (selector flags : Byte) : Option TestFeed :=
  match selector.toNat with
  | 0 => some .normal
  | 1 => some .highZ
  | 2 => if flags.getLsbD 0 then some .diagUp else if flags.getLsbD 1 then some .diagDown else none
  | _ => none

/-- A subscription from a byte: one of the four subsets (R4). -/
def subscriptionOf (b : Byte) : Option Subscription :=
  match b.toNat with
  | 0 => some ⟨false, false⟩
  | 1 => some ⟨true, false⟩
  | 2 => some ⟨false, true⟩
  | 3 => some ⟨true, true⟩
  | _ => none

/-! ### Event records (R197, R198) -/

/-- The payload bytes of an outcome of INITIAL. -/
def initialCode (o : InitialOutcome) : Nat :=
  match o with
  | .opened => 0
  | .closed => 1
  | .unstable => 2

/-- The code of what decided a HANGUP. -/
def hangupCode (h : HangupBy) : Nat :=
  match h with
  | .expiry => 0
  | .make => 1

/-- The payload of a DIAL_ERROR. -/
def dialErrorBytes (k : DialErrorKind) : List Byte :=
  match k with
  | .invalidBreak d => byteOf 0 :: bytes2 d
  | .pulseAbort => [byteOf 1]
  | .pulseOvercount => [byteOf 2]
  | .recordFull => [byteOf 3]

/-- The payload of a TEST_RESULT; a LOOP result is one 40-bit value, It in the top 14 bits, Ir in the next 14, B in the low 12. -/
def testReadingBytes (r : TestReading) : List Byte :=
  match r with
  | .loop it ir b =>
    let v : BitVec 40 := BitVec.ofInt 14 it ++ BitVec.ofInt 14 ir ++ BitVec.ofNat 12 b
    byteOf (v.toNat / 4294967296) :: bytes4 v.toNat
  | .foreign vtg vrg => signed2 vtg ++ signed2 vrg
  | .diagUp vtr => signed2 vtr
  | .diagDown vtr => signed2 vtr

/-- The payload of a PROFILE_CHANGED. -/
def storeItemBytes (i : StoreItem) : List Byte :=
  match i with
  | .profile n => [byteOf 0, byteOf n.val]
  | .range n => [byteOf 1, byteOf n.val]
  | .override l => [byteOf 2, byteOf l.val]

/-- The payload bytes of an event, before the unused bytes (R198). -/
def payloadBytes (b : EventBody) : List Byte :=
  match b with
  | .initial o => [byteOf (initialCode o)]
  | .seize n => [byteOf n.val]
  | .hangup h => [byteOf (hangupCode h)]
  | .flash d => bytes2 d
  | .blockChanged r => [byteOf (reasonBits r)]
  | .digit c m i => [byteOf c.val, byteOf (digitMethodCode m), byteOf (i.getD 255)]
  | .dialError k => dialErrorBytes k
  | .dialTimeout => []
  | .toneUnavailable => []
  | .ringTrip p => [byteOf (phaseCode (some p))]
  | .ringTimeout => []
  | .faultRaised k => [byteOf (faultKindCode k)]
  | .faultCleared k => [byteOf (faultKindCode k)]
  | .sweepDone n k m x => [byteOf n.val, byteOf (sweepKindCode k), byteOf m, byteOf x]
  | .holdTaken f n st => [byteOf (yesCode f), byteOf n.val, byteOf (stateCode st)]
  | .holdReleased m r st =>
    [byteOf (releaseModeCode m), byteOf (match r with | .request => 0 | .lapse => 1), byteOf (stateCode st)]
  | .testResult r _ => testReadingBytes r
  | .timebase k c => [byteOf (lockCode k), byteOf (calCode c)]
  | .feed f v => byteOf (feedCode f) :: bytes2 v
  | .portAttached p st => [byteOf (portCode p), byteOf (portStateCode st)]
  | .portLapsed p c => [byteOf (portCode p), byteOf (match c with | .lapse => 0 | .detach => 1)]
  | .takeover p n => [byteOf (portCode p), byteOf n]
  | .profileChanged w i => byteOf (portCode w) :: storeItemBytes i

/-- A list of bytes brought to `n` bytes with zeros. -/
def padTo (n : Nat) (bs : List Byte) : List Byte := (List.range n).map (fun i => bs.getD i 0)

/-- A line field: the line number, or 255 for the device (R196). -/
def lineByte (l : Option LineNo) : Byte :=
  match l with
  | some l => byteOf l.val
  | none => byteOf 255

/-- The 12 bytes of an event record (R197). -/
def eventBytes (e : Event) : List Byte :=
  byteOf (kindValue e.body) :: lineByte e.line :: (bytes4 e.time.toNat ++ (byteOf (qualityCode e.quality) :: padTo 5 (payloadBytes e.body)))

/-- The 12 bytes of a GAP record (R192, R197). -/
def gapBytes (now : Time) (q : Quality) (n : Nat) : List Byte :=
  byteOf 0x7F :: byteOf 255 :: (bytes4 now.toNat ++ (byteOf (qualityCode q) :: padTo 5 (bytes2 n)))

/-! ### The line report (R199) -/

/-- The digit code of entry `i`, 0 beyond the last. -/
def digitAt (ds : List DialEntry) (i : Nat) : Nat :=
  match ds[i]? with
  | some e => e.code.val
  | none => 0

/-- Entry `i` was dialled by tone. -/
def toneAt (ds : List DialEntry) (i : Nat) : Nat :=
  match ds[i]? with
  | some e => digitMethodCode e.method
  | none => 0

/-- The byte of the method map that starts at entry `8j`. -/
def methodByte (ds : List DialEntry) (j : Nat) : Byte :=
  byteOf ((List.range 8).foldl (fun n k => n + toneAt ds (8 * j + k) * 2 ^ k) 0)

/-- The byte of a fault entry: state × 16 + count. -/
def faultByte (e : FaultEntry) : Byte := byteOf (faultStateCode e.state * 16 + e.count)

/-- A timeslot, or 255 for NONE. -/
def timeslotByte (t : Option Timeslot) : Byte :=
  match t with
  | some n => byteOf n.val
  | none => byteOf 255

/-- The 40 bytes of the line report (R19, R199). DESIGN CHOICE (log 34): bits 13 and 14 of bytes 15 to 16 and bits 5 and 6 of byte 24, for
which R199 gives no value, are 0. -/
def lineReport (l : LineNo) (s : State) : List Byte :=
  let r := s.line l
  [byteOf l.val, byteOf (stateCode r.state), byteOf (loopCode r.loop), byteOf (s.effectiveNo l).val, byteOf (reasonBits r.reasons),
    byteOf (subscriptionBits r.subscription), timeslotByte r.timeslot, byteOf (detStatusCode r.detStatus), byteOf (phaseCode r.ringPhase)]
  ++ bytes2 r.baseline ++ signed2 r.lastIm ++ signed2 r.lastIl
  ++ bytes2 (r.lastMc % 8192 + 32768 * yesCode r.overrange)
  ++ faultKinds.map (fun k => faultByte (r.faults.entry k))
  ++ [byteOf (r.dialRecord.length % 32 + 128 * yesCode r.overflow)]
  ++ (List.range 12).map (fun i => byteOf (16 * digitAt r.dialRecord (2 * i) + digitAt r.dialRecord (2 * i + 1)))
  ++ (List.range 3).map (methodByte r.dialRecord)

/-! ### The profile form (R199) and the writing of a profile (R8, R9) -/

/-- The 50 bytes of a profile. -/
def profileForm (p : Profile) : List Byte :=
  bytes2 p.tOn ++ bytes2 p.tOff ++ bytes2 p.debounce ++ bytes2 p.tTrip ++ bytes2 p.tripDebounce ++ bytes2 p.pbMin ++ bytes2 p.pbMax
  ++ bytes2 p.flashMin ++ bytes2 p.flashMax ++ bytes2 p.hangupMin ++ bytes2 p.interdigit ++ bytes2 p.firstDigitTimeout
  ++ [byteOf (dialMethodCode p.dialMethod), byteOf (yesCode p.autoDetector)]
  ++ bytes2 p.ringOn ++ bytes2 p.ringOff ++ bytes2 p.ringMax ++ bytes2 p.ground ++ bytes2 p.shortThr ++ bytes2 p.leakCeiling
  ++ bytes2 p.shift ++ bytes2 p.foreign ++ bytes2 p.openThr ++ bytes2 p.confirm ++ bytes2 p.clear
  ++ [byteOf (yesCode p.autoBlock), byteOf (yesCode p.takeover)]

/-- The fields of a profile form as sent, or none when an enumerated field is outside its enumeration (R8 step 2). -/
def profileOf (f : List Byte) : Option Profile :=
  match dialMethodOf (f.getD 24 0), yesOf (f.getD 25 0), yesOf (f.getD 48 0), yesOf (f.getD 49 0) with
  | some dm, some ad, some ab, some tk =>
    some
      { tOn := word2 f 0, tOff := word2 f 2, debounce := word2 f 4, tTrip := word2 f 6, tripDebounce := word2 f 8,
        pbMin := word2 f 10, pbMax := word2 f 12, flashMin := word2 f 14, flashMax := word2 f 16, hangupMin := word2 f 18,
        interdigit := word2 f 20, firstDigitTimeout := word2 f 22, dialMethod := dm, autoDetector := ad,
        ringOn := word2 f 26, ringOff := word2 f 28, ringMax := word2 f 30, ground := word2 f 32, shortThr := word2 f 34,
        leakCeiling := word2 f 36, shift := word2 f 38, foreign := word2 f 40, openThr := word2 f 42, confirm := word2 f 44,
        clear := word2 f 46, autoBlock := ab, takeover := tk }
  | _, _, _, _ => none

/-- Each numeric field clamped to its own range (R7, R8 step 3). -/
def clampProfile (p : Profile) : Profile :=
  { p with
    tOn := clampNat 50 4000 p.tOn
    tOff := clampNat 20 3990 p.tOff
    debounce := clampNat 1 15 p.debounce
    tTrip := clampNat 100 6000 p.tTrip
    tripDebounce := clampNat 1 15 p.tripDebounce
    pbMin := clampNat 10 60 p.pbMin
    pbMax := clampNat 30 120 p.pbMax
    flashMin := clampNat 60 400 p.flashMin
    flashMax := clampNat 80 1000 p.flashMax
    hangupMin := clampNat 150 2000 p.hangupMin
    interdigit := clampNat 100 800 p.interdigit
    firstDigitTimeout := clampNat 2 60 p.firstDigitTimeout
    ringOn := clampNat 200 3000 p.ringOn
    ringOff := clampNat 200 6000 p.ringOff
    ringMax := clampNat 5 300 p.ringMax
    ground := clampNat 10 2000 p.ground
    shortThr := clampNat 2000 8191 p.shortThr
    leakCeiling := clampNat 10 4095 p.leakCeiling
    shift := clampNat 2 10 p.shift
    foreign := clampNat 5 250 p.foreign
    openThr := clampNat 5 55 p.openThr
    confirm := clampNat 1 15 p.confirm
    clear := clampNat 1 15 p.clear }

/-- The numeric fields of a profile, each with its place in R7, counting t_on as 0. -/
def numericFields (p : Profile) : List (Nat × Nat) :=
  [(0, p.tOn), (1, p.tOff), (2, p.debounce), (3, p.tTrip), (4, p.tripDebounce), (5, p.pbMin), (6, p.pbMax), (7, p.flashMin),
   (8, p.flashMax), (9, p.hangupMin), (10, p.interdigit), (11, p.firstDigitTimeout), (14, p.ringOn), (15, p.ringOff), (16, p.ringMax),
   (17, p.ground), (18, p.shortThr), (19, p.leakCeiling), (20, p.shift), (21, p.foreign), (22, p.openThr), (23, p.confirm),
   (24, p.clear)]

/-- The clamped-field map of a profile write: bit i for each field that clamping changed (R8, R199). -/
def clampedMap (sent stored : Profile) : Nat :=
  ((numericFields sent).zip (numericFields stored)).foldl (fun n x => if x.1.2 = x.2.2 then n else n + 2 ^ x.1.1) 0

/-- The ordering constraints of a profile (R9). -/
def profileOrdered (p : Profile) : Bool :=
  decide (p.tOff < p.tOn) && decide (p.pbMin < p.pbMax) && decide (p.pbMax < p.flashMin) && decide (p.flashMin ≤ p.flashMax) &&
    decide (p.flashMax < p.hangupMin) && decide (p.pbMax < p.interdigit)

/-! ### The status report (R195) -/

/-- The number of HELD lines. -/
def State.heldCount (s : State) : Nat := (allLines.filter (fun l => decide ((s.line l).state = .held))).length

/-- The 23 bytes of the status report, as the port `p` reads it (R195). -/
def statusReport (p : Port) (s : State) : List Byte :=
  [byteOf (lockCode s.tb.lock)] ++ bytes3 s.tb.cal ++ [byteOf (calCode s.tb.calStatus), byteOf (feedCode s.bat.feed)]
  ++ bytes2 s.journal.length
  ++ [byteOf (portStateCode s.portA.state), byteOf (portStateCode s.portB.state), byteOf (portStateCode s.portT.state)]
  ++ s.sweep.sweeps.toList.map (fun w => byteOf (sweepStateCode w.state))
  ++ [byteOf s.heldCount, byteOf s.assignedCount, byteOf s.lockedCount, byteOf s.pool.waitQueue.length]
  ++ bytes2 (s.port p).gap
  ++ bytes2 (if s.attached p then (s.pendingFor p).length else 0)

/-! ### Serving a request (R184, R185) -/

/-- The status of a response (R196). -/
inductive Status
  | ok
  | badCode
  | badLength
  | badLine
  | notPermitted
  | notAttached
  | phaseOrder
  | wrongState
  | lineBusy
  | noShadow
  | notHeld
  | queueFull
  | badProfile
  | badRange
  | slotInUse
  | noDetector
  | lockLimit
  | feedLow
  | sweepActive
deriving DecidableEq, Repr

/-- The status byte (R196). -/
def statusByte (x : Status) : Byte :=
  match x with
  | .ok => 0x00
  | .badCode => 0x01
  | .badLength => 0x02
  | .badLine => 0x03
  | .notPermitted => 0x04
  | .notAttached => 0x05
  | .phaseOrder => 0x06
  | .wrongState => 0x07
  | .lineBusy => 0x08
  | .noShadow => 0x09
  | .notHeld => 0x0A
  | .queueFull => 0x0B
  | .badProfile => 0x0C
  | .badRange => 0x0D
  | .slotInUse => 0x0E
  | .noDetector => 0x0F
  | .lockLimit => 0x10
  | .feedLow => 0x11
  | .sweepActive => 0x12

/-- What a request's own rule answers: its status, its response payload, and the state it leaves. -/
structure Reply where
  /-- status -/
  status : Status
  /-- response payload -/
  payload : List Byte
  /-- the state after -/
  state : State

/-- A refusal, which changes nothing. -/
def deny (st : Status) (s : State) : Reply := ⟨st, [], s⟩

/-- A request answered OK without a payload. -/
def accept (s : State) : Reply := ⟨.ok, [], s⟩

/-- The ports a request belongs to (R185). -/
inductive Access
  | all
  | controllers
  | test
deriving DecidableEq, Repr

/-- A port may send a request of this access (R185 step 3). -/
def permitted (p : Port) (a : Access) : Bool :=
  match a with
  | .all => true
  | .controllers => isController p
  | .test => decide (p = .t)

/-- The codes a port may send in every state: NOP, ATTACH and READ_STATUS (R185 step 4). -/
def openCode (code : Byte) : Bool := decide (code = 0x00) || decide (code = 0x01) || decide (code = 0x06)

/-- The bytes given on data out in a transaction of `n` bytes: the buffered response, then 0x00; 0x00 beyond the 64th (R184). -/
def shiftOut (response : List Byte) (n : Nat) : List Byte := padTo n (response.take Config.transactionMax)

/-- A response replaces the contents of the port's response buffer (R184, R185). -/
def respond (p : Port) (code : Byte) (st : Status) (payload : List Byte) (s : State) : State :=
  s.setPort p { s.port p with response := statusByte st :: code :: byteOf payload.length :: payload }

/-- The bytes given on data out are recorded (R184). -/
def recordOut (p : Port) (n : Nat) (s : State) : State :=
  s.setPort p { s.port p with dataOut := shiftOut (s.port p).response n }

/-- A request's payload, when its length byte is the table's and its bytes are all there (R185 step 2); the bytes of a transaction
beyond the 64th are not taken (R184). -/
def framePayload (len : Nat) (tail : List Byte) : Option (List Byte) :=
  match tail.take (Config.transactionMax - 1) with
  | [] => none
  | l :: rest => if l.toNat = len ∧ len ≤ rest.length then some (rest.take len) else none

/-- The checks of R185 steps 2 to 4, and then the request's own rule. -/
def judge (p : Port) (code : Byte) (len : Nat) (a : Access) (tail : List Byte) (body : List Byte → State → Reply) (s : State) : Reply :=
  match framePayload len tail with
  | none => deny .badLength s
  | some pl =>
    if permitted p a = false then deny .notPermitted s
    else if s.attached p = false ∧ openCode code = false then deny .notAttached s
    else body pl s

/-- A transaction is served: the previous response is given on data out, the request is judged and taken, and its response is buffered
(R184, R185). -/
def serve (p : Port) (code : Byte) (len : Nat) (a : Access) (tail : List Byte) (body : List Byte → State → Reply) (s : State) :
    Host.Outcome State Fault Refusal :=
  let r := judge p code len a tail body (recordOut p (tail.length + 1) s)
  .next (respond p code r.status r.payload r.state)

/-- The line number check (R1). -/
def withLine (b : Byte) (s : State) (f : LineNo → Reply) : Reply := if h : b.toNat < 64 then f ⟨b.toNat, h⟩ else deny .badLine s

/-- A payload byte. -/
def arg (pl : List Byte) (i : Nat) : Byte := pl.getD i 0

end Sys2Proof.Machine
end

