-- ==== Sys2Proof/Machine/Digits.lean ====
section
/-! DEFINITION. The Digit Assembler (chapter 5): counting pulses, completing and recording digits, the interdigit and first-digit
expiries. -/

namespace Sys2Proof.Machine

/-- The pulse state at its start: counter 0, discard flag no, onset, last make start and interdigit expiry absent (R64, R73, R94). -/
def clearPulses (r : Line) : Line :=
  { r with
    pulseCounter := 0
    pulseDiscard := false
    digitOnset := none
    lastMakeStart := none
    interdigitExpiry := none
    interdigitHeld := false }

/-- The pulse state cleared and the interdigit and first-digit expiries cancelled (R73, R79, R160, R182). -/
def endDialling (r : Line) : Line := { clearPulses r with firstDigitExpiry := none }

/-- A digit is delivered for recording on a line in DIALLING (R91). -/
def recordDigit (l : LineNo) (code : DigitCode) (m : DigitMethod) (onset : Time) (s : State) : State :=
  let r := s.line l
  if r.dialRecord.length < Config.dialRecordMax then
    lineEvent l onset (.digit code m (some r.dialRecord.length)) (s.setLine l { r with dialRecord := r.dialRecord ++ [⟨code, m⟩] })
  else if r.overflow then lineEvent l onset (.digit code m none) s
  else
    lineEvent l onset (.dialError .recordFull)
      (lineEvent l onset (.digit code m none) (s.setLine l { r with overflow := true }))

/-- The code of a completed pulse digit: the pulse counter modulo 10 (R89). -/
def pulseCode (n : Nat) : DigitCode := ⟨n % 10, by omega⟩

/-- A pulse digit completes: the pulse fields return to their start and the digit is recorded, dated at its onset (R89). -/
def completeDigit (l : LineNo) (s : State) : State :=
  let r := s.line l
  recordDigit l (pulseCode r.pulseCounter) .pulse (r.digitOnset.getD s.now)
    (s.setLine l { r with
      pulseCounter := 0
      digitOnset := none
      lastMakeStart := none
      interdigitExpiry := none
      interdigitHeld := false })

/-- The interdigit expiry is taken: the digit completes, or the discard of an overcount ends (R87). -/
def takeInterdigit (l : LineNo) (s : State) : State :=
  if (s.line l).pulseDiscard then
    s.modLine l (fun r => { r with
      pulseDiscard := false
      lastMakeStart := none
      interdigitExpiry := none
      interdigitHeld := false })
  else completeDigit l s

/-- A break of the digit is open, or a run toward OPEN began before the expiry `e` (R87). -/
def breakHolds (r : Line) (e : Time) : Bool :=
  (match r.breakStart with
    | some b => timeBefore b e
    | none => false) ||
  (match r.run with
    | some ⟨.opened, _, t⟩ => timeBefore t e
    | _ => false)

/-- Notice of a break in DIALLING: a break that starts at or after the interdigit expiry completes the digit first (R86). -/
def noticeBreak (l : LineNo) (start : Time) (s : State) : State :=
  match (s.line l).interdigitExpiry with
  | some e => if timeBefore start e then s else takeInterdigit l s
  | none => s

/-- The interdigit expiry armed from the last make start (R84). -/
def armInterdigit (makeStart : Time) (p : Profile) (r : Line) : Line :=
  { r with
    lastMakeStart := some makeStart
    interdigitExpiry := some (timeAfter makeStart (msUnits p.interdigit))
    interdigitHeld := false }

/-- A pulse is taken in DIALLING (R84, R85). -/
def takePulse (l : LineNo) (breakStart makeStart : Time) (s : State) : State :=
  let r := s.line l
  let p := s.effective l
  if r.pulseDiscard then s.setLine l (armInterdigit makeStart p r)
  else if r.pulseCounter = 0 then
    s.setLine l (armInterdigit makeStart p { r with pulseCounter := 1, digitOnset := some breakStart, firstDigitExpiry := none })
  else if r.pulseCounter < 10 then s.setLine l (armInterdigit makeStart p { r with pulseCounter := r.pulseCounter + 1 })
  else
    s.setLine l (armInterdigit makeStart p { r with pulseCounter := 0, pulseDiscard := true, digitOnset := none })
      |> lineEvent l breakStart (.dialError .pulseOvercount)

/-- The digit in progress is abandoned: the fields R72 names. DESIGN CHOICE (log 35): the last make start, which R72's list leaves out and the
opening words of chapter 5 take in with the pulse state, is kept; no rule reads it before a seizure or a pulse sets it. -/
def abandonDigit (r : Line) : Line :=
  { r with pulseCounter := 0, pulseDiscard := false, digitOnset := none, interdigitExpiry := none, interdigitHeld := false }

/-- A tone digit reaches the Digit Assembler: recorded in DIALLING, reported unstored in TALK (R90, R92). -/
def toneDigit (l : LineNo) (code : DigitCode) (onset : Time) (s : State) : State :=
  match (s.line l).state with
  | .dialling => recordDigit l code .tone onset (s.modLine l (fun r => { r with firstDigitExpiry := none }))
  | .talk => lineEvent l onset (.digit code .tone none) s
  | .acquire => s
  | .idle => s
  | .ringing => s
  | .blocked => s
  | .held => s

/-- PERMANENT_LOOP is raised at a dial timeout, dated at the expiry (R153). -/
def raisePermanentLoop (l : LineNo) (t : Time) (s : State) : State :=
  let f := (s.line l).faults
  let s1 := s.modLine l (fun r => { r with faults := { r.faults with permanentLoop := presentEntry } })
  if f.permanentLoop.state = .present then s1 else lineEvent l t (.faultRaised .permanentLoop) s1

/-- PERMANENT_LOOP is cleared at a hang-up or a settling to INITIAL(OPEN), dated now (R153). -/
def clearPermanentLoop (l : LineNo) (s : State) : State :=
  let f := (s.line l).faults
  let s1 := s.modLine l (fun r => { r with faults := { r.faults with permanentLoop := clearEntry } })
  if f.permanentLoop.state = .present then lineEvent l s.now (.faultCleared .permanentLoop) s1 else s1

/-- INTERDIGIT_EXPIRY (R87): a due expiry is taken, or held while a break of the digit is open or pending. -/
def execInterdigitExpiry (l : LineNo) (s : State) : Host.Outcome State Fault Refusal :=
  match (s.line l).interdigitExpiry with
  | some e =>
    if timeReached s.now e = true ∧ (s.line l).interdigitHeld = false then
      if breakHolds (s.line l) e then .next (s.modLine l (fun r => { r with interdigitHeld := true }))
      else .next (takeInterdigit l s)
    else .next s
  | none => .next s

/-- INTERDIGIT_HELD_SETTLE (R88): a held expiry that no break of the digit holds any more is taken at this moment. The other outcomes
of R88 come about in the measurement that causes them. -/
def execInterdigitHeldSettle (l : LineNo) (s : State) : Host.Outcome State Fault Refusal :=
  match (s.line l).interdigitExpiry with
  | some e =>
    if (s.line l).interdigitHeld = true ∧ breakHolds (s.line l) e = false then .next (takeInterdigit l s) else .next s
  | none => .next s

/-- FIRST_DIGIT_EXPIRY (R93): a due expiry of a line in DIALLING is a dial timeout. -/
def execFirstDigitExpiry (l : LineNo) (s : State) : Host.Outcome State Fault Refusal :=
  match (s.line l).firstDigitExpiry with
  | some e =>
    if timeReached s.now e = true ∧ (s.line l).state = .dialling then
      .next (raisePermanentLoop l e
        (releaseUnlocked l
          (lineEvent l e .dialTimeout (s.modLine l (fun r => { r with state := .talk, firstDigitExpiry := none })))))
    else .next s
  | none => .next s

/-- A digit in progress at END_DIAL completes with the pulses counted so far (R94 step 1). -/
def endDialDigit (l : LineNo) (s : State) : State :=
  if 0 < (s.line l).pulseCounter ∧ (s.line l).pulseDiscard = false then completeDigit l s else s

/-- What END_DIAL does on a DIALLING line (R94). -/
def endDial (l : LineNo) (s : State) : State :=
  (releaseUnlocked l ((endDialDigit l s).modLine l endDialling)).modLine l (fun r => { r with state := .talk })

/-- What CLEAR_DIAL does on a line that is not HELD (R95). -/
def clearDial (l : LineNo) (s : State) : State := s.modLine l (fun r => { r with dialRecord := [], overflow := false })

end Sys2Proof.Machine
end

