-- ==== Sys2Proof/Machine/Reasons.lean ====
section
/-! DEFINITION. Changes of a line's state that several blocks order: the entry to ACQUIRE (R59), the end of ringing (R125, R133), the
block reason set and the BLOCKED state (R76 to R82), and the counting of fault observations (R149 to R154). -/

namespace Sys2Proof.Machine

/-! ### ACQUIRE, ringing, BLOCKED -/

/-- The fields every entry to ACQUIRE, and every restart, sets (R59). -/
def acquireFields (r : Line) : Line :=
  { r with state := .acquire, loop := .unknown, run := none, acquireCount := 0, breakStart := none, hangupExpiry := none }

/-- The ringing is cleared: phase, expiries and answer run; a measurement under feed RING in progress ends at its last values (R125,
R42). -/
def clearRinging (r : Line) : Line :=
  discardRingMeasuring { r with ringPhase := none, ringPhaseExpiry := none, ringLimitExpiry := none, run := none }

/-- What every entry into BLOCKED does to the record: the run removed, the loop condition kept (R79). -/
def blockedFields (r : Line) : Line := { r with state := .blocked, run := none }

/-- A line goes to BLOCKED; what the block ends depends on the state it finds (R79). -/
def enterBlocked (l : LineNo) (s : State) : State :=
  match (s.line l).state with
  | .acquire => s.modLine l (fun r => blockedFields { r with acquireCount := 0 })
  | .dialling =>
    releaseUnlocked l (s.modLine l (fun r => blockedFields (endDialling { r with breakStart := none, hangupExpiry := none })))
  | .talk =>
    releaseUnlocked l (s.modLine l (fun r => blockedFields (endDialling { r with breakStart := none, hangupExpiry := none })))
  | .ringing => recomputeFeed l (s.modLine l (fun r => blockedFields (clearRinging r)))
  | .idle => s.modLine l blockedFields
  | .blocked => s.modLine l blockedFields
  | .held => s

/-- No reason is in the set. -/
def Reasons.none (r : Reasons) : Bool := !r.controller && !r.fault

/-- The state's answer to a change of the reason set (R79, R81, R82). -/
def followReasons (l : LineNo) (old new : Reasons) (s : State) : State :=
  if (s.line l).state = .held then s
  else if old.none && !new.none then enterBlocked l s
  else if !old.none && new.none && (s.line l).state = .blocked then s.modLine l acquireFields
  else s

/-- The reason set of a line is changed: BLOCK_CHANGED is reported, dated now, and the state follows; an unchanged set does nothing
(R78 to R82). -/
def setReasons (l : LineNo) (new : Reasons) (s : State) : State :=
  let old := (s.line l).reasons
  if old = new then s
  else followReasons l old new (lineEvent l s.now (.blockChanged new) (s.modLine l (fun r => { r with reasons := new })))

/-- FAULT belongs in the reason set (R154). -/
def State.faultReason (s : State) (l : LineNo) : Bool := (s.effective l).autoBlock && isolatingFault (s.line l).faults

/-- The FAULT block reason is recomputed (R154). -/
def recomputeReason (l : LineNo) (s : State) : State := setReasons l { (s.line l).reasons with fault := s.faultReason l } s

/-! ### Counting observations (R149 to R151) -/

/-- One observation is counted, and the fault event it gives is reported (R150). -/
def countOne (l : LineNo) (t : Time) (o : FaultKind × Verdict) (s : State) : State :=
  let p := s.effective l
  let (e, ev) := countObservation ((s.line l).faults.entry o.1) o.2 p.confirm p.clear t
  let s1 := s.modLine l (fun r => { r with faults := r.faults.setEntry o.1 e })
  match ev with
  | some (true, t1) => lineEvent l t1 (.faultRaised o.1) s1
  | some (false, t1) => lineEvent l t1 (.faultCleared o.1) s1
  | none => s1

/-- The isolating kinds that stand (R151 step 2 asks whether one entered or left {PRESENT, EASING}). -/
def standing (f : FaultSet) : Bool × Bool × Bool × Bool :=
  (faultStands f.groundTip, faultStands f.groundRing, faultStands f.short, faultStands f.foreignVoltage)

/-- A group of observations of one line is counted; then the FAULT reason, then the feed mode are recomputed where the group changed
what they depend on (R151). A HELD line's Fault Set is frozen (R149). -/
def countGroup (l : LineNo) (t : Time) (os : List (FaultKind × Verdict)) (s : State) : State :=
  if (s.line l).state = .held then s
  else
    let before := (s.line l).faults
    let s1 := os.foldl (fun s o => countOne l t o s) s
    let after := (s1.line l).faults
    let s2 := if standing before = standing after then s1 else recomputeReason l s1
    if decide (before.foreignVoltage.state = .present) = decide (after.foreignVoltage.state = .present) then s2
    else recomputeFeed l s2

end Sys2Proof.Machine
end

