-- ==== Sys2Proof/Machine/Hook.lean ====
section
/-! DEFINITION. The Line Supervisor (chapter 4): acquisition, debounce, seizure, breaks and makes, hang-up. -/

namespace Sys2Proof.Machine

/-! ### Seizure (R64 to R66) -/

/-- The fields a seizure sets (R64). -/
def seizedFields (start : Time) (p : Profile) (r : Line) : Line :=
  { clearPulses r with
    state := .dialling
    loop := .closed
    dialRecord := []
    overflow := false
    firstDigitExpiry := some (timeAfter start (sUnits p.firstDigitTimeout)) }

/-- What a seizure asks of the Tone Pool, from the dial method, the auto detector option, the timeslot and the status (R65). -/
def seizeDetector (l : LineNo) (start : Time) (s : State) : State :=
  let p := s.effective l
  if p.dialMethod = .pulse ∨ p.autoDetector = false then s
  else
    match (s.line l).timeslot, (s.line l).detStatus with
    | none, _ => lineEvent l start .toneUnavailable s
    | some _, .none => requestDet l s
    | some _, .locked _ => s
    | some _, .assigned _ => s
    | some _, .waiting => s

/-- A seizure clears OPEN_PAIR, and reports that when it stood (R66, R152). -/
def clearOpenPair (l : LineNo) (s : State) : State :=
  let f := (s.line l).faults
  let s1 := s.modLine l (fun r => { r with faults := { r.faults with openPair := clearEntry } })
  if faultStands f.openPair then lineEvent l s.now (.faultCleared .openPair) s1 else s1

/-- A seizure, dated at the run start of the make (R64 to R66). -/
def seize (l : LineNo) (start : Time) (s : State) : State :=
  clearOpenPair l
    (seizeDetector l start
      (lineEvent l start (.seize (s.effectiveNo l)) (s.modLine l (seizedFields start (s.effective l)))))

/-! ### Hang-up (R73 to R75) -/

/-- The fields a hang-up sets; the debounce run stays (R73, R74). -/
def hungUpFields (r : Line) : Line :=
  { endDialling r with state := .idle, loop := .opened, breakStart := none, hangupExpiry := none }

/-- A hang-up, dated at the break start (R73). -/
def hangUp (l : LineNo) (start : Time) (why : HangupBy) (s : State) : State :=
  clearPermanentLoop l (releaseUnlocked l (lineEvent l start (.hangup why) (s.modLine l hungUpFields)))

/-! ### Breaks (R67 to R72) -/

/-- A break opens: its start and the hang-up expiry (R67). -/
def breakFields (start : Time) (p : Profile) (r : Line) : Line :=
  { r with breakStart := some start, hangupExpiry := some (timeAfter start (msUnits p.hangupMin)) }

/-- A break opens; in DIALLING the Digit Assembler has notice; an expiry already past is taken at once (R67). -/
def openBreak (l : LineNo) (start : Time) (s : State) : State :=
  let s1 := s.modLine l (breakFields start (s.effective l))
  let s2 := if (s1.line l).state = .dialling then noticeBreak l start s1 else s1
  if expiryDue s2.now (s2.line l).hangupExpiry then hangUp l start .expiry s2 else s2

/-- The outcome of a make in DIALLING, by its band (R69). -/
def makeDialling (l : LineNo) (brk start : Time) (dur : Nat) (s : State) : State :=
  match bandOf (s.effective l) dur with
  | .short => s
  | .pulse => takePulse l brk start s
  | .invalid => lineEvent l brk (.dialError (.invalidBreak dur)) (s.modLine l abandonDigit)
  | .flash =>
    let s1 := s.modLine l abandonDigit
    lineEvent l brk (.flash dur)
      (if 0 < (s.line l).pulseCounter then lineEvent l brk (.dialError .pulseAbort) s1 else s1)
  | .hangup => seize l start (hangUp l brk .make s)

/-- The outcome of a make in TALK, by its band (R70). -/
def makeTalk (l : LineNo) (brk start : Time) (dur : Nat) (s : State) : State :=
  match bandOf (s.effective l) dur with
  | .short => s
  | .pulse => s
  | .invalid => s
  | .flash => lineEvent l brk (.flash dur) s
  | .hangup => seize l start (hangUp l brk .make s)

/-- A make ends the open break: the expiry is cancelled and the break classed by its duration (R68). -/
def makeBreak (l : LineNo) (brk start : Time) (s : State) : State :=
  let s1 := s.modLine l (fun r => { r with breakStart := none, hangupExpiry := none })
  let dur := timeSince brk start
  if (s.line l).state = .dialling then makeDialling l brk start dur s1 else makeTalk l brk start dur s1

/-! ### Debounce (R56, R57) -/

/-- A confirmed run: the loop condition takes its direction, and the state decides what follows (R57). -/
def confirmRun (l : LineNo) (d : LoopDir) (start : Time) (s : State) : State :=
  let s1 := s.modLine l (fun r => { r with loop := condOf d, run := none })
  match (s.line l).state, d with
  | .idle, .closed => seize l start s1
  | .idle, .opened => s1
  | .dialling, .closed => match (s.line l).breakStart with
    | some b => makeBreak l b start s1
    | none => s1
  | .talk, .closed => match (s.line l).breakStart with
    | some b => makeBreak l b start s1
    | none => s1
  | .dialling, .opened => openBreak l start s1
  | .talk, .opened => openBreak l start s1
  | .blocked, _ => s1
  | .acquire, _ => s1
  | .ringing, _ => s1
  | .held, _ => s1

/-- The run after a measurement that counts toward a direction (R56): one more, or a new run that replaces any other. -/
def extendRun (r : Option Run) (d : LoopDir) (t : Time) : Run :=
  match r with
  | some q => if q.dir = d then { q with count := q.count + 1 } else ⟨d, 1, t⟩
  | none => ⟨d, 1, t⟩

/-- A pending run that meets the debounce count `n`. -/
def runMeets (n : Nat) (r : Option Run) : Option Run := r.filter (fun q => decide (n ≤ q.count))

/-- A measurement's class is applied to the debounce run (R56). -/
def applyClass (l : LineNo) (c : MeasClass) (t : Time) (s : State) : State :=
  let r := s.line l
  match classDir c with
  | none => s.setLine l { r with run := none }
  | some d =>
    if r.loop = condOf d then s.setLine l { r with run := none }
    else
      let q := extendRun r.run d t
      if (s.effective l).debounce ≤ q.count then confirmRun l d q.start s
      else s.setLine l { r with run := some q }

/-- A measurement in IDLE, DIALLING, TALK or BLOCKED: a pending run that meets a lowered D is confirmed first (R15), then the class is
applied (R56). -/
def debounce (l : LineNo) (c : MeasClass) (t : Time) (s : State) : State :=
  match runMeets (s.effective l).debounce (s.line l).run with
  | some q => applyClass l c t (confirmRun l q.dir q.start s)
  | none => applyClass l c t s

/-! ### Acquisition (R60 to R63) -/

/-- The outcome of a settled acquisition. -/
def settledOutcome (d : LoopDir) : InitialOutcome :=
  match d with
  | .opened => .opened
  | .closed => .closed

/-- The state a settled acquisition gives (R61). -/
def settledState (d : LoopDir) : LineState :=
  match d with
  | .opened => .idle
  | .closed => .talk

/-- An acquisition settles (R61). -/
def settle (l : LineNo) (q : Run) (s : State) : State :=
  let s1 := lineEvent l q.start (.initial (settledOutcome q.dir))
    (s.modLine l (fun r => { r with state := settledState q.dir, loop := condOf q.dir, run := none, acquireCount := 0 }))
  if q.dir = .opened then clearPermanentLoop l s1 else s1

/-- An acquisition ends as unstable (R62). -/
def settleUnstable (l : LineNo) (t : Time) (s : State) : State :=
  lineEvent l t (.initial .unstable)
    (s.modLine l (fun r => { r with state := .idle, loop := .opened, run := none, acquireCount := 0 }))

/-- The first half of an acquisition is complete: the loop condition is provisional and the run counts again from 0 (R60). -/
def firstHalf (q : Run) (r : Line) : Line := { r with loop := condOf q.dir, run := some { q with count := 0 } }

/-- The table of R60 applied to a record: the record after, and a run that has completed the second half, if one has. A first half can
complete at the measurement that began its run, when D is 1: in both rows that begin one. -/
def acquireTable (n : Nat) (c : MeasClass) (t : Time) (r : Line) : Line × Option Run :=
  match classDir c with
  | none => ({ r with run := none, loop := .unknown }, none)
  | some d =>
    if r.loop = .unknown then
      let q := extendRun r.run d t
      if n ≤ q.count then (firstHalf q r, none) else ({ r with run := some q }, none)
    else if r.loop = condOf d then
      let q := extendRun r.run d t
      ({ r with run := some q }, if n ≤ q.count then some q else none)
    else if n ≤ 1 then (firstHalf ⟨d, 1, t⟩ r, none)
    else ({ r with loop := .unknown, run := some ⟨d, 1, t⟩ }, none)

/-- R60 and R62 applied to a line in ACQUIRE whose acquire count already counts this measurement. -/
def acquireStep (l : LineNo) (c : MeasClass) (t : Time) (s : State) : State :=
  let (r, done) := acquireTable (s.effective l).debounce c t (s.line l)
  let s1 := s.setLine l r
  match done with
  | some q => settle l q s1
  | none => if Config.acquireMax ≤ r.acquireCount then settleUnstable l t s1 else s1

/-- A VALID measurement of a line in ACQUIRE: the count rises; a run that meets a lowered D completes its half first (R63); then R60. -/
def acquire (l : LineNo) (c : MeasClass) (t : Time) (s : State) : State :=
  let s0 := s.modLine l (fun r => { r with acquireCount := r.acquireCount + 1 })
  match runMeets (s.effective l).debounce (s.line l).run with
  | some q =>
    if (s.line l).loop = .unknown then acquireStep l c t (s0.modLine l (firstHalf q))
    else applyClass l c t (settle l q s0)
  | none => acquireStep l c t s0

/-! ### Commands -/

/-- HANGUP_EXPIRY (R74): a due expiry of an open break is a hang-up by EXPIRY; a pending run toward CLOSED is kept. A break is open in
DIALLING and TALK only (R2). -/
def execHangupExpiry (l : LineNo) (s : State) : Host.Outcome State Fault Refusal :=
  match (s.line l).breakStart with
  | some b =>
    if expiryDue s.now (s.line l).hangupExpiry = true ∧ ((s.line l).state = .dialling ∨ (s.line l).state = .talk) then
      .next (hangUp l b .expiry s)
    else .next s
  | none => .next s

end Sys2Proof.Machine
end

