-- ==== Sys2Proof/Machine/Ring.lean ====
section
/-! DEFINITION. The Ring Controller (chapter 7): starting and ending ringing, the phase and limit expiries, trip and answer. -/

namespace Sys2Proof.Machine

/-- The fields a RING taken in time unit `t` sets (R123). -/
def ringFields (t : Time) (p : Profile) (r : Line) : Line :=
  { r with
    state := .ringing
    ringPhase := some .ring
    ringPhaseExpiry := some (timeAfter t (msUnits p.ringOn))
    ringLimitExpiry := some (timeAfter t (sUnits p.ringMax))
    run := none }

/-- What RING does on an IDLE line with the battery NORMAL (R123). -/
def startRinging (l : LineNo) (s : State) : State := recomputeFeed l (s.modLine l (ringFields s.now (s.effective l)))

/-- The record of a line whose ringing ended unanswered: IDLE, loop condition OPEN (R125, R126). -/
def unanswered (r : Line) : Line := { clearRinging r with state := .idle, loop := .opened }

/-- What RING_STOP does on a RINGING line (R126). -/
def stopRinging (l : LineNo) (s : State) : State := recomputeFeed l (s.modLine l unanswered)

/-- The record of an answered line: TALK, loop condition CLOSED (R130). -/
def answeredFields (r : Line) : Line := { clearRinging r with state := .talk, loop := .closed }

/-- A trip in phase RING or an answer in phase PAUSE, dated at the run start (R130). -/
def answer (l : LineNo) (phase : RingPhase) (start : Time) (s : State) : State :=
  recomputeFeed l ((lineEvent l start (.ringTrip phase) s).modLine l answeredFields)

/-- The run length that answers in a phase: the trip debounce in RING, D in PAUSE (R128, R129). -/
def answerCount (p : Profile) (phase : RingPhase) : Nat :=
  match phase with
  | .ring => p.tripDebounce
  | .pause => p.debounce

/-- A measurement that matches the phase is applied to the answer run (R128, R129). -/
def answerStep (l : LineNo) (phase : RingPhase) (c : MeasClass) (t : Time) (s : State) : State :=
  let r := s.line l
  match c with
  | .closed =>
    let q := extendRun r.run .closed t
    if answerCount (s.effective l) phase ≤ q.count then answer l phase q.start s else s.setLine l { r with run := some q }
  | .opened => s.setLine l { r with run := none }
  | .between => s.setLine l { r with run := none }

/-- A matching measurement of a RINGING line: a pending run that meets a lowered run length answers first (R15, R128); the measurement
of a pause then goes to the debounce of the line in TALK (R15, R129); then R128, R129. -/
def answerRun (l : LineNo) (phase : RingPhase) (c : MeasClass) (t : Time) (s : State) : State :=
  match runMeets (answerCount (s.effective l) phase) (s.line l).run with
  | some q =>
    match phase with
    | .ring => answer l phase q.start s
    | .pause => applyClass l c t (answer l phase q.start s)
  | none => answerStep l phase c t s

/-- An evaluated measurement at the Ring Controller: taken when its feed matches the phase, else not counted (R127). -/
def ringMeasurement (l : LineNo) (feed : FeedMode) (c : MeasClass) (t : Time) (s : State) : State :=
  match (s.line l).ringPhase, feed with
  | some .ring, .ring => answerRun l .ring c t s
  | some .pause, .normal => answerRun l .pause c t s
  | _, _ => s

/-- The fields a change of phase at `e` sets; the new phase's length is read now (R124, R16). -/
def changePhase (e : Time) (p : Profile) (r : Line) : Line :=
  match r.ringPhase with
  | some .ring => { r with ringPhase := some .pause, ringPhaseExpiry := some (timeAfter e (msUnits p.ringOff)), run := none }
  | some .pause => { r with ringPhase := some .ring, ringPhaseExpiry := some (timeAfter e (msUnits p.ringOn)), run := none }
  | none => r

/-- RING_PHASE_EXPIRY (R124): a due expiry of a RINGING line changes the phase and the feed. -/
def execRingPhaseExpiry (l : LineNo) (s : State) : Host.Outcome State Fault Refusal :=
  match (s.line l).ringPhaseExpiry with
  | some e =>
    if timeReached s.now e then .next (rebeginSlot l (recomputeFeed l (s.modLine l (changePhase e (s.effective l))))) else .next s
  | none => .next s

/-- RING_LIMIT_EXPIRY (R125): a due expiry of a RINGING line reports RING_TIMEOUT and ends the ringing. -/
def execRingLimitExpiry (l : LineNo) (s : State) : Host.Outcome State Fault Refusal :=
  match (s.line l).ringLimitExpiry with
  | some e =>
    if timeReached s.now e then .next (rebeginSlot l (stopRinging l (lineEvent l e .ringTimeout s))) else .next s
  | none => .next s

end Sys2Proof.Machine
end

