-- ==== Sys2Proof/Machine/Loop.lean ====
section
/-! DEFINITION. The Loop Evaluator (chapter 3): a completed LOOP measurement of a line. -/

namespace Sys2Proof.Machine

/-- The last values a measurement leaves (R42). -/
def storeLast (ovr : Bool) (im il : Int) (r : Line) : Line :=
  { r with lastIm := im, lastIl := il, lastMc := compensated ovr im r.baseline, overrange := ovr, measuring := none }

/-- The classed measurement goes to the block that supervises the line's hook (R45). -/
def superviseMeasurement (l : LineNo) (feed : FeedMode) (c : MeasClass) (t : Time) (s : State) : State :=
  match (s.line l).state with
  | .ringing => ringMeasurement l feed c t s
  | .acquire => acquire l c t s
  | .idle => debounce l c t s
  | .dialling => debounce l c t s
  | .talk => debounce l c t s
  | .blocked => debounce l c t s
  | .held => s

/-- The line learns from this measurement (R46), judged after the hook supervisor has taken it. -/
def learns (r : Line) (ovr : Bool) (f : FeedState) : Bool :=
  decide (r.state = .idle) && decide (r.loop = .opened) && r.run.isNone && !ovr && decide (f = .normal)

/-- The baseline update (R46, R47). -/
def learn (l : LineNo) (ovr : Bool) (im : Int) (s : State) : State :=
  if learns (s.line l) ovr s.bat.feed then
    s.modLine l (fun r => { r with baseline := nextBaseline r.baseline im (s.effective l).shift })
  else s

/-- The decimation counter, and the observations of a decimated sample (R49 to R53). -/
def decimate (l : LineNo) (ovr : Bool) (im il : Int) (t : Time) (s : State) : State :=
  let r := s.line l
  if r.faults.decimation = 7 then
    let p := s.effective l
    let os := groundObservations p ovr il ++ shortObservation p ovr im ++ leakageObservation p r.state r.baseline
    countGroup l t os (s.modLine l (fun r => { r with faults := { r.faults with decimation := 0 } }))
  else s.modLine l (fun r => { r with faults := { r.faults with decimation := r.faults.decimation + 1 } })

/-- What follows the last values of a VALID measurement (R43 to R53). -/
def evaluateValid (l : LineNo) (m : LoopSlot) (ovr : Bool) (im il : Int) (s : State) : State :=
  let s1 := superviseMeasurement l m.feed (classOf (s.effective l) m.feed (s.line l).lastMc) m.stamp s
  let s2 := learn l ovr im s1
  if m.feed = .ring then s2 else decimate l ovr im il m.stamp s2

/-- A LOOP measurement in progress ends at its last values: it is marked DISCARD, the line is HELD, or it was made under feed RING and
the line has left RINGING (R42, R160). -/
def endsAtLast (r : Line) (m : LoopSlot) : Bool :=
  decide (m.mark = .discard) || decide (r.state = .held) || (decide (m.feed = .ring) && decide (r.state ≠ .ringing))

/-- A completed measurement is evaluated (R39 to R53). -/
def evaluate (l : LineNo) (m : LoopSlot) (it ir : Int) (s : State) : State :=
  let ovr := isOverrange it ir
  let im := metallic it ir
  let il := longitudinal it ir
  let s1 := s.modLine l (storeLast ovr im il)
  if endsAtLast (s.line l) m then s1 else evaluateValid l m ovr im il s1

/-- LOOP_MEASUREMENT (R39): the measurement in progress on the line completes; where none is in progress, none is taken. -/
def execLoopMeasurement (l : LineNo) (it ir : Int) (s : State) : Host.Outcome State Fault Refusal :=
  match (s.line l).measuring with
  | some m => .next (evaluate l m (currentCode it) (currentCode ir) s)
  | none => .next s

end Sys2Proof.Machine
end

