-- ==== Sys2Proof/Machine/Sweeps.lean ====
section
/-! DEFINITION. The Sweep Unit (chapter 8, R135 to R145): turns, offers, visits, the end of a pass, and the battery. -/

namespace Sys2Proof.Machine

/-- The descriptor of a sweep. -/
def State.sw (s : State) (n : SweepNo) : Sweep := s.sweep.sweeps[n]

/-- The state with one descriptor replaced. -/
def State.setSw (s : State) (n : SweepNo) (w : Sweep) : State :=
  { s with sweep := { s.sweep with sweeps := s.sweep.sweeps.set n w } }

/-- Every sweep, in ascending order. -/
def allSweeps : List SweepNo := List.finRange 4

/-- A sweep is eligible for a turn: ACTIVE, its pass not closing (R139). -/
def eligible (w : Sweep) : Bool := decide (w.state = .active) && !w.closing

/-- The line of a visit (R135). -/
def visitLine (w : Sweep) (i : Nat) : LineNo :=
  match w.step with
  | .up => ⟨(w.first.val + i) % 64, Nat.mod_lt _ (by decide)⟩
  | .down => ⟨(w.first.val + 64 - i % 64) % 64, Nat.mod_lt _ (by decide)⟩
  | .fixed => w.first

/-- The item kind of a sweep kind. -/
def sweepItem (k : SweepKind) : ItemKind :=
  match k with
  | .foreign => .foreign
  | .diagUp => .diagUp
  | .diagDown => .diagDown

/-- The turn ends: its holder becomes the last sweep served, and no turn is held (R139). -/
def endTurn (n : SweepNo) (s : State) : State := { s with sweep := { s.sweep with holder := none, lastServed := n } }

/-- The turn ends if the sweep holds it (R138, R145). -/
def endTurnOf (n : SweepNo) (s : State) : State := if s.sweep.holder = some n then endTurn n s else s

/-- A turn begins for a sweep: its visits used are 0 (R139). -/
def beginTurn (n : SweepNo) (s : State) : State := { s with sweep := { s.sweep with holder := some n, used := 0 } }

/-- The first eligible sweep after the last one served, in cyclic order (R139), but for those whose end of pass this request has taken: a
CYCLIC one is eligible again from the next request (R144). -/
def State.nextHolder (s : State) (ended : List SweepNo) : Option SweepNo :=
  let n := s.sweep.lastServed
  [n + 1, n + 2, n + 3, n].find? (fun m => eligible (s.sw m) && !ended.contains m)

/-- The cursor moves on from a visit that is dealt with, or the pass begins closing at its last visit (R140, R142). -/
def passOn (w : Sweep) : Sweep :=
  if w.cursor + 1 < w.count then { w with cursor := w.cursor + 1 } else { w with closing := true }

/-- A visit of the turn is used; the turn ends at the block length or when the pass begins closing (R139). -/
def useVisit (n : SweepNo) (s : State) : State :=
  let s1 := { s with sweep := { s.sweep with used := s.sweep.used + 1 } }
  if (s1.sw n).blockLength ≤ s1.sweep.used ∨ (s1.sw n).closing = true then endTurn n s1 else s1

/-- The visit at the cursor is skipped (R140). -/
def skipVisit (n : SweepNo) (s : State) : State :=
  useVisit n (s.setSw n (passOn { s.sw n with skipped := (s.sw n).skipped + 1 }))

/-- The state of a sweep after its end of pass (R144). -/
def afterPass (st : SweepState) (r : SweepRepeat) : SweepState :=
  match st, r with
  | .active, .once => .idle
  | .active, .cyclic => .active
  | .paused, .once => .idle
  | .paused, .cyclic => .paused
  | .idle, _ => .idle

/-- The end of a pass is due: the pass is closing and the sweep has no item in progress (R142, R144). -/
def passDue (w : Sweep) : Bool := w.closing && decide (w.items = 0)

/-- The end of a pass: SWEEP_DONE, the reset of cursor, tallies and closing, and the change of state (R144). -/
def endPass (n : SweepNo) (s : State) : State :=
  let w := s.sw n
  (writeEvent s.attachedControllers none s.now (.sweepDone n w.kind w.measured w.skipped) s).setSw n
    { w with cursor := 0, measured := 0, skipped := 0, closing := false, state := afterPass w.state w.rept }

/-- A line that a visit measures: IDLE or BLOCKED (R140). -/
def visitable (st : LineState) : Bool := decide (st = .idle) || decide (st = .blocked)

/-- A request for an offer (R140, R141): `begun` holds the sweeps a turn has been begun for during this request, `ended` those whose end of
pass it has taken. Each round of the recursion begins a turn, skips a visit, offers one, or ends the request. The end of a pass whose last
visit is skipped is taken at once where the sweep has no item in progress (R142), and the sweep waits for the next request (R144). -/
def requestOffer : Nat → List SweepNo → List SweepNo → State → State
  | 0, _, _, s => s
  | fuel + 1, begun, ended, s =>
    match s.sweep.holder with
    | none =>
      match s.nextHolder ended with
      | none => s
      | some n =>
        if allSweeps.all (fun m => !eligible (s.sw m) || begun.contains m || ended.contains m) then s
        else requestOffer fuel (n :: begun) ended (beginTurn n s)
    | some n =>
      let w := s.sw n
      let l := visitLine w w.cursor
      if visitable (s.line l).state then { s with sweep := { s.sweep with offer := some ⟨n, l, w.kind⟩ } }
      else
        let s1 := skipVisit n s
        if passDue (s1.sw n) then requestOffer fuel begun (n :: ended) (endPass n s1) else requestOffer fuel begun ended s1

/-- More rounds than any request takes: the rest of a held turn and one turn of each sweep, of at most 64 visits each, and the beginnings
of turns (R141). -/
def requestFuel : Nat := 400

/-- The Scan Engine asks for an offer; a request that ends with none leaves the rest of the round's sweep slots unused (R141). -/
def askOffer (s : State) : State :=
  let s1 := requestOffer requestFuel [] [] s
  match s1.sweep.offer with
  | some _ => s1
  | none => { s1 with scan := { s1.scan with noOffer := true } }

/-- The pending offer is withdrawn without moving the cursor (R30, R138). -/
def withdrawOffer (s : State) : State := { s with sweep := { s.sweep with offer := none } }

/-- The pending offer is withdrawn if it is the sweep's; true when it was. -/
def offerOf (n : SweepNo) (s : State) : Bool :=
  match s.sweep.offer with
  | some o => decide (o.sweep = n)
  | none => false

/-- An offer has issued: the cursor, the items in progress and the turn move on (R142). -/
def issueVisit (n : SweepNo) (s : State) : State :=
  useVisit n ((withdrawOffer s).setSw n { passOn (s.sw n) with items := (s.sw n).items + 1 })

/-- A completed item of a sweep is tallied (R143). -/
def tallyItem (n : SweepNo) (s : State) : State :=
  s.setSw n { s.sw n with measured := (s.sw n).measured + 1, items := (s.sw n).items - 1 }

/-- END_OF_PASS (R143, R144): the end of pass that the completion of a sweep's item leaves due. -/
def execEndOfPass (n : SweepNo) (s : State) : Host.Outcome State Fault Refusal :=
  if passDue (s.sw n) then .next (endPass n s) else .next s

/-- What STOP_SWEEP does on a sweep that is ACTIVE or PAUSED (R138); an IDLE one it leaves as it is. -/
def stopSweep (n : SweepNo) (s : State) : State :=
  if (s.sw n).state = .idle then s
  else
    let s1 := endTurnOf n (s.setSw n { s.sw n with state := .idle })
    if offerOf n s then askOffer (withdrawOffer s1) else s1

/-- One ACTIVE sweep is paused (R145). -/
def pauseSweep (n : SweepNo) (s : State) : State :=
  if (s.sw n).state = .active then
    let s1 := endTurnOf n (s.setSw n { s.sw n with state := .paused })
    if offerOf n s then withdrawOffer s1 else s1
  else s

/-- One PAUSED sweep is resumed (R145). -/
def resumeSweep (n : SweepNo) (s : State) : State :=
  if (s.sw n).state = .paused then s.setSw n { s.sw n with state := .active } else s

/-- The Sweep Unit follows the Battery Monitor into a feed state (R145). -/
def sweepsFollow (f : FeedState) (s : State) : State :=
  if f = .normal then allSweeps.foldl (fun s n => resumeSweep n s) s else allSweeps.foldl (fun s n => pauseSweep n s) s

/-- START_SWEEP taken: REWIND resets the cursor and the tallies; the sweep is ACTIVE under a NORMAL battery, else PAUSED (R137). -/
def startSweep (n : SweepNo) (rewind : Bool) (s : State) : State :=
  let w := s.sw n
  let w1 := if rewind then { w with cursor := 0, measured := 0, skipped := 0 } else w
  s.setSw n { w1 with state := if s.bat.feed = .normal then .active else .paused }

end Sys2Proof.Machine
end

