-- ==== Sys2Proof/Machine/Scan.lean ====
section
/-! DEFINITION. The Scan Engine (chapter 2): the start of a round with its battery sample (R20, R180, R181), the start of a slot with
its LOOP measurements (R21 to R26), the issue of items (R27 to R31), and the completion of an item (R32, R33). -/

namespace Sys2Proof.Machine

/-! ### Rounds and the battery sample -/

/-- The time stamp of slot `slot` of the round (R20). -/
def State.slotTime (s : State) (slot : Nat) : Time := timeAfter s.scan.roundStart (slot / 2)

/-- A battery sample extends, starts or removes the change run; the eighth of a run leaves a change due (R181). -/
def sampleBattery (v : Nat) (t : Time) (b : Battery) : Battery :=
  let c := batteryClass b.feed b.lostLimit b.lowLimit v
  if c = b.feed then { b with run := none }
  else
    match b.run with
    | none => { b with run := some ⟨1, t⟩ }
    | some r =>
      if Config.changeRun ≤ r.count + 1 then { b with due := some ⟨c, v, r.start⟩ }
      else { b with run := some ⟨r.count + 1, r.start⟩ }

/-- A battery sample as the sense input gives it, 0..1023 (R180). -/
def batteryCode (v : Nat) : Nat := min v 1023

/-- The round that reset began still has its battery sample to come (R38, R180). -/
def firstRoundDue (c : Scan) : Bool := decide (c.nextSlot = 0) && !c.sampled

/-- A new round is due: 20 units from the start of the previous one, whose slots and items are done (R20). -/
def nextRoundDue (c : Scan) (now : Time) : Bool :=
  decide (c.nextSlot = Config.roundSlots) && decide (Config.roundUnits ≤ timeSince c.roundStart now) && c.item0.isNone && c.item1.isNone

/-- The Scan Engine at the start of the next round (R20, R27). -/
def freshRound (c : Scan) : Scan :=
  { c with roundStart := timeAfter c.roundStart Config.roundUnits, nextSlot := 0, testPart := 0, noOffer := false }

/-- The battery sample of the round in progress is taken (R180). -/
def takeBatterySample (v : Nat) (s : State) : State :=
  { s with scan := { s.scan with sampled := true }, bat := sampleBattery (batteryCode v) s.scan.roundStart s.bat }

/-- ROUND_START (R20, R180): a round that is due begins, an offer that did not issue is withdrawn (R30), and the battery is sampled. -/
def execRoundStart (v : Nat) (s : State) : Host.Outcome State Fault Refusal :=
  if firstRoundDue s.scan then .next (takeBatterySample v s)
  else if nextRoundDue s.scan s.now then .next (takeBatterySample v (withdrawOffer { s with scan := freshRound s.scan }))
  else .next s

/-! ### LOOP slots -/

/-- The lines of a LOOP slot, line i and line 32+i (R21). -/
def slotLines (slot : Nat) : List LineNo :=
  if slot < 32 then [⟨slot % 32, by omega⟩, ⟨32 + slot % 32, by omega⟩] else []

/-- A line is measured in its LOOP slot: its mode is NORMAL or RING and it is not HELD (R23). -/
def State.measured (s : State) (l : LineNo) : Bool :=
  decide ((s.line l).state ≠ .held) && (decide (s.derivedMode l = .normal) || decide (s.derivedMode l = .ring))

/-- A line's LOOP slot starts (R23 to R26). -/
def startLoop (slot : Nat) (l : LineNo) (s : State) : State :=
  if s.measured l then
    s.modLine l (beginMeasuring (s.slotTime slot) (s.derivedMode l) (decide (s.bat.feed = .lost)))
  else s

/-! ### Items in progress -/

/-- A mode that disturbs the line's current: HIGH_Z, DIAG_UP or DIAG_DOWN (R25). -/
def isTransient (m : FeedMode) : Bool := decide (m = .highZ) || decide (m = .diagUp) || decide (m = .diagDown)

/-- The slot of an item that began last is made under a mode: the item is disturbed by a mode other than its own (R33), and a transient
one sets the flag at its completion (R25). Said again, it replaces what was said of that slot before. -/
def reseeSlot (m : FeedMode) (i : Item) : Item :=
  { i with
    disturbed := i.disturbedBefore || decide (m ≠ itemMode i.kind)
    transient := i.transientBefore || isTransient m }

/-- A slot of an item starts under a mode (R22, R33, R25). -/
def seeSlot (m : FeedMode) (i : Item) : Item :=
  reseeSlot m { i with disturbedBefore := i.disturbed, transientBefore := i.transient }

/-- A slot starts for the item in progress on a bank. -/
def seeBank (b : Bank) (s : State) : State :=
  match s.bankItem b with
  | some i => s.setBankItem b (some (seeSlot (s.derivedMode i.line) i))
  | none => s

/-- The slots an item occupies (R28). -/
def itemSlots (k : ItemKind) : Nat :=
  match k with
  | .loop => 1
  | .foreign => 4
  | .diagUp => 2
  | .diagDown => 2

/-- An item of the kind occupies the Diagnostic Source (R28). -/
def needsSource (k : ItemKind) : Bool := decide (k = .diagUp) || decide (k = .diagDown)

/-- The Diagnostic Source is free: no item in progress occupies it (R28). -/
def State.sourceFree (s : State) : Bool :=
  !((s.scan.item0.any (fun i => needsSource i.kind)) || (s.scan.item1.any (fun i => needsSource i.kind)))

/-- An item can issue at a slot: its bank is free, the source is free if it needs it, and it fits (R29). -/
def State.canIssue (s : State) (l : LineNo) (k : ItemKind) (slot : Nat) : Bool :=
  (s.bankItem (bankOf l)).isNone && (!needsSource k || s.sourceFree) && decide (slot + itemSlots k ≤ Config.roundSlots)

/-- The source order of an item's issue (R37): connect, whichever the item's pull direction (DESIGN CHOICE, log 36). -/
def issueOrder (k : ItemKind) : SourceOrder := if needsSource k then .connect else .none

/-- The source order of an item's completion (R37). -/
def doneOrder (k : ItemKind) : SourceOrder := if needsSource k then .disconnect else .none

/-- An item issues at a slot: it is in progress on its line, the feed mode is recomputed, and its first slot starts (R31). -/
def issueItem (l : LineNo) (k : ItemKind) (o : Origin) (slot : Nat) (s : State) : State :=
  seeBank (bankOf l)
    (recomputeFeedWith (issueOrder k) l (s.setBankItem (bankOf l) (some ⟨l, k, o, slot + itemSlots k - 1, false, false, false, false⟩)))

/-- The first item of the Test Queue leaves the queue and the test part (R27). -/
def takeTestItem (rest : List TestItem) (s : State) : State :=
  { s with test := { s.test with queue := rest }, scan := { s.scan with testPart := s.scan.testPart - 1 } }

/-- An offer is asked for when none is pending and the round's requests have not ended (R27, R141). -/
def wantOffer (s : State) : State :=
  match s.sweep.offer with
  | some _ => s
  | none => if s.scan.noOffer then s else askOffer s

/-- The pending offer issues at a slot (R31, R142). -/
def issueOffer (o : Offer) (slot : Nat) (s : State) : State :=
  issueVisit o.sweep (issueItem o.line (sweepItem o.kind) (.sweep o.sweep) slot s)

/-- Issuing at one slot, in sequence order: the test part first, then offers, until the next item cannot issue (R27 to R30). One slot
issues at most one item on each bank, so three rounds of the recursion end it. -/
def issueLoop (slot : Nat) : Nat → State → State
  | 0, s => s
  | fuel + 1, s =>
    if 0 < s.scan.testPart then
      match s.test.queue with
      | [] => s
      | t :: rest =>
        if s.canIssue t.line t.kind slot then issueLoop slot fuel (issueItem t.line t.kind .test slot (takeTestItem rest s)) else s
    else
      let s1 := wantOffer s
      match s1.sweep.offer with
      | none => s1
      | some o => if s1.canIssue o.line (sweepItem o.kind) slot then issueLoop slot fuel (issueOffer o slot s1) else s1

/-- At the start of slot 32 the Test Queue is fixed as the round's test part (R27). -/
def fixTestPart (slot : Nat) (s : State) : State :=
  if slot = Config.sweepSlot then { s with scan := { s.scan with testPart := s.test.queue.length } } else s

/-! ### Slots -/

/-- An item's last slot has passed and its completion is still to come (R32). -/
def overdueItem (next : Nat) (i : Option Item) : Bool := i.any (fun i => decide (i.last < next))

/-- A slot is due: the round has one left, its boundary is reached (R20), and what comes before it is done: the battery sample of the
round and the change of feed state (R180), and the completion of items that ended (R32). -/
def State.slotDue (s : State) : Bool :=
  decide (s.scan.nextSlot < Config.roundSlots) && decide (s.scan.nextSlot / 2 ≤ timeSince s.scan.roundStart s.now) &&
    !firstRoundDue s.scan && s.bat.due.isNone && !overdueItem s.scan.nextSlot s.scan.item0 && !overdueItem s.scan.nextSlot s.scan.item1

/-- What a slot's start does (R21 to R31). -/
def startSlot (slot : Nat) (s : State) : State :=
  if slot < Config.sweepSlot then forLines (slotLines slot) (startLoop slot) s
  else issueLoop slot 3 (fixTestPart slot (seeBank .one (seeBank .zero s)))

/-- SLOT_START (R21): the next slot of the round starts when it is due. -/
def execSlotStart (s : State) : Host.Outcome State Fault Refusal :=
  if s.slotDue then
    .next (startSlot s.scan.nextSlot { s with scan := { s.scan with nextSlot := s.scan.nextSlot + 1 } })
  else .next s

/-! ### A change taken at the boundary of a slot that has begun -/

/-- The slot that began last, where it began with the time unit in progress: only a slot that begins with a time unit, an even one, shares
its boundary with an expiry (R20, R22). -/
def State.boundarySlot (s : State) : Option Nat :=
  match s.scan.nextSlot with
  | 0 => none
  | k + 1 => if k % 2 = 0 ∧ s.slotTime k = s.now then some k else none

/-- A LOOP slot is made again for a line that had no measurement in it (R22, R23). -/
def remakeLoop (slot : Nat) (l : LineNo) (s : State) : State :=
  if l ∈ slotLines slot ∧ (s.line l).measuring.map (fun m => m.stamp) ≠ some (s.slotTime slot) then startLoop slot l s else s

/-- The slot of the item in progress on a line is made again under the line's mode (R22, R33). -/
def remakeItem (l : LineNo) (s : State) : State :=
  match s.itemOn l with
  | some i => s.setBankItem (bankOf l) (some (reseeSlot (s.derivedMode l) i))
  | none => s

/-- An expiry that releases a line at the boundary of a slot that has begun: the slot is made under the mode that stands once the change
is taken (R22). The ring expiries, whose line is measured before and after, have `rebeginSlot`. -/
def remakeSlot (l : LineNo) (s : State) : State :=
  match s.boundarySlot with
  | some slot => if slot < Config.sweepSlot then remakeLoop slot l s else remakeItem l s
  | none => s

/-! ### Completion of an item -/

/-- The observations of an INTACT sweep reading (R147, R148). -/
def sweepObservations (p : Profile) (k : ItemKind) (r1 r2 : Int) : List (FaultKind × Verdict) :=
  match k with
  | .foreign => foreignObservation p (voltageCode r1) (voltageCode r2)
  | .diagUp => openPairObservation p (voltageCode r1)
  | .diagDown => openPairObservation p (voltageCode r1)
  | .loop => []

/-- The readings of a test item (R165). -/
def testReading (k : ItemKind) (b : Nat) (r1 r2 : Int) : TestReading :=
  match k with
  | .loop => .loop (currentCode r1) (currentCode r2) b
  | .foreign => .foreign (voltageCode r1) (voltageCode r2)
  | .diagUp => .diagUp (voltageCode r1)
  | .diagDown => .diagDown (voltageCode r1)

/-- The result of an item is handed on (R32, R33): a test item's to Port T (R165), a sweep item's to the Fault Monitor and then to the
Sweep Unit (R143); a DISTURBED sweep reading is no observation. -/
def handOnItem (i : Item) (t : Time) (r1 r2 : Int) (s : State) : State :=
  match i.origin with
  | .test =>
    writeEvent ⟨false, false, s.attached .t⟩ (some i.line) t
      (.testResult (testReading i.kind (s.line i.line).baseline r1 r2) i.disturbed) s
  | .sweep n =>
    tallyItem n
      (if i.disturbed then s else countGroup i.line t (sweepObservations (s.effective i.line) i.kind r1 r2) s)

/-- The recovery-discard flag is set by a completed item with a transient slot (R25). -/
def flagItem (i : Item) (r : Line) : Line := { r with recoveryDiscard := r.recoveryDiscard || i.transient }

/-- An item completes (R32). -/
def completeItem (b : Bank) (i : Item) (r1 r2 : Int) (s : State) : State :=
  handOnItem i (s.slotTime i.last) r1 r2
    (recomputeFeedWith (doneOrder i.kind) i.line ((s.setBankItem b none).modLine i.line (flagItem i)))

/-- ITEM_COMPLETE (R32): the item in progress on the bank completes once its last slot has started; otherwise nothing is taken. -/
def execItemComplete (b : Bank) (r1 r2 : Int) (s : State) : Host.Outcome State Fault Refusal :=
  match s.bankItem b with
  | some i => if i.last < s.scan.nextSlot then .next (completeItem b i r1 r2 s) else .next s
  | none => .next s

end Sys2Proof.Machine
end

