-- ==== Sys2Proof/Machine/Battery.lean ====
section
/-! DEFINITION. The Battery Monitor's changes of feed state (R181 to R183), and SET_FEED_LIMITS (R180). -/

namespace Sys2Proof.Machine

/-- A line in service gives up its loop at the loss of the battery (R182, rows IDLE, DIALLING, TALK). -/
def dropService (l : LineNo) (s : State) : State := releaseUnlocked l (s.modLine l (fun r => acquireFields (endDialling r)))

/-- What the loss of the battery does to one line (R182). -/
def loseLine (l : LineNo) (s : State) : State :=
  match (s.line l).state with
  | .idle => dropService l s
  | .dialling => dropService l s
  | .talk => dropService l s
  | .ringing => recomputeFeed l (dropService l (s.modLine l clearRinging))
  | .acquire => s.modLine l acquireFields
  | .blocked => s
  | .held => s

/-- A line in ACQUIRE restarts its acquisition when the battery leaves LOST (R183). -/
def restartLine (l : LineNo) (s : State) : State := if (s.line l).state = .acquire then s.modLine l acquireFields else s

/-- What a change of feed state does to the lines (R182, R183). -/
def feedLines (old new : FeedState) (s : State) : State :=
  if new = .lost ∧ old ≠ .lost then forLines allLines loseLine s
  else if old = .lost ∧ new ≠ .lost then forLines allLines restartLine s
  else s

/-- A change of feed state that is due is taken: the state, FEED dated at the run start, then its effects (R181, R182, R183, R145). -/
def changeFeed (c : FeedChange) (s : State) : State :=
  feedLines s.bat.feed c.cls
    (sweepsFollow c.cls
      (deviceEvent c.start (.feed c.cls c.code) { s with bat := { s.bat with feed := c.cls, run := none, due := none } }))

/-- FEED_STATE_CHANGE (R181): the change that the eighth sample of a run left due is taken; where none is due, nothing is taken. -/
def execFeedStateChange (s : State) : Host.Outcome State Fault Refusal :=
  match s.bat.due with
  | some c => .next (changeFeed c s)
  | none => .next s

/-- SET_FEED_LIMITS(lost, low): clamping, the map of the clamped values, and the spacing of at least 4 V (R180). -/
def feedLimitsRule (lost low : Nat) (s : State) : Reply :=
  let lo := clampNat 20 50 lost
  let hi := clampNat 30 56 low
  let map := [byteOf ((if lo = lost then 0 else 1) + (if hi = low then 0 else 2))]
  if lo + 4 ≤ hi then ⟨.ok, map, { s with bat := { s.bat with lostLimit := lo, lowLimit := hi } }⟩ else ⟨.badProfile, map, s⟩

/-- SET_FEED_LIMITS (R180). -/
def execSetFeedLimits (p : Port) (tail : List Byte) (s : State) : Host.Outcome State Fault Refusal :=
  serve p 0x17 2 .controllers tail (fun pl s => feedLimitsRule (arg pl 0).toNat (arg pl 1).toNat s) s

end Sys2Proof.Machine
end

