-- ==== Sys2Proof/Machine/LineTable.lean ====
section
/-! DEFINITION. The requests of the controllers on lines, profiles and sweeps: subscription and timeslot (R4 to R6), the Profile Store
(R8 to R14, R18), BLOCK and UNBLOCK (R76, R77), END_DIAL and CLEAR_DIAL (R94, R95), RING and RING_STOP (R123, R126), and the sweep
requests (R136 to R138). -/

namespace Sys2Proof.Machine

/-! ### Subscription and timeslot (R4 to R6) -/

/-- SET_SUBSCRIPTION(line, set) (R4). -/
def subscriptionRule (l : LineNo) (b : Byte) (s : State) : Reply :=
  match subscriptionOf b with
  | none => deny .badRange s
  | some q => accept (s.modLine l (fun r => { r with subscription := q }))

/-- SET_SUBSCRIPTION (R4). -/
def execSetSubscription (p : Port) (tail : List Byte) (s : State) : Host.Outcome State Fault Refusal :=
  serve p 0x14 2 .controllers tail (fun pl s => withLine (arg pl 0) s (fun l => subscriptionRule l (arg pl 1) s)) s

/-- A line other than `l` holds the timeslot (R5). -/
def State.slotTaken (s : State) (l : LineNo) (t : Timeslot) : Bool :=
  allLines.any (fun m => decide (m ≠ l) && decide ((s.line m).timeslot = some t))

/-- The state with a line's timeslot replaced. -/
def State.setTimeslot (s : State) (l : LineNo) (t : Option Timeslot) : State := s.modLine l (fun r => { r with timeslot := t })

/-- A detector whose line's timeslot changes from one slot to another: its block in progress is marked, and a tone digit or a candidate
ends silently (R119). -/
def retuned (r : Detector) : Detector := { r with discardMark := true, decision := .mute none }

/-- The detector of a line whose timeslot changes from one slot to another (R119). -/
def retune (l : LineNo) (s : State) : State :=
  match heldDet (s.line l).detStatus with
  | some d => s.setDet d (retuned (s.det d))
  | none => s

/-- A timeslot byte: none is refused, some none is NONE (R5). -/
def timeslotOf (b : Byte) : Option (Option Timeslot) :=
  if h : b.toNat < 128 then some (some ⟨b.toNat, h⟩) else if b.toNat = 255 then some none else none

/-- A line takes a slot that no other line holds (R5, R6). -/
def takeSlot (l : LineNo) (t : Timeslot) (s : State) : State :=
  match (s.line l).timeslot with
  | none => s.setTimeslot l (some t)
  | some u => if u = t then s else retune l (s.setTimeslot l (some t))

/-- SET_TIMESLOT(line, timeslot) (R5, R6). -/
def timeslotRule (l : LineNo) (b : Byte) (s : State) : Reply :=
  match timeslotOf b with
  | none => deny .badRange s
  | some none => accept ((releaseAny l s).setTimeslot l none)
  | some (some t) => if s.slotTaken l t then deny .slotInUse s else accept (takeSlot l t s)

/-- SET_TIMESLOT (R5). -/
def execSetTimeslot (p : Port) (tail : List Byte) (s : State) : Host.Outcome State Fault Refusal :=
  serve p 0x15 2 .controllers tail (fun pl s => withLine (arg pl 0) s (fun l => timeslotRule l (arg pl 1) s)) s

/-- READ_LINE (R19). -/
def execReadLine (p : Port) (tail : List Byte) (s : State) : Host.Outcome State Fault Refusal :=
  serve p 0x16 1 .all tail (fun pl s => withLine (arg pl 0) s (fun l => ⟨.ok, lineReport l s, s⟩)) s

/-! ### The Profile Store (R8 to R14, R18) -/

/-- A line whose effective auto block a write changed: its FAULT reason and its feed mode are recomputed (R18, R36). -/
def recomputeAutoBlock (before after : State) (l : LineNo) (s : State) : State :=
  if (before.effective l).autoBlock = (after.effective l).autoBlock then s else recomputeFeed l (recomputeReason l s)

/-- A write to the Profile Store is taken: the store is replaced, PROFILE_CHANGED is reported, and the lines whose effective auto block
changed are recomputed in ascending order (R14, R18). -/
def writeStore (writer : Port) (item : StoreItem) (st : Store) (s : State) : State :=
  let s1 := { s with store := st }
  forLines allLines (recomputeAutoBlock s s1) (deviceEvent s.now (.profileChanged writer item) s1)

/-- A profile number from a byte. -/
def profileNoOf (b : Byte) : Option ProfileNo := if h : b.toNat < 8 then some ⟨b.toNat, h⟩ else none

/-- A range entry index from a byte. -/
def rangeNoOf (b : Byte) : Option (Fin 8) := if h : b.toNat < 8 then some ⟨b.toNat, h⟩ else none

/-- A line number from a byte that is no line field of R1. -/
def lineNoOf (b : Byte) : Option LineNo := if h : b.toNat < 64 then some ⟨b.toNat, h⟩ else none

/-- WRITE_PROFILE(n, fields) (R8, R9). -/
def writeProfileRule (p : Port) (pl : List Byte) (s : State) : Reply :=
  match profileNoOf (arg pl 0), profileOf (pl.drop 1) with
  | some n, some sent =>
    let q := clampProfile sent
    let map := bytes4 (clampedMap sent q)
    if profileOrdered q then
      ⟨.ok, map, writeStore p (.profile n) { s.store with profiles := s.store.profiles.set n q } s⟩
    else ⟨.badProfile, map, s⟩
  | _, _ => ⟨.badProfile, bytes4 0, s⟩

/-- WRITE_PROFILE (R8). -/
def execWriteProfile (p : Port) (tail : List Byte) (s : State) : Host.Outcome State Fault Refusal :=
  serve p 0x10 51 .controllers tail (writeProfileRule p) s

/-- READ_PROFILE(n) (R10). -/
def readProfileRule (b : Byte) (s : State) : Reply :=
  match profileNoOf b with
  | some n => ⟨.ok, profileForm s.store.profiles[n], s⟩
  | none => deny .badProfile s

/-- READ_PROFILE (R10). -/
def execReadProfile (p : Port) (tail : List Byte) (s : State) : Host.Outcome State Fault Refusal :=
  serve p 0x11 1 .all tail (fun pl s => readProfileRule (arg pl 0) s) s

/-- The range entry a WRITE_RANGE asks for, with its index; none is refused (R11). -/
def rangeOf (pl : List Byte) : Option (Fin 8 × RangeEntry) :=
  match rangeNoOf (arg pl 0), lineNoOf (arg pl 1), lineNoOf (arg pl 2), profileNoOf (arg pl 3), yesOf (arg pl 4) with
  | some i, some a, some b, some n, some e => if a ≤ b then some (i, ⟨a, b, n, e⟩) else none
  | _, _, _, _, _ => none

/-- WRITE_RANGE(index, first, last, profile, enabled) (R11). -/
def writeRangeRule (p : Port) (pl : List Byte) (s : State) : Reply :=
  match rangeOf pl with
  | some (i, r) => accept (writeStore p (.range i) { s.store with ranges := s.store.ranges.set i r } s)
  | none => deny .badRange s

/-- WRITE_RANGE (R11). -/
def execWriteRange (p : Port) (tail : List Byte) (s : State) : Host.Outcome State Fault Refusal :=
  serve p 0x12 5 .controllers tail (writeRangeRule p) s

/-- An override from a byte: 0..7, or 255 for unset (R12). -/
def overrideOf (b : Byte) : Option (Option ProfileNo) :=
  match profileNoOf b with
  | some n => some (some n)
  | none => if b.toNat = 255 then some none else none

/-- WRITE_OVERRIDE(line, value) (R12). -/
def writeOverrideRule (p : Port) (l : LineNo) (b : Byte) (s : State) : Reply :=
  match overrideOf b with
  | some v => accept (writeStore p (.override l) { s.store with overrides := s.store.overrides.set l v } s)
  | none => deny .badProfile s

/-- WRITE_OVERRIDE (R12). -/
def execWriteOverride (p : Port) (tail : List Byte) (s : State) : Host.Outcome State Fault Refusal :=
  serve p 0x13 2 .controllers tail (fun pl s => withLine (arg pl 0) s (fun l => writeOverrideRule p l (arg pl 1) s)) s

/-! ### Requests on a line -/

/-- BLOCK (R76). -/
def execBlock (p : Port) (tail : List Byte) (s : State) : Host.Outcome State Fault Refusal :=
  serve p 0x20 1 .controllers tail
    (fun pl s => withLine (arg pl 0) s (fun l => accept (setReasons l { (s.line l).reasons with controller := true } s))) s

/-- UNBLOCK (R77). -/
def execUnblock (p : Port) (tail : List Byte) (s : State) : Host.Outcome State Fault Refusal :=
  serve p 0x21 1 .controllers tail
    (fun pl s => withLine (arg pl 0) s (fun l => accept (setReasons l { (s.line l).reasons with controller := false } s))) s

/-- RING(line) (R123). -/
def ringRule (l : LineNo) (s : State) : Reply :=
  if (s.line l).state ≠ .idle then deny .wrongState s
  else if s.bat.feed ≠ .normal then deny .feedLow s
  else accept (startRinging l s)

/-- RING (R123). -/
def execRing (p : Port) (tail : List Byte) (s : State) : Host.Outcome State Fault Refusal :=
  serve p 0x22 1 .controllers tail (fun pl s => withLine (arg pl 0) s (fun l => ringRule l s)) s

/-- RING_STOP(line) (R126). -/
def ringStopRule (l : LineNo) (s : State) : Reply :=
  if (s.line l).state = .ringing then accept (stopRinging l s) else deny .wrongState s

/-- RING_STOP (R126). -/
def execRingStop (p : Port) (tail : List Byte) (s : State) : Host.Outcome State Fault Refusal :=
  serve p 0x23 1 .controllers tail (fun pl s => withLine (arg pl 0) s (fun l => ringStopRule l s)) s

/-- END_DIAL(line) (R94). -/
def endDialRule (l : LineNo) (s : State) : Reply :=
  if (s.line l).state = .dialling then accept (endDial l s) else deny .wrongState s

/-- END_DIAL (R94). -/
def execEndDial (p : Port) (tail : List Byte) (s : State) : Host.Outcome State Fault Refusal :=
  serve p 0x24 1 .controllers tail (fun pl s => withLine (arg pl 0) s (fun l => endDialRule l s)) s

/-- CLEAR_DIAL(line) (R95). -/
def clearDialRule (l : LineNo) (s : State) : Reply :=
  if (s.line l).state = .held then deny .wrongState s else accept (clearDial l s)

/-- CLEAR_DIAL (R95). -/
def execClearDial (p : Port) (tail : List Byte) (s : State) : Host.Outcome State Fault Refusal :=
  serve p 0x25 1 .controllers tail (fun pl s => withLine (arg pl 0) s (fun l => clearDialRule l s)) s

/-! ### Sweep requests (R136 to R138) -/

/-- A sweep number from a byte. -/
def sweepNoOf (b : Byte) : Option SweepNo := if h : b.toNat < 4 then some ⟨b.toNat, h⟩ else none

/-- A sweep that WRITE_SWEEP and START_SWEEP refuse: ACTIVE or PAUSED, or with an item in progress (R136, R137). -/
def sweepBusy (w : Sweep) : Bool := decide (w.state ≠ .idle) || decide (0 < w.items)

/-- A refused WRITE_SWEEP: its map is zero (R136, R185). -/
def denySweep (st : Status) (s : State) : Reply := ⟨st, [byteOf 0], s⟩

/-- A WRITE_SWEEP that passes its checks (R136). -/
def takeSweep (n : SweepNo) (kind : SweepKind) (first : LineNo) (count : Nat) (step : SweepStep) (rept : SweepRepeat)
    (blockLength : Nat) (s : State) : Reply :=
  let c := clampNat 1 64 count
  let b := clampNat 1 64 blockLength
  ⟨.ok, [byteOf ((if c = count then 0 else 1) + (if b = blockLength then 0 else 2))],
    s.setSw n { s.sw n with
      kind := kind, first := first, count := c, step := step, rept := rept, blockLength := b
      cursor := 0, measured := 0, skipped := 0, closing := false }⟩

/-- WRITE_SWEEP(n, kind, first line, count, step, repeat, block length): the checks in the order of R136. -/
def writeSweepRule (pl : List Byte) (s : State) : Reply :=
  match sweepNoOf (arg pl 0), sweepKindOf (arg pl 1), sweepStepOf (arg pl 4), sweepRepeatOf (arg pl 5) with
  | some n, some kind, some step, some rept =>
    match lineNoOf (arg pl 2) with
    | none => denySweep .badLine s
    | some first =>
      if sweepBusy (s.sw n) then denySweep .sweepActive s
      else takeSweep n kind first (arg pl 3).toNat step rept (arg pl 6).toNat s
  | _, _, _, _ => denySweep .badRange s

/-- WRITE_SWEEP (R136). -/
def execWriteSweep (p : Port) (tail : List Byte) (s : State) : Host.Outcome State Fault Refusal :=
  serve p 0x30 7 .controllers tail writeSweepRule s

/-- START_SWEEP(n, mode) (R137). -/
def startSweepRule (nb mb : Byte) (s : State) : Reply :=
  match sweepNoOf nb, rewindOf mb with
  | some n, some rewind => if sweepBusy (s.sw n) then deny .sweepActive s else accept (startSweep n rewind s)
  | _, _ => deny .badRange s

/-- START_SWEEP (R137). -/
def execStartSweep (p : Port) (tail : List Byte) (s : State) : Host.Outcome State Fault Refusal :=
  serve p 0x31 2 .controllers tail (fun pl s => startSweepRule (arg pl 0) (arg pl 1) s) s

/-- STOP_SWEEP(n) (R138). -/
def stopSweepRule (nb : Byte) (s : State) : Reply :=
  match sweepNoOf nb with
  | some n => accept (stopSweep n s)
  | none => deny .badRange s

/-- STOP_SWEEP (R138). -/
def execStopSweep (p : Port) (tail : List Byte) (s : State) : Host.Outcome State Fault Refusal :=
  serve p 0x32 1 .controllers tail (fun pl s => stopSweepRule (arg pl 0) s) s

end Sys2Proof.Machine
end

