-- ==== Sys2Proof/Machine/TestAccess.lean ====
section
/-! DEFINITION. The Test Access Unit (chapter 9): HOLD, SET_TEST_FEED, MEASURE, RELEASE, and the loss of the test port. -/

namespace Sys2Proof.Machine

/-! ### HOLD (R158 to R161) -/

/-- The lowest-numbered free shadow slot (R159). -/
def State.freeShadow (s : State) : Option ShadowNo := (List.finRange 4).find? (fun n => (s.test.shadows[n]).isNone)

/-- The state with one shadow slot replaced. -/
def State.setShadow (s : State) (n : ShadowNo) (v : Option Shadow) : State :=
  { s with test := { s.test with shadows := s.test.shadows.set n v } }

/-- A line being rung or in a call, which HOLD takes only with force (R158). -/
def inCall (st : LineState) : Bool := decide (st = .ringing) || decide (st = .dialling) || decide (st = .talk)

/-- What a shadow slot stores of a line (R159). -/
def shadowOf (l : LineNo) (r : Line) : Shadow := ⟨l, r.state, r.loop, r.dialRecord, r.overflow, r.faults, r.baseline⟩

/-- The fields a HOLD sets (R160): everything the line had under way ends; a LOOP measurement in progress ends at its last values. -/
def heldFields (n : ShadowNo) (r : Line) : Line :=
  { discardMeasuring (endDialling r) with
    state := .held
    loop := .unknown
    run := none
    acquireCount := 0
    breakStart := none
    hangupExpiry := none
    ringPhase := none
    ringPhaseExpiry := none
    ringLimitExpiry := none
    shadowSlot := some n
    testFeed := some .highZ }

/-- A HOLD is taken into shadow slot `n` (R159 to R161). -/
def takeHold (l : LineNo) (n : ShadowNo) (force : Bool) (s : State) : State :=
  let r := s.line l
  let s1 := (releaseAny l (s.setShadow n (some (shadowOf l r)))).modLine l (heldFields n)
  let s2 := recomputeFeed l s1
  writeEvent (s2.holdPorts l) (some l) s.now (.holdTaken (force && inCall r.state) n r.state) s2

/-- HOLD(line, force): the checks in order, then the hold (R158). -/
def holdRule (l : LineNo) (forceByte : Byte) (s : State) : Reply :=
  match yesOf forceByte with
  | none => deny .badRange s
  | some force =>
    if (s.line l).state = .held then deny .wrongState s
    else
      match s.freeShadow with
      | none => deny .noShadow s
      | some n =>
        if inCall (s.line l).state = true ∧ force = false then deny .lineBusy s
        else ⟨.ok, [byteOf n.val], takeHold l n force s⟩

/-- HOLD (R158). -/
def execHold (p : Port) (tail : List Byte) (s : State) : Host.Outcome State Fault Refusal :=
  serve p 0x40 2 .test tail (fun pl s => withLine (arg pl 0) s (fun l => holdRule l (arg pl 1) s)) s

/-! ### SET_TEST_FEED and MEASURE (R163, R164) -/

/-- SET_TEST_FEED(line, selector, flags) (R163). -/
def testFeedRule (l : LineNo) (selector flags : Byte) (s : State) : Reply :=
  match testFeedOf selector flags with
  | none => deny .badRange s
  | some m =>
    if (s.line l).state = .held then accept (recomputeFeed l (s.modLine l (fun r => { r with testFeed := some m })))
    else deny .notHeld s

/-- SET_TEST_FEED (R163). -/
def execSetTestFeed (p : Port) (tail : List Byte) (s : State) : Host.Outcome State Fault Refusal :=
  serve p 0x42 3 .test tail (fun pl s => withLine (arg pl 0) s (fun l => testFeedRule l (arg pl 1) (arg pl 2) s)) s

/-- MEASURE(line, kind) (R164). -/
def measureRule (l : LineNo) (kindByte : Byte) (s : State) : Reply :=
  match itemKindOf kindByte with
  | none => deny .badRange s
  | some k =>
    if (s.line l).state = .held then
      if Config.testQueueMax ≤ s.test.queue.length then deny .queueFull s
      else ⟨.ok, [byteOf (s.test.queue.length + 1)], { s with test := { s.test with queue := s.test.queue ++ [⟨l, k⟩] } }⟩
    else deny .notHeld s

/-- MEASURE (R164). -/
def execMeasure (p : Port) (tail : List Byte) (s : State) : Host.Outcome State Fault Refusal :=
  serve p 0x43 2 .test tail (fun pl s => withLine (arg pl 0) s (fun l => measureRule l (arg pl 1) s)) s

/-! ### RELEASE (R166 to R168) -/

/-- The items of a line leave the Test Queue, and the round's test part shrinks by those it held (R166 step 1, R27). -/
def dropItems (l : LineNo) (s : State) : State :=
  { s with
    test := { s.test with queue := s.test.queue.filter (fun i => decide (i.line ≠ l)) }
    scan := { s.scan with
      testPart := ((s.test.queue.take s.scan.testPart).filter (fun i => decide (i.line ≠ l))).length } }

/-- The shadow of a line: what its slot holds; with no slot, the line as it stands (a state no run reaches). -/
def State.shadowFor (s : State) (l : LineNo) : Shadow :=
  match (s.line l).shadowSlot with
  | some n => (s.test.shadows[n]).getD (shadowOf l (s.line l))
  | none => shadowOf l (s.line l)

/-- The line's shadow slot is freed (R166 step 2). -/
def freeSlotOf (l : LineNo) (s : State) : State :=
  match (s.line l).shadowSlot with
  | some n => s.setShadow n none
  | none => s

/-- The record is written by the mode (R166 step 3). -/
def writeBack (m : ReleaseMode) (sh : Shadow) (r : Line) : Line :=
  match m with
  | .restore =>
    { r with shadowSlot := none, testFeed := none, dialRecord := sh.dialRecord, overflow := sh.overflow, faults := sh.faults,
             baseline := sh.baseline }
  | .fresh =>
    { r with shadowSlot := none, testFeed := none, dialRecord := [], overflow := false, faults := resetFaultSet, baseline := 0 }

/-- The state and loop condition of a released line (R167). -/
def releasedTo (rs : Reasons) (m : ReleaseMode) (sh : Shadow) : LineState × LoopCond :=
  if rs.none then
    match m with
    | .restore => if sh.state = .idle then (.idle, .opened) else (.acquire, .unknown)
    | .fresh => (.acquire, .unknown)
  else
    match m with
    | .restore => (.blocked, sh.loop)
    | .fresh => (.blocked, .unknown)

/-- The record of a released line: its state, and no run, break or timer (R167). -/
def releasedFields (rs : Reasons) (dst : LineState × LoopCond) (r : Line) : Line :=
  { endDialling r with
    reasons := rs
    state := dst.1
    loop := dst.2
    run := none
    acquireCount := 0
    breakStart := none
    hangupExpiry := none }

/-- A line is released (R166 to R168): HOLD_RELEASED, then BLOCK_CHANGED if the recomputation changed the reason set. -/
def releaseLine (l : LineNo) (m : ReleaseMode) (why : ReleaseReason) (s : State) : State :=
  let sh := s.shadowFor l
  let old := (s.line l).reasons
  let s1 := (freeSlotOf l (dropItems l s)).modLine l (writeBack m sh)
  let rs : Reasons := { old with fault := s1.faultReason l }
  let dst := releasedTo rs m sh
  let s2 := recomputeFeed l (s1.modLine l (releasedFields rs dst))
  let s3 := writeEvent (s2.holdPorts l) (some l) s.now (.holdReleased m why dst.1) s2
  if rs = old then s3 else lineEvent l s.now (.blockChanged rs) s3

/-- RELEASE(line, mode) (R166). -/
def releaseRule (l : LineNo) (modeByte : Byte) (s : State) : Reply :=
  match releaseModeOf modeByte with
  | none => deny .badRange s
  | some m => if (s.line l).state = .held then accept (releaseLine l m .request s) else deny .notHeld s

/-- RELEASE (R166). -/
def execRelease (p : Port) (tail : List Byte) (s : State) : Host.Outcome State Fault Refusal :=
  serve p 0x41 2 .test tail (fun pl s => withLine (arg pl 0) s (fun l => releaseRule l (arg pl 1) s)) s

/-! ### Loss of the test port (R169) -/

/-- The Test Queue is emptied, the round's test part with it (R169). -/
def emptyQueue (s : State) : State :=
  { s with test := { s.test with queue := [] }, scan := { s.scan with testPart := 0 } }

/-- Port T has left ATTACHED: the queue is emptied, and every HELD line is released in ascending order, RESTORE, LAPSE (R169). -/
def loseTestPort (s : State) : State :=
  forLines allLines (fun l s => if (s.line l).state = .held then releaseLine l .restore .lapse s else s) (emptyQueue s)

end Sys2Proof.Machine
end

