-- ==== Sys2Proof/Machine/Ports.lean ====
section
/-! DEFINITION. Reset (R2), and the Port Interface's own requests and events: NOP and unknown codes (R185), attachment (R186 to R189),
the reading of the journal (R192), the alert mask (R194), the status (R195), and the window expiry (R188). -/

namespace Sys2Proof.Machine

/-! ### Reset, NOP, unknown codes -/

/-- RESET (R2): every piece of the part's state takes its reset value; the commands that wait outside the part are not the part's. -/
def execReset (s : State) : Host.Outcome State Fault Refusal := .next { State.reset with pending := s.pending }

/-- NOP (R185). -/
def execNop (p : Port) (tail : List Byte) (s : State) : Host.Outcome State Fault Refusal :=
  serve p 0x00 0 .all tail (fun _ s => accept s) s

/-- A frame whose code is in no row of the table is refused with BAD_CODE (R185 step 1); a code that has a row is that row's command,
and no command is taken here. -/
def execUnknownCodeRequest (p : Port) (code : Byte) (tail : List Byte) (s : State) : Host.Outcome State Fault Refusal :=
  if knownCode code then .next s else .next (respond p code .badCode [] (recordOut p (tail.length + 1) s))

/-! ### Attachment (R186, R187, R189) -/

/-- An alert mask that a request may carry: bits 6 and 7 clear (R186, R194). -/
def maskOf (b : Byte) : Option (BitVec 6) := if b.toNat < 64 then some (b.setWidth 6) else none

/-- The record of a port that attaches in time unit `t` with a window in ms and a mask (R186 steps 1, 3 and 4). -/
def attachedRec (t : Time) (window : Nat) (mask : BitVec 6) (r : PortRec) : PortRec :=
  { r with
    state := .attached
    window := window
    alertMask := mask
    gap := 0
    phase := false
    expiry := some (timeAfter t (msUnits window)) }

/-- The attached controller ports other than one port (R190). -/
def State.otherControllers (s : State) (p : Port) : PortSet := s.attachedControllers.without p

/-- The attached ports other than one port (R190). -/
def State.otherPorts (s : State) (p : Port) : PortSet := s.attachedPorts.without p

/-- An ATTACH is taken (R186 steps 1 to 5). -/
def takeAttach (p : Port) (window : Nat) (mask : BitVec 6) (s : State) : State :=
  let before := (s.port p).state
  let s1 := dropPort p (s.setPort p (attachedRec s.now window mask (s.port p)))
  writeEvent (s1.otherControllers p) none s.now (.portAttached p before) s1

/-- ATTACH(window, mask) (R186). -/
def attachRule (p : Port) (window : Nat) (maskByte : Byte) (s : State) : Reply :=
  match maskOf maskByte with
  | none => deny .badRange s
  | some mask => ⟨.ok, bytes2 (clampNat 500 8000 window), takeAttach p (clampNat 500 8000 window) mask s⟩

/-- ATTACH (R186). -/
def execAttach (p : Port) (tail : List Byte) (s : State) : Host.Outcome State Fault Refusal :=
  serve p 0x01 3 .all tail (fun pl s => attachRule p (word2 pl 0) (arg pl 2) s) s

/-- A port leaves ATTACHED, with its record kept but for state and expiry: it leaves every pending set, and PORT_LAPSED is reported
(R188 steps 1 to 3, R189). -/
def leavePort (p : Port) (st : PortState) (why : LapseCause) (s : State) : State :=
  let s1 := dropPort p (s.setPort p { s.port p with state := st, expiry := none })
  writeEvent (s1.otherPorts p) none s.now (.portLapsed p why) s1

/-- A port whose leaving takes the held lines with it: Port T (R188 step 5). -/
def leaveTest (p : Port) (s : State) : State :=
  match p with
  | .t => loseTestPort s
  | .a => s
  | .b => s

/-- DETACH (R189). -/
def execDetach (p : Port) (tail : List Byte) (s : State) : Host.Outcome State Fault Refusal :=
  serve p 0x02 0 .all tail (fun _ s => accept (leaveTest p (leavePort p .detached .detach s))) s

/-- The response payload of KEEPALIVE: the expected phase (R187). -/
def phasePayload (b : Bool) : List Byte := [byteOf (yesCode b)]

/-- A KEEPALIVE with the expected phase re-arms the window and flips the phase (R187). -/
def keptAlive (t : Time) (r : PortRec) : PortRec := { r with expiry := some (timeAfter t (msUnits r.window)), phase := !r.phase }

/-- KEEPALIVE(phase) (R187). -/
def keepaliveRule (p : Port) (b : Byte) (s : State) : Reply :=
  match yesOf b with
  | none => deny .badRange s
  | some ph =>
    if ph = (s.port p).phase then ⟨.ok, phasePayload (!(s.port p).phase), s.setPort p (keptAlive s.now (s.port p))⟩
    else ⟨.phaseOrder, phasePayload (s.port p).phase, s⟩

/-- KEEPALIVE (R187). -/
def execKeepalive (p : Port) (tail : List Byte) (s : State) : Host.Outcome State Fault Refusal :=
  serve p 0x03 1 .all tail (fun pl s => keepaliveRule p (arg pl 0) s) s

/-! ### The journal and the mask (R192, R194, R195) -/

/-- The first `n` entries pending for a port lose it from their pending sets; an entry left with none is freed (R192). -/
def takeEntries (p : Port) : Nat → List Entry → List Entry
  | _, [] => []
  | 0, es => es
  | n + 1, e :: es =>
    if e.pend.has p then
      let q := e.pend.without p
      if q.isEmpty then takeEntries p n es else { e with pend := q } :: takeEntries p n es
    else e :: takeEntries p (n + 1) es

/-- The GAP record that comes first when the port has lost entries (R192). -/
def gapRecord (p : Port) (s : State) : List (List Byte) :=
  if 0 < (s.port p).gap then [gapBytes s.now (qualityOf s.tb) (s.port p).gap] else []

/-- READ_EVENTS taken for at most `n` records (R192). -/
def readEvents (p : Port) (n : Nat) (s : State) : Reply :=
  let gap := gapRecord p s
  let k := n - gap.length
  let records := gap ++ ((s.pendingFor p).take k).map (fun e => eventBytes e.event)
  ⟨.ok, records.flatten, { s.setPort p { s.port p with gap := 0 } with journal := takeEntries p k s.journal }⟩

/-- READ_EVENTS(max) (R192). -/
def readEventsRule (p : Port) (b : Byte) (s : State) : Reply :=
  if b.toNat = 0 ∨ 5 < b.toNat then deny .badRange s else readEvents p b.toNat s

/-- READ_EVENTS (R192). -/
def execReadEvents (p : Port) (tail : List Byte) (s : State) : Host.Outcome State Fault Refusal :=
  serve p 0x04 1 .all tail (fun pl s => readEventsRule p (arg pl 0) s) s

/-- SET_ALERT_MASK(mask) (R194). -/
def alertMaskRule (p : Port) (b : Byte) (s : State) : Reply :=
  match maskOf b with
  | none => deny .badRange s
  | some m => accept (s.setPort p { s.port p with alertMask := m })

/-- SET_ALERT_MASK (R194). -/
def execSetAlertMask (p : Port) (tail : List Byte) (s : State) : Host.Outcome State Fault Refusal :=
  serve p 0x05 1 .all tail (fun pl s => alertMaskRule p (arg pl 0) s) s

/-- READ_STATUS (R195). -/
def execReadStatus (p : Port) (tail : List Byte) (s : State) : Host.Outcome State Fault Refusal :=
  serve p 0x06 0 .all tail (fun _ s => ⟨.ok, statusReport p s, s⟩) s

/-! ### The window expiry (R188) -/

/-- The other controller port. -/
def otherController (p : Port) : Option Port :=
  match p with
  | .a => some .b
  | .b => some .a
  | .t => none

/-- The subscription of one controller port alone. -/
def onlySubscription (p : Port) : Subscription := ⟨decide (p = .a), decide (p = .b)⟩

/-- The lines that move at the takeover of port `p` (R188 step 4). -/
def State.movingLines (s : State) (p : Port) : List LineNo :=
  allLines.filter (fun l => decide ((s.line l).subscription = onlySubscription p) && (s.effective l).takeover)

/-- Takeover: the lines move to `q`, and TAKEOVER is written for it when one or more moved (R188 step 4). -/
def takeover (p q : Port) (s : State) : State :=
  let ls := s.movingLines p
  let s1 := forLines ls (fun l s => s.modLine l (fun r => { r with subscription := onlySubscription q })) s
  if ls.isEmpty then s1 else writeEvent (onlyPort q) none s.now (.takeover p ls.length) s1

/-- Takeover when the lapsed port is a controller whose fellow is ATTACHED (R188 step 4). -/
def takeoverStep (p : Port) (s : State) : State :=
  match otherController p with
  | some q => if s.attached q then takeover p q s else s
  | none => s

/-- The lines of one state that are HELD, each of which the loss of Port T releases (R169). -/
def State.heldLines (s : State) : List LineNo := allLines.filter (fun l => decide ((s.line l).state = .held))

/-- What the lapse of a port does to the lines: that of Port T releases the held ones; it is an expiry, taken with a time unit, so a slot
begun with that unit is made again for them (R188 step 5, R169, R22). -/
def lapseTest (p : Port) (s : State) : State :=
  match p with
  | .t => forLines s.heldLines remakeSlot (loseTestPort s)
  | .a => s
  | .b => s

/-- A port lapses (R188). -/
def lapsePort (p : Port) (s : State) : State := lapseTest p (takeoverStep p (leavePort p .lapsed .lapse s))

/-- WINDOW_EXPIRY (R188): the due window expiry of an ATTACHED port is taken; otherwise nothing is taken. -/
def execWindowExpiry (p : Port) (s : State) : Host.Outcome State Fault Refusal :=
  if s.attached p = true ∧ expiryDue s.now (s.port p).expiry = true then .next (lapsePort p s) else .next s

end Sys2Proof.Machine
end

