-- ==== Sys2Proof/Machine/TimeBase.lean ====
section
/-! DEFINITION. The Time Base (R170 to R179): oscillator cycles, units, frame syncs, the flywheel, loss of lock, relock and
calibration. A command of the Time Base carries the oscillator forward to the moment it names, and what the oscillator brings about
before that moment comes about on the way. -/

namespace Sys2Proof.Machine

/-- The state with another Time Base. -/
def State.setTb (s : State) (tb : TimeBase) : State := { s with tb := tb }

/-! ### Units (R170) -/

/-- A time unit is emitted: the counter counts, the pool review counts, and each assigned detector takes a sample (R170, R98, R112). -/
def emitUnit (k : UnitKind) (s : State) : State :=
  sampleAll k
    { s with
      tb := { s.tb with counter := timeAfter s.tb.counter 1, u := 0 }
      pool := countReview s.pool }

/-! ### Cycles (R171) -/

/-- `c` oscillator cycles pass at the Time Base in which nothing falls due (R171, R175, R177). -/
def advanceTb (c : Nat) (tb : TimeBase) : TimeBase :=
  { tb with
    g := if tb.hasRef then tb.g + c else tb.g
    u := tb.u + c
    acc := if tb.lock = .freeRun then tb.acc + 64 * c else tb.acc
    window := tb.window.map (fun w => { w with cycles := w.cycles + c }) }

/-- `c` oscillator cycles pass in which nothing falls due. -/
def advance (c : Nat) (s : State) : State := s.setTb (advanceTb c s.tb)

/-- What the oscillator brings about by itself. -/
inductive TbEvent
  | flywheel
  | loss
  | free
  | relockExpiry
deriving DecidableEq, Repr

/-- The cycles until the flywheel unit for the frame expected (R173). -/
def toFlywheel (tb : TimeBase) : Nat := windowPassedAt tb.cal tb.n - tb.g

/-- The cycles until the loss of lock (R174). -/
def toLoss (tb : TimeBase) : Nat := lossAt tb.cal - tb.g

/-- The cycles until the next free unit (R175). -/
def toFree (tb : TimeBase) : Nat := cyclesToFreeUnit tb.cal tb.acc

/-- The cycles until the window for frame 1 passes in FREE_RUN (R176). -/
def toRelockExpiry (tb : TimeBase) : Nat := windowPassedAt tb.cal 1 - tb.g

/-- The next event of the oscillator and the cycles to it (R173 to R176). -/
def nextTbEvent (tb : TimeBase) : TbEvent × Nat :=
  match tb.lock with
  | .locked => if tb.n ≤ 2 then (.flywheel, toFlywheel tb) else (.loss, toLoss tb)
  | .freeRun =>
    if tb.hasRef = true ∧ toRelockExpiry tb < toFree tb then (.relockExpiry, toRelockExpiry tb) else (.free, toFree tb)

/-- The reference sync is dropped: there is none (R174, R176). -/
def dropRef (tb : TimeBase) : TimeBase := { tb with hasRef := false, g := 0, n := 1, relockRun := 0 }

/-- The flywheel unit: the frame expected rises, an open window is abandoned (R173, R177). -/
def flywheel (s : State) : State := emitUnit .flywheel (s.setTb { s.tb with n := s.tb.n + 1, window := none })

/-- The loss of lock (R174), reported with the time of the last good sync (R179). -/
def loseLock (s : State) : State :=
  deviceEvent s.tb.refTime (.timebase .freeRun s.tb.calStatus)
    (s.setTb { dropRef s.tb with lock := .freeRun, acc := 64 * s.tb.u, window := none })

/-- A free unit: Cal is subtracted from the accumulator (R175). -/
def freeUnit (s : State) : State := emitUnit .free (s.setTb { s.tb with acc := s.tb.acc - s.tb.cal })

/-- The window for frame 1 passes in FREE_RUN (R176). -/
def dropRelock (s : State) : State := s.setTb (dropRef s.tb)

/-- An event of the oscillator is taken. -/
def applyTbEvent (e : TbEvent) (s : State) : State :=
  match e with
  | .flywheel => flywheel s
  | .loss => loseLock s
  | .free => freeUnit s
  | .relockExpiry => dropRelock s

/-- `c` cycles pass, and what falls due within them is taken at its cycle. -/
def elapseWith : Nat → Nat → State → State
  | 0, c, s => advance c s
  | fuel + 1, c, s =>
    if (nextTbEvent s.tb).2 ≤ c then
      elapseWith fuel (c - (nextTbEvent s.tb).2) (applyTbEvent (nextTbEvent s.tb).1 (advance (nextTbEvent s.tb).2 s))
    else advance c s

/-- `c` cycles pass; no more events fall within them than the fuel allows for. -/
def elapse (c : Nat) (s : State) : State := elapseWith (2 * c + 4) c s

/-- The oscillator runs `d` cycles on to an event, which is taken at the last of them. -/
def runTo (e : TbEvent) (d : Nat) (s : State) : State :=
  if d = 0 then applyTbEvent e s else applyTbEvent e (advance 1 (elapse (d - 1) s))

/-! ### Calibration (R177, R178) -/

/-- A window has closed with a count (R178). -/
def takeCount (count : Nat) (tb : TimeBase) : TimeBase :=
  if countAccepted count then
    if tb.acceptedCount = 3 then
      { tb with cal := (tb.acceptedSum + count + 2) / 4, calStatus := .calibrated, acceptedCount := 0, acceptedSum := 0 }
    else { tb with acceptedCount := tb.acceptedCount + 1, acceptedSum := tb.acceptedSum + count }
  else tb

/-- A good sync in LOCKED advances the calibration window (R177). -/
def advanceWindow (tb : TimeBase) : TimeBase :=
  match tb.window with
  | none => { tb with window := some ⟨0, 0⟩ }
  | some w =>
    if Config.syncRun ≤ w.good + 1 then takeCount w.cycles { tb with window := some ⟨0, 0⟩ }
    else { tb with window := some { w with good := w.good + 1 } }

/-! ### Frame syncs (R172, R176) -/

/-- A good sync in LOCKED: a paced unit, the new reference, and the calibration window (R172). -/
def goodSync (frame : Vector Byte 128) (s : State) : State :=
  let s1 := emitUnit (.paced frame) (s.setTb { s.tb with g := 0, n := 1 })
  s1.setTb { advanceWindow s1.tb with refTime := s1.now }

/-- The reference sync is the one arriving now (R176). -/
def newRef (tb : TimeBase) : TimeBase := { tb with hasRef := true, g := 0, n := 1 }

/-- The first good sync of a relock run dates the run (R179). -/
def countRelock (tb : TimeBase) : TimeBase :=
  { newRef tb with
    relockRun := tb.relockRun + 1
    relockTime := if tb.relockRun = 0 then tb.counter else tb.relockTime }

/-- The 64th good sync of the run: the Time Base relocks (R176). -/
def relock (s : State) : State :=
  deviceEvent s.tb.relockTime (.timebase .locked s.tb.calStatus)
    (s.setTb { s.tb with lock := .locked, window := some ⟨0, 0⟩, refTime := s.tb.counter })

/-- A frame sync in FREE_RUN (R176). -/
def freeSync (s : State) : State :=
  if s.tb.hasRef = false then s.setTb (newRef s.tb)
  else if inWindow s.tb.cal s.tb.g 1 then
    let s1 := s.setTb (countRelock s.tb)
    if Config.syncRun ≤ s1.tb.relockRun then relock s1 else s1
  else s

/-- A frame sync is judged: R172 in LOCKED, R176 in FREE_RUN. -/
def judgeSync (frame : Vector Byte 128) (s : State) : State :=
  match s.tb.lock with
  | .locked => if inWindow s.tb.cal s.tb.g s.tb.n then goodSync frame s else s
  | .freeRun => freeSync s

/-! ### Commands -/

/-- FRAME_SYNC (R172, R176): `cycles` oscillator cycles after the last command of the Time Base, a sync arrives. -/
def execFrameSync (cycles : Nat) (frame : Vector Byte 128) (s : State) : Host.Outcome State Fault Refusal :=
  .next (judgeSync frame (elapse cycles s))

/-- FLYWHEEL_UNIT (R173): in LOCKED, at most two units after a good sync, the oscillator runs on to the flywheel unit. -/
def execFlywheelUnit (s : State) : Host.Outcome State Fault Refusal :=
  if s.tb.lock = .locked ∧ s.tb.n ≤ 2 then .next (runTo .flywheel (toFlywheel s.tb) s) else .next s

/-- LOSS_OF_LOCK (R174): in LOCKED, the oscillator runs on to the loss. -/
def execLossOfLock (s : State) : Host.Outcome State Fault Refusal :=
  if s.tb.lock = .locked then .next (runTo .loss (toLoss s.tb) s) else .next s

/-- FREE_UNIT (R175): in FREE_RUN, the oscillator runs on to the next free unit. -/
def execFreeUnit (s : State) : Host.Outcome State Fault Refusal :=
  if s.tb.lock = .freeRun then .next (runTo .free (toFree s.tb) s) else .next s

/-- RELOCK_WINDOW_EXPIRY (R176): in FREE_RUN with a reference, the oscillator runs on to the end of the window for frame 1. -/
def execRelockWindowExpiry (s : State) : Host.Outcome State Fault Refusal :=
  if s.tb.lock = .freeRun ∧ s.tb.hasRef = true then .next (runTo .relockExpiry (toRelockExpiry s.tb) s) else .next s

end Sys2Proof.Machine
end

