-- ==== Sys2Proof/Machine/Tone.lean ====
section
/-! DEFINITION. Tone block ends (R100 to R107), the law (R99), and locking (R116 to R118). -/

namespace Sys2Proof.Machine

/-! ### Block ends -/

/-- The block is discarded (R103). -/
def blockDiscarded (r : Line) (d : Detector) (b : EndedBlock) : Bool :=
  d.discardMark || b.freeRun || !(decide (r.state = .dialling) || decide (r.state = .talk)) || decide (r.loop = .opened) ||
    decide (0 < r.pulseCounter)

/-- What a decided block that gives `g`, with block start `t`, does to the decision state; and the digit it accepts, with its onset
(R105, R106). -/
def decideBlock (g : Option DigitCode) (t : Time) (x : Decision) : Decision × Option (DigitCode × Time) :=
  match x, g with
  | .mute none, none => (.mute none, none)
  | .mute none, some y => (.mute (some (y, t)), none)
  | .mute (some (c, t0)), some y => if y = c then (.tone c 0, some (c, t0)) else (.mute (some (y, t)), none)
  | .mute (some _), none => (.mute none, none)
  | .tone c k, some y => if y = c then (.tone c 0, none) else if k + 1 = 2 then (.mute none, none) else (.tone c (k + 1), none)
  | .tone c k, none => if k + 1 = 2 then (.mute none, none) else (.tone c (k + 1), none)

/-- The block end is taken from the detector: its discard mark is cleared (R103). -/
def endTaken (r : Detector) : Detector := { r with ended := none, discardMark := false }

/-- A decided block at a detector: the used bit (R104) and the decision state (R105, R106). -/
def decidedDetector (e : Energies) (x : Decision) (r : Detector) : Detector :=
  { r with used := r.used || aboveFloor e, decision := x }

/-- A block that is not discarded is decided, and a digit it accepts is handed to the Digit Assembler (R101 to R107). -/
def takeDecidedBlock (d : DetNo) (l : LineNo) (b : EndedBlock) (e : Energies) (s : State) : State :=
  let (x, digit) := decideBlock (blockDigit e) b.start (s.det d).decision
  let s1 := s.setDet d (decidedDetector e x (s.det d))
  match digit with
  | some (c, t) => toneDigit l c t s1
  | none => s1

/-- A block end of a detector with line `l` (R103). -/
def takeBlockEnd (d : DetNo) (l : LineNo) (b : EndedBlock) (e : Energies) (s : State) : State :=
  let s1 := s.setDet d (endTaken (s.det d))
  if blockDiscarded (s.line l) (s.det d) b then s1 else takeDecidedBlock d l b e s1

/-- TONE_BLOCK_END (R100): the block end that is due at detector `d` is taken with the energies its filter bank formed; where none is
due, nothing is taken. -/
def execToneBlockEnd (d : DetNo) (e : Energies) (s : State) : Host.Outcome State Fault Refusal :=
  match (s.det d).ended, (s.det d).line with
  | some b, some l => .next (takeBlockEnd d l b (capEnergies e) s)
  | _, _ => .next s

/-! ### The law (R99) -/

/-- The block in progress of an assigned detector is marked for discard (R99). -/
def markAssigned (r : Detector) : Detector := if r.line.isSome then { r with discardMark := true } else r

/-- The law becomes another: each assigned detector's block in progress is marked; the law in force stays without effect (R99). -/
def setLaw (law : Law) (s : State) : State :=
  if law = s.pool.law then s
  else { s with pool := { s.pool with law := law, detectors := s.pool.detectors.map markAssigned } }

/-- SET_LAW(law) (R99). -/
def lawRule (b : Byte) (s : State) : Reply :=
  match lawOf b with
  | none => deny .badRange s
  | some law => accept (setLaw law s)

/-- SET_LAW (R99). -/
def execSetLaw (p : Port) (tail : List Byte) (s : State) : Host.Outcome State Fault Refusal :=
  serve p 0x18 1 .controllers tail (fun pl s => lawRule (arg pl 0) s) s

/-! ### Locking (R116 to R118) -/

/-- A detector number as a response payload. -/
def detPayload (d : DetNo) : List Byte := [byteOf d.val]

/-- An assigned detector becomes locked (R116). -/
def lockAssigned (d : DetNo) (l : LineNo) (s : State) : State := (s.setDet d { s.det d with locked := true }).setStatus l (.locked d)

/-- LOCK_DETECTOR for a line that holds none (R116, the last two rows). -/
def lockFree (l : LineNo) (s : State) : Reply :=
  match s.freeDet with
  | some d => ⟨.ok, detPayload d, assignDet d l true (if (s.line l).detStatus = .waiting then leaveQueue l s else s)⟩
  | none => deny .noDetector s

/-- LOCK_DETECTOR(line): the checks in the order of R116. -/
def lockRule (l : LineNo) (s : State) : Reply :=
  if (s.line l).timeslot = none then deny .wrongState s
  else if (s.line l).state = .held then deny .wrongState s
  else
    match (s.line l).detStatus with
    | .locked d => ⟨.ok, detPayload d, s⟩
    | .assigned d => if Config.lockMax ≤ s.lockedCount then deny .lockLimit s else ⟨.ok, detPayload d, lockAssigned d l s⟩
    | .none => if Config.lockMax ≤ s.lockedCount then deny .lockLimit s else lockFree l s
    | .waiting => if Config.lockMax ≤ s.lockedCount then deny .lockLimit s else lockFree l s

/-- LOCK_DETECTOR (R116). -/
def execLockDetector (p : Port) (tail : List Byte) (s : State) : Host.Outcome State Fault Refusal :=
  serve p 0x26 1 .controllers tail (fun pl s => withLine (arg pl 0) s (fun l => lockRule l s)) s

/-- An unlocked assignment in DIALLING, its used bit set (R118). -/
def unlockKept (d : DetNo) (l : LineNo) (s : State) : State :=
  (s.setDet d { s.det d with locked := false, used := true }).setStatus l (.assigned d)

/-- UNLOCK_DETECTOR(line) (R118). -/
def unlockRule (l : LineNo) (s : State) : Reply :=
  match (s.line l).detStatus with
  | .locked d => accept (if (s.line l).state = .dialling then unlockKept d l s else releaseDet d l s)
  | .none => deny .wrongState s
  | .waiting => deny .wrongState s
  | .assigned _ => deny .wrongState s

/-- UNLOCK_DETECTOR (R118). -/
def execUnlockDetector (p : Port) (tail : List Byte) (s : State) : Host.Outcome State Fault Refusal :=
  serve p 0x27 1 .controllers tail (fun pl s => withLine (arg pl 0) s (fun l => unlockRule l s)) s

end Sys2Proof.Machine
end

