-- ==== Sys2Proof/Machine/Dispatch.lean ====
section
/-! DEFINITION. The dispatch: one arm per command, each one call of its meaning. -/

namespace Sys2Proof.Machine

/-- The effect of a command on everything but the queue. -/
def exec (i : Instr) (s : State) : Host.Outcome State Fault Refusal :=
  match i with
  | .reset => Sys2Proof.Machine.execReset s
  | .nop p tail => Sys2Proof.Machine.execNop p tail s
  | .unknownCodeRequest p code tail => Sys2Proof.Machine.execUnknownCodeRequest p code tail s
  | .attach p tail => Sys2Proof.Machine.execAttach p tail s
  | .detach p tail => Sys2Proof.Machine.execDetach p tail s
  | .keepalive p tail => Sys2Proof.Machine.execKeepalive p tail s
  | .readEvents p tail => Sys2Proof.Machine.execReadEvents p tail s
  | .setAlertMask p tail => Sys2Proof.Machine.execSetAlertMask p tail s
  | .readStatus p tail => Sys2Proof.Machine.execReadStatus p tail s
  | .writeProfile p tail => Sys2Proof.Machine.execWriteProfile p tail s
  | .readProfile p tail => Sys2Proof.Machine.execReadProfile p tail s
  | .writeRange p tail => Sys2Proof.Machine.execWriteRange p tail s
  | .writeOverride p tail => Sys2Proof.Machine.execWriteOverride p tail s
  | .setSubscription p tail => Sys2Proof.Machine.execSetSubscription p tail s
  | .setTimeslot p tail => Sys2Proof.Machine.execSetTimeslot p tail s
  | .readLine p tail => Sys2Proof.Machine.execReadLine p tail s
  | .setFeedLimits p tail => Sys2Proof.Machine.execSetFeedLimits p tail s
  | .setLaw p tail => Sys2Proof.Machine.execSetLaw p tail s
  | .block p tail => Sys2Proof.Machine.execBlock p tail s
  | .unblock p tail => Sys2Proof.Machine.execUnblock p tail s
  | .ring p tail => Sys2Proof.Machine.execRing p tail s
  | .ringStop p tail => Sys2Proof.Machine.execRingStop p tail s
  | .endDial p tail => Sys2Proof.Machine.execEndDial p tail s
  | .clearDial p tail => Sys2Proof.Machine.execClearDial p tail s
  | .lockDetector p tail => Sys2Proof.Machine.execLockDetector p tail s
  | .unlockDetector p tail => Sys2Proof.Machine.execUnlockDetector p tail s
  | .writeSweep p tail => Sys2Proof.Machine.execWriteSweep p tail s
  | .startSweep p tail => Sys2Proof.Machine.execStartSweep p tail s
  | .stopSweep p tail => Sys2Proof.Machine.execStopSweep p tail s
  | .hold p tail => Sys2Proof.Machine.execHold p tail s
  | .release p tail => Sys2Proof.Machine.execRelease p tail s
  | .setTestFeed p tail => Sys2Proof.Machine.execSetTestFeed p tail s
  | .measure p tail => Sys2Proof.Machine.execMeasure p tail s
  | .frameSync cycles frame => Sys2Proof.Machine.execFrameSync cycles frame s
  | .flywheelUnit => Sys2Proof.Machine.execFlywheelUnit s
  | .lossOfLock => Sys2Proof.Machine.execLossOfLock s
  | .freeUnit => Sys2Proof.Machine.execFreeUnit s
  | .relockWindowExpiry => Sys2Proof.Machine.execRelockWindowExpiry s
  | .roundStart sample => Sys2Proof.Machine.execRoundStart sample s
  | .feedStateChange => Sys2Proof.Machine.execFeedStateChange s
  | .slotStart => Sys2Proof.Machine.execSlotStart s
  | .loopMeasurement l it ir => Sys2Proof.Machine.execLoopMeasurement l it ir s
  | .itemComplete bank r1 r2 => Sys2Proof.Machine.execItemComplete bank r1 r2 s
  | .endOfPass n => Sys2Proof.Machine.execEndOfPass n s
  | .hangupExpiry l => Sys2Proof.Machine.execHangupExpiry l s
  | .interdigitExpiry l => Sys2Proof.Machine.execInterdigitExpiry l s
  | .interdigitHeldSettle l => Sys2Proof.Machine.execInterdigitHeldSettle l s
  | .firstDigitExpiry l => Sys2Proof.Machine.execFirstDigitExpiry l s
  | .ringPhaseExpiry l => Sys2Proof.Machine.execRingPhaseExpiry l s
  | .ringLimitExpiry l => Sys2Proof.Machine.execRingLimitExpiry l s
  | .poolReview => Sys2Proof.Machine.execPoolReview s
  | .toneBlockEnd d e => Sys2Proof.Machine.execToneBlockEnd d e s
  | .windowExpiry p => Sys2Proof.Machine.execWindowExpiry p s

end Sys2Proof.Machine
end

