-- ==== Sys2Proof/Safety.lean ====
section
/-! DEFINITION. The terms the statements use: the table of the requests (R185), what a transaction leaves in the ports, what a command
leaves unchanged, and the properties every step keeps. -/

namespace Sys2Proof.Machine

/-! ### Requests -/

/-- The bytes after the code byte of a transaction that carries a request whole: the length byte, the payload, and any fill (R185). -/
def frameTail (payload fill : List Byte) : List Byte := byteOf payload.length :: (payload ++ fill)

/-- The bytes clocked in a transaction that carries a request whole. -/
def frameBytes (payload fill : List Byte) : Nat := (frameTail payload fill).length + 1

/-- A port may send a request of this access, and is ATTACHED (R185 steps 3 and 4). -/
def Admits (p : Port) (a : Access) (s : State) : Prop := permitted p a = true ∧ s.attached p = true

/-- A row of the request table (R185): the port and the later bytes of the transaction, the code, the payload length, the ports. -/
structure Row where
  /-- the port of the transaction -/
  port : Port
  /-- the bytes after the code byte -/
  tail : List Byte
  /-- code -/
  code : Byte
  /-- payload length -/
  len : Nat
  /-- ports -/
  access : Access
deriving DecidableEq, Repr

/-- The request table (R185). -/
def requestRow (i : Instr) : Option Row :=
  match i with
  | .nop p tail => some ⟨p, tail, 0x00, 0, .all⟩
  | .attach p tail => some ⟨p, tail, 0x01, 3, .all⟩
  | .detach p tail => some ⟨p, tail, 0x02, 0, .all⟩
  | .keepalive p tail => some ⟨p, tail, 0x03, 1, .all⟩
  | .readEvents p tail => some ⟨p, tail, 0x04, 1, .all⟩
  | .setAlertMask p tail => some ⟨p, tail, 0x05, 1, .all⟩
  | .readStatus p tail => some ⟨p, tail, 0x06, 0, .all⟩
  | .writeProfile p tail => some ⟨p, tail, 0x10, 51, .controllers⟩
  | .readProfile p tail => some ⟨p, tail, 0x11, 1, .all⟩
  | .writeRange p tail => some ⟨p, tail, 0x12, 5, .controllers⟩
  | .writeOverride p tail => some ⟨p, tail, 0x13, 2, .controllers⟩
  | .setSubscription p tail => some ⟨p, tail, 0x14, 2, .controllers⟩
  | .setTimeslot p tail => some ⟨p, tail, 0x15, 2, .controllers⟩
  | .readLine p tail => some ⟨p, tail, 0x16, 1, .all⟩
  | .setFeedLimits p tail => some ⟨p, tail, 0x17, 2, .controllers⟩
  | .setLaw p tail => some ⟨p, tail, 0x18, 1, .controllers⟩
  | .block p tail => some ⟨p, tail, 0x20, 1, .controllers⟩
  | .unblock p tail => some ⟨p, tail, 0x21, 1, .controllers⟩
  | .ring p tail => some ⟨p, tail, 0x22, 1, .controllers⟩
  | .ringStop p tail => some ⟨p, tail, 0x23, 1, .controllers⟩
  | .endDial p tail => some ⟨p, tail, 0x24, 1, .controllers⟩
  | .clearDial p tail => some ⟨p, tail, 0x25, 1, .controllers⟩
  | .lockDetector p tail => some ⟨p, tail, 0x26, 1, .controllers⟩
  | .unlockDetector p tail => some ⟨p, tail, 0x27, 1, .controllers⟩
  | .writeSweep p tail => some ⟨p, tail, 0x30, 7, .controllers⟩
  | .startSweep p tail => some ⟨p, tail, 0x31, 2, .controllers⟩
  | .stopSweep p tail => some ⟨p, tail, 0x32, 1, .controllers⟩
  | .hold p tail => some ⟨p, tail, 0x40, 2, .test⟩
  | .release p tail => some ⟨p, tail, 0x41, 2, .test⟩
  | .setTestFeed p tail => some ⟨p, tail, 0x42, 3, .test⟩
  | .measure p tail => some ⟨p, tail, 0x43, 2, .test⟩
  | .unknownCodeRequest _ _ _ => none
  | .reset => none
  | .frameSync _ _ => none
  | .flywheelUnit => none
  | .lossOfLock => none
  | .freeUnit => none
  | .relockWindowExpiry => none
  | .roundStart _ => none
  | .feedStateChange => none
  | .slotStart => none
  | .loopMeasurement _ _ _ => none
  | .itemComplete _ _ _ => none
  | .endOfPass _ => none
  | .hangupExpiry _ => none
  | .interdigitExpiry _ => none
  | .interdigitHeldSettle _ => none
  | .firstDigitExpiry _ => none
  | .ringPhaseExpiry _ => none
  | .ringLimitExpiry _ => none
  | .poolReview => none
  | .toneBlockEnd _ _ => none
  | .windowExpiry _ => none

/-- The length byte is the row's and the transaction holds its whole payload (R185 step 2). -/
def lengthGood (len : Nat) (tail : List Byte) : Prop := tail.head?.map BitVec.toNat = some len ∧ len + 1 ≤ tail.length

/-! ### What a transaction leaves in the ports -/

/-- The port's response buffer holds this response and its previous one has been given on data out in a transaction of `n` bytes; the
other ports' buffers are as before (R184, R185). -/
def Replies (p : Port) (code : Byte) (st : Status) (payload : List Byte) (n : Nat) (s t : State) : Prop :=
  (t.port p).response = statusByte st :: code :: byteOf payload.length :: payload ∧
  (t.port p).dataOut = shiftOut (s.port p).response n ∧
  ∀ q, q ≠ p → (t.port q).response = (s.port q).response ∧ (t.port q).dataOut = (s.port q).dataOut

/-- A port's attachment fields and mask are as before; its gap count and its buffers apart. -/
def AttachmentKept (r r' : PortRec) : Prop :=
  r'.state = r.state ∧ r'.window = r.window ∧ r'.expiry = r.expiry ∧ r'.phase = r.phase ∧ r'.alertMask = r.alertMask

/-- Every port's attachment fields and mask are as before. -/
def AttachmentsKept (s t : State) : Prop := ∀ q, AttachmentKept (s.port q) (t.port q)

/-- Every port's buffers are as before. -/
def BuffersKept (s t : State) : Prop :=
  ∀ q, (t.port q).response = (s.port q).response ∧ (t.port q).dataOut = (s.port q).dataOut

/-- The journal and the gap counts stand as in `u`. -/
def JournalAs (u t : State) : Prop := t.journal = u.journal ∧ ∀ q, (t.port q).gap = (u.port q).gap

/-- The transaction of a request on a state: the previous response given out, and this response buffered, with nothing else changed. -/
def answered (p : Port) (code : Byte) (st : Status) (payload : List Byte) (n : Nat) (s : State) : State :=
  respond p code st payload (recordOut p n s)

/-! ### Frames -/

/-- Every line's record but one is as before. -/
def OtherLines (l : LineNo) (s t : State) : Prop := ∀ m, m ≠ l → t.line m = s.line m

/-- Every line's record but one is as before, the detector status apart: a line that waits may be given a detector that is freed. -/
def OtherLinesButDetector (l : LineNo) (s t : State) : Prop :=
  ∀ m, m ≠ l → { t.line m with detStatus := (s.line m).detStatus } = s.line m

/-- The feed mode of a line follows its derivation: it stands as last sent, and one command has gone out on the link of the line's bank when
it differs from the mode sent before, none when it does not (R36, R37). -/
def FeedSent (l : LineNo) (s t : State) : Prop :=
  let m := t.derivedMode l
  let new : List LinkCommand := if m = (s.line l).sentMode then [] else [⟨positionOf l, m, .none⟩]
  (t.line l).sentMode = m ∧
    t.link0 = (if l.val < 32 then s.link0 ++ new else s.link0) ∧ t.link1 = (if l.val < 32 then s.link1 else s.link1 ++ new)

/-- `t` with the journal and the ports of `s`. -/
def portsOf (s t : State) : State :=
  { t with journal := s.journal, portA := s.portA, portB := s.portB, portT := s.portT }

/-- `t` with the journal, the ports and the lines of `s`. -/
def linesOf (s t : State) : State := { portsOf s t with lines := s.lines }

/-- `t` with the journal, the ports, the lines and the feed-control links of `s`. -/
def feedOf (s t : State) : State := { linesOf s t with link0 := s.link0, link1 := s.link1 }

/-- `t` with the journal, the ports, the lines and the Tone Pool of `s`. -/
def poolOf (s t : State) : State := { linesOf s t with pool := s.pool }

/-- `t` with the journal, the ports, the lines, the Tone Pool and the feed-control links of `s`. -/
def callOf (s t : State) : State := { feedOf s t with pool := s.pool }

/-- The events of the lines of a list, those a state's line gives, in the list's order: what follows `u` in the journal. -/
def tellAll (ls : List LineNo) (tell : LineNo → State → State) (u : State) : State := ls.foldl (fun v l => tell l v) u

/-- What follows a state in the journal when requests for an offer take the ends of passes whose last visits were skipped: a SWEEP_DONE for each,
in the list's order, with the sweep, its measured and its skipped tally (R142, R144). -/
def passesDone (ds : List (SweepNo × Nat × Nat)) (s : State) : State :=
  ds.foldl (fun u d => writeEvent s.attachedControllers none s.now (.sweepDone d.1 (s.sw d.1).kind d.2.1 d.2.2) u) s

/-- A sweep after the end of its pass (R144). -/
def passEnded (w : Sweep) : Sweep :=
  { w with
    cursor := 0, measured := 0, skipped := 0, closing := false
    state := if w.state = .idle ∨ w.rept = .once then .idle else w.state }

/-- A link after the commands of the lines of a list: one for each line of the link's bank whose mode in `t` is not the one last sent (R36,
R37). -/
def linkAfter (b : Bank) (ls : List LineNo) (s t : State) (link : List LinkCommand) : List LinkCommand :=
  link ++ (ls.filter (fun l => decide (bankOf l = b) && decide (t.derivedMode l ≠ (s.line l).sentMode))).map
    (fun l => ⟨positionOf l, t.derivedMode l, .none⟩)

/-! ### What a line's record becomes -/

/-- A line's record when its reason set becomes `q`, its feed and its detector apart (R78, R79, R81, R82): a line not HELD goes to BLOCKED when
its set becomes non-empty, run removed, loop condition kept, what the state had under way ended; a BLOCKED line whose set becomes empty
goes to ACQUIRE; any other keeps the rest of its record. -/
def reasonsTaken (q : Reasons) (r : Line) : Line :=
  let x := { r with reasons := q }
  if r.reasons = ⟨false, false⟩ ∧ q ≠ ⟨false, false⟩ then
    match r.state with
    | .held => x
    | .idle => { x with state := .blocked, run := none }
    | .blocked => { x with state := .blocked, run := none }
    | .acquire => { x with state := .blocked, run := none, acquireCount := 0 }
    | .dialling => callEnded x
    | .talk => callEnded x
    | .ringing =>
      { x with
        state := .blocked, run := none, ringPhase := none, ringPhaseExpiry := none, ringLimitExpiry := none
        measuring := r.measuring.map (fun m => if m.feed = .ring then { m with mark := .discard } else m) }
  else if r.reasons ≠ ⟨false, false⟩ ∧ q = ⟨false, false⟩ ∧ r.state = .blocked then
    { x with state := .acquire, loop := .unknown, run := none, acquireCount := 0, breakStart := none, hangupExpiry := none }
  else x
where
  /-- BLOCKED out of DIALLING or TALK (R79, R73). -/
  callEnded (x : Line) : Line :=
    { x with
      state := .blocked, run := none, breakStart := none, hangupExpiry := none, pulseCounter := 0, pulseDiscard := false
      digitOnset := none, lastMakeStart := none, interdigitExpiry := none, interdigitHeld := false, firstDigitExpiry := none }

/-- The change of the reason set to `q` breaks a call, whose unlocked detector is released (R79). -/
def breaksCall (q : Reasons) (r : Line) : Bool :=
  decide (r.reasons = ⟨false, false⟩ ∧ q ≠ ⟨false, false⟩ ∧ (r.state = .dialling ∨ r.state = .talk))

/-- A line's record with the last values of a measurement, which is in progress no more (R39 to R42). -/
def withLast (it ir : Int) (r : Line) : Line :=
  let saturated := decide (it = -8192 ∨ it = 8191 ∨ ir = -8192 ∨ ir = 8191)
  { r with
    lastIm := metallic it ir, lastIl := longitudinal it ir, lastMc := compensated saturated (metallic it ir) r.baseline
    overrange := saturated, measuring := none }

/-- A line's record whose decimation counter has counted a measurement that is no decimated sample (R49). -/
def counted (r : Line) : Line := { r with faults := { r.faults with decimation := r.faults.decimation + 1 } }

/-- The baseline that the measurement with a record's last values leaves on an IDLE line, loop OPEN, without a run (R46, R47). -/
def learned (r : Line) (f : FeedState) (k : Nat) : Nat :=
  if r.overrange = false ∧ f = .normal then nextBaseline r.baseline r.lastIm k else r.baseline

/-- The measurement in progress on a line is VALID, was made under this feed, and is no decimated sample; its readings are codes (R24, R26,
R49). -/
def Evaluates (m : LoopSlot) (feed : FeedMode) (it ir : Int) (r : Line) : Prop :=
  r.measuring = some m ∧ m.mark = .valid ∧ m.feed = feed ∧ r.faults.decimation ≠ 7 ∧
    -8192 ≤ it ∧ it ≤ 8191 ∧ -8192 ≤ ir ∧ ir ≤ 8191

/-- The class CLOSED of a Mc (R43). -/
def Closes (p : Profile) (mc : Nat) : Prop := p.tOn ≤ mc

/-- The class OPEN of a Mc (R43). -/
def Opens (p : Profile) (mc : Nat) : Prop := mc < p.tOn ∧ mc < p.tOff

/-- A run toward a direction after one more measurement of its class (R56, R60, R128). -/
def runAfter (r : Option Run) (d : LoopDir) (t : Time) : Run :=
  match r with
  | some q => if q.dir = d then ⟨d, q.count + 1, q.start⟩ else ⟨d, 1, t⟩
  | none => ⟨d, 1, t⟩

/-! ### Properties every step keeps -/

/-- A pending set names attached ports only. -/
def pendAttached (s : State) (q : PortSet) : Prop :=
  (q.a = true → s.attached .a = true) ∧ (q.b = true → s.attached .b = true) ∧ (q.t = true → s.attached .t = true)

/-- The journal is as R190 says: at most 256 entries, each pending for at least one port, and only for attached ones; a gap count is at
most 65535 (R186, R191). -/
def JournalOk (s : State) : Prop :=
  s.journal.length ≤ 256 ∧ (∀ e ∈ s.journal, e.pend.isEmpty = false ∧ pendAttached s e.pend) ∧ ∀ q, (s.port q).gap ≤ 65535

/-- A profile within the ranges of R7 and the ordering constraints of R9. -/
def profileGood (p : Profile) : Bool := decide (clampProfile p = p) && profileOrdered p

/-- The Profile Store holds profiles within R7 and R9, and range entries whose first line is not above their last (R11). -/
def StoreOk (s : State) : Prop :=
  (∀ n : ProfileNo, profileGood s.store.profiles[n] = true) ∧ ∀ i : Fin 8, (s.store.ranges[i]).first ≤ (s.store.ranges[i]).last

/-- No two lines hold the same timeslot (R5). -/
def TimeslotsOk (s : State) : Prop :=
  ∀ l m : LineNo, l ≠ m → (s.line l).timeslot = (s.line m).timeslot → (s.line l).timeslot = none

/-- A Fault Set within the ranges of R2: the count of each entry and the decimation counter. -/
def faultsInRange (f : FaultSet) : Prop := f.decimation ≤ 7 ∧ ∀ k, (f.entry k).count ≤ 15

/-- A copy of a line's record in a shadow slot within the ranges of R2. -/
def shadowInRange (sh : Shadow) : Prop := sh.dialRecord.length ≤ 24 ∧ sh.baseline ≤ 4095 ∧ faultsInRange sh.faults

/-- A line's record within the ranges of R2. -/
def lineInRange (r : Line) : Prop :=
  r.dialRecord.length ≤ 24 ∧ r.baseline ≤ 4095 ∧ faultsInRange r.faults ∧ r.pulseCounter ≤ 10 ∧ r.acquireCount ≤ 400 ∧
    (∀ q, r.run = some q → q.count ≤ 15) ∧
    -8192 ≤ r.lastIm ∧ r.lastIm ≤ 8191 ∧ -16383 ≤ r.lastIl ∧ r.lastIl ≤ 16383 ∧ r.lastMc ≤ 8191

/-- Every line's record, and every copy of one, is within the ranges of R2. -/
def RangesOk (s : State) : Prop :=
  (∀ l, lineInRange (s.line l)) ∧ ∀ n : ShadowNo, ∀ sh, s.test.shadows[n] = some sh → shadowInRange sh

/-- The items in progress are as R21, R28 and R29 have them: each on a line of its bank, ending within the round, and at most one of them with
the Diagnostic Source. -/
def ItemsOk (s : State) : Prop :=
  (∀ i, s.scan.item0 = some i → bankOf i.line = .zero ∧ i.last ≤ 39) ∧ (∀ i, s.scan.item1 = some i → bankOf i.line = .one ∧ i.last ≤ 39) ∧
    ∀ i j, s.scan.item0 = some i → s.scan.item1 = some j → ¬ (needsSource i.kind = true ∧ needsSource j.kind = true)

/-- Every line's feed circuit was last sent the mode the line's derivation gives (R35, R36). -/
def FeedsFollow (s : State) : Prop := ∀ l, (s.line l).sentMode = s.derivedMode l

/-- The detectors, the lines' detector statuses and the Wait Queue agree (R97, R108). -/
def PoolAgrees (s : State) : Prop :=
  (∀ d l, (s.det d).line = some l ↔ heldDet (s.line l).detStatus = some d) ∧
    (∀ d l, (s.line l).detStatus = .locked d → (s.det d).locked = true) ∧
    (∀ d l, (s.line l).detStatus = .assigned d → (s.det d).locked = false) ∧
    (∀ d, (s.det d).line = none → (s.det d).locked = false) ∧
    s.pool.waitQueue.Nodup ∧ (∀ l, l ∈ s.pool.waitQueue ↔ (s.line l).detStatus = .waiting) ∧
    (s.pool.waitQueue ≠ [] → ∀ d, (s.det d).line ≠ none)

end Sys2Proof.Machine
end

