-- ==== Sys2Proof/Certificates/Slice0/Obligations.lean ====
section
/-! DEFINITION. The statements for the provers. Each docstring names the rules of spec/ its statement is read from. -/

section

open Sys2Proof Sys2Proof.Machine

/-! ### Steps, transactions, encodings -/

/-- A step takes the command at the front of the queue: it is that command's effect on the state with the queue's rest.
(The model's choices here: log 2.) -/
def Obligations.StepTakesFront : Prop :=
  ∀ (c : Instr) (rest : List Instr) (s : State), step { s with pending := c :: rest } = exec c { s with pending := rest }

/-- Every command answers a next state in every state, and leaves the queue of waiting commands as it is.
(The model's choices here: log 3, 27, 30.) -/
def Obligations.EveryCommandRuns : Prop :=
  ∀ (c : Instr) (s : State), ∃ t, exec c s = .next t ∧ t.pending = s.pending

/-- R185: the bytes of a request's transaction are read as that request, on every port and with every byte after the code byte; and the
request that a transaction's bytes are read as is written with those bytes.
(The model's choices here: log 5, 21.) -/
def Obligations.RequestsDecode : Prop :=
  (∀ (i : Instr) (p : Port) (bytes : List Byte), WellFormed i = true → encodeRequest i = some (p, bytes) → decodeRequest p bytes = some i) ∧
  ∀ (i : Instr) (p : Port) (bytes : List Byte), decodeRequest p bytes = some i → encodeRequest i = some (p, bytes)

/-- R199: a profile whose numeric fields fit two bytes is read back from its 50-byte form, every field as it was. -/
def Obligations.ProfileFormsDecode : Prop :=
  ∀ p : Profile, (∀ x ∈ numericFields p, x.2 < 65536) → (profileForm p).length = 50 ∧ profileOf (profileForm p) = some p

/-- R185 steps 1 to 4: a code outside the request table is refused with BAD_CODE; a request whose length is wrong, or that the port may not
send, or that comes on a port that is not attached, is refused with BAD_LENGTH, NOT_PERMITTED or NOT_ATTACHED, in this order. The payload is
empty, and nothing but the port's response and its data out changes.
(The model's choices here: log 5, 21.) -/
def Obligations.MalformedRequestsAreRefused : Prop :=
  (∀ (p : Port) (code : Byte) (tail : List Byte) (s : State), knownCode code = false →
    exec (.unknownCodeRequest p code tail) s = .next (answered p code .badCode [] (tail.length + 1) s)) ∧
  ∀ (i : Instr) (r : Row) (s : State), requestRow i = some r →
    (¬ lengthGood r.len r.tail →
      exec i s = .next (answered r.port r.code .badLength [] (r.tail.length + 1) s)) ∧
    (lengthGood r.len r.tail → permitted r.port r.access = false →
      exec i s = .next (answered r.port r.code .notPermitted [] (r.tail.length + 1) s)) ∧
    (lengthGood r.len r.tail → permitted r.port r.access = true → s.attached r.port = false → r.code ≠ 0x00 → r.code ≠ 0x01 → r.code ≠ 0x06 →
      exec i s = .next (answered r.port r.code .notAttached [] (r.tail.length + 1) s))

/-- R184, R185: what a transaction leaves: the port's buffer holds status, code echo, length and payload; its data out has given the
buffered response and then 0x00; the rest of the state, the other ports whole, is as it was.
(The model's choices here: log 1, 5.) -/
def Obligations.TransactionsExchangeBuffers : Prop :=
  ∀ (p : Port) (code : Byte) (st : Status) (payload : List Byte) (n : Nat) (s : State),
    let t := answered p code st payload n s
    (t.port p).response = statusByte st :: code :: byteOf payload.length :: payload ∧
    (t.port p).dataOut.length = n ∧
    (∀ k, k < n → (t.port p).dataOut[k]? = some (if k < 64 then (s.port p).response.getD k 0 else 0)) ∧
    { t.port p with response := (s.port p).response, dataOut := (s.port p).dataOut } = s.port p ∧
    (∀ q, q ≠ p → t.port q = s.port q) ∧
    portsOf s t = s ∧ t.journal = s.journal

/-- R10, R19, R185, R195: NOP and READ_STATUS on every port in every state, READ_PROFILE and READ_LINE on an attached port, are answered OK
with nothing, 23, 50 and 40 bytes of report, and change nothing but the port's response and its data out; READ_PROFILE above 7 is refused with
BAD_PROFILE, READ_LINE above 63 with BAD_LINE.
(The model's choices here: log 5.) -/
def Obligations.ReadsChangeNothing : Prop :=
  (∀ (p : Port) (n : ProfileNo) (l : LineNo) (s : State),
    (statusReport p s).length = 23 ∧ (profileForm s.store.profiles[n]).length = 50 ∧ (lineReport l s).length = 40) ∧
  ∀ (p : Port) (fill : List Byte) (s : State),
    exec (.nop p (frameTail [] fill)) s = .next (answered p 0x00 .ok [] (frameBytes [] fill) s) ∧
    exec (.readStatus p (frameTail [] fill)) s = .next (answered p 0x06 .ok (statusReport p s) (frameBytes [] fill) s) ∧
    ∀ b : Byte, s.attached p = true →
      (∀ n : ProfileNo, b = byteOf n.val →
        exec (.readProfile p (frameTail [b] fill)) s
          = .next (answered p 0x11 .ok (profileForm s.store.profiles[n]) (frameBytes [b] fill) s)) ∧
      (7 < b.toNat → exec (.readProfile p (frameTail [b] fill)) s = .next (answered p 0x11 .badProfile [] (frameBytes [b] fill) s)) ∧
      (∀ l : LineNo, b = byteOf l.val →
        exec (.readLine p (frameTail [b] fill)) s = .next (answered p 0x16 .ok (lineReport l s) (frameBytes [b] fill) s)) ∧
      (63 < b.toNat → exec (.readLine p (frameTail [b] fill)) s = .next (answered p 0x16 .badLine [] (frameBytes [b] fill) s))

/-! ### The Event Journal and the ports -/

/-- R190, R191: an event with an empty pending set is not written and counts in no gap; otherwise it is appended, after the oldest entry
of a full journal has been evicted and the gap count of each port it was pending for has risen by 1, up to 65535. Nothing else changes. -/
def Obligations.JournalWritesEvict : Prop :=
  ∀ (q : PortSet) (line : Option LineNo) (time : Time) (body : EventBody) (s : State),
    let t := writeEvent q line time body s
    let new : Entry := ⟨⟨line, time, qualityOf s.tb, body⟩, q⟩
    (q.isEmpty = true → t = s) ∧
    (q.isEmpty = false → s.journal.length < 256 → t = { s with journal := s.journal ++ [new] }) ∧
    ∀ old rest, q.isEmpty = false → s.journal = old :: rest → 256 ≤ s.journal.length →
      t.journal = rest ++ [new] ∧ portsOf s t = s ∧
      ∀ p, { t.port p with gap := (s.port p).gap } = s.port p ∧
        (t.port p).gap = if old.pend.has p then min ((s.port p).gap + 1) 65535 else (s.port p).gap

/-- R186: ATTACH with a mask of classes is answered OK with the window as stored, in every state of the port; the port becomes ATTACHED with
that window and mask, gap count 0 and phase 0, its window expiry armed; it leaves every pending set, and PORT_ATTACHED with its state
before is written for the other attached controllers. A mask with bit 6 or 7 is refused with BAD_RANGE. Nothing else changes.
(The model's choices here: log 15.) -/
def Obligations.AttachStartsAfresh : Prop :=
  ∀ (p : Port) (hi lo mask : Byte) (fill : List Byte) (s : State),
    (63 < mask.toNat →
      exec (.attach p (frameTail [hi, lo, mask] fill)) s = .next (answered p 0x01 .badRange [] (frameBytes [hi, lo, mask] fill) s)) ∧
    (mask.toNat ≤ 63 →
      let window := clampNat 500 8000 (hi.toNat * 256 + lo.toNat)
      ∃ t, exec (.attach p (frameTail [hi, lo, mask] fill)) s = .next t ∧
        Replies p 0x01 .ok (bytes2 window) (frameBytes [hi, lo, mask] fill) s t ∧
        (t.port p).state = .attached ∧ (t.port p).window = window ∧ (t.port p).alertMask.toNat = mask.toNat ∧
        (t.port p).gap = 0 ∧ (t.port p).phase = false ∧ (t.port p).expiry = some (timeAfter s.now (window * 8)) ∧
        (∀ e ∈ t.journal, e.pend.has p = false) ∧
        JournalAs (writeEvent (s.attachedControllers.without p) none s.now (.portAttached p (s.port p).state)
          (dropPort p (s.setPort p { s.port p with gap := 0 }))) t ∧
        (∀ q, q ≠ p → AttachmentKept (s.port q) (t.port q)) ∧ portsOf s t = s)

/-- R189: DETACH of an attached controller port is answered OK; the port becomes DETACHED without an expiry, its other fields kept; it
leaves every pending set, PORT_LAPSED(DETACH) is written for the other attached ports, and no line changes.
(The model's choices here: log 15.) -/
def Obligations.DetachLeavesLinesAlone : Prop :=
  ∀ (p : Port) (fill : List Byte) (s : State), isController p = true → s.attached p = true →
    ∃ t, exec (.detach p (frameTail [] fill)) s = .next t ∧
      Replies p 0x02 .ok [] (frameBytes [] fill) s t ∧
      { t.port p with response := (s.port p).response, dataOut := (s.port p).dataOut } = { s.port p with state := .detached, expiry := none } ∧
      (∀ e ∈ t.journal, e.pend.has p = false) ∧
      JournalAs (writeEvent (s.attachedPorts.without p) none s.now (.portLapsed p .detach) (dropPort p s)) t ∧
      (∀ q, q ≠ p → AttachmentKept (s.port q) (t.port q)) ∧ portsOf s t = s

/-- R169, R166, R167, R168, R188, R189, R22: DETACH on Port T, answered OK, or its due window expiry empties the Test Queue and the round's test part
and releases every HELD line in ascending order as RESTORE, LAPSE: PORT_LAPSED comes first, then each line's HOLD_RELEASED, and BLOCK_CHANGED
where its reason set changed, for the line's controllers; Dial Record, Fault Set and baseline come back from its shadow slot, which is freed,
with the state and loop condition of R167's table; its feed mode is recomputed. A slot that began with the time unit of the expiry is made under
the mode the release leaves: a LOOP slot measures the line, an item's slot is judged again. A line that was not HELD is unchanged. A slot that
two HELD lines name, which no run reaches, is left out.
(The model's choices here: log 1, 3, 8, 14, 15, 19.) -/
def Obligations.TestPortLossReleasesLines : Prop :=
  ∀ (c : Instr) (fill : List Byte) (s : State), s.attached .t = true →
    (c = .detach .t (frameTail [] fill) ∨ (c = .windowExpiry .t ∧ expiryDue s.now s.portT.expiry = true)) →
    let expired := c = .windowExpiry .t
    let held := allLines.filter (fun l => decide ((s.line l).state = .held))
    let slot := s.scan.nextSlot - 1
    let begun := expired ∧ 0 < s.scan.nextSlot ∧ slot % 2 = 0 ∧ timeAfter s.scan.roundStart (slot / 2) = s.now
    ∃ t, exec c s = .next t ∧
      (¬ expired → Replies .t 0x02 .ok [] (frameBytes [] fill) s t) ∧ (expired → BuffersKept s t) ∧
      t.portT.state = (if expired then .lapsed else .detached) ∧ t.portT.expiry = none ∧
      t.portT.window = s.portT.window ∧ t.portT.phase = s.portT.phase ∧ t.portT.alertMask = s.portT.alertMask ∧
      AttachmentKept s.portA t.portA ∧ AttachmentKept s.portB t.portB ∧
      t.test.queue = [] ∧ (∀ l, (t.line l).state ≠ .held) ∧ (∀ l, (s.line l).state ≠ .held → t.line l = s.line l) ∧
      (∀ (l : LineNo) (n : ShadowNo) (sh : Shadow), (s.line l).state = .held → (s.line l).shadowSlot = some n → s.test.shadows[n] = some sh →
        (∀ m, m ≠ l → (s.line m).state = .held → (s.line m).shadowSlot ≠ some n) →
        let r := s.line l
        let q : Reasons := { r.reasons with fault := (s.effective l).autoBlock && isolatingFault sh.faults }
        let state : LineState := if q = ⟨false, false⟩ then (if sh.state = .idle then .idle else .acquire) else .blocked
        let flag := r.recoveryDiscard || decide (r.sentMode = .ring)
        let again := begun ∧ slot < 32 ∧ l.val % 32 = slot ∧ r.measuring.map (fun m => m.stamp) ≠ some s.now ∧ t.derivedMode l = .normal
        t.test.shadows[n] = none ∧
          t.line l =
            { r with
              state := state, loop := (if state = .idle then .opened else if state = .blocked then sh.loop else .unknown)
              reasons := q, shadowSlot := none, testFeed := none, faults := sh.faults, dialRecord := sh.dialRecord, overflow := sh.overflow
              baseline := sh.baseline, run := none, acquireCount := 0, breakStart := none, hangupExpiry := none, pulseCounter := 0
              pulseDiscard := false, digitOnset := none, lastMakeStart := none, interdigitExpiry := none, interdigitHeld := false
              firstDigitExpiry := none, sentMode := t.derivedMode l
              recoveryDiscard := if again then false else flag
              measuring := if again then some ⟨s.now, .normal, if flag = true ∨ s.bat.feed = .lost then .discard else .valid⟩
                else r.measuring }) ∧
      (∀ n : ShadowNo, (∀ l, (s.line l).state = .held → (s.line l).shadowSlot ≠ some n) → t.test.shadows[n] = s.test.shadows[n]) ∧
      JournalAs
        (tellAll held
          (fun l u =>
            let w := writeEvent (s.linePorts l) (some l) s.now (.holdReleased .restore .lapse (t.line l).state) u
            if (t.line l).reasons = (s.line l).reasons then w
            else writeEvent (s.linePorts l) (some l) s.now (.blockChanged (t.line l).reasons) w)
          (writeEvent (s.attachedPorts.without .t) none s.now (.portLapsed .t (if expired then .lapse else .detach)) (dropPort .t s))) t ∧
      (∀ e ∈ t.journal, e.pend.t = false) ∧
      t.link0 = linkAfter .zero held s t s.link0 ∧ t.link1 = linkAfter .one held s t s.link1 ∧
      (∀ b, t.bankItem b = (s.bankItem b).map (fun i =>
        if begun ∧ 32 ≤ slot ∧ (s.line i.line).state = .held ∧ bankOf i.line = b then
          { i with
            disturbed := i.disturbedBefore || decide (t.derivedMode i.line ≠ itemMode i.kind)
            transient := i.transientBefore || decide (t.derivedMode i.line = .highZ ∨ t.derivedMode i.line = .diagUp ∨ t.derivedMode i.line = .diagDown) }
        else i)) ∧
      { t.scan with item0 := s.scan.item0, item1 := s.scan.item1 } = { s.scan with testPart := 0 } ∧
      t.store = s.store ∧ t.pool = s.pool ∧ t.sweep = s.sweep ∧ t.tb = s.tb ∧ t.bat = s.bat

/-- R187: KEEPALIVE on an attached port: a phase byte that is neither 0 nor 1 is refused with BAD_RANGE; the expected phase re-arms the
window expiry, flips the expected phase and is answered OK with it; the other phase is refused with PHASE_ORDER and the expected phase,
and the window is not restarted. Nothing else changes.
(The model's choices here: log 16.) -/
def Obligations.KeepaliveAlternates : Prop :=
  ∀ (p : Port) (b : Byte) (fill : List Byte) (s : State), s.attached p = true →
    let n := frameBytes [b] fill
    let c := Instr.keepalive p (frameTail [b] fill)
    let flipped := !(s.port p).phase
    (1 < b.toNat → exec c s = .next (answered p 0x03 .badRange [] n s)) ∧
    (b.toNat = yesCode (s.port p).phase →
      exec c s = .next (answered p 0x03 .ok [byteOf (yesCode flipped)] n
        (s.setPort p { s.port p with expiry := some (timeAfter s.now ((s.port p).window * 8)), phase := flipped }))) ∧
    (b.toNat = yesCode flipped → exec c s = .next (answered p 0x03 .phaseOrder [byteOf (yesCode (s.port p).phase)] n s))

/-- R192: READ_EVENTS(max), max 1..5, on an attached port answers a GAP record first when the gap count is above 0, which becomes 0, then the
oldest entries pending for the port until max records are placed; those entries lose the port, the others keep their pending sets, an entry
left with none is freed, and every other port's pending events stay as they are. max 0 or above 5 is refused with BAD_RANGE. -/
def Obligations.ReadEventsDeliversOldest : Prop :=
  ∀ (p : Port) (b : Byte) (fill : List Byte) (s : State), s.attached p = true →
    ((b.toNat = 0 ∨ 5 < b.toNat) →
      exec (.readEvents p (frameTail [b] fill)) s = .next (answered p 0x04 .badRange [] (frameBytes [b] fill) s)) ∧
    (1 ≤ b.toNat → b.toNat ≤ 5 →
      let gap := (s.port p).gap
      let first : List (List Byte) := if 0 < gap then [gapBytes s.now (qualityOf s.tb) gap] else []
      let k := if 0 < gap then b.toNat - 1 else b.toNat
      let taken := (s.pendingFor p).take k
      ∃ t, exec (.readEvents p (frameTail [b] fill)) s = .next t ∧
        Replies p 0x04 .ok ((first ++ taken.map (fun e => eventBytes e.event)).flatten) (frameBytes [b] fill) s t ∧
        (t.port p).gap = 0 ∧ (∀ q, q ≠ p → (t.port q).gap = (s.port q).gap) ∧
        t.pendingFor p = (s.pendingFor p).drop k ∧
        (∀ q, q ≠ p → (t.pendingFor q).map (fun e => e.event) = (s.pendingFor q).map (fun e => e.event)) ∧
        ((∀ e ∈ s.journal, e.pend.isEmpty = false) → ∀ e ∈ t.journal, e.pend.isEmpty = false) ∧
        AttachmentsKept s t ∧ portsOf s t = s)

/-- R194: SET_ALERT_MASK on an attached port stores a mask of the six classes and is answered OK, and refuses one with bit 6 or 7; and a
port's ALERT is asserted exactly while it is attached and has a gap or a pending entry of a class in its mask. -/
def Obligations.AlertFollowsTheMask : Prop :=
  (∀ (p : Port) (b : Byte) (fill : List Byte) (s : State), s.attached p = true →
    (63 < b.toNat → exec (.setAlertMask p (frameTail [b] fill)) s = .next (answered p 0x05 .badRange [] (frameBytes [b] fill) s)) ∧
    (b.toNat ≤ 63 → exec (.setAlertMask p (frameTail [b] fill)) s
      = .next (answered p 0x05 .ok [] (frameBytes [b] fill) (s.setPort p { s.port p with alertMask := b.setWidth 6 })))) ∧
  ∀ (p : Port) (s : State), s.alert p = true ↔
    (s.port p).state = .attached ∧
      (0 < (s.port p).gap ∨
        ∃ e ∈ s.journal, e.pend.has p = true ∧ (s.port p).alertMask.getLsbD (kindValue e.event.body / 16) = true)

/-- R188: the due window expiry of an attached controller port P makes it LAPSED and takes it out of every pending set; PORT_LAPSED(LAPSE)
is written for the other attached ports; when the other controller Q is attached, each line with subscription exactly P whose effective
profile has takeover goes to Q, and if any moved, TAKEOVER with their number is written for Q. Nothing else changes.
(The model's choices here: log 3, 19.) -/
def Obligations.WindowExpiryLapsesAndMovesLines : Prop :=
  ∀ (p q : Port) (s : State), otherController p = some q → s.attached p = true → expiryDue s.now (s.port p).expiry = true →
    let moves := fun l : LineNo => s.attached q && decide ((s.line l).subscription = onlySubscription p) && (s.effective l).takeover
    let u := writeEvent (s.attachedPorts.without p) none s.now (.portLapsed p .lapse) (dropPort p s)
    let n := (allLines.filter moves).length
    ∃ t, exec (.windowExpiry p) s = .next t ∧
      { t.port p with gap := (s.port p).gap } = { s.port p with state := .lapsed, expiry := none } ∧
      (∀ e ∈ t.journal, e.pend.has p = false) ∧
      JournalAs (if n = 0 then u else writeEvent (onlyPort q) none s.now (.takeover p n) u) t ∧
      (∀ l, t.line l = if moves l then { s.line l with subscription := onlySubscription q } else s.line l) ∧
      BuffersKept s t ∧ (∀ x, x ≠ p → AttachmentKept (s.port x) (t.port x)) ∧ linesOf s t = s


/-! ### Requests that name a line, and the Profile Store -/

/-- R1, R185: a request that names a line, sent whole on an attached port that may send it, is refused with BAD_LINE when its line byte is
above 63, whatever the rest of its payload; nothing but the port's response and its data out changes. -/
def Obligations.BadLinesAreRefused : Prop :=
  ∀ (i : Instr) (r : Row) (b : Byte) (rest fill : List Byte) (s : State), requestRow i = some r →
    r.code ∈ ([0x13, 0x14, 0x15, 0x16, 0x20, 0x21, 0x22, 0x23, 0x24, 0x25, 0x26, 0x27, 0x40, 0x41, 0x42, 0x43] : List Byte) →
    r.tail = frameTail (b :: rest) fill → rest.length + 1 = r.len → 63 < b.toNat → Admits r.port r.access s →
    exec i s = .next (answered r.port r.code .badLine [] (r.tail.length + 1) s)

/-- R13: the effective profile of a line is the one its override names, if it is set; else that of the lowest-numbered enabled range entry
that covers the line; else P0. The line report gives its number, and the effective values are those of the profile as it now stands. -/
def Obligations.EffectiveProfileOrder : Prop :=
  ∀ (s : State) (l : LineNo),
    (∀ n, s.store.overrides[l] = some n → s.effectiveNo l = n) ∧
    (s.store.overrides[l] = none →
      (∀ i : Fin 8, (s.store.ranges[i]).enabled = true → (s.store.ranges[i]).first ≤ l → l ≤ (s.store.ranges[i]).last →
        (∀ j : Fin 8, j < i →
          ¬ ((s.store.ranges[j]).enabled = true ∧ (s.store.ranges[j]).first ≤ l ∧ l ≤ (s.store.ranges[j]).last)) →
        s.effectiveNo l = (s.store.ranges[i]).profile) ∧
      ((∀ i : Fin 8, ¬ ((s.store.ranges[i]).enabled = true ∧ (s.store.ranges[i]).first ≤ l ∧ l ≤ (s.store.ranges[i]).last)) →
        s.effectiveNo l = 0)) ∧
    s.effective l = s.store.profiles[s.effectiveNo l] ∧
    (lineReport l s)[3]? = some (byteOf (s.effectiveNo l).val)

/-- R14, R18, R79, R82, R154: a write to the Profile Store puts the new store in place and writes PROFILE_CHANGED for every attached port; then the
lines whose effective auto block it changes are recomputed in ascending order. Such a line has FAULT among its reasons exactly when auto block
is yes and an isolating fault stands; where that changes its set, BLOCK_CHANGED is written after PROFILE_CHANGED, and a line not HELD goes to
BLOCKED when its set becomes non-empty and a BLOCKED one to ACQUIRE when it becomes empty; its feed mode follows, by one command on its link when
it changes. A call that ends so releases its unlocked detector. Every other line keeps its record, its detector status apart. If no line's auto block
changes, the write and the event are all.
(The model's choices here: log 9.) -/
def Obligations.StoreWritesRecompute : Prop :=
  ∀ (w : Port) (item : StoreItem) (st : Store) (s : State),
    let put : State := { s with store := st }
    let changed := fun l : LineNo => decide ((s.effective l).autoBlock ≠ (put.effective l).autoBlock)
    let lines := allLines.filter changed
    let q := fun l : LineNo =>
      ({ (s.line l).reasons with fault := (put.effective l).autoBlock && isolatingFault (s.line l).faults } : Reasons)
    let freed := (lines.filter (fun l => breaksCall (q l) (s.line l))).foldl (fun u l => releaseUnlocked l u) s
    let told := writeEvent s.attachedPorts none s.now (.profileChanged w item) put
    let t := writeStore w item st s
    t.store = st ∧
    ((∀ l, changed l = false) → t = told) ∧
    JournalAs
      (tellAll lines
        (fun l u => if q l = (s.line l).reasons then u else writeEvent (s.linePorts l) (some l) s.now (.blockChanged (q l)) u) told) t ∧
    (∀ l, changed l = false → t.line l = { s.line l with detStatus := (freed.line l).detStatus }) ∧
    (∀ l, changed l = true →
      t.line l = noteMode (t.derivedMode l) { reasonsTaken (q l) (s.line l) with detStatus := (freed.line l).detStatus }) ∧
    t.pool = freed.pool ∧ t.link0 = linkAfter .zero lines s t s.link0 ∧ t.link1 = linkAfter .one lines s t s.link1 ∧
    AttachmentsKept s t ∧ BuffersKept s t ∧
    t.scan = s.scan ∧ t.sweep = s.sweep ∧ t.test = s.test ∧ t.tb = s.tb ∧ t.bat = s.bat

/-- R8, R9: WRITE_PROFILE: a number above 7, or an enumerated field outside its enumeration, is refused with BAD_PROFILE and an empty map.
Otherwise the fields are clamped, each to its own range; when the clamped profile meets the ordering constraints it replaces the profile
whole, and the answer is OK, else BAD_PROFILE and nothing changes; both carry the map, in which the bit of a field, its place in R7 counting
t_on as 0, is set exactly when clamping changed the field.
(The model's choices here: log 32.) -/
def Obligations.ProfileWritesClampThenOrder : Prop :=
  (∀ (sent : Profile) (i sentValue storedValue : Nat), (i, sentValue) ∈ numericFields sent →
    (i, storedValue) ∈ numericFields (clampProfile sent) →
    ((clampedMap sent (clampProfile sent)).testBit i = true ↔ storedValue ≠ sentValue)) ∧
  ∀ (p : Port) (b : Byte) (form fill : List Byte) (s : State), Admits p .controllers s → form.length = 50 →
    let c := Instr.writeProfile p (frameTail (b :: form) fill)
    let n := frameBytes (b :: form) fill
    (7 < b.toNat → exec c s = .next (answered p 0x10 .badProfile (bytes4 0) n s)) ∧
    ((2 < (form.getD 24 0).toNat ∨ 1 < (form.getD 25 0).toNat ∨ 1 < (form.getD 48 0).toNat ∨ 1 < (form.getD 49 0).toNat) →
      exec c s = .next (answered p 0x10 .badProfile (bytes4 0) n s)) ∧
    ∀ (k : ProfileNo) (sent : Profile), b = byteOf k.val → profileOf form = some sent →
      let q := clampProfile sent
      let map := bytes4 (clampedMap sent q)
      (profileOrdered q = false → exec c s = .next (answered p 0x10 .badProfile map n s)) ∧
      (profileOrdered q = true → exec c s = .next (answered p 0x10 .ok map n
        (writeStore p (.profile k) { s.store with profiles := s.store.profiles.set k q } s)))

/-- R11, R12: WRITE_RANGE with an index and a profile 0..7, two lines 0..63 not in falling order and a yes or no replaces the four fields of the
entry, answered OK; any other is refused with BAD_RANGE. WRITE_OVERRIDE with 0..7 sets the line's override and with 255 unsets it, answered OK
in every state of the line; 8..254 is refused with BAD_PROFILE. A refused write changes nothing. -/
def Obligations.RangeAndOverrideWrites : Prop :=
  (∀ (p : Port) (i a b n e : Byte) (fill : List Byte) (s : State), Admits p .controllers s →
    let c := Instr.writeRange p (frameTail [i, a, b, n, e] fill)
    let k := frameBytes [i, a, b, n, e] fill
    ((7 < i.toNat ∨ 63 < a.toNat ∨ 63 < b.toNat ∨ b.toNat < a.toNat ∨ 7 < n.toNat ∨ 1 < e.toNat) →
      exec c s = .next (answered p 0x12 .badRange [] k s)) ∧
    ∀ (j : Fin 8) (first last : LineNo) (m : ProfileNo) (yes : Bool),
      i = byteOf j.val → a = byteOf first.val → b = byteOf last.val → n = byteOf m.val → e = byteOf (yesCode yes) → first ≤ last →
      exec c s = .next (answered p 0x12 .ok [] k
        (writeStore p (.range j) { s.store with ranges := s.store.ranges.set j ⟨first, last, m, yes⟩ } s))) ∧
  ∀ (p : Port) (l : LineNo) (v : Byte) (fill : List Byte) (s : State), Admits p .controllers s →
    let c := Instr.writeOverride p (frameTail [byteOf l.val, v] fill)
    let k := frameBytes [byteOf l.val, v] fill
    let put := fun o => writeStore p (.override l) { s.store with overrides := s.store.overrides.set l o } s
    (∀ n : ProfileNo, v = byteOf n.val → exec c s = .next (answered p 0x13 .ok [] k (put (some n)))) ∧
    (v.toNat = 255 → exec c s = .next (answered p 0x13 .ok [] k (put none))) ∧
    (7 < v.toNat → v.toNat < 255 → exec c s = .next (answered p 0x13 .badProfile [] k s))

/-- R4, R99, R180: SET_SUBSCRIPTION replaces a line's subscription by one of the four subsets, in every state of the line. SET_LAW sets the law;
a change marks the block in progress of each assigned detector for discard. SET_FEED_LIMITS clamps both limits and replaces them when they are
4 V apart, else BAD_PROFILE, its map naming what was clamped. A byte outside the enumeration is BAD_RANGE. Nothing else changes.
(The model's choices here: log 24.) -/
def Obligations.SettingsAreReplaced : Prop :=
  (∀ (p : Port) (l : LineNo) (b : Byte) (fill : List Byte) (s : State), Admits p .controllers s →
    let c := Instr.setSubscription p (frameTail [byteOf l.val, b] fill)
    let k := frameBytes [byteOf l.val, b] fill
    (∀ q : Subscription, b = byteOf (subscriptionBits q) →
      exec c s = .next (answered p 0x14 .ok [] k (s.setLine l { s.line l with subscription := q }))) ∧
    (3 < b.toNat → exec c s = .next (answered p 0x14 .badRange [] k s))) ∧
  (∀ (p : Port) (b : Byte) (fill : List Byte) (s : State), Admits p .controllers s →
    let c := Instr.setLaw p (frameTail [b] fill)
    let k := frameBytes [b] fill
    (∀ law : Law, b.toNat = (if law = .lawA then 0 else 1) →
      (law = s.pool.law → exec c s = .next (answered p 0x18 .ok [] k s)) ∧
      (law ≠ s.pool.law → exec c s = .next (answered p 0x18 .ok [] k
        { s with
          pool := { s.pool with
            law := law
            detectors := s.pool.detectors.map (fun d => if d.line.isSome then { d with discardMark := true } else d) } }))) ∧
    (1 < b.toNat → exec c s = .next (answered p 0x18 .badRange [] k s))) ∧
  ∀ (p : Port) (lost low : Byte) (fill : List Byte) (s : State), Admits p .controllers s →
    let c := Instr.setFeedLimits p (frameTail [lost, low] fill)
    let k := frameBytes [lost, low] fill
    let lo := max 20 (min 50 lost.toNat)
    let hi := max 30 (min 56 low.toNat)
    let map := [byteOf ((if lo = lost.toNat then 0 else 1) + (if hi = low.toNat then 0 else 2))]
    (lo + 4 ≤ hi → exec c s = .next (answered p 0x17 .ok map k { s with bat := { s.bat with lostLimit := lo, lowLimit := hi } })) ∧
    (hi < lo + 4 → exec c s = .next (answered p 0x17 .badProfile map k s))

/-- R5, R6, R119: SET_TIMESLOT: 128..254 is refused with BAD_RANGE, a slot that another line holds with SLOT_IN_USE. A free slot is taken: a
detector the line holds keeps its block, marked for discard, and returns to MUTE without a candidate when the line had another slot. NONE
releases any detector the line holds, or takes the line off the Wait Queue. The line's own slot changes nothing.
(The model's choices here: log 24.) -/
def Obligations.TimeslotsAreTaken : Prop :=
  ∀ (p : Port) (l : LineNo) (b : Byte) (fill : List Byte) (s : State), Admits p .controllers s →
    let c := Instr.setTimeslot p (frameTail [byteOf l.val, b] fill)
    let k := frameBytes [byteOf l.val, b] fill
    let put := fun o : Option Timeslot => s.setLine l { s.line l with timeslot := o }
    (127 < b.toNat → b.toNat < 255 → exec c s = .next (answered p 0x15 .badRange [] k s)) ∧
    (b.toNat = 255 → exec c s = .next (answered p 0x15 .ok [] k
      ((releaseAny l s).setLine l { (releaseAny l s).line l with timeslot := none }))) ∧
    ∀ x : Timeslot, b = byteOf x.val →
      ((∃ m, m ≠ l ∧ (s.line m).timeslot = some x) → exec c s = .next (answered p 0x15 .slotInUse [] k s)) ∧
      ((∀ m, m ≠ l → (s.line m).timeslot ≠ some x) →
        ((s.line l).timeslot = some x → exec c s = .next (answered p 0x15 .ok [] k s)) ∧
        ((s.line l).timeslot = none → exec c s = .next (answered p 0x15 .ok [] k (put (some x)))) ∧
        ∀ y, (s.line l).timeslot = some y → y ≠ x →
          (heldDet (s.line l).detStatus = none → exec c s = .next (answered p 0x15 .ok [] k (put (some x)))) ∧
          ∀ d, heldDet (s.line l).detStatus = some d → exec c s = .next (answered p 0x15 .ok [] k
            ((put (some x)).setDet d { s.det d with discardMark := true, decision := .mute none })))

/-! ### Feed modes -/

/-- R35: the derived feed mode of a line by the first case that applies: HELD, foreign isolation, sweep item, ringing in phase RING, else
NORMAL; and it is RING only for a line that is RINGING in ring phase RING. -/
def Obligations.FeedModeCases : Prop :=
  ∀ (s : State) (l : LineNo),
    let held := (s.line l).state = .held
    let isolated := (s.line l).faults.foreignVoltage.state = .present ∧ (s.effective l).autoBlock = true
    let ringing := (s.line l).state = .ringing ∧ (s.line l).ringPhase = some .ring
    (∀ i, held → s.itemOn l = some i → i.origin = .test → s.derivedMode l = itemMode i.kind) ∧
    (∀ f, held → (∀ i, s.itemOn l = some i → i.origin ≠ .test) → (s.line l).testFeed = some f → s.derivedMode l = testFeedMode f) ∧
    (¬ held → isolated → s.derivedMode l = .highZ) ∧
    (∀ i n, ¬ held → ¬ isolated → s.itemOn l = some i → i.origin = .sweep n → s.derivedMode l = itemMode i.kind) ∧
    (¬ held → ¬ isolated → (∀ i n, s.itemOn l = some i → i.origin ≠ .sweep n) → ringing → s.derivedMode l = .ring) ∧
    (¬ held → ¬ isolated → (∀ i n, s.itemOn l = some i → i.origin ≠ .sweep n) → ¬ ringing → s.derivedMode l = .normal) ∧
    (s.derivedMode l = .ring → ringing)

/-- R36, R37, R25, R32: a recomputation that gives the mode last sent does nothing; one that gives another sends one command with it on the link of
the line's bank, records it, and sets the recovery-discard flag on a move to or from RING. A recomputation that connects or disconnects the
Diagnostic Source always sends its one command, which carries that order. Nothing else changes. The completion of a DIAG item sends one command,
with the line's mode after it and the order to disconnect.
(The model's choices here: log 3, 7, 13, 17, 36.) -/
def Obligations.FeedChangesAreSent : Prop :=
  (∀ (s : State) (l : LineNo),
    let m := s.derivedMode l
    let r := s.line l
    let t := recomputeFeed l s
    let sent : LinkCommand := ⟨positionOf l, m, .none⟩
    (m = r.sentMode → t = s) ∧
    (m ≠ r.sentMode →
      t.line l = { r with sentMode := m, recoveryDiscard := r.recoveryDiscard || decide (r.sentMode = .ring ∨ m = .ring) } ∧
      OtherLines l s t ∧
      t.link0 = (if l.val < 32 then s.link0 ++ [sent] else s.link0) ∧
      t.link1 = (if l.val < 32 then s.link1 else s.link1 ++ [sent]) ∧
      { t with lines := s.lines, link0 := s.link0, link1 := s.link1 } = s)) ∧
  (∀ (src : SourceOrder) (s : State) (l : LineNo), src ≠ .none →
    let m := s.derivedMode l
    let r := s.line l
    let t := recomputeFeedWith src l s
    t.line l = { r with
      sentMode := m, recoveryDiscard := r.recoveryDiscard || decide (r.sentMode ≠ m ∧ (r.sentMode = .ring ∨ m = .ring)) } ∧
      OtherLines l s t ∧
      t.link0 = (if l.val < 32 then s.link0 ++ [⟨positionOf l, m, src⟩] else s.link0) ∧
      t.link1 = (if l.val < 32 then s.link1 else s.link1 ++ [⟨positionOf l, m, src⟩]) ∧
      { t with lines := s.lines, link0 := s.link0, link1 := s.link1 } = s) ∧
  ∀ (b : Bank) (r1 r2 : Int) (i : Item) (s : State), s.bankItem b = some i → bankOf i.line = b → i.last < s.scan.nextSlot →
    (i.kind = .diagUp ∨ i.kind = .diagDown) →
    ∃ t, exec (.itemComplete b r1 r2) s = .next t ∧ (t.line i.line).sentMode = t.derivedMode i.line ∧
      t.link0 = (if i.line.val < 32 then s.link0 ++ [⟨positionOf i.line, t.derivedMode i.line, .disconnect⟩] else s.link0) ∧
      t.link1 = (if i.line.val < 32 then s.link1 else s.link1 ++ [⟨positionOf i.line, t.derivedMode i.line, .disconnect⟩])

/-! ### Blocking -/

/-- R76 to R79, R81, R82: BLOCK and UNBLOCK, in every state of the line, are answered OK; when the set already holds CONTROLLER, or does not,
nothing changes. BLOCK adds it and writes BLOCK_CHANGED; a line not HELD whose set was empty goes to BLOCKED, run removed, loop condition kept,
a call or the ringing ended. UNBLOCK removes it and writes BLOCK_CHANGED; a BLOCKED line whose set becomes empty goes to ACQUIRE. Any other line
keeps the rest of its record.
(The model's choices here: log 1, 9.) -/
def Obligations.BlockingIsCommanded : Prop :=
  ∀ (p : Port) (l : LineNo) (fill : List Byte) (s : State), Admits p .controllers s →
    let c := Instr.block p (frameTail [byteOf l.val] fill)
    let un := Instr.unblock p (frameTail [byteOf l.val] fill)
    let k := frameBytes [byteOf l.val] fill
    let r := s.line l
    let told := fun (q : Reasons) (r' : Line) =>
      writeEvent (s.linePorts l) (some l) s.now (.blockChanged q) (s.setLine l { r' with reasons := q })
    let more : Reasons := { r.reasons with controller := true }
    let less : Reasons := { r.reasons with controller := false }
    (r.reasons.controller = true → exec c s = .next (answered p 0x20 .ok [] k s)) ∧
    (r.reasons.controller = false →
      ((r.state = .held ∨ r.reasons.fault = true) → exec c s = .next (answered p 0x20 .ok [] k (told more r))) ∧
      (r.reasons.fault = false →
        (r.state = .acquire →
          exec c s = .next (answered p 0x20 .ok [] k (told more { r with state := .blocked, run := none, acquireCount := 0 }))) ∧
        ((r.state = .idle ∨ r.state = .blocked) →
          exec c s = .next (answered p 0x20 .ok [] k (told more { r with state := .blocked, run := none }))) ∧
        ((r.state = .dialling ∨ r.state = .talk) → exec c s = .next (answered p 0x20 .ok [] k (releaseUnlocked l (told more
          { r with
            state := .blocked, run := none, breakStart := none, hangupExpiry := none, pulseCounter := 0, pulseDiscard := false
            digitOnset := none, lastMakeStart := none, interdigitExpiry := none, interdigitHeld := false
            firstDigitExpiry := none })))) ∧
        (r.state = .ringing → exec c s = .next (answered p 0x20 .ok [] k (recomputeFeed l (told more
          { r with
            state := .blocked, run := none, ringPhase := none, ringPhaseExpiry := none, ringLimitExpiry := none
            measuring := r.measuring.map (fun m => if m.feed = .ring then { m with mark := .discard } else m) })))))) ∧
    (r.reasons.controller = false → exec un s = .next (answered p 0x21 .ok [] k s)) ∧
    (r.reasons.controller = true →
      (r.state = .blocked → r.reasons.fault = false → exec un s = .next (answered p 0x21 .ok [] k (told less
        { r with
          state := .acquire, loop := .unknown, run := none, acquireCount := 0, breakStart := none, hangupExpiry := none }))) ∧
      ((r.state ≠ .blocked ∨ r.reasons.fault = true) → exec un s = .next (answered p 0x21 .ok [] k (told less r))))

/-! ### Ringing, dialling, locking -/

/-- R123, R126, R42: RING of a line not IDLE is refused with WRONG_STATE, else with the battery LOW or LOST with FEED_LOW; else it is answered
OK: RINGING in phase RING, both expiries armed from the effective profile, the run removed. RING_STOP of a RINGING line is answered OK: IDLE,
loop OPEN, the ring fields and the answer run gone, a measurement under feed RING in progress ending at its last values; of another line it is
WRONG_STATE. The feed mode is recomputed, and nothing else changes.
(The model's choices here: log 1, 9.) -/
def Obligations.RingingIsCommanded : Prop :=
  ∀ (p : Port) (l : LineNo) (fill : List Byte) (s : State), Admits p .controllers s →
    let c := Instr.ring p (frameTail [byteOf l.val] fill)
    let stop := Instr.ringStop p (frameTail [byteOf l.val] fill)
    let k := frameBytes [byteOf l.val] fill
    let r := s.line l
    (r.state ≠ .idle → exec c s = .next (answered p 0x22 .wrongState [] k s)) ∧
    (r.state = .idle → s.bat.feed ≠ .normal → exec c s = .next (answered p 0x22 .feedLow [] k s)) ∧
    (r.state = .idle → s.bat.feed = .normal → exec c s = .next (answered p 0x22 .ok [] k
      (recomputeFeed l (s.setLine l
        { r with
          state := .ringing, ringPhase := some .ring, run := none
          ringPhaseExpiry := some (timeAfter s.now ((s.effective l).ringOn * 8))
          ringLimitExpiry := some (timeAfter s.now ((s.effective l).ringMax * 8000)) })))) ∧
    (r.state ≠ .ringing → exec stop s = .next (answered p 0x23 .wrongState [] k s)) ∧
    (r.state = .ringing → exec stop s = .next (answered p 0x23 .ok [] k
      (recomputeFeed l (s.setLine l
        { r with
          state := .idle, loop := .opened, run := none, ringPhase := none, ringPhaseExpiry := none, ringLimitExpiry := none
          measuring := r.measuring.map (fun m => if m.feed = .ring then { m with mark := .discard } else m) }))))

/-- R94, R95: END_DIAL of a line not DIALLING is refused with WRONG_STATE; else it is answered OK: a digit in progress, counter above 0 and not
being discarded, is recorded with its pulses so far; the line goes to TALK, pulse fields at their start and dial expiries absent, break, run
and loop condition kept; an unlocked detector is released. CLEAR_DIAL of a line not HELD empties its Dial Record and overflow marker, nothing
else, answered OK; of a HELD line it is WRONG_STATE.
(The model's choices here: log 1, 26.) -/
def Obligations.DiallingIsCommanded : Prop :=
  ∀ (p : Port) (l : LineNo) (fill : List Byte) (s : State), Admits p .controllers s →
    let c := Instr.endDial p (frameTail [byteOf l.val] fill)
    let clear := Instr.clearDial p (frameTail [byteOf l.val] fill)
    let k := frameBytes [byteOf l.val] fill
    let r := s.line l
    (r.state ≠ .dialling → exec c s = .next (answered p 0x24 .wrongState [] k s)) ∧
    (r.state = .dialling →
      let u := if 0 < r.pulseCounter ∧ r.pulseDiscard = false
        then recordDigit l (pulseCode r.pulseCounter) .pulse (r.digitOnset.getD s.now) s else s
      ∃ t, exec c s = .next t ∧ Replies p 0x24 .ok [] k s t ∧
        { t.line l with detStatus := r.detStatus } =
          { u.line l with
            state := .talk, pulseCounter := 0, pulseDiscard := false, digitOnset := none, lastMakeStart := none
            interdigitExpiry := none, interdigitHeld := false, firstDigitExpiry := none } ∧
        OtherLinesButDetector l s t ∧ (∀ m, (t.line m).detStatus = ((releaseUnlocked l s).line m).detStatus) ∧
        t.pool = (releaseUnlocked l s).pool ∧ JournalAs u t ∧ AttachmentsKept s t ∧ poolOf s t = s) ∧
    (r.state = .held → exec clear s = .next (answered p 0x25 .wrongState [] k s)) ∧
    (r.state ≠ .held → exec clear s = .next (answered p 0x25 .ok [] k (s.setLine l { r with dialRecord := [], overflow := false })))

/-- R91: a digit delivered for recording: with room, it is appended to the Dial Record and reported with its index; with 24 entries it is
reported with no index, and the first such sets the overflow marker and reports RECORD_FULL after it. The events carry the onset. Nothing
else changes. -/
def Obligations.DigitsAreRecorded : Prop :=
  ∀ (l : LineNo) (code : DigitCode) (m : DigitMethod) (onset : Time) (s : State),
    let r := s.line l
    let t := recordDigit l code m onset s
    let event := fun body => writeEvent (s.linePorts l) (some l) onset body
    (r.dialRecord.length < 24 →
      t = event (.digit code m (some r.dialRecord.length)) (s.setLine l { r with dialRecord := r.dialRecord ++ [⟨code, m⟩] })) ∧
    (24 ≤ r.dialRecord.length → r.overflow = true → t = event (.digit code m none) s) ∧
    (24 ≤ r.dialRecord.length → r.overflow = false →
      t = event (.dialError .recordFull) (event (.digit code m none) (s.setLine l { r with overflow := true })))

/-- R116, R109: LOCK_DETECTOR by the first check that applies: no timeslot, or HELD: WRONG_STATE; LOCKED already: OK, no change; 8 locked:
LOCK_LIMIT; ASSIGNED: that detector becomes locked; else the lowest free detector is assigned locked, a waiting line leaving the queue; else
NO_DETECTOR. OK carries the detector's number. Nothing else changes. -/
def Obligations.LocksAreTaken : Prop :=
  ∀ (p : Port) (l : LineNo) (fill : List Byte) (s : State), Admits p .controllers s →
    let c := Instr.lockDetector p (frameTail [byteOf l.val] fill)
    let k := frameBytes [byteOf l.val] fill
    let r := s.line l
    let locked := (allDets.filter (fun d => (s.det d).locked)).length
    (r.timeslot = none ∨ r.state = .held → exec c s = .next (answered p 0x26 .wrongState [] k s)) ∧
    (r.timeslot ≠ none → r.state ≠ .held →
      (∀ d, r.detStatus = .locked d → exec c s = .next (answered p 0x26 .ok [byteOf d.val] k s)) ∧
      ((∀ d, r.detStatus ≠ .locked d) → 8 ≤ locked → exec c s = .next (answered p 0x26 .lockLimit [] k s)) ∧
      (∀ d, r.detStatus = .assigned d → locked < 8 → exec c s = .next (answered p 0x26 .ok [byteOf d.val] k
        ((s.setLine l { r with detStatus := .locked d }).setDet d { s.det d with locked := true }))) ∧
      (r.detStatus = .none ∨ r.detStatus = .waiting → locked < 8 →
        ((∀ d, (s.det d).line ≠ none) → exec c s = .next (answered p 0x26 .noDetector [] k s)) ∧
        ∀ d, (s.det d).line = none → (∀ e, e < d → (s.det e).line ≠ none) →
          let queue := if r.detStatus = .waiting then s.pool.waitQueue.filter (fun x => decide (x ≠ l)) else s.pool.waitQueue
          exec c s = .next (answered p 0x26 .ok [byteOf d.val] k
            (((s.setLine l { r with detStatus := .locked d }).setQueue queue).setDet d (freshDetector l true s.now)))))

/-- R118: UNLOCK_DETECTOR of a line that is LOCKED(d) is answered OK: in DIALLING the detector stays, unlocked and used, and the status becomes
ASSIGNED(d); in any other state it is released. With another status it is refused with WRONG_STATE. Nothing else changes. -/
def Obligations.UnlocksAreTaken : Prop :=
  ∀ (p : Port) (l : LineNo) (fill : List Byte) (s : State), Admits p .controllers s →
    let c := Instr.unlockDetector p (frameTail [byteOf l.val] fill)
    let k := frameBytes [byteOf l.val] fill
    let r := s.line l
    ((∀ d, r.detStatus ≠ .locked d) → exec c s = .next (answered p 0x27 .wrongState [] k s)) ∧
    ∀ d, r.detStatus = .locked d →
      (r.state = .dialling → exec c s = .next (answered p 0x27 .ok [] k
        ((s.setLine l { r with detStatus := .assigned d }).setDet d { s.det d with locked := false, used := true }))) ∧
      (r.state ≠ .dialling → exec c s = .next (answered p 0x27 .ok [] k (releaseDet d l s)))

/-- R110, R109, R111: a release of detector d from line l frees it, its runs and block gone, and the line's status becomes NONE; a waiting head
of the Wait Queue is at once assigned it, used, in MUTE, its first block at the next time unit, and leaves the queue. A release cause takes a
waiting line off the queue, and only one that takes every detector takes a locked one. Nothing else changes.
(The model's choices here: log 1.) -/
def Obligations.ReleasedDetectorsGoToTheQueue : Prop :=
  (∀ (d : DetNo) (l : LineNo) (s : State),
    let freed := (s.setLine l { s.line l with detStatus := .none }).setDet d resetDetector
    (s.pool.waitQueue = [] → releaseDet d l s = freed) ∧
    ∀ w rest, s.pool.waitQueue = w :: rest →
      releaseDet d l s =
        ((freed.setQueue rest).setDet d
          { line := some w, locked := false, used := true, blockStart := some (timeAfter s.now 1), sampleCount := 0
            decision := .mute none, discardMark := false, freeRun := false, samples := [], ended := none }).setLine w
          { freed.line w with detStatus := .assigned d }) ∧
  ∀ (l : LineNo) (s : State),
    let unqueued := (s.setLine l { s.line l with detStatus := .none }).setQueue (s.pool.waitQueue.filter (fun x => decide (x ≠ l)))
    ((s.line l).detStatus = .waiting → releaseUnlocked l s = unqueued ∧ releaseAny l s = unqueued) ∧
    ((s.line l).detStatus = .none → releaseUnlocked l s = s ∧ releaseAny l s = s) ∧
    (∀ d, (s.line l).detStatus = .assigned d → releaseUnlocked l s = releaseDet d l s ∧ releaseAny l s = releaseDet d l s) ∧
    ∀ d, (s.line l).detStatus = .locked d → releaseUnlocked l s = s ∧ releaseAny l s = releaseDet d l s


/-! ### Sweeps -/

/-- R136: WRITE_SWEEP by the first check that applies: number above 3, or kind, step or repeat outside its enumeration: BAD_RANGE; first line
above 63: BAD_LINE; not IDLE, or an item in progress: SWEEP_ACTIVE, each with a zero map. Else the six fields are replaced, count and block
length clamped to 1..64 and named in the map when clamping changed them, cursor and tallies 0, not closing. Nothing else changes. -/
def Obligations.SweepsAreWritten : Prop :=
  ∀ (p : Port) (n k f ct st rp bl : Byte) (fill : List Byte) (s : State), Admits p .controllers s →
    let c := Instr.writeSweep p (frameTail [n, k, f, ct, st, rp, bl] fill)
    let b := frameBytes [n, k, f, ct, st, rp, bl] fill
    let bad := 3 < n.toNat ∨ k.toNat = 0 ∨ 3 < k.toNat ∨ 2 < st.toNat ∨ 1 < rp.toNat
    (bad → exec c s = .next (answered p 0x30 .badRange [0x00] b s)) ∧
    (¬ bad → 63 < f.toNat → exec c s = .next (answered p 0x30 .badLine [0x00] b s)) ∧
    ∀ (m : SweepNo) (kind : SweepKind) (first : LineNo) (step : SweepStep) (rept : SweepRepeat),
      n = byteOf m.val → k = byteOf (sweepKindCode kind) → f = byteOf first.val →
      st = (match step with | .up => 0 | .down => 1 | .fixed => 2) → rp = (match rept with | .once => 0 | .cyclic => 1) →
      let w := s.sw m
      let count := max 1 (min 64 ct.toNat)
      let block := max 1 (min 64 bl.toNat)
      ((w.state ≠ .idle ∨ 0 < w.items) → exec c s = .next (answered p 0x30 .sweepActive [0x00] b s)) ∧
      (w.state = .idle → w.items = 0 →
        exec c s = .next (answered p 0x30 .ok
          [byteOf ((if count = ct.toNat then 0 else 1) + (if block = bl.toNat then 0 else 2))] b
          (s.setSw m
            { kind := kind, first := first, count := count, step := step, rept := rept, blockLength := block, state := .idle
              cursor := 0, measured := 0, skipped := 0, closing := false, items := 0 })))

/-- R137, R138, R139, R144: START_SWEEP of a sweep that is not IDLE or has an item in progress is SWEEP_ACTIVE; else it is answered OK: REWIND
resets cursor and tallies, and the sweep is ACTIVE under a NORMAL battery, else PAUSED. STOP_SWEEP is answered OK: an IDLE sweep stays as it is;
another becomes IDLE with cursor and tallies kept, its turn ends, and a pending offer of it goes; a new request takes its place, which can end
the passes of other sweeps and of nothing else writes an event. END_OF_PASS reports SWEEP_DONE with the tallies, resets cursor, tallies and
closing, and a sweep that is ONCE, or IDLE, is IDLE after it.
(The model's choices here: log 3, 6, 20.) -/
def Obligations.SweepsRun : Prop :=
  (∀ (p : Port) (n m : Byte) (fill : List Byte) (s : State), Admits p .controllers s →
    let c := Instr.startSweep p (frameTail [n, m] fill)
    let k := frameBytes [n, m] fill
    ((3 < n.toNat ∨ 1 < m.toNat) → exec c s = .next (answered p 0x31 .badRange [] k s)) ∧
    ∀ (x : SweepNo), n = byteOf x.val → m.toNat ≤ 1 →
      let w := s.sw x
      let started : SweepState := if s.bat.feed = .normal then .active else .paused
      ((w.state ≠ .idle ∨ 0 < w.items) → exec c s = .next (answered p 0x31 .sweepActive [] k s)) ∧
      (w.state = .idle → w.items = 0 →
        exec c s = .next (answered p 0x31 .ok [] k
          (s.setSw x (if m.toNat = 0 then { w with cursor := 0, measured := 0, skipped := 0, state := started } else { w with state := started }))))) ∧
  (∀ (p : Port) (n : Byte) (fill : List Byte) (s : State), Admits p .controllers s →
    let c := Instr.stopSweep p (frameTail [n] fill)
    let k := frameBytes [n] fill
    (3 < n.toNat → exec c s = .next (answered p 0x32 .badRange [] k s)) ∧
    ∀ (x : SweepNo), n = byteOf x.val →
      ((s.sw x).state = .idle → exec c s = .next (answered p 0x32 .ok [] k s)) ∧
      ((s.sw x).state ≠ .idle →
        ((∀ o, s.sweep.offer = some o → o.sweep ≠ x) →
          let u := s.setSw x { s.sw x with state := .idle }
          exec c s = .next (answered p 0x32 .ok [] k
            (if s.sweep.holder = some x then { u with sweep := { u.sweep with holder := none, lastServed := x } } else u))) ∧
        ∃ t, exec c s = .next t ∧ Replies p 0x32 .ok [] k s t ∧ t.sw x = { s.sw x with state := .idle } ∧ t.sweep.holder ≠ some x ∧
          (∀ o, t.sweep.offer = some o → o.sweep ≠ x) ∧ t.lines = s.lines ∧
          ∃ ds, (∀ d ∈ ds, d.1 ≠ x ∧ (s.sw d.1).items = 0) ∧ JournalAs (passesDone ds s) t)) ∧
  ∀ (x : SweepNo) (s : State), (s.sw x).closing = true → (s.sw x).items = 0 →
    let w := s.sw x
    exec (.endOfPass x) s = .next
      ((writeEvent s.attachedControllers none s.now (.sweepDone x w.kind w.measured w.skipped) s).setSw x (passEnded w))

/-- R25, R27, R29, R31, R33, R37, R139 to R142, R144: at the start of a sweep slot with both banks free and items in the round's test part, the
first of the Test Queue that fits the round issues: it leaves the queue and is in progress on its line to its last slot, its first slot under
the mode its command sends, which connects the source for a DIAG item. With no test item left, the pending offer issues so: its sweep's cursor
moves on, or the pass begins closing, its items in progress and the visits of the turn rise by 1; a turn ends at the block length or when the
pass closes, else the next visit is offered. A request for an offer skips a busy line: tally, cursor and visits used rise by 1; where that ends
the turn, the next eligible sweep begins one. R142, R144: with no item in progress, a pass whose last visit is skipped ends at once: SWEEP_DONE
with its tallies, cursor, tallies and closing reset, ONCE to IDLE; a CYCLIC sweep offers its visit 0 at the next request. Requests write no other
event. An offer, when there is one, is the visit at the cursor of the turn's holder, on a line that is IDLE or BLOCKED; with no turn held and no
sweep eligible there is none. Each further slot of an item in progress marks it by the line's mode.
(The model's choices here: log 1, 14, 20, 36.) -/
def Obligations.ItemsIssueInOrder : Prop :=
  (∀ (s : State) (x : TestItem) (rest : List TestItem),
    s.slotDue = true → s.scan.item0 = none → s.scan.item1 = none → s.test.queue = x :: rest →
    (s.scan.nextSlot = 32 ∨ (32 < s.scan.nextSlot ∧ 0 < s.scan.testPart)) → s.scan.nextSlot + itemSlots x.kind ≤ 40 →
    ∃ t i, exec .slotStart s = .next t ∧ t.bankItem (bankOf x.line) = some i ∧
      i.line = x.line ∧ i.kind = x.kind ∧ i.origin = .test ∧ i.last = s.scan.nextSlot + itemSlots x.kind - 1 ∧
      i.disturbed = decide (t.derivedMode x.line ≠ itemMode x.kind) ∧
      (t.line x.line).sentMode = t.derivedMode x.line ∧
      (if x.line.val < 32 then t.link0 else t.link1) = (if x.line.val < 32 then s.link0 else s.link1) ++
        (if x.kind = .diagUp ∨ x.kind = .diagDown then [⟨positionOf x.line, t.derivedMode x.line, .connect⟩]
        else if t.derivedMode x.line = (s.line x.line).sentMode then [] else [⟨positionOf x.line, t.derivedMode x.line, .none⟩]) ∧
      t.test.queue <:+ rest ∧ t.scan.nextSlot = s.scan.nextSlot + 1 ∧
      (∀ l, (t.line l).state = (s.line l).state ∧ (t.line l).measuring = (s.line l).measuring) ∧ t.bat = s.bat ∧
      (∃ ds, (∀ d ∈ ds, (s.sw d.1).items = 0) ∧ JournalAs (passesDone ds s) t) ∧
      (s.sweep.holder = none → (∀ n, (s.sw n).state ≠ .active ∨ (s.sw n).closing = true) → JournalAs s t)) ∧
  (∀ (s : State) (o : Offer),
    s.slotDue = true → s.scan.item0 = none → s.scan.item1 = none → s.sweep.offer = some o → s.sweep.holder = some o.sweep →
    s.scan.noOffer = false → ((s.scan.nextSlot = 32 ∧ s.test.queue = []) ∨ (32 < s.scan.nextSlot ∧ s.scan.testPart = 0)) →
    let w := s.sw o.sweep
    let next := visitLine w (w.cursor + 1)
    let kind : ItemKind := match o.kind with | .foreign => .foreign | .diagUp => .diagUp | .diagDown => .diagDown
    s.scan.nextSlot + itemSlots kind ≤ 40 →
    ∃ t i, exec .slotStart s = .next t ∧ t.bankItem (bankOf o.line) = some i ∧
      i.line = o.line ∧ i.kind = kind ∧ i.origin = .sweep o.sweep ∧ i.last = s.scan.nextSlot + itemSlots kind - 1 ∧
      i.disturbed = decide (t.derivedMode o.line ≠ itemMode kind) ∧ (t.line o.line).sentMode = t.derivedMode o.line ∧
      t.scan.nextSlot = s.scan.nextSlot + 1 ∧ t.test = s.test ∧ t.bat = s.bat ∧
      (∃ ds, (∀ d ∈ ds, (s.sw d.1).items = 0) ∧ JournalAs (passesDone ds s) t) ∧
      (∀ l, (t.line l).state = (s.line l).state ∧ (t.line l).measuring = (s.line l).measuring) ∧
      (w.count ≤ w.cursor + 1 → (∀ m, m ≠ o.sweep → (s.sw m).state ≠ .active ∨ (s.sw m).closing = true) →
        t.sw o.sweep = { w with items := w.items + 1, closing := true } ∧ (∀ m, m ≠ o.sweep → t.sw m = s.sw m) ∧
          t.sweep.holder = none ∧ t.sweep.lastServed = o.sweep ∧ t.sweep.used = s.sweep.used + 1 ∧ t.sweep.offer = none ∧
          t.scan.noOffer = true ∧ JournalAs s t) ∧
      (w.cursor + 1 < w.count → w.closing = false → s.sweep.used + 1 < w.blockLength → bankOf next = bankOf o.line →
        ((s.line next).state = .idle ∨ (s.line next).state = .blocked) →
        t.sw o.sweep = { w with items := w.items + 1, cursor := w.cursor + 1 } ∧ (∀ m, m ≠ o.sweep → t.sw m = s.sw m) ∧
          t.sweep.holder = some o.sweep ∧ t.sweep.lastServed = s.sweep.lastServed ∧ t.sweep.used = s.sweep.used + 1 ∧
          t.sweep.offer = some ⟨o.sweep, next, w.kind⟩ ∧ t.scan.noOffer = false ∧ JournalAs s t)) ∧
  (∀ (s : State) (b : Bank) (i : Item),
    s.slotDue = true → 32 ≤ s.scan.nextSlot → s.bankItem b = some i → bankOf i.line = b →
    let mode := s.derivedMode i.line
    ∃ t, exec .slotStart s = .next t ∧ t.bankItem b = some
      { i with
        disturbed := i.disturbed || decide (mode ≠ itemMode i.kind), disturbedBefore := i.disturbed
        transient := i.transient || decide (mode = .highZ ∨ mode = .diagUp ∨ mode = .diagDown), transientBefore := i.transient }) ∧
  (∀ (s : State) (n : SweepNo), s.sweep.offer = none → s.sweep.holder = some n →
    let w := s.sw n
    let busy := fun l : LineNo => (s.line l).state ≠ .idle ∧ (s.line l).state ≠ .blocked
    busy (visitLine w w.cursor) →
    (w.cursor + 1 < w.count → w.closing = false → s.sweep.used + 1 < w.blockLength → ¬ busy (visitLine w (w.cursor + 1)) →
      let u := s.setSw n { w with skipped := w.skipped + 1, cursor := w.cursor + 1 }
      askOffer s = { u with
        sweep := { u.sweep with used := s.sweep.used + 1, offer := some ⟨n, visitLine w (w.cursor + 1), w.kind⟩ } }) ∧
    ((w.count ≤ w.cursor + 1 ∨ w.blockLength ≤ s.sweep.used + 1) → (s.sw (n + 1)).state = .active → (s.sw (n + 1)).closing = false →
      ¬ busy (visitLine (s.sw (n + 1)) (s.sw (n + 1)).cursor) →
      let dealt := { w with
        skipped := w.skipped + 1, cursor := if w.cursor + 1 < w.count then w.cursor + 1 else w.cursor
        closing := w.closing || decide (w.count ≤ w.cursor + 1) }
      let u := if dealt.closing = true ∧ w.items = 0 then (passesDone [(n, w.measured, w.skipped + 1)] s).setSw n (passEnded dealt) else s.setSw n dealt
      askOffer s = { u with
        sweep := { u.sweep with
          holder := some (n + 1), used := 0, lastServed := n
          offer := some ⟨n + 1, visitLine (s.sw (n + 1)) (s.sw (n + 1)).cursor, (s.sw (n + 1)).kind⟩ } }) ∧
    (w.count ≤ w.cursor + 1 → w.items = 0 → w.state = .active → (∀ m, m ≠ n → (s.sw m).state ≠ .active ∨ (s.sw m).closing = true) →
      let u := (passesDone [(n, w.measured, w.skipped + 1)] s).setSw n (passEnded w)
      let t := { u with
        sweep := { u.sweep with holder := none, used := s.sweep.used + 1, lastServed := n }, scan := { s.scan with noOffer := true } }
      askOffer s = t ∧
        (w.rept = .cyclic → ¬ busy (visitLine w 0) →
          askOffer t = { t with sweep := { t.sweep with holder := some n, used := 0, offer := some ⟨n, visitLine w 0, w.kind⟩ } }))) ∧
  (∀ s : State, s.sweep.offer = none →
    let t := askOffer s
    (∀ o, t.sweep.offer = some o →
      t.sweep.holder = some o.sweep ∧ o.line = visitLine (t.sw o.sweep) (t.sw o.sweep).cursor ∧ o.kind = (t.sw o.sweep).kind ∧
      ((s.line o.line).state = .idle ∨ (s.line o.line).state = .blocked)) ∧
    (t.sweep.offer = none → t.scan.noOffer = true) ∧
    ∃ ds, (ds.map Prod.fst).Nodup ∧ { t with sweep := s.sweep, scan := s.scan } = passesDone ds s ∧
      ∀ d ∈ ds, let w := s.sw d.1
        w.items = 0 ∧ t.sw d.1 = passEnded w ∧ d.2.1 = w.measured ∧
          (w.closing = false → w.cursor < w.count → d.2.2 = w.skipped + (w.count - w.cursor))) ∧
  ∀ s : State, s.sweep.offer = none → s.sweep.holder = none → (∀ n, (s.sw n).state ≠ .active ∨ (s.sw n).closing = true) →
    askOffer s = { s with scan := { s.scan with noOffer := true } }

/-! ### Test access -/

/-- R158 to R161: HOLD by the first check that applies: force byte: BAD_RANGE; HELD: WRONG_STATE; no free shadow slot: NO_SHADOW; a call or ringing
without force: LINE_BUSY. Else the lowest free slot receives the line's state, loop condition, Dial Record, Fault Set and baseline; what was under
way ends; any detector is released; the line is HELD with test feed HIGH_Z; HOLD_TAKEN is written, and OK carries the slot.
(The model's choices here: log 1, 9.) -/
def Obligations.HoldTakesTheLine : Prop :=
  ∀ (p : Port) (l : LineNo) (f : Byte) (fill : List Byte) (s : State), Admits p .test s →
    let c := Instr.hold p (frameTail [byteOf l.val, f] fill)
    let k := frameBytes [byteOf l.val, f] fill
    let r := s.line l
    let busy := r.state = .ringing ∨ r.state = .dialling ∨ r.state = .talk
    (1 < f.toNat → exec c s = .next (answered p 0x40 .badRange [] k s)) ∧
    (f.toNat ≤ 1 → r.state = .held → exec c s = .next (answered p 0x40 .wrongState [] k s)) ∧
    (f.toNat ≤ 1 → r.state ≠ .held → (∀ n : ShadowNo, s.test.shadows[n] ≠ none) →
      exec c s = .next (answered p 0x40 .noShadow [] k s)) ∧
    ∀ n : ShadowNo, f.toNat ≤ 1 → r.state ≠ .held → s.test.shadows[n] = none →
      (∀ m : ShadowNo, m < n → s.test.shadows[m] ≠ none) →
      (busy → f.toNat = 0 → exec c s = .next (answered p 0x40 .lineBusy [] k s)) ∧
      ((¬ busy ∨ f.toNat = 1) → (r.detStatus ≠ .waiting → l ∉ s.pool.waitQueue) →
        ∃ t, exec c s = .next t ∧ Replies p 0x40 .ok [byteOf n.val] k s t ∧
          { t.line l with sentMode := r.sentMode } =
            { r with
              state := .held, loop := .unknown, run := none, acquireCount := 0, breakStart := none, hangupExpiry := none
              pulseCounter := 0, pulseDiscard := false, digitOnset := none, lastMakeStart := none, interdigitExpiry := none
              interdigitHeld := false, firstDigitExpiry := none, ringPhase := none, ringPhaseExpiry := none, ringLimitExpiry := none
              detStatus := .none, shadowSlot := some n, testFeed := some .highZ
              recoveryDiscard := r.recoveryDiscard || decide (r.sentMode = .ring)
              measuring := r.measuring.map (fun m => { m with mark := .discard }) } ∧
          FeedSent l s t ∧ OtherLinesButDetector l s t ∧ t.pool = (releaseAny l s).pool ∧
          JournalAs (writeEvent (s.holdPorts l) (some l) s.now (.holdTaken (decide (f.toNat = 1 ∧ busy)) n r.state) s) t ∧
          AttachmentsKept s t ∧
          callOf s t =
            { s with
              test := { s.test with
                shadows := s.test.shadows.set n (some ⟨l, r.state, r.loop, r.dialRecord, r.overflow, r.faults, r.baseline⟩) } })

/-- R166 to R168: RELEASE: a mode byte above 1 is BAD_RANGE, a line not HELD is NOT_HELD. Else it is answered OK: the line's items leave the Test
Queue and the round's test part; its slot is freed; RESTORE puts back Dial Record, Fault Set and baseline, FRESH empties them; the FAULT reason
follows the Fault Set written; the state and loop condition are those of R167's table; HOLD_RELEASED is written, then BLOCK_CHANGED if the set
changed.
(The model's choices here: log 14, 26.) -/
def Obligations.ReleaseReturnsTheLine : Prop :=
  ∀ (p : Port) (l : LineNo) (b : Byte) (fill : List Byte) (s : State), Admits p .test s →
    let c := Instr.release p (frameTail [byteOf l.val, b] fill)
    let k := frameBytes [byteOf l.val, b] fill
    let r := s.line l
    (1 < b.toNat → exec c s = .next (answered p 0x41 .badRange [] k s)) ∧
    (b.toNat ≤ 1 → r.state ≠ .held → exec c s = .next (answered p 0x41 .notHeld [] k s)) ∧
    ∀ (m : ReleaseMode) (n : ShadowNo) (sh : Shadow), b = byteOf (releaseModeCode m) → r.state = .held → r.shadowSlot = some n →
      s.test.shadows[n] = some sh →
      let faults := if m = .restore then sh.faults else resetFaultSet
      let q : Reasons := { r.reasons with fault := (s.effective l).autoBlock && isolatingFault faults }
      let free := q.controller = false ∧ q.fault = false
      let state : LineState := if free then (if m = .restore ∧ sh.state = .idle then .idle else .acquire) else .blocked
      let loop : LoopCond := if state = .idle then .opened else if state = .blocked ∧ m = .restore then sh.loop else .unknown
      let told := writeEvent (s.holdPorts l) (some l) s.now (.holdReleased m .request state) s
      ∃ t, exec c s = .next t ∧ Replies p 0x41 .ok [] k s t ∧
        { t.line l with sentMode := r.sentMode } =
          { r with
            state := state, loop := loop, reasons := q, shadowSlot := none, testFeed := none, faults := faults
            dialRecord := if m = .restore then sh.dialRecord else []
            overflow := if m = .restore then sh.overflow else false
            baseline := if m = .restore then sh.baseline else 0
            run := none, acquireCount := 0, breakStart := none, hangupExpiry := none, pulseCounter := 0, pulseDiscard := false
            digitOnset := none, lastMakeStart := none, interdigitExpiry := none, interdigitHeld := false, firstDigitExpiry := none
            recoveryDiscard := r.recoveryDiscard || decide (r.sentMode = .ring) } ∧
        FeedSent l s t ∧ OtherLines l s t ∧
        JournalAs (if q = r.reasons then told else writeEvent (s.linePorts l) (some l) s.now (.blockChanged q) told) t ∧
        AttachmentsKept s t ∧
        feedOf s t =
          { s with
            test := { s.test with
              shadows := s.test.shadows.set n none
              queue := s.test.queue.filter (fun i => decide (i.line ≠ l)) }
            scan := { s.scan with
              testPart := ((s.test.queue.take s.scan.testPart).filter (fun i => decide (i.line ≠ l))).length } }

/-- R163, R164: SET_TEST_FEED: a selector above 2, or PULL with neither flag, is BAD_RANGE, a line not HELD is NOT_HELD; else it is answered OK, the
test feed mode is the table's, and the feed mode is recomputed. MEASURE: a kind above 3 is BAD_RANGE, a line not HELD is NOT_HELD, a queue of 8 is
QUEUE_FULL; else the item joins the tail of the Test Queue, and OK carries the queue's length. Nothing else changes.
(The model's choices here: log 31.) -/
def Obligations.HeldLinesAreTested : Prop :=
  (∀ (p : Port) (l : LineNo) (sel flags : Byte) (fill : List Byte) (s : State), Admits p .test s → flags.toNat ≤ 3 →
    let c := Instr.setTestFeed p (frameTail [byteOf l.val, sel, flags] fill)
    let k := frameBytes [byteOf l.val, sel, flags] fill
    ((2 < sel.toNat ∨ (sel.toNat = 2 ∧ flags.toNat = 0)) → exec c s = .next (answered p 0x42 .badRange [] k s)) ∧
    ∀ mode : TestFeed,
      ((sel.toNat = 0 ∧ mode = .normal) ∨ (sel.toNat = 1 ∧ mode = .highZ) ∨
        (sel.toNat = 2 ∧ (flags.toNat = 1 ∨ flags.toNat = 3) ∧ mode = .diagUp) ∨ (sel.toNat = 2 ∧ flags.toNat = 2 ∧ mode = .diagDown)) →
      ((s.line l).state ≠ .held → exec c s = .next (answered p 0x42 .notHeld [] k s)) ∧
      ((s.line l).state = .held →
        exec c s = .next (answered p 0x42 .ok [] k (recomputeFeed l (s.setLine l { s.line l with testFeed := some mode }))))) ∧
  ∀ (p : Port) (l : LineNo) (b : Byte) (fill : List Byte) (s : State), Admits p .test s →
    let c := Instr.measure p (frameTail [byteOf l.val, b] fill)
    let k := frameBytes [byteOf l.val, b] fill
    let queue := s.test.queue
    (3 < b.toNat → exec c s = .next (answered p 0x43 .badRange [] k s)) ∧
    ∀ kind : ItemKind, b = byteOf (itemKindCode kind) →
      ((s.line l).state ≠ .held → exec c s = .next (answered p 0x43 .notHeld [] k s)) ∧
      ((s.line l).state = .held →
        (8 ≤ queue.length → exec c s = .next (answered p 0x43 .queueFull [] k s)) ∧
        (queue.length < 8 → exec c s = .next (answered p 0x43 .ok [byteOf (queue.length + 1)] k
          { s with test := { s.test with queue := queue ++ [⟨l, kind⟩] } })))

/-! ### The Time Base -/

/-- R98, R112, R170, R172, R177: in LOCKED a sync `cycles` after the last Time Base event, with no flywheel unit or loss due before it, is good in
the window of the frame expected: a time unit is emitted and becomes the reference, the calibration window advances, each assigned detector takes
its timeslot's byte, the pool review counts. Out of the window only the cycles pass. R178: a calibration count within 117965..144179 joins the
accepted counts, and the fourth makes Cal their sum plus 2, divided by 4 and rounded down, CALIBRATED; any other is discarded.
(The model's choices here: log 1, 4, 11, 26.) -/
def Obligations.SyncsPaceTheUnits : Prop :=
  (∀ (count : Nat) (b : TimeBase),
    ((count < 117965 ∨ 144179 < count) → takeCount count b = b) ∧
    (117965 ≤ count → count ≤ 144179 →
      (b.acceptedCount ≠ 3 →
        takeCount count b = { b with acceptedCount := b.acceptedCount + 1, acceptedSum := b.acceptedSum + count }) ∧
      (b.acceptedCount = 3 →
        takeCount count b =
          { b with cal := (b.acceptedSum + count + 2) / 4, calStatus := .calibrated, acceptedCount := 0, acceptedSum := 0 }))) ∧
  ∀ (cycles : Nat) (frame : Vector Byte 128) (s : State), s.tb.lock = .locked → s.tb.hasRef = true →
    let g := s.tb.g + cycles
    let window := s.tb.window.map (fun w : CalWindow => { w with cycles := w.cycles + cycles })
    let passed : State := { s with tb := { s.tb with g := g, u := s.tb.u + cycles, window := window } }
    (s.tb.n ≤ 2 → 1024 * g ≤ (16 * s.tb.n + 1) * s.tb.cal) → (2 < s.tb.n → g ≤ 3 * s.tb.cal / 64) →
    let good := 1024 * g ≤ 16 * s.tb.n * s.tb.cal + s.tb.cal ∧ 16 * s.tb.n * s.tb.cal ≤ 1024 * g + s.tb.cal
    (¬ good → exec (.frameSync cycles frame) s = .next passed) ∧
    (good → ∃ t, exec (.frameSync cycles frame) s = .next t ∧
      t.now = s.now + 1 ∧ t.tb.g = 0 ∧ t.tb.n = 1 ∧ t.tb.u = 0 ∧ t.tb.refTime = s.now + 1 ∧ t.tb.lock = .locked ∧
      (window = none → t.tb.window = some ⟨0, 0⟩ ∧ t.tb.cal = s.tb.cal) ∧
      (∀ w, window = some w → w.good < 63 → t.tb.window = some ⟨w.cycles, w.good + 1⟩ ∧ t.tb.cal = s.tb.cal) ∧
      (∀ w, window = some w → w.good = 63 → t.tb.window = some ⟨0, 0⟩ ∧
        t.tb.cal = (takeCount w.cycles s.tb).cal ∧ t.tb.calStatus = (takeCount w.cycles s.tb).calStatus ∧
        t.tb.acceptedCount = (takeCount w.cycles s.tb).acceptedCount ∧ t.tb.acceptedSum = (takeCount w.cycles s.tb).acceptedSum) ∧
      t.pool.reviewCount = (if s.pool.reviewCount + 1 = 1600 then 0 else s.pool.reviewCount + 1) ∧
      (s.pool.reviewCount + 1 = 1600 → t.pool.reviewDue = true) ∧
      (∀ d, (s.det d).line = none → t.det d = s.det d) ∧
      (∀ d l, (s.det d).line = some l → (s.det d).sampleCount < 95 →
        t.det d =
          { s.det d with
            sampleCount := (s.det d).sampleCount + 1
            samples := (s.det d).samples ++ [(s.line l).timeslot.map (fun i => expand s.pool.law frame[i])] }) ∧
      (∀ d l, (s.det d).line = some l → (s.det d).sampleCount = 95 →
        (t.det d).blockStart = some (s.now + 2) ∧ (t.det d).sampleCount = 0 ∧
          (t.det d).ended = some ⟨(s.det d).blockStart.getD (s.now + 1), (s.det d).freeRun⟩) ∧
      { t with tb := s.tb, pool := s.pool } = s)

/-- R176, R179: in FREE_RUN a sync, with no free unit or passed window due before it, becomes the reference when there is none; in the window of
frame 1 it counts in the relock run and is the new reference; at the 64th the Time Base is LOCKED, a calibration window opens, and
TIMEBASE(LOCKED) is written with the time of the run's first good sync; out of the window it is ignored. No unit is emitted.
(The model's choices here: log 1, 4, 28.) -/
def Obligations.SyncsRelock : Prop :=
  ∀ (cycles : Nat) (frame : Vector Byte 128) (s : State), s.tb.lock = .freeRun → s.tb.window = none →
    let g := if s.tb.hasRef then s.tb.g + cycles else s.tb.g
    let b : TimeBase := { s.tb with g := g, u := s.tb.u + cycles, acc := s.tb.acc + 64 * cycles }
    let good := 1024 * g ≤ 16 * b.cal + b.cal ∧ 16 * b.cal ≤ 1024 * g + b.cal
    let since := if s.tb.relockRun = 0 then s.now else s.tb.relockTime
    let run := s.tb.relockRun + 1
    b.acc < b.cal → (s.tb.hasRef = true → 1024 * g ≤ 17 * b.cal) →
    (s.tb.hasRef = false → exec (.frameSync cycles frame) s = .next { s with tb := { b with hasRef := true, g := 0, n := 1 } }) ∧
    (s.tb.hasRef = true → ¬ good → exec (.frameSync cycles frame) s = .next { s with tb := b }) ∧
    (s.tb.hasRef = true → good → run < 64 →
      exec (.frameSync cycles frame) s = .next { s with tb := { b with g := 0, n := 1, relockRun := run, relockTime := since } }) ∧
    (s.tb.hasRef = true → good → 64 ≤ run →
      exec (.frameSync cycles frame) s = .next
        (writeEvent s.attachedPorts none since (.timebase .locked b.calStatus)
          { s with
            tb := { b with
              g := 0, n := 1, relockRun := run, relockTime := since, lock := .locked, window := some ⟨0, 0⟩, refTime := s.now } }))

/-- R173, R174, R175, R176, R179: what the oscillator brings about when nothing is due before it. LOCKED: past the window of the frame expected, a
flywheel unit; past three frames, the loss, TIMEBASE(FREE_RUN) written with the time of the last good sync. FREE_RUN: at Cal, a free unit, Cal
subtracted; past the window of frame 1, the reference and the relock run are dropped. A unit counts the time, the review and a sample each.
(The model's choices here: log 1, 4, 28.) -/
def Obligations.TheOscillatorRunsOn : Prop :=
  (∀ s : State, s.tb.lock = .locked → s.tb.hasRef = true → s.tb.n ≤ 2 → 1024 * s.tb.g ≤ (16 * s.tb.n + 1) * s.tb.cal →
    let last := (16 * s.tb.n + 1) * s.tb.cal / 1024 + 1
    exec .flywheelUnit s = .next (emitUnit .flywheel
      { s with tb := { s.tb with g := last, u := s.tb.u + (last - s.tb.g), n := s.tb.n + 1, window := none } })) ∧
  (∀ s : State, s.tb.lock = .locked → s.tb.hasRef = true → s.tb.n = 3 → s.tb.g ≤ 3 * s.tb.cal / 64 →
    exec .lossOfLock s = .next
      (writeEvent s.attachedPorts none s.tb.refTime (.timebase .freeRun s.tb.calStatus)
        { s with
          tb := { s.tb with
            lock := .freeRun, hasRef := false, g := 0, n := 1, relockRun := 0, window := none
            u := s.tb.u + (3 * s.tb.cal / 64 + 1 - s.tb.g), acc := 64 * (s.tb.u + (3 * s.tb.cal / 64 + 1 - s.tb.g)) } })) ∧
  (∀ s : State, s.tb.lock = .freeRun → s.tb.window = none → s.tb.acc < s.tb.cal →
    let d := (s.tb.cal - s.tb.acc + 63) / 64
    (s.tb.hasRef = true → 1024 * (s.tb.g + d - 1) ≤ 17 * s.tb.cal) →
    exec .freeUnit s = .next (emitUnit .free
      { s with
        tb := { s.tb with
          g := if s.tb.hasRef then s.tb.g + d else s.tb.g
          u := s.tb.u + d, acc := s.tb.acc + 64 * d - s.tb.cal } })) ∧
  (∀ s : State, s.tb.lock = .freeRun → s.tb.window = none → s.tb.hasRef = true → 1024 * s.tb.g ≤ 17 * s.tb.cal →
    let d := 17 * s.tb.cal / 1024 + 1 - s.tb.g
    s.tb.acc + 64 * (d - 1) < s.tb.cal →
    exec .relockWindowExpiry s = .next
      { s with
        tb := { s.tb with u := s.tb.u + d, acc := s.tb.acc + 64 * d, hasRef := false, g := 0, n := 1, relockRun := 0 } }) ∧
  ∀ (k : UnitKind) (s : State),
    let t := emitUnit k s
    t.tb = { s.tb with counter := s.tb.counter + 1, u := 0 } ∧
    t.pool.reviewCount = (if s.pool.reviewCount + 1 = 1600 then 0 else s.pool.reviewCount + 1) ∧
    (∀ d, (s.det d).line = none → t.det d = s.det d) ∧
    (∀ d l, (s.det d).line = some l → (t.det d).sampleCount = (if (s.det d).sampleCount = 95 then 0 else (s.det d).sampleCount + 1)) ∧
    { t with tb := s.tb, pool := s.pool } = s

/-! ### Rounds, the battery, slots -/

/-- R20, R30, R180, R181: a round begins 20 units after the last, at slot 0, an offer that did not issue withdrawn; its battery sample is classed by
the feed state in force: one that agrees removes the change run; another starts it, dated with the round, or extends it; the eighth leaves its
class, its code and the run's start as the change that is due. In the round that reset began no slot starts before the sample, which is dated with
that round. Nothing else changes.
(The model's choices here: log 1, 6, 7, 13, 22.) -/
def Obligations.RoundsSampleTheBattery : Prop :=
  (∀ (v : Nat) (s : State), v ≤ 1023 → s.scan.nextSlot = 40 → 20 ≤ timeSince s.scan.roundStart s.now → s.scan.item0 = none →
    s.scan.item1 = none →
    let begins := timeAfter s.scan.roundStart 20
    let cls := batteryClass s.bat.feed s.bat.lostLimit s.bat.lowLimit v
    let put := fun b : Battery =>
      { s with
        bat := b, sweep := { s.sweep with offer := none }
        scan := { s.scan with roundStart := begins, nextSlot := 0, sampled := true, testPart := 0, noOffer := false } }
    (cls = s.bat.feed → exec (.roundStart v) s = .next (put { s.bat with run := none })) ∧
    (cls ≠ s.bat.feed →
      (s.bat.run = none → exec (.roundStart v) s = .next (put { s.bat with run := some ⟨1, begins⟩ })) ∧
      ∀ r, s.bat.run = some r →
        (r.count < 7 → exec (.roundStart v) s = .next (put { s.bat with run := some ⟨r.count + 1, r.start⟩ })) ∧
        (7 ≤ r.count → exec (.roundStart v) s = .next (put { s.bat with due := some ⟨cls, v, r.start⟩ })))) ∧
  (∀ (v : Nat) (s : State), v ≤ 1023 → s.scan.nextSlot = 0 → s.scan.sampled = false →
    let cls := batteryClass s.bat.feed s.bat.lostLimit s.bat.lowLimit v
    let put := fun b : Battery => { s with bat := b, scan := { s.scan with sampled := true } }
    exec .slotStart s = .next s ∧
    (cls = s.bat.feed → exec (.roundStart v) s = .next (put { s.bat with run := none })) ∧
    (cls ≠ s.bat.feed →
      (s.bat.run = none → exec (.roundStart v) s = .next (put { s.bat with run := some ⟨1, s.scan.roundStart⟩ })) ∧
      ∀ r, s.bat.run = some r →
        (r.count < 7 → exec (.roundStart v) s = .next (put { s.bat with run := some ⟨r.count + 1, r.start⟩ })) ∧
        (7 ≤ r.count → exec (.roundStart v) s = .next (put { s.bat with due := some ⟨cls, v, r.start⟩ })))) ∧
  ∀ (f : FeedState) (lost low v : Nat), lost + 4 ≤ low →
    (batteryClass f lost low v = .normal ↔ 4 * low + (if f = .normal then 0 else 8) ≤ v) ∧
    (batteryClass f lost low v = .lost ↔ v < 4 * lost + (if f = .lost then 8 else 0))

/-- R145, R181, R182, R183: a change of feed state that is due is taken: the new state, the run removed, FEED written with the class, the code and the
run start. Under NORMAL every PAUSED sweep is ACTIVE, else every ACTIVE one is PAUSED. Entering LOST sends IDLE, DIALLING, TALK and RINGING lines to
ACQUIRE, their call or ringing ended without a report, and restarts those in ACQUIRE; leaving LOST restarts those in ACQUIRE. Other lines stay.
(The model's choices here: log 1, 6, 9.) -/
def Obligations.FeedChangesAreTaken : Prop :=
  ∀ (c : FeedChange) (s : State), s.bat.due = some c →
    let acquired := fun r : Line =>
      { r with state := .acquire, loop := .unknown, run := none, acquireCount := 0, breakStart := none, hangupExpiry := none }
    let ended := fun r : Line =>
      { acquired r with
        pulseCounter := 0, pulseDiscard := false, digitOnset := none, lastMakeStart := none, interdigitExpiry := none
        interdigitHeld := false, firstDigitExpiry := none }
    let falls := c.cls = .lost ∧ s.bat.feed ≠ .lost
    let rises := c.cls ≠ .lost ∧ s.bat.feed = .lost
    ∃ t, exec .feedStateChange s = .next t ∧
      t.bat = { s.bat with feed := c.cls, run := none, due := none } ∧
      JournalAs (writeEvent s.attachedPorts none c.start (.feed c.cls c.code) s) t ∧
      (∀ n, t.sw n =
        { s.sw n with
          state := if c.cls = .normal then (if (s.sw n).state = .paused then .active else (s.sw n).state)
            else (if (s.sw n).state = .active then .paused else (s.sw n).state) }) ∧
      (∀ l, let r := s.line l
        let r' := { t.line l with detStatus := r.detStatus }
        (falls →
          ((r.state = .idle ∨ r.state = .dialling ∨ r.state = .talk) → r' = ended r) ∧
          (r.state = .ringing →
            { r' with sentMode := r.sentMode, recoveryDiscard := r.recoveryDiscard } =
              { ended r with
                ringPhase := none, ringPhaseExpiry := none, ringLimitExpiry := none
                measuring := r.measuring.map (fun m => if m.feed = .ring then { m with mark := .discard } else m) } ∧
            (t.line l).sentMode = t.derivedMode l) ∧
          (r.state = .acquire → r' = acquired r) ∧
          ((r.state = .blocked ∨ r.state = .held) → r' = r)) ∧
        (rises → t.line l = if r.state = .acquire then acquired r else r) ∧
        (¬ falls → ¬ rises → t.line l = r)) ∧
      BuffersKept s t ∧ AttachmentsKept s t ∧ t.store = s.store ∧ t.scan = s.scan ∧ t.test = s.test ∧ t.tb = s.tb

/-- R20, R21, R23, R25, R26: the start of a LOOP slot that is due measures the two lines of its position that are not HELD and whose mode is NORMAL or
RING: stamped with the slot's time unit, under the line's mode, DISCARD when the recovery-discard flag is set or the battery is LOST, else VALID;
the flag is cleared. Every other line, and the rest of the state, is as it was; a slot that is not due starts nothing.
(The model's choices here: log 1, 3, 7.) -/
def Obligations.LoopSlotsMeasure : Prop :=
  ∀ s : State,
    (s.slotDue = false → exec .slotStart s = .next s) ∧
    (s.slotDue = true → s.scan.nextSlot < 32 →
      ∃ t, exec .slotStart s = .next t ∧
        (∀ l, t.line l =
          if l.val % 32 = s.scan.nextSlot ∧ (s.line l).state ≠ .held ∧ (s.derivedMode l = .normal ∨ s.derivedMode l = .ring) then
            { s.line l with
              recoveryDiscard := false
              measuring := some
                ⟨timeAfter s.scan.roundStart (s.scan.nextSlot / 2), s.derivedMode l,
                  if (s.line l).recoveryDiscard = true ∨ s.bat.feed = .lost then .discard else .valid⟩ }
          else s.line l) ∧
        { t with lines := s.lines } = { s with scan := { s.scan with nextSlot := s.scan.nextSlot + 1 } })

/-- R25, R32, R33, R143, R147, R148, R165: an item whose last slot has started completes: its bank is free, the recovery-discard flag is set if a slot
of it ran under a transient mode, and the feed mode is recomputed. A test item writes TEST_RESULT for Port T with its readings and its mark, and
leaves the Fault Set alone; a sweep's item raises its measured tally and lowers its items in progress. A DISTURBED sweep reading leaves the Fault
Set alone; an INTACT one is one observation with the item's time stamp, counted by the Fault Monitor: FOREIGN of FOREIGN_VOLTAGE, BAD when a
magnitude is at or above 4 times the foreign threshold; DIAG of OPEN_PAIR, BAD when the voltage is at or above 4 times the open threshold.
(The model's choices here: log 1, 3, 7, 13, 36.) -/
def Obligations.ItemsComplete : Prop :=
  ∀ (b : Bank) (r1 r2 : Int) (i : Item) (s : State), s.bankItem b = some i → bankOf i.line = b → i.last < s.scan.nextSlot →
    let stamp := timeAfter s.scan.roundStart (i.last / 2)
    let kept := fun t : State => t.store = s.store ∧ t.pool = s.pool ∧ t.tb = s.tb ∧ t.bat = s.bat ∧ t.test = s.test
    let freed := (s.setBankItem b none).scan
    let p := s.effective i.line
    let seen := { s.line i.line with recoveryDiscard := (s.line i.line).recoveryDiscard || i.transient }
    let moved := fun t : State =>
      decide ((s.line i.line).sentMode ≠ t.derivedMode i.line ∧ ((s.line i.line).sentMode = .ring ∨ t.derivedMode i.line = .ring))
    let v1 := max (-2048) (min 2047 r1)
    let v2 := max (-2048) (min 2047 r2)
    let judged := fun bad : Bool => if bad then Verdict.bad else Verdict.good
    let observed : List (FaultKind × Verdict) := match i.kind with
      | .foreign => [(.foreignVoltage, judged (decide (4 * p.foreign ≤ v1.natAbs ∨ 4 * p.foreign ≤ v2.natAbs)))]
      | .diagUp => [(.openPair, judged (decide (((4 * p.openThr : Nat) : Int) ≤ v1)))]
      | .diagDown => [(.openPair, judged (decide (((4 * p.openThr : Nat) : Int) ≤ v1)))]
      | .loop => []
    let order : SourceOrder := if i.kind = .diagUp ∨ i.kind = .diagDown then .disconnect else .none
    let ended := recomputeFeedWith order i.line ((s.setBankItem b none).setLine i.line seen)
    (i.origin = .test → ∃ t, exec (.itemComplete b r1 r2) s = .next t ∧ t.scan = freed ∧ t.sweep = s.sweep ∧
      t.line i.line = { seen with sentMode := t.derivedMode i.line, recoveryDiscard := seen.recoveryDiscard || moved t } ∧
      OtherLines i.line s t ∧
      JournalAs (writeEvent ⟨false, false, s.attached .t⟩ (some i.line) stamp
        (.testResult (testReading i.kind (s.line i.line).baseline r1 r2) i.disturbed) s) t ∧
      BuffersKept s t ∧ AttachmentsKept s t ∧ kept t) ∧
    ∀ n, i.origin = .sweep n →
      let tallied := { s.sw n with measured := (s.sw n).measured + 1, items := (s.sw n).items - 1 }
      (i.disturbed = false → exec (.itemComplete b r1 r2) s = .next ((countGroup i.line stamp observed ended).setSw n tallied)) ∧
      ∃ t, exec (.itemComplete b r1 r2) s = .next t ∧ t.scan = freed ∧
        t.sw n = tallied ∧
        (∀ m, m ≠ n → t.sw m = s.sw m) ∧ t.sweep.holder = s.sweep.holder ∧ t.sweep.offer = s.sweep.offer ∧
        (t.line i.line).sentMode = t.derivedMode i.line ∧
        (i.transient = true → (t.line i.line).recoveryDiscard = true) ∧
        (∀ l, l ≠ i.line → { t.line l with detStatus := (s.line l).detStatus } = s.line l) ∧
        (i.disturbed = true →
          t.line i.line = { seen with sentMode := t.derivedMode i.line, recoveryDiscard := seen.recoveryDiscard || moved t } ∧
          OtherLines i.line s t ∧ t.journal = s.journal ∧ kept t)

/-! ### LOOP measurements -/

/-- R40, R41, R47: Im is half the sum rounded down, Il the difference; Mc is 8191 when OVERRANGE, else Im − B and 0 below 0. The baseline moves toward
Im by the gap divided by 2^k and truncated, at least one code while there is a gap, and stays in 0..4095; it never passes Im, and where
it is Im it stays. R46: a VALID measurement under feed NORMAL that is not CLOSED, of an IDLE line whose loop is OPEN and which has no run, leaves its
last values and this new baseline, unless it is OVERRANGE or the battery is not NORMAL: then the baseline stays.
(The model's choices here: log 1, 3, 13.) -/
def Obligations.LoopArithmetic : Prop :=
  (∀ it ir : Int, -8192 ≤ it → it ≤ 8191 → -8192 ≤ ir → ir ≤ 8191 →
    2 * metallic it ir ≤ it + ir ∧ it + ir ≤ 2 * metallic it ir + 1 ∧ longitudinal it ir = it - ir ∧
    -8192 ≤ metallic it ir ∧ metallic it ir ≤ 8191 ∧ -16383 ≤ longitudinal it ir ∧ longitudinal it ir ≤ 16383 ∧
    ∀ b : Nat, compensated true (metallic it ir) b = 8191 ∧
      ((b : Int) ≤ metallic it ir → (compensated false (metallic it ir) b : Int) = metallic it ir - b) ∧
      (metallic it ir < b → compensated false (metallic it ir) b = 0) ∧ compensated false (metallic it ir) b ≤ 8191) ∧
  (∀ (b k : Nat) (im : Int), b ≤ 4095 → 2 ≤ k → k ≤ 10 →
    nextBaseline b im k ≤ 4095 ∧ (im = b → nextBaseline b im k = b) ∧
    ((b : Int) < im →
      (nextBaseline b im k : Int) = min 4095 (b + max 1 ((im - b) / (2 ^ k : Nat))) ∧ (nextBaseline b im k : Int) ≤ im) ∧
    (im < b →
      (nextBaseline b im k : Int) = max 0 (b - max 1 ((b - im) / (2 ^ k : Nat))) ∧ im ≤ nextBaseline b im k)) ∧
  ∀ (l : LineNo) (it ir : Int) (m : LoopSlot) (s : State),
    let r := s.line l
    let p := s.effective l
    let last := withLast it ir r
    Evaluates m .normal it ir r → r.state = .idle → r.loop = .opened → r.run = none → last.lastMc < p.tOn →
    exec (.loopMeasurement l it ir) s = .next (s.setLine l { counted last with baseline := learned last s.bat.feed p.shift })

/-- R24, R39, R42, R46, R49 to R53, R160: the LOOP measurement in progress on a line completes: it leaves Im, Il, Mc and the OVERRANGE mark as the line's
last values. Marked DISCARD, or of a HELD line, or made under feed RING of a line that is not RINGING, it does nothing else; nor does a measurement of
a line with none in progress. A VALID one under feed NORMAL raises the decimation counter, or at 7 is a decimated sample and makes it 0; OVERRANGE or
under a battery not NORMAL it leaves the baseline. A decimated sample that changes nothing at the hook is counted by the Fault Monitor as one group:
the two ground kinds, unless OVERRANGE, SHORT, and on an IDLE line LEAKAGE, against the thresholds of the effective profile.
(The model's choices here: log 1, 3, 9, 13.) -/
def Obligations.MeasurementsLeaveLastValues : Prop :=
  ∀ (l : LineNo) (it ir : Int) (s : State), -8192 ≤ it → it ≤ 8191 → -8192 ≤ ir → ir ≤ 8191 →
    let r := s.line l
    let im := metallic it ir
    let saturated := decide (it = -8192 ∨ it = 8191 ∨ ir = -8192 ∨ ir = 8191)
    let last := { r with
      lastIm := im, lastIl := longitudinal it ir, lastMc := compensated saturated im r.baseline, overrange := saturated, measuring := none }
    let p := s.effective l
    (r.measuring = none → exec (.loopMeasurement l it ir) s = .next s) ∧
    ∀ m, r.measuring = some m →
      let ends := m.mark = .discard ∨ r.state = .held ∨ (m.feed = .ring ∧ r.state ≠ .ringing)
      (ends → exec (.loopMeasurement l it ir) s = .next (s.setLine l last)) ∧
      (∃ t, exec (.loopMeasurement l it ir) s = .next t ∧
        (t.line l).lastIm = last.lastIm ∧ (t.line l).lastIl = last.lastIl ∧ (t.line l).lastMc = last.lastMc ∧
        (t.line l).overrange = last.overrange ∧ (t.line l).measuring = none ∧
        (t.line l).faults.decimation = (if ends ∨ m.feed = .ring then r.faults.decimation
          else if r.faults.decimation = 7 then 0 else r.faults.decimation + 1) ∧
        (saturated = true ∨ s.bat.feed ≠ .normal → (t.line l).baseline = r.baseline) ∧
        OtherLinesButDetector l s t ∧ BuffersKept s t ∧ AttachmentsKept s t ∧
        t.store = s.store ∧ t.scan = s.scan ∧ t.sweep = s.sweep ∧ t.test = s.test ∧ t.tb = s.tb ∧ t.bat = s.bat) ∧
      (m.mark = .valid → m.feed = .normal → r.faults.decimation = 7 → r.run = none →
        (r.state = .idle ∨ r.state = .dialling ∨ r.state = .talk ∨ r.state = .blocked) →
        ((Closes p last.lastMc ∧ r.loop = .closed) ∨ (Opens p last.lastMc ∧ r.loop = .opened) ∨
          (¬ Closes p last.lastMc ∧ ¬ Opens p last.lastMc)) →
        let baseline := if r.state = .idle ∧ r.loop = .opened then learned last s.bat.feed p.shift else r.baseline
        let judged := fun bad : Bool => if bad then Verdict.bad else Verdict.good
        let grounds : List (FaultKind × Verdict) := if saturated then [] else
          [(.groundTip, judged (decide ((p.ground : Int) ≤ last.lastIl))), (.groundRing, judged (decide (last.lastIl ≤ -(p.ground : Int))))]
        let leakage : List (FaultKind × Verdict) := if r.state = .idle then [(.leakage, judged (decide (p.leakCeiling ≤ baseline)))] else []
        exec (.loopMeasurement l it ir) s = .next
          (countGroup l m.stamp (grounds ++ [(.short, judged (saturated || decide ((p.shortThr : Int) ≤ im)))] ++ leakage)
            (s.setLine l { last with baseline := baseline, faults := { r.faults with decimation := 0 } })))

/-- R56, R57, R64 to R66: a VALID measurement of class CLOSED that is the D-th of an IDLE line's run toward CLOSED seizes the line: DIALLING, loop CLOSED,
Dial Record emptied, pulse state at its start, first-digit expiry armed from the run start, OPEN_PAIR CLEAR; SEIZE, then TONE_UNAVAILABLE, then
FAULT_CLEARED are written as R66 orders; a tone line with a timeslot and no detector asks for one. R60 to R62: in ACQUIRE each VALID measurement counts
in the table's way: D of one class give a provisional loop condition, D more settle it, INITIAL dated at the run start, to TALK or to IDLE, where
PERMANENT_LOOP clears and the baseline learns; the 400th without that is INITIAL(UNSTABLE) and IDLE. R127 to R130: in RINGING a CLOSED measurement
that matches the phase counts in the answer run, any other class removes it, and one of the other feed leaves it; the run of the trip debounce in RING,
of D in PAUSE, writes RING_TRIP dated at its start and ends the ringing in TALK, loop CLOSED, the feed recomputed. Taken of measurements
that are no decimated samples and of runs that no lowered D has overtaken.
(The model's choices here: log 1, 3, 13.) -/
def Obligations.ClosedRunsSeize : Prop :=
  (∀ (l : LineNo) (it ir : Int) (m : LoopSlot) (n : Nat) (start : Time) (s : State),
    -8192 ≤ it → it ≤ 8191 → -8192 ≤ ir → ir ≤ 8191 →
    let r := s.line l
    let p := s.effective l
    let saturated := decide (it = -8192 ∨ it = 8191 ∨ ir = -8192 ∨ ir = 8191)
    r.measuring = some m → m.mark = .valid → m.feed = .normal → r.state = .idle → r.loop = .opened → r.faults.decimation ≠ 7 →
    (s.line l).run = some ⟨.closed, n, start⟩ → n + 1 = p.debounce → p.tOn ≤ compensated saturated (metallic it ir) r.baseline →
    let tone := p.dialMethod ≠ .pulse ∧ p.autoDetector = true
    let told := writeEvent (s.linePorts l) (some l) start (.seize (s.effectiveNo l)) s
    let told := if tone ∧ r.timeslot = none then writeEvent (s.linePorts l) (some l) start .toneUnavailable told else told
    let told := if faultStands r.faults.openPair then writeEvent (s.linePorts l) (some l) s.now (.faultCleared .openPair) told else told
    let asked := if tone ∧ r.timeslot ≠ none ∧ r.detStatus = .none then requestDet l s else s
    ∃ t, exec (.loopMeasurement l it ir) s = .next t ∧
      t.line l =
        { r with
          state := .dialling, loop := .closed, run := none, dialRecord := [], overflow := false, pulseCounter := 0, pulseDiscard := false
          digitOnset := none, lastMakeStart := none, interdigitExpiry := none, interdigitHeld := false
          firstDigitExpiry := some (timeAfter start (p.firstDigitTimeout * 8000))
          faults := { r.faults with openPair := clearEntry, decimation := r.faults.decimation + 1 }
          lastIm := metallic it ir, lastIl := longitudinal it ir, lastMc := compensated saturated (metallic it ir) r.baseline
          overrange := saturated, measuring := none, detStatus := (asked.line l).detStatus } ∧
      t.pool = asked.pool ∧ OtherLines l s t ∧ JournalAs told t ∧ BuffersKept s t ∧ AttachmentsKept s t ∧ poolOf s t = s) ∧
  (∀ (l : LineNo) (it ir : Int) (m : LoopSlot) (s : State),
    let r := s.line l
    let p := s.effective l
    let last := withLast it ir r
    let x := { counted last with acquireCount := r.acquireCount + 1 }
    let answers := fun t => exec (.loopMeasurement l it ir) s = .next t
    let reports := fun (at_ : Time) (o : InitialOutcome) => writeEvent (s.linePorts l) (some l) at_ (.initial o) s
    let rests := fun y : Line => { y with
      state := .idle, loop := .opened, run := none, acquireCount := 0, baseline := learned last s.bat.feed p.shift }
    let goesOn := fun y : Line =>
      (r.acquireCount + 1 < 400 → answers (s.setLine l y)) ∧
      (400 ≤ r.acquireCount + 1 → answers ((reports m.stamp .unstable).setLine l (rests y)))
    Evaluates m .normal it ir r → r.state = .acquire → (∀ q, r.run = some q → q.count < p.debounce) →
    (¬ Closes p last.lastMc → ¬ Opens p last.lastMc → goesOn { x with run := none, loop := .unknown }) ∧
    ∀ d : LoopDir, (d = .closed ∧ Closes p last.lastMc) ∨ (d = .opened ∧ Opens p last.lastMc) →
      let q := runAfter r.run d m.stamp
      (r.loop = .unknown →
        (q.count < p.debounce → goesOn { x with run := some q }) ∧
        (p.debounce ≤ q.count → goesOn { x with loop := condOf d, run := some ⟨d, 0, q.start⟩ })) ∧
      (r.loop ≠ .unknown → r.loop ≠ condOf d →
        (1 < p.debounce → goesOn { x with loop := .unknown, run := some ⟨d, 1, m.stamp⟩ }) ∧
        (p.debounce ≤ 1 → goesOn { x with loop := condOf d, run := some ⟨d, 0, m.stamp⟩ })) ∧
      (r.loop = condOf d →
        (q.count < p.debounce → goesOn { x with run := some q }) ∧
        (p.debounce ≤ q.count → d = .closed →
          answers ((reports q.start .closed).setLine l { x with state := .talk, loop := .closed, run := none, acquireCount := 0 })) ∧
        (p.debounce ≤ q.count → d = .opened →
          let told := reports q.start .opened
          let told := if r.faults.permanentLoop.state = .present
            then writeEvent (s.linePorts l) (some l) s.now (.faultCleared .permanentLoop) told else told
          answers (told.setLine l (rests { x with faults := { x.faults with permanentLoop := clearEntry } }))))) ∧
  ∀ (l : LineNo) (it ir : Int) (m : LoopSlot) (ph : RingPhase) (s : State),
    let r := s.line l
    let p := s.effective l
    let last := withLast it ir r
    let x := if m.feed = .ring then last else counted last
    let answers := fun t => exec (.loopMeasurement l it ir) s = .next t
    let level := match ph with | .ring => p.tTrip | .pause => p.tOn
    let needed := match ph with | .ring => p.tripDebounce | .pause => p.debounce
    let matching : FeedMode := match ph with | .ring => .ring | .pause => .normal
    (Evaluates m .normal it ir r ∨ Evaluates m .ring it ir r) → r.state = .ringing → r.ringPhase = some ph →
    (m.feed ≠ matching → answers (s.setLine l x)) ∧
    (m.feed = matching → (∀ q, r.run = some q → q.count < needed) →
      (last.lastMc < level → answers (s.setLine l { x with run := none })) ∧
      (level ≤ last.lastMc →
        let q := runAfter r.run .closed m.stamp
        (q.count < needed → answers (s.setLine l { x with run := some q })) ∧
        (needed ≤ q.count → answers (recomputeFeed l ((writeEvent (s.linePorts l) (some l) q.start (.ringTrip ph) s).setLine l
          { x with
            state := .talk, loop := .closed, run := none, ringPhase := none, ringPhaseExpiry := none, ringLimitExpiry := none })))))

/-- R68 to R71, R84, R85: a make ends a DIALLING line's break. Short: only break and hang-up expiry go. Pulse: counted, the eleventh an overcount that
is reported and begins a discard; the interdigit expiry is armed from the make. Invalid or flash: the digit is abandoned and reported, a flash with
PULSE_ABORT before it when pulses were counted. Hang-up: a hang-up by MAKE, then a seizure by the same make. R70: in TALK a flash is reported, a
hang-up is one, and any other make only ends the break. R57: the measurement that confirms a run toward CLOSED with a break open is that make. R67, R74,
R86: the one that confirms a run toward OPEN in DIALLING or TALK opens a break at the run start, its hang-up expiry armed; in DIALLING a break that does
not lie before the interdigit expiry completes the digit, or ends the discard, first; an expiry already past is a hang-up by EXPIRY at once. Past is less than 2^31 units before the time unit in progress, modulo 2^32: that
reading of R67 and R74 is the model's, DEDUCED in log 19 (R86's before speaks of R86 to R89 alone).
Measurements that are no decimated samples.
A digit abandoned keeps its last make start, which is the model's choice (log 35).
(The model's choices here: log 1, 3, 6, 13, 19, 35.) -/
def Obligations.MakesAreClassed : Prop :=
  (∀ (l : LineNo) (brk make : Time) (s : State), (s.line l).state = .dialling →
    let p := s.effective l
    let r := { s.line l with breakStart := none, hangupExpiry := none }
    let dur := (make - brk).toNat
    let t := makeBreak l brk make s
    let event := fun body => writeEvent (s.linePorts l) (some l) brk body
    let armed := { r with
      lastMakeStart := some make, interdigitExpiry := some (timeAfter make (p.interdigit * 8)), interdigitHeld := false }
    let gone := { r with pulseCounter := 0, pulseDiscard := false, digitOnset := none, interdigitExpiry := none, interdigitHeld := false }
    profileGood p = true →
    (dur < p.pbMin * 8 → t = s.setLine l r) ∧
    (p.pbMin * 8 ≤ dur → dur ≤ p.pbMax * 8 →
      (r.pulseDiscard = true → t = s.setLine l armed) ∧
      (r.pulseDiscard = false →
        (r.pulseCounter = 0 → t = s.setLine l { armed with pulseCounter := 1, digitOnset := some brk, firstDigitExpiry := none }) ∧
        (0 < r.pulseCounter → r.pulseCounter < 10 → t = s.setLine l { armed with pulseCounter := r.pulseCounter + 1 }) ∧
        (r.pulseCounter = 10 →
          t = event (.dialError .pulseOvercount)
            (s.setLine l { armed with pulseCounter := 0, pulseDiscard := true, digitOnset := none })))) ∧
    ((p.pbMax * 8 < dur ∧ dur < p.flashMin * 8) ∨ (p.flashMax * 8 < dur ∧ dur < p.hangupMin * 8) →
      t = event (.dialError (.invalidBreak dur)) (s.setLine l gone)) ∧
    (p.flashMin * 8 ≤ dur → dur ≤ p.flashMax * 8 →
      (r.pulseCounter = 0 → t = event (.flash dur) (s.setLine l gone)) ∧
      (0 < r.pulseCounter → t = event (.flash dur) (event (.dialError .pulseAbort) (s.setLine l gone)))) ∧
    (p.hangupMin * 8 ≤ dur → t = seize l make (hangUp l brk .make (s.setLine l r)))) ∧
  (∀ (l : LineNo) (brk make : Time) (s : State), (s.line l).state = .talk →
    let p := s.effective l
    let r := { s.line l with breakStart := none, hangupExpiry := none }
    let dur := (make - brk).toNat
    let t := makeBreak l brk make s
    profileGood p = true →
    ((dur < p.flashMin * 8 ∨ (p.flashMax * 8 < dur ∧ dur < p.hangupMin * 8)) → t = s.setLine l r) ∧
    (p.flashMin * 8 ≤ dur → dur ≤ p.flashMax * 8 → t = writeEvent (s.linePorts l) (some l) brk (.flash dur) (s.setLine l r)) ∧
    (p.hangupMin * 8 ≤ dur → t = seize l make (hangUp l brk .make (s.setLine l r)))) ∧
  ∀ (l : LineNo) (it ir : Int) (m : LoopSlot) (n : Nat) (start : Time) (s : State),
    let r := s.line l
    let p := s.effective l
    let last := withLast it ir r
    Evaluates m .normal it ir r → (r.state = .dialling ∨ r.state = .talk) → n + 1 = p.debounce →
    (∀ b, r.loop = .opened → r.breakStart = some b → r.run = some ⟨.closed, n, start⟩ → Closes p last.lastMc →
      exec (.loopMeasurement l it ir) s = .next (makeBreak l b start (s.setLine l { counted last with loop := .closed, run := none }))) ∧
    (r.loop = .closed → r.run = some ⟨.opened, n, start⟩ → Opens p last.lastMc →
      let expiry := timeAfter start (p.hangupMin * 8)
      let past := (s.now - expiry).toNat < 2 ^ 31
      let x := { counted last with
        loop := .opened, run := none, breakStart := some start, hangupExpiry := some expiry
        baseline := if past then learned last s.bat.feed p.shift else r.baseline }
      let start' := { x with lastMakeStart := none, interdigitExpiry := none, interdigitHeld := false }
      let before := fun e : Time => 1 ≤ (e - start).toNat ∧ (e - start).toNat < 2 ^ 31
      let opens := fun u : State => exec (.loopMeasurement l it ir) s = .next (if past then hangUp l start .expiry u else u)
      ((r.state = .talk ∨ r.interdigitExpiry = none) → opens (s.setLine l x)) ∧
      ∀ e, r.state = .dialling → r.interdigitExpiry = some e →
        (before e → opens (s.setLine l x)) ∧
        (¬ before e → r.pulseDiscard = true → opens (s.setLine l { start' with pulseDiscard := false })) ∧
        ∀ onset, ¬ before e → r.pulseDiscard = false → r.digitOnset = some onset →
          opens (recordDigit l ⟨r.pulseCounter % 10, by omega⟩ .pulse onset
            (s.setLine l { start' with pulseCounter := 0, digitOnset := none })))

/-! ### Expiries -/

/-- R73, R74, R93, R153: a due hang-up expiry of an open break in DIALLING or TALK is a hang-up by EXPIRY: IDLE, loop OPEN, break, pulse state and dial expiries gone, the
run kept, an unlocked detector released, PERMANENT_LOOP cleared. A due first-digit expiry in DIALLING is a dial timeout: TALK, loop condition kept,
an unlocked detector released, PERMANENT_LOOP raised. HANGUP bears the break start, DIAL_TIMEOUT the expiry.
(The model's choices here: log 3, 19.) -/
def Obligations.ExpiriesEndDialling : Prop :=
  ∀ (l : LineNo) (s : State),
    let r := s.line l
    let kept := fun t : State => t.pool = (releaseUnlocked l s).pool ∧
      (∀ m, (t.line m).detStatus = ((releaseUnlocked l s).line m).detStatus) ∧
      OtherLinesButDetector l s t ∧ BuffersKept s t ∧ AttachmentsKept s t ∧ poolOf s t = s
    (∀ b e, (r.state = .dialling ∨ r.state = .talk) → r.breakStart = some b → r.hangupExpiry = some e → (s.now - e).toNat < 2 ^ 31 →
      let told := writeEvent (s.linePorts l) (some l) b (.hangup .expiry) s
      ∃ t, exec (.hangupExpiry l) s = .next t ∧
        { t.line l with detStatus := r.detStatus } =
          { r with
            state := .idle, loop := .opened, breakStart := none, hangupExpiry := none, pulseCounter := 0, pulseDiscard := false
            digitOnset := none, lastMakeStart := none, interdigitExpiry := none, interdigitHeld := false, firstDigitExpiry := none
            faults := { r.faults with permanentLoop := ⟨.clear, 0, none⟩ } } ∧
        JournalAs (if r.faults.permanentLoop.state = .present
          then writeEvent (s.linePorts l) (some l) s.now (.faultCleared .permanentLoop) told else told) t ∧ kept t) ∧
    ∀ e, r.firstDigitExpiry = some e → (s.now - e).toNat < 2 ^ 31 → r.state = .dialling →
      let told := writeEvent (s.linePorts l) (some l) e .dialTimeout s
      ∃ t, exec (.firstDigitExpiry l) s = .next t ∧
        { t.line l with detStatus := r.detStatus } =
          { r with
            state := .talk, firstDigitExpiry := none, faults := { r.faults with permanentLoop := ⟨.present, 0, none⟩ } } ∧
        JournalAs (if r.faults.permanentLoop.state = .present then told
          else writeEvent (s.linePorts l) (some l) e (.faultRaised .permanentLoop) told) t ∧ kept t

/-- R87, R88, R89: a due interdigit expiry is held while a break, or a run toward OPEN, began before it; else the digit completes: recorded by PULSE with
the counter modulo 10 and its onset, the pulse fields at their start; or the discard of an overcount ends without an event. A held expiry that no
break or run holds any more is taken the same way.
(The model's choices here: log 1, 3, 6, 19.) -/
def Obligations.InterdigitExpiriesCompleteDigits : Prop :=
  ∀ (l : LineNo) (e : Time) (s : State), (s.line l).interdigitExpiry = some e →
    let r := s.line l
    let before := fun t : Time => 1 ≤ (e - t).toNat ∧ (e - t).toNat < 2 ^ 31
    let holds := (∃ b, r.breakStart = some b ∧ before b) ∨ ∃ n t, r.run = some ⟨.opened, n, t⟩ ∧ before t
    let due := (s.now - e).toNat < 2 ^ 31
    let start := { r with lastMakeStart := none, interdigitExpiry := none, interdigitHeld := false }
    let completes := fun o : Host.Outcome State Fault Refusal =>
      (r.pulseDiscard = true → o = .next (s.setLine l { start with pulseDiscard := false })) ∧
      ∀ onset, r.pulseDiscard = false → r.digitOnset = some onset → o = .next
        (recordDigit l ⟨r.pulseCounter % 10, by omega⟩ .pulse onset (s.setLine l { start with pulseCounter := 0, digitOnset := none }))
    (due → r.interdigitHeld = false → holds →
      exec (.interdigitExpiry l) s = .next (s.setLine l { r with interdigitHeld := true })) ∧
    (due → r.interdigitHeld = false → ¬ holds → completes (exec (.interdigitExpiry l) s)) ∧
    (r.interdigitHeld = true → ¬ holds → completes (exec (.interdigitHeldSettle l) s)) ∧
    (r.interdigitHeld = true → holds → exec (.interdigitHeldSettle l) s = .next s)

/-- R124, R125: a due ring phase expiry changes RING to PAUSE or PAUSE to RING, the next expiry timed from this one by the effective profile, the answer
run removed. A due ring limit expiry writes RING_TIMEOUT with its time and ends the ringing: IDLE, loop OPEN. The feed mode is recomputed. Taken of a
line whose LOOP slot did not begin in this time unit.
(The model's choices here: log 3, 8, 9, 19.) -/
def Obligations.RingExpiriesAreTaken : Prop :=
  ∀ (l : LineNo) (e : Time) (s : State),
    let r := s.line l
    let p := s.effective l
    (∀ m, r.measuring = some m → m.stamp ≠ s.now) → (s.now - e).toNat < 2 ^ 31 →
    (r.ringPhaseExpiry = some e →
      (r.ringPhase = some .ring → exec (.ringPhaseExpiry l) s = .next (recomputeFeed l (s.setLine l
        { r with ringPhase := some .pause, ringPhaseExpiry := some (timeAfter e (p.ringOff * 8)), run := none }))) ∧
      (r.ringPhase = some .pause → exec (.ringPhaseExpiry l) s = .next (recomputeFeed l (s.setLine l
        { r with ringPhase := some .ring, ringPhaseExpiry := some (timeAfter e (p.ringOn * 8)), run := none })))) ∧
    (r.ringLimitExpiry = some e →
      exec (.ringLimitExpiry l) s = .next (recomputeFeed l ((writeEvent (s.linePorts l) (some l) e .ringTimeout s).setLine l
        { r with
          state := .idle, loop := .opened, run := none, ringPhase := none, ringPhaseExpiry := none, ringLimitExpiry := none
          measuring := r.measuring.map (fun m => if m.feed = .ring then { m with mark := .discard } else m) })))

/-! ### The Tone Pool -/

/-- R112 to R114: a review that is due does nothing on an empty Wait Queue. Else the lowest detector that is assigned, unlocked, unused and in MUTE leaves
its line, which joins the tail of the queue, and goes to the line at the head; with no such detector the used bit of every unlocked assigned one is
cleared. Nothing else changes.
(The model's choices here: log 1, 3.) -/
def Obligations.ReviewsEvictTheSilent : Prop :=
  ∀ s : State, s.pool.reviewDue = true →
    let u : State := { s with pool := { s.pool with reviewDue := false } }
    let silent := fun d : DetNo =>
      (s.det d).line ≠ none ∧ (s.det d).locked = false ∧ (s.det d).used = false ∧ ∃ c, (s.det d).decision = .mute c
    (s.pool.waitQueue = [] → exec .poolReview s = .next u) ∧
    ∀ w rest, s.pool.waitQueue = w :: rest →
      (∀ d v, (s.det d).line = some v → silent d → (∀ x, x < d → ¬ silent x) →
        let out := (u.setLine v { s.line v with detStatus := .waiting }).setQueue (rest ++ [v])
        exec .poolReview s = .next ((out.setLine w { out.line w with detStatus := .assigned d }).setDet d
          { line := some w, locked := false, used := true, blockStart := some (timeAfter s.now 1), sampleCount := 0
            decision := .mute none, discardMark := false, freeRun := false, samples := [], ended := none })) ∧
      ((∀ d, ¬ silent d) → exec .poolReview s = .next
        { u with
          pool := { u.pool with
            detectors := s.pool.detectors.map (fun r => if r.line.isSome && !r.locked then { r with used := false } else r) } })

/-- R103 to R107: a block end that is due is discarded, its mark cleared and nothing else, when it is marked, holds a FREE_RUN unit, or finds the line not
in DIALLING or TALK, its loop OPEN or pulses counted. Else it is decided: a digit becomes the candidate, the same digit again is accepted and handed
to the Digit Assembler with the candidate's start, two blocks without it release it.
(The model's choices here: log 1, 3, 10, 12, 23, 24.) -/
def Obligations.ToneBlocksAreDecided : Prop :=
  ∀ (d : DetNo) (l : LineNo) (b : EndedBlock) (e : Energies) (s : State), energiesInRange e = true →
    (s.det d).ended = some b → (s.det d).line = some l →
    let r := s.line l
    let x := s.det d
    let taken := { x with ended := none, discardMark := false }
    let discarded := x.discardMark = true ∨ b.freeRun = true ∨ (r.state ≠ .dialling ∧ r.state ≠ .talk) ∨ r.loop = .opened ∨ 0 < r.pulseCounter
    let loud := 2000 ≤ max (max e.f697 e.f770) (max e.f852 e.f941) ∨ 2000 ≤ max (max e.f1209 e.f1336) (max e.f1477 e.f1633)
    let put := fun y : Decision => s.setDet d { taken with decision := y, used := x.used || decide loud }
    let answers := fun t => exec (.toneBlockEnd d e) s = .next t
    (discarded → answers (s.setDet d taken)) ∧
    (¬ discarded →
      (x.decision = .mute none → blockDigit e = none → answers (put (.mute none))) ∧
      (∀ y, x.decision = .mute none → blockDigit e = some y → answers (put (.mute (some (y, b.start))))) ∧
      (∀ c t0, x.decision = .mute (some (c, t0)) →
        (blockDigit e = none → answers (put (.mute none))) ∧
        (∀ y, blockDigit e = some y → y ≠ c → answers (put (.mute (some (y, b.start))))) ∧
        (blockDigit e = some c → r.state = .dialling →
          answers (recordDigit l c .tone t0 ((put (.tone c 0)).setLine l { r with firstDigitExpiry := none }))) ∧
        (blockDigit e = some c → r.state = .talk →
          answers (writeEvent (s.linePorts l) (some l) t0 (.digit c .tone none) (put (.tone c 0))))) ∧
      ∀ c k, x.decision = .tone c k →
        (blockDigit e = some c → answers (put (.tone c 0))) ∧
        (blockDigit e ≠ some c → k = 0 → answers (put (.tone c 1))) ∧
        (blockDigit e ≠ some c → k = 1 → answers (put (.mute none))))

/-- R101, R102: a block gives a digit exactly when one frequency of each group reaches 2000 and is at least 6 times every other of its group, the high one
times 5 is at least the low one times 2, the low one times 6 at least the high one, and their sum times 8 at least the total times 5; it gives the
digit at the crossing of the row and the column. -/
def Obligations.BlocksGiveTheCrossing : Prop :=
  ∀ (e : Energies) (x : DigitCode),
    let low : List Nat := [e.f697, e.f770, e.f852, e.f941]
    let high : List Nat := [e.f1209, e.f1336, e.f1477, e.f1633]
    let codes : List Nat := [1, 2, 3, 12, 4, 5, 6, 13, 7, 8, 9, 14, 10, 0, 11, 15]
    blockDigit e = some x ↔
      ∃ row col : Fin 4,
        let lo := low.getD row.val 0
        let hi := high.getD col.val 0
        2000 ≤ lo ∧ 2000 ≤ hi ∧
        (∀ j : Fin 4, j ≠ row → 6 * low.getD j.val 0 ≤ lo) ∧ (∀ j : Fin 4, j ≠ col → 6 * high.getD j.val 0 ≤ hi) ∧
        lo * 2 ≤ hi * 5 ∧ hi ≤ lo * 6 ∧ e.total * 5 ≤ (lo + hi) * 8 ∧
        x.val = codes.getD (4 * row.val + col.val) 0

/-! ### The Fault Table -/

/-- R150: from CLEAR, `c` BAD observations in a row make an entry PRESENT, and only the last of them reports: FAULT_RAISED with the time of the first;
fewer leave it SUSPECT with their count and no report; a GOOD one returns it to CLEAR. From PRESENT, `k` GOOD ones clear it with FAULT_CLEARED dated
at the first; fewer leave it EASING; a BAD one returns it to PRESENT without a report. R149, R151, R154, R79, R82: a group of observations of one line is
counted in its order against the confirm and clear counts of the effective profile, with the fault events it gives; a HELD line's is not counted at all.
Where an isolating kind entered or left PRESENT and EASING, FAULT is among the reasons exactly when auto block is yes and an isolating kind stands; a
change of the set writes BLOCK_CHANGED after the fault events, and takes a line to BLOCKED or a BLOCKED one to ACQUIRE. The feed mode follows.
(The model's choices here: log 9.) -/
def Obligations.FaultsNeedARun : Prop :=
  (∀ (c k : Nat) (times : List Time) (first : Time), 1 ≤ c → 1 ≤ k →
    let run := fun (v : Verdict) (e : FaultEntry) =>
      (first :: times).foldl (fun (x : FaultEntry × List (Bool × Time)) t =>
        let y := countObservation x.1 v c k t
        (y.1, x.2 ++ y.2.toList)) (e, [])
    let n := times.length + 1
    (n = c → run .bad ⟨.clear, 0, none⟩ = (⟨.present, 0, none⟩, [(true, first)])) ∧
    (n < c → run .bad ⟨.clear, 0, none⟩ = (⟨.suspect, n, some first⟩, [])) ∧
    (n = k → run .good ⟨.present, 0, none⟩ = (⟨.clear, 0, none⟩, [(false, first)])) ∧
    (n < k → run .good ⟨.present, 0, none⟩ = (⟨.easing, n, some first⟩, [])) ∧
    ∀ (i : Nat) (start : Option Time) (t : Time),
      countObservation ⟨.suspect, i, start⟩ .good c k t = (⟨.clear, 0, none⟩, none) ∧
      countObservation ⟨.easing, i, start⟩ .bad c k t = (⟨.present, 0, none⟩, none)) ∧
  ∀ (l : LineNo) (stamp : Time) (observed : List (FaultKind × Verdict)) (s : State),
    let r := s.line l
    let p := s.effective l
    let t := countGroup l stamp observed s
    let done := observed.foldl
      (fun (x : FaultSet × State) o =>
        let y := countObservation (x.1.entry o.1) o.2 p.confirm p.clear stamp
        (x.1.setEntry o.1 y.1,
          match y.2 with
          | some (true, first) => writeEvent (s.linePorts l) (some l) first (.faultRaised o.1) x.2
          | some (false, first) => writeEvent (s.linePorts l) (some l) first (.faultCleared o.1) x.2
          | none => x.2)) (r.faults, s)
    let faults := done.1
    let stands := fun (f : FaultSet) (k : FaultKind) => faultStands (f.entry k)
    let touched := ∃ k ∈ ([.groundTip, .groundRing, .short, .foreignVoltage] : List FaultKind), stands r.faults k ≠ stands faults k
    let isolating := ∃ k ∈ ([.groundTip, .groundRing, .short, .foreignVoltage] : List FaultKind), stands faults k = true
    (r.state = .held → t = s) ∧
    (r.state ≠ .held → ∀ q : Reasons,
      (touched → q.controller = r.reasons.controller ∧ (q.fault = true ↔ p.autoBlock = true ∧ isolating)) → (¬ touched → q = r.reasons) →
      let u := if breaksCall q r then releaseUnlocked l s else s
      { t.line l with sentMode := r.sentMode, recoveryDiscard := r.recoveryDiscard, detStatus := r.detStatus } =
        reasonsTaken q { r with faults := faults } ∧
      (∀ m, (t.line m).detStatus = (u.line m).detStatus) ∧ t.pool = u.pool ∧ OtherLinesButDetector l s t ∧
      JournalAs (if q = r.reasons then done.2 else writeEvent (s.linePorts l) (some l) s.now (.blockChanged q) done.2) t ∧
      (r.sentMode = s.derivedMode l → FeedSent l s t ∧
        (t.line l).recoveryDiscard = (r.recoveryDiscard ||
          decide (r.sentMode ≠ t.derivedMode l ∧ (r.sentMode = .ring ∨ t.derivedMode l = .ring)))) ∧
      BuffersKept s t ∧ AttachmentsKept s t ∧ feedOf s { t with pool := s.pool } = s)

/-! ### Reset and the invariants -/

/-- R2, R7, R11, R12, R38, R97, R112, R135, R139, R146, R157, R170, R171, R180, R184, R186, R190: RESET answers, in every state, the state in which every
field has its reset value, the queue of waiting commands apart: every line record, the eight profiles at their defaults, no override and every range
entry disabled, sixteen free detectors, the Scan Engine at slot 0 of the round begun in time unit 0, the sweeps IDLE, shadow slots and Test Queue
empty, the Time Base in FREE_RUN with Cal 131072, the battery LOST at 32 and 42 V, an empty journal, three ports DETACHED with window 500, no expiry,
phase 0, no gap and the response of NOP buffered, and on each link NORMAL for the 32 positions in ascending order. In that state every effective profile
is P0, every line's derived mode is NORMAL, and the invariants stated below hold. The values of the fields that no rule gives a reset value (a line's held
interdigit mark and measurement in progress, a detector's free-run mark, samples and ended block, the review due, the round's sample, test part and ended
request, the visits used of no turn, the change due, the two dates of the Time Base, data out) are the model's choice of log 1; that the queue stays, of log 27.
(The model's choices here: log 1, 27.) -/
def Obligations.ResetLeavesTheResetValues : Prop :=
  ∀ s : State, ∃ t, exec .reset s = .next t ∧ t.pending = s.pending ∧
    (∀ l, t.line l =
      { state := .acquire, loop := .unknown, run := none, acquireCount := 0, breakStart := none, hangupExpiry := none
        pulseCounter := 0, pulseDiscard := false, digitOnset := none, lastMakeStart := none, interdigitExpiry := none
        interdigitHeld := false, firstDigitExpiry := none, dialRecord := [], overflow := false, baseline := 0, lastIm := 0, lastIl := 0
        lastMc := 0, overrange := false, recoveryDiscard := false, reasons := ⟨false, false⟩, subscription := ⟨false, false⟩
        timeslot := none, detStatus := .none, ringPhase := none, ringPhaseExpiry := none, ringLimitExpiry := none
        faults :=
          { groundTip := ⟨.clear, 0, none⟩, groundRing := ⟨.clear, 0, none⟩, short := ⟨.clear, 0, none⟩, leakage := ⟨.clear, 0, none⟩
            foreignVoltage := ⟨.clear, 0, none⟩, openPair := ⟨.clear, 0, none⟩, permanentLoop := ⟨.clear, 0, none⟩, decimation := 0 }
        shadowSlot := none, testFeed := none, sentMode := .normal, measuring := none }) ∧
    (∀ n : ProfileNo, t.store.profiles[n] =
      { tOn := 1000, tOff := 700, debounce := 4, tTrip := 1500, tripDebounce := 3, pbMin := 20, pbMax := 80, flashMin := 100
        flashMax := 400, hangupMin := 600, interdigit := 250, firstDigitTimeout := 15, dialMethod := .both, autoDetector := true
        ringOn := 1000, ringOff := 4000, ringMax := 60, ground := 100, shortThr := 6000, leakCeiling := 400, shift := 6, foreign := 50
        openThr := 40, confirm := 3, clear := 3, autoBlock := false, takeover := true }) ∧
    (∀ i : Fin 8, t.store.ranges[i] = ⟨0, 63, 0, false⟩) ∧ (∀ l : LineNo, t.store.overrides[l] = none) ∧
    (∀ d, t.det d =
      { line := none, locked := false, used := false, blockStart := none, sampleCount := 0, decision := .mute none, discardMark := false
        freeRun := false, samples := [], ended := none }) ∧
    t.pool = { t.pool with waitQueue := [], law := .lawA, reviewCount := 0, reviewDue := false } ∧
    t.scan = { roundStart := 0, nextSlot := 0, sampled := false, item0 := none, item1 := none, testPart := 0, noOffer := false } ∧
    (∀ n, t.sw n =
      { kind := .foreign, first := 0, count := 64, step := .up, rept := .once, blockLength := 8, state := .idle, cursor := 0
        measured := 0, skipped := 0, closing := false, items := 0 }) ∧
    t.sweep = { t.sweep with holder := none, used := 0, lastServed := 3, offer := none } ∧
    (∀ n : ShadowNo, t.test.shadows[n] = none) ∧ t.test.queue = [] ∧
    t.tb =
      { counter := 0, lock := .freeRun, cal := 131072, calStatus := .nominal, hasRef := false, g := 0, n := 1, u := 0, acc := 0
        relockRun := 0, window := none, acceptedCount := 0, acceptedSum := 0, refTime := 0, relockTime := 0 } ∧
    t.bat = { feed := .lost, lostLimit := 32, lowLimit := 42, run := none, due := none } ∧
    t.journal = [] ∧
    (∀ p, t.port p =
      { state := .detached, window := 500, expiry := none, phase := false, alertMask := 0, gap := 0, response := [0x00, 0x00, 0x00]
        dataOut := [] }) ∧
    t.link0.length = 32 ∧ (∀ k : Fin 32, t.link0[k.val]? = some ⟨k, .normal, .none⟩) ∧ t.link1 = t.link0 ∧
    (∀ l, t.effectiveNo l = 0 ∧ t.derivedMode l = .normal) ∧
    JournalOk t ∧ StoreOk t ∧ TimeslotsOk t ∧ ItemsOk t ∧ RangesOk t ∧ FeedsFollow t ∧ PoolAgrees t

/-- R186, R190, R191: every step keeps the journal at most 256 entries long, each entry pending for at least one port and only for attached ones, and
every gap count at most 65535. -/
def Obligations.StepsKeepTheJournal : Prop := ∀ s t : State, JournalOk s → step s = .next t → JournalOk t

/-- R2, R5, R7, R9, R11, R21, R28, R29: every step keeps the profiles within their ranges and ordering, the range entries in order, no timeslot twice,
the items in progress on their banks, within their round and with one source, and every line's record and its copies within the ranges of R2. -/
def Obligations.StepsKeepTheRecords : Prop :=
  ∀ s t : State, StoreOk s → TimeslotsOk s → ItemsOk s → RangesOk s → step s = .next t →
    StoreOk t ∧ TimeslotsOk t ∧ ItemsOk t ∧ RangesOk t

/-- R35, R36, R37: after every step each line's feed circuit was last sent the mode that the line's state, faults, profile and items give. -/
def Obligations.StepsKeepTheFeeds : Prop := ∀ s t : State, FeedsFollow s → step s = .next t → FeedsFollow t

/-- R97, R108, R109: after every step a detector's line and that line's detector status agree, locked with LOCKED; the Wait Queue holds exactly the
WAITING lines, each once; and while it holds one, no detector is free. -/
def Obligations.StepsKeepThePool : Prop := ∀ s t : State, PoolAgrees s → step s = .next t → PoolAgrees t

end
end

