-- ==== Sys2Proof/Laws/State.lean ====
section
/-! SUPPORT. The small lemmas of the state's updates: what an update of one component leaves of every other, and the read of what it wrote. -/

namespace Sys2Proof.Machine

/-! ### State.setLine -/

@[simp] theorem State.setLine_store (s : State) (l : LineNo) (r : Line) : (s.setLine l r).store = s.store := rfl
@[simp] theorem State.setLine_pool (s : State) (l : LineNo) (r : Line) : (s.setLine l r).pool = s.pool := rfl
@[simp] theorem State.setLine_scan (s : State) (l : LineNo) (r : Line) : (s.setLine l r).scan = s.scan := rfl
@[simp] theorem State.setLine_sweep (s : State) (l : LineNo) (r : Line) : (s.setLine l r).sweep = s.sweep := rfl
@[simp] theorem State.setLine_test (s : State) (l : LineNo) (r : Line) : (s.setLine l r).test = s.test := rfl
@[simp] theorem State.setLine_tb (s : State) (l : LineNo) (r : Line) : (s.setLine l r).tb = s.tb := rfl
@[simp] theorem State.setLine_bat (s : State) (l : LineNo) (r : Line) : (s.setLine l r).bat = s.bat := rfl
@[simp] theorem State.setLine_journal (s : State) (l : LineNo) (r : Line) : (s.setLine l r).journal = s.journal := rfl
@[simp] theorem State.setLine_portA (s : State) (l : LineNo) (r : Line) : (s.setLine l r).portA = s.portA := rfl
@[simp] theorem State.setLine_portB (s : State) (l : LineNo) (r : Line) : (s.setLine l r).portB = s.portB := rfl
@[simp] theorem State.setLine_portT (s : State) (l : LineNo) (r : Line) : (s.setLine l r).portT = s.portT := rfl
@[simp] theorem State.setLine_link0 (s : State) (l : LineNo) (r : Line) : (s.setLine l r).link0 = s.link0 := rfl
@[simp] theorem State.setLine_link1 (s : State) (l : LineNo) (r : Line) : (s.setLine l r).link1 = s.link1 := rfl
@[simp] theorem State.setLine_pending (s : State) (l : LineNo) (r : Line) : (s.setLine l r).pending = s.pending := rfl

/-! ### State.modLine -/

@[simp] theorem State.modLine_store (s : State) (l : LineNo) (f : Line → Line) : (s.modLine l f).store = s.store := rfl
@[simp] theorem State.modLine_pool (s : State) (l : LineNo) (f : Line → Line) : (s.modLine l f).pool = s.pool := rfl
@[simp] theorem State.modLine_scan (s : State) (l : LineNo) (f : Line → Line) : (s.modLine l f).scan = s.scan := rfl
@[simp] theorem State.modLine_sweep (s : State) (l : LineNo) (f : Line → Line) : (s.modLine l f).sweep = s.sweep := rfl
@[simp] theorem State.modLine_test (s : State) (l : LineNo) (f : Line → Line) : (s.modLine l f).test = s.test := rfl
@[simp] theorem State.modLine_tb (s : State) (l : LineNo) (f : Line → Line) : (s.modLine l f).tb = s.tb := rfl
@[simp] theorem State.modLine_bat (s : State) (l : LineNo) (f : Line → Line) : (s.modLine l f).bat = s.bat := rfl
@[simp] theorem State.modLine_journal (s : State) (l : LineNo) (f : Line → Line) : (s.modLine l f).journal = s.journal := rfl
@[simp] theorem State.modLine_portA (s : State) (l : LineNo) (f : Line → Line) : (s.modLine l f).portA = s.portA := rfl
@[simp] theorem State.modLine_portB (s : State) (l : LineNo) (f : Line → Line) : (s.modLine l f).portB = s.portB := rfl
@[simp] theorem State.modLine_portT (s : State) (l : LineNo) (f : Line → Line) : (s.modLine l f).portT = s.portT := rfl
@[simp] theorem State.modLine_link0 (s : State) (l : LineNo) (f : Line → Line) : (s.modLine l f).link0 = s.link0 := rfl
@[simp] theorem State.modLine_link1 (s : State) (l : LineNo) (f : Line → Line) : (s.modLine l f).link1 = s.link1 := rfl
@[simp] theorem State.modLine_pending (s : State) (l : LineNo) (f : Line → Line) : (s.modLine l f).pending = s.pending := rfl

/-! ### State.setDet -/

@[simp] theorem State.setDet_lines (s : State) (d : DetNo) (r : Detector) : (s.setDet d r).lines = s.lines := rfl
@[simp] theorem State.setDet_store (s : State) (d : DetNo) (r : Detector) : (s.setDet d r).store = s.store := rfl
@[simp] theorem State.setDet_scan (s : State) (d : DetNo) (r : Detector) : (s.setDet d r).scan = s.scan := rfl
@[simp] theorem State.setDet_sweep (s : State) (d : DetNo) (r : Detector) : (s.setDet d r).sweep = s.sweep := rfl
@[simp] theorem State.setDet_test (s : State) (d : DetNo) (r : Detector) : (s.setDet d r).test = s.test := rfl
@[simp] theorem State.setDet_tb (s : State) (d : DetNo) (r : Detector) : (s.setDet d r).tb = s.tb := rfl
@[simp] theorem State.setDet_bat (s : State) (d : DetNo) (r : Detector) : (s.setDet d r).bat = s.bat := rfl
@[simp] theorem State.setDet_journal (s : State) (d : DetNo) (r : Detector) : (s.setDet d r).journal = s.journal := rfl
@[simp] theorem State.setDet_portA (s : State) (d : DetNo) (r : Detector) : (s.setDet d r).portA = s.portA := rfl
@[simp] theorem State.setDet_portB (s : State) (d : DetNo) (r : Detector) : (s.setDet d r).portB = s.portB := rfl
@[simp] theorem State.setDet_portT (s : State) (d : DetNo) (r : Detector) : (s.setDet d r).portT = s.portT := rfl
@[simp] theorem State.setDet_link0 (s : State) (d : DetNo) (r : Detector) : (s.setDet d r).link0 = s.link0 := rfl
@[simp] theorem State.setDet_link1 (s : State) (d : DetNo) (r : Detector) : (s.setDet d r).link1 = s.link1 := rfl
@[simp] theorem State.setDet_pending (s : State) (d : DetNo) (r : Detector) : (s.setDet d r).pending = s.pending := rfl

/-! ### State.setQueue -/

@[simp] theorem State.setQueue_lines (s : State) (q : List LineNo) : (s.setQueue q).lines = s.lines := rfl
@[simp] theorem State.setQueue_store (s : State) (q : List LineNo) : (s.setQueue q).store = s.store := rfl
@[simp] theorem State.setQueue_scan (s : State) (q : List LineNo) : (s.setQueue q).scan = s.scan := rfl
@[simp] theorem State.setQueue_sweep (s : State) (q : List LineNo) : (s.setQueue q).sweep = s.sweep := rfl
@[simp] theorem State.setQueue_test (s : State) (q : List LineNo) : (s.setQueue q).test = s.test := rfl
@[simp] theorem State.setQueue_tb (s : State) (q : List LineNo) : (s.setQueue q).tb = s.tb := rfl
@[simp] theorem State.setQueue_bat (s : State) (q : List LineNo) : (s.setQueue q).bat = s.bat := rfl
@[simp] theorem State.setQueue_journal (s : State) (q : List LineNo) : (s.setQueue q).journal = s.journal := rfl
@[simp] theorem State.setQueue_portA (s : State) (q : List LineNo) : (s.setQueue q).portA = s.portA := rfl
@[simp] theorem State.setQueue_portB (s : State) (q : List LineNo) : (s.setQueue q).portB = s.portB := rfl
@[simp] theorem State.setQueue_portT (s : State) (q : List LineNo) : (s.setQueue q).portT = s.portT := rfl
@[simp] theorem State.setQueue_link0 (s : State) (q : List LineNo) : (s.setQueue q).link0 = s.link0 := rfl
@[simp] theorem State.setQueue_link1 (s : State) (q : List LineNo) : (s.setQueue q).link1 = s.link1 := rfl
@[simp] theorem State.setQueue_pending (s : State) (q : List LineNo) : (s.setQueue q).pending = s.pending := rfl

/-! ### State.setStatus -/

@[simp] theorem State.setStatus_store (s : State) (l : LineNo) (d : DetStatus) : (s.setStatus l d).store = s.store := rfl
@[simp] theorem State.setStatus_pool (s : State) (l : LineNo) (d : DetStatus) : (s.setStatus l d).pool = s.pool := rfl
@[simp] theorem State.setStatus_scan (s : State) (l : LineNo) (d : DetStatus) : (s.setStatus l d).scan = s.scan := rfl
@[simp] theorem State.setStatus_sweep (s : State) (l : LineNo) (d : DetStatus) : (s.setStatus l d).sweep = s.sweep := rfl
@[simp] theorem State.setStatus_test (s : State) (l : LineNo) (d : DetStatus) : (s.setStatus l d).test = s.test := rfl
@[simp] theorem State.setStatus_tb (s : State) (l : LineNo) (d : DetStatus) : (s.setStatus l d).tb = s.tb := rfl
@[simp] theorem State.setStatus_bat (s : State) (l : LineNo) (d : DetStatus) : (s.setStatus l d).bat = s.bat := rfl
@[simp] theorem State.setStatus_journal (s : State) (l : LineNo) (d : DetStatus) : (s.setStatus l d).journal = s.journal := rfl
@[simp] theorem State.setStatus_portA (s : State) (l : LineNo) (d : DetStatus) : (s.setStatus l d).portA = s.portA := rfl
@[simp] theorem State.setStatus_portB (s : State) (l : LineNo) (d : DetStatus) : (s.setStatus l d).portB = s.portB := rfl
@[simp] theorem State.setStatus_portT (s : State) (l : LineNo) (d : DetStatus) : (s.setStatus l d).portT = s.portT := rfl
@[simp] theorem State.setStatus_link0 (s : State) (l : LineNo) (d : DetStatus) : (s.setStatus l d).link0 = s.link0 := rfl
@[simp] theorem State.setStatus_link1 (s : State) (l : LineNo) (d : DetStatus) : (s.setStatus l d).link1 = s.link1 := rfl
@[simp] theorem State.setStatus_pending (s : State) (l : LineNo) (d : DetStatus) : (s.setStatus l d).pending = s.pending := rfl

/-! ### State.setSw -/

@[simp] theorem State.setSw_lines (s : State) (n : SweepNo) (w : Sweep) : (s.setSw n w).lines = s.lines := rfl
@[simp] theorem State.setSw_store (s : State) (n : SweepNo) (w : Sweep) : (s.setSw n w).store = s.store := rfl
@[simp] theorem State.setSw_pool (s : State) (n : SweepNo) (w : Sweep) : (s.setSw n w).pool = s.pool := rfl
@[simp] theorem State.setSw_scan (s : State) (n : SweepNo) (w : Sweep) : (s.setSw n w).scan = s.scan := rfl
@[simp] theorem State.setSw_test (s : State) (n : SweepNo) (w : Sweep) : (s.setSw n w).test = s.test := rfl
@[simp] theorem State.setSw_tb (s : State) (n : SweepNo) (w : Sweep) : (s.setSw n w).tb = s.tb := rfl
@[simp] theorem State.setSw_bat (s : State) (n : SweepNo) (w : Sweep) : (s.setSw n w).bat = s.bat := rfl
@[simp] theorem State.setSw_journal (s : State) (n : SweepNo) (w : Sweep) : (s.setSw n w).journal = s.journal := rfl
@[simp] theorem State.setSw_portA (s : State) (n : SweepNo) (w : Sweep) : (s.setSw n w).portA = s.portA := rfl
@[simp] theorem State.setSw_portB (s : State) (n : SweepNo) (w : Sweep) : (s.setSw n w).portB = s.portB := rfl
@[simp] theorem State.setSw_portT (s : State) (n : SweepNo) (w : Sweep) : (s.setSw n w).portT = s.portT := rfl
@[simp] theorem State.setSw_link0 (s : State) (n : SweepNo) (w : Sweep) : (s.setSw n w).link0 = s.link0 := rfl
@[simp] theorem State.setSw_link1 (s : State) (n : SweepNo) (w : Sweep) : (s.setSw n w).link1 = s.link1 := rfl
@[simp] theorem State.setSw_pending (s : State) (n : SweepNo) (w : Sweep) : (s.setSw n w).pending = s.pending := rfl

/-! ### State.setShadow -/

@[simp] theorem State.setShadow_lines (s : State) (n : ShadowNo) (v : Option Shadow) : (s.setShadow n v).lines = s.lines := rfl
@[simp] theorem State.setShadow_store (s : State) (n : ShadowNo) (v : Option Shadow) : (s.setShadow n v).store = s.store := rfl
@[simp] theorem State.setShadow_pool (s : State) (n : ShadowNo) (v : Option Shadow) : (s.setShadow n v).pool = s.pool := rfl
@[simp] theorem State.setShadow_scan (s : State) (n : ShadowNo) (v : Option Shadow) : (s.setShadow n v).scan = s.scan := rfl
@[simp] theorem State.setShadow_sweep (s : State) (n : ShadowNo) (v : Option Shadow) : (s.setShadow n v).sweep = s.sweep := rfl
@[simp] theorem State.setShadow_tb (s : State) (n : ShadowNo) (v : Option Shadow) : (s.setShadow n v).tb = s.tb := rfl
@[simp] theorem State.setShadow_bat (s : State) (n : ShadowNo) (v : Option Shadow) : (s.setShadow n v).bat = s.bat := rfl
@[simp] theorem State.setShadow_journal (s : State) (n : ShadowNo) (v : Option Shadow) : (s.setShadow n v).journal = s.journal := rfl
@[simp] theorem State.setShadow_portA (s : State) (n : ShadowNo) (v : Option Shadow) : (s.setShadow n v).portA = s.portA := rfl
@[simp] theorem State.setShadow_portB (s : State) (n : ShadowNo) (v : Option Shadow) : (s.setShadow n v).portB = s.portB := rfl
@[simp] theorem State.setShadow_portT (s : State) (n : ShadowNo) (v : Option Shadow) : (s.setShadow n v).portT = s.portT := rfl
@[simp] theorem State.setShadow_link0 (s : State) (n : ShadowNo) (v : Option Shadow) : (s.setShadow n v).link0 = s.link0 := rfl
@[simp] theorem State.setShadow_link1 (s : State) (n : ShadowNo) (v : Option Shadow) : (s.setShadow n v).link1 = s.link1 := rfl
@[simp] theorem State.setShadow_pending (s : State) (n : ShadowNo) (v : Option Shadow) : (s.setShadow n v).pending = s.pending := rfl

/-! ### State.setTb -/

@[simp] theorem State.setTb_lines (s : State) (tb : TimeBase) : (s.setTb tb).lines = s.lines := rfl
@[simp] theorem State.setTb_store (s : State) (tb : TimeBase) : (s.setTb tb).store = s.store := rfl
@[simp] theorem State.setTb_pool (s : State) (tb : TimeBase) : (s.setTb tb).pool = s.pool := rfl
@[simp] theorem State.setTb_scan (s : State) (tb : TimeBase) : (s.setTb tb).scan = s.scan := rfl
@[simp] theorem State.setTb_sweep (s : State) (tb : TimeBase) : (s.setTb tb).sweep = s.sweep := rfl
@[simp] theorem State.setTb_test (s : State) (tb : TimeBase) : (s.setTb tb).test = s.test := rfl
@[simp] theorem State.setTb_bat (s : State) (tb : TimeBase) : (s.setTb tb).bat = s.bat := rfl
@[simp] theorem State.setTb_journal (s : State) (tb : TimeBase) : (s.setTb tb).journal = s.journal := rfl
@[simp] theorem State.setTb_portA (s : State) (tb : TimeBase) : (s.setTb tb).portA = s.portA := rfl
@[simp] theorem State.setTb_portB (s : State) (tb : TimeBase) : (s.setTb tb).portB = s.portB := rfl
@[simp] theorem State.setTb_portT (s : State) (tb : TimeBase) : (s.setTb tb).portT = s.portT := rfl
@[simp] theorem State.setTb_link0 (s : State) (tb : TimeBase) : (s.setTb tb).link0 = s.link0 := rfl
@[simp] theorem State.setTb_link1 (s : State) (tb : TimeBase) : (s.setTb tb).link1 = s.link1 := rfl
@[simp] theorem State.setTb_pending (s : State) (tb : TimeBase) : (s.setTb tb).pending = s.pending := rfl

/-! ### State.setTimeslot -/

@[simp] theorem State.setTimeslot_store (s : State) (l : LineNo) (t : Option Timeslot) : (s.setTimeslot l t).store = s.store := rfl
@[simp] theorem State.setTimeslot_pool (s : State) (l : LineNo) (t : Option Timeslot) : (s.setTimeslot l t).pool = s.pool := rfl
@[simp] theorem State.setTimeslot_scan (s : State) (l : LineNo) (t : Option Timeslot) : (s.setTimeslot l t).scan = s.scan := rfl
@[simp] theorem State.setTimeslot_sweep (s : State) (l : LineNo) (t : Option Timeslot) : (s.setTimeslot l t).sweep = s.sweep := rfl
@[simp] theorem State.setTimeslot_test (s : State) (l : LineNo) (t : Option Timeslot) : (s.setTimeslot l t).test = s.test := rfl
@[simp] theorem State.setTimeslot_tb (s : State) (l : LineNo) (t : Option Timeslot) : (s.setTimeslot l t).tb = s.tb := rfl
@[simp] theorem State.setTimeslot_bat (s : State) (l : LineNo) (t : Option Timeslot) : (s.setTimeslot l t).bat = s.bat := rfl
@[simp] theorem State.setTimeslot_journal (s : State) (l : LineNo) (t : Option Timeslot) : (s.setTimeslot l t).journal = s.journal := rfl
@[simp] theorem State.setTimeslot_portA (s : State) (l : LineNo) (t : Option Timeslot) : (s.setTimeslot l t).portA = s.portA := rfl
@[simp] theorem State.setTimeslot_portB (s : State) (l : LineNo) (t : Option Timeslot) : (s.setTimeslot l t).portB = s.portB := rfl
@[simp] theorem State.setTimeslot_portT (s : State) (l : LineNo) (t : Option Timeslot) : (s.setTimeslot l t).portT = s.portT := rfl
@[simp] theorem State.setTimeslot_link0 (s : State) (l : LineNo) (t : Option Timeslot) : (s.setTimeslot l t).link0 = s.link0 := rfl
@[simp] theorem State.setTimeslot_link1 (s : State) (l : LineNo) (t : Option Timeslot) : (s.setTimeslot l t).link1 = s.link1 := rfl
@[simp] theorem State.setTimeslot_pending (s : State) (l : LineNo) (t : Option Timeslot) : (s.setTimeslot l t).pending = s.pending := rfl

/-! ### State.setPort -/

@[simp] theorem State.setPort_lines (s : State) (p : Port) (r : PortRec) : (s.setPort p r).lines = s.lines := by cases p <;> rfl
@[simp] theorem State.setPort_store (s : State) (p : Port) (r : PortRec) : (s.setPort p r).store = s.store := by cases p <;> rfl
@[simp] theorem State.setPort_pool (s : State) (p : Port) (r : PortRec) : (s.setPort p r).pool = s.pool := by cases p <;> rfl
@[simp] theorem State.setPort_scan (s : State) (p : Port) (r : PortRec) : (s.setPort p r).scan = s.scan := by cases p <;> rfl
@[simp] theorem State.setPort_sweep (s : State) (p : Port) (r : PortRec) : (s.setPort p r).sweep = s.sweep := by cases p <;> rfl
@[simp] theorem State.setPort_test (s : State) (p : Port) (r : PortRec) : (s.setPort p r).test = s.test := by cases p <;> rfl
@[simp] theorem State.setPort_tb (s : State) (p : Port) (r : PortRec) : (s.setPort p r).tb = s.tb := by cases p <;> rfl
@[simp] theorem State.setPort_bat (s : State) (p : Port) (r : PortRec) : (s.setPort p r).bat = s.bat := by cases p <;> rfl
@[simp] theorem State.setPort_journal (s : State) (p : Port) (r : PortRec) : (s.setPort p r).journal = s.journal := by cases p <;> rfl
@[simp] theorem State.setPort_link0 (s : State) (p : Port) (r : PortRec) : (s.setPort p r).link0 = s.link0 := by cases p <;> rfl
@[simp] theorem State.setPort_link1 (s : State) (p : Port) (r : PortRec) : (s.setPort p r).link1 = s.link1 := by cases p <;> rfl
@[simp] theorem State.setPort_pending (s : State) (p : Port) (r : PortRec) : (s.setPort p r).pending = s.pending := by cases p <;> rfl

/-! ### State.setBankItem -/

@[simp] theorem State.setBankItem_lines (s : State) (b : Bank) (i : Option Item) : (s.setBankItem b i).lines = s.lines := by cases b <;> rfl
@[simp] theorem State.setBankItem_store (s : State) (b : Bank) (i : Option Item) : (s.setBankItem b i).store = s.store := by cases b <;> rfl
@[simp] theorem State.setBankItem_pool (s : State) (b : Bank) (i : Option Item) : (s.setBankItem b i).pool = s.pool := by cases b <;> rfl
@[simp] theorem State.setBankItem_sweep (s : State) (b : Bank) (i : Option Item) : (s.setBankItem b i).sweep = s.sweep := by cases b <;> rfl
@[simp] theorem State.setBankItem_test (s : State) (b : Bank) (i : Option Item) : (s.setBankItem b i).test = s.test := by cases b <;> rfl
@[simp] theorem State.setBankItem_tb (s : State) (b : Bank) (i : Option Item) : (s.setBankItem b i).tb = s.tb := by cases b <;> rfl
@[simp] theorem State.setBankItem_bat (s : State) (b : Bank) (i : Option Item) : (s.setBankItem b i).bat = s.bat := by cases b <;> rfl
@[simp] theorem State.setBankItem_journal (s : State) (b : Bank) (i : Option Item) : (s.setBankItem b i).journal = s.journal := by cases b <;> rfl
@[simp] theorem State.setBankItem_portA (s : State) (b : Bank) (i : Option Item) : (s.setBankItem b i).portA = s.portA := by cases b <;> rfl
@[simp] theorem State.setBankItem_portB (s : State) (b : Bank) (i : Option Item) : (s.setBankItem b i).portB = s.portB := by cases b <;> rfl
@[simp] theorem State.setBankItem_portT (s : State) (b : Bank) (i : Option Item) : (s.setBankItem b i).portT = s.portT := by cases b <;> rfl
@[simp] theorem State.setBankItem_link0 (s : State) (b : Bank) (i : Option Item) : (s.setBankItem b i).link0 = s.link0 := by cases b <;> rfl
@[simp] theorem State.setBankItem_link1 (s : State) (b : Bank) (i : Option Item) : (s.setBankItem b i).link1 = s.link1 := by cases b <;> rfl
@[simp] theorem State.setBankItem_pending (s : State) (b : Bank) (i : Option Item) : (s.setBankItem b i).pending = s.pending := by cases b <;> rfl

/-! ### Reading what was written -/

@[simp] theorem State.line_setLine_self (s : State) (l : LineNo) (r : Line) : (s.setLine l r).line l = r := by
  simp [State.setLine, State.line]

@[simp] theorem State.line_setLine_ne (s : State) {l m : LineNo} (r : Line) (h : m ≠ l) : (s.setLine l r).line m = s.line m := by
  have : l.val ≠ m.val := fun e => h (Fin.ext e.symm)
  simp [State.setLine, State.line, Vector.getElem_set_ne, this]

@[simp] theorem State.line_modLine_self (s : State) (l : LineNo) (f : Line → Line) : (s.modLine l f).line l = f (s.line l) := by
  simp [State.modLine]

@[simp] theorem State.line_modLine_ne (s : State) {l m : LineNo} (f : Line → Line) (h : m ≠ l) :
    (s.modLine l f).line m = s.line m := by simp [State.modLine, h]

@[simp] theorem State.setLine_setLine (s : State) (l : LineNo) (r r' : Line) : (s.setLine l r).setLine l r' = s.setLine l r' := by
  simp [State.setLine]

/-- A line's record is read from the lines alone. -/
theorem State.line_congr {s t : State} (h : t.lines = s.lines) (l : LineNo) : t.line l = s.line l := by simp [State.line, h]

@[simp] theorem State.setStatus_line_self (s : State) (l : LineNo) (d : DetStatus) :
    (s.setStatus l d).line l = { s.line l with detStatus := d } := by simp [State.setStatus]

@[simp] theorem State.setStatus_line_ne (s : State) {l m : LineNo} (d : DetStatus) (h : m ≠ l) :
    (s.setStatus l d).line m = s.line m := by simp [State.setStatus, h]

@[simp] theorem State.det_setDet_self (s : State) (d : DetNo) (r : Detector) : (s.setDet d r).det d = r := by
  simp [State.setDet, State.det]

@[simp] theorem State.det_setDet_ne (s : State) {d e : DetNo} (r : Detector) (h : e ≠ d) : (s.setDet d r).det e = s.det e := by
  have : d.val ≠ e.val := fun x => h (Fin.ext x.symm)
  simp [State.setDet, State.det, Vector.getElem_set_ne, this]

@[simp] theorem State.setDet_waitQueue (s : State) (d : DetNo) (r : Detector) : (s.setDet d r).pool.waitQueue = s.pool.waitQueue := rfl

@[simp] theorem State.setQueue_waitQueue (s : State) (q : List LineNo) : (s.setQueue q).pool.waitQueue = q := rfl

@[simp] theorem State.det_setQueue (s : State) (q : List LineNo) (d : DetNo) : (s.setQueue q).det d = s.det d := rfl

@[simp] theorem State.sw_setSw_self (s : State) (n : SweepNo) (w : Sweep) : (s.setSw n w).sw n = w := by
  simp [State.setSw, State.sw]

@[simp] theorem State.sw_setSw_ne (s : State) {n m : SweepNo} (w : Sweep) (h : m ≠ n) : (s.setSw n w).sw m = s.sw m := by
  have : n.val ≠ m.val := fun e => h (Fin.ext e.symm)
  simp [State.setSw, State.sw, Vector.getElem_set_ne, this]

@[simp] theorem State.port_setPort_self (s : State) (p : Port) (r : PortRec) : (s.setPort p r).port p = r := by cases p <;> rfl

@[simp] theorem State.port_setPort_ne (s : State) {p q : Port} (r : PortRec) (h : q ≠ p) : (s.setPort p r).port q = s.port q := by
  cases p <;> cases q <;> first | rfl | exact absurd rfl h

@[simp] theorem State.setPort_setPort (s : State) (p : Port) (r r' : PortRec) : (s.setPort p r).setPort p r' = s.setPort p r' := by
  cases p <;> rfl

@[simp] theorem State.setPort_port (s : State) (p : Port) : s.setPort p (s.port p) = s := by cases p <;> rfl

@[simp] theorem State.bankItem_setBankItem_self (s : State) (b : Bank) (i : Option Item) : (s.setBankItem b i).bankItem b = i := by
  cases b <;> rfl

theorem State.bankItem_setBankItem_ne (s : State) {b c : Bank} (i : Option Item) (h : c ≠ b) :
    (s.setBankItem b i).bankItem c = s.bankItem c := by
  cases b <;> cases c <;> first | rfl | exact absurd rfl h

@[simp] theorem State.setTb_tb (s : State) (tb : TimeBase) : (s.setTb tb).tb = tb := rfl

@[simp] theorem State.now_setTb (s : State) (tb : TimeBase) : (s.setTb tb).now = tb.counter := rfl

end Sys2Proof.Machine
end

