-- ==== Sys2Proof/Laws/Frames.lean ====
section
/-! SUPPORT. What each shared operation leaves unchanged: one lemma per operation and component. -/

namespace Sys2Proof.Machine

/-! ### raiseGaps -/

@[simp] theorem raiseGaps_lines (q : PortSet) (s : State) : (raiseGaps q s).lines = s.lines := rfl
@[simp] theorem raiseGaps_store (q : PortSet) (s : State) : (raiseGaps q s).store = s.store := rfl
@[simp] theorem raiseGaps_pool (q : PortSet) (s : State) : (raiseGaps q s).pool = s.pool := rfl
@[simp] theorem raiseGaps_scan (q : PortSet) (s : State) : (raiseGaps q s).scan = s.scan := rfl
@[simp] theorem raiseGaps_sweep (q : PortSet) (s : State) : (raiseGaps q s).sweep = s.sweep := rfl
@[simp] theorem raiseGaps_test (q : PortSet) (s : State) : (raiseGaps q s).test = s.test := rfl
@[simp] theorem raiseGaps_tb (q : PortSet) (s : State) : (raiseGaps q s).tb = s.tb := rfl
@[simp] theorem raiseGaps_bat (q : PortSet) (s : State) : (raiseGaps q s).bat = s.bat := rfl
@[simp] theorem raiseGaps_journal (q : PortSet) (s : State) : (raiseGaps q s).journal = s.journal := rfl
@[simp] theorem raiseGaps_link0 (q : PortSet) (s : State) : (raiseGaps q s).link0 = s.link0 := rfl
@[simp] theorem raiseGaps_link1 (q : PortSet) (s : State) : (raiseGaps q s).link1 = s.link1 := rfl
@[simp] theorem raiseGaps_pending (q : PortSet) (s : State) : (raiseGaps q s).pending = s.pending := rfl

/-! ### makeRoom -/

@[simp] theorem makeRoom_lines (s : State) : (makeRoom s).lines = s.lines := by
  unfold makeRoom
  repeat' split
  all_goals simp
@[simp] theorem makeRoom_store (s : State) : (makeRoom s).store = s.store := by
  unfold makeRoom
  repeat' split
  all_goals simp
@[simp] theorem makeRoom_pool (s : State) : (makeRoom s).pool = s.pool := by
  unfold makeRoom
  repeat' split
  all_goals simp
@[simp] theorem makeRoom_scan (s : State) : (makeRoom s).scan = s.scan := by
  unfold makeRoom
  repeat' split
  all_goals simp
@[simp] theorem makeRoom_sweep (s : State) : (makeRoom s).sweep = s.sweep := by
  unfold makeRoom
  repeat' split
  all_goals simp
@[simp] theorem makeRoom_test (s : State) : (makeRoom s).test = s.test := by
  unfold makeRoom
  repeat' split
  all_goals simp
@[simp] theorem makeRoom_tb (s : State) : (makeRoom s).tb = s.tb := by
  unfold makeRoom
  repeat' split
  all_goals simp
@[simp] theorem makeRoom_bat (s : State) : (makeRoom s).bat = s.bat := by
  unfold makeRoom
  repeat' split
  all_goals simp
@[simp] theorem makeRoom_link0 (s : State) : (makeRoom s).link0 = s.link0 := by
  unfold makeRoom
  repeat' split
  all_goals simp
@[simp] theorem makeRoom_link1 (s : State) : (makeRoom s).link1 = s.link1 := by
  unfold makeRoom
  repeat' split
  all_goals simp
@[simp] theorem makeRoom_pending (s : State) : (makeRoom s).pending = s.pending := by
  unfold makeRoom
  repeat' split
  all_goals simp

/-! ### writeEvent -/

@[simp] theorem writeEvent_lines (q : PortSet) (l : Option LineNo) (t : Time) (b : EventBody) (s : State) : (writeEvent q l t b s).lines = s.lines := by
  unfold writeEvent
  split <;> simp
@[simp] theorem writeEvent_store (q : PortSet) (l : Option LineNo) (t : Time) (b : EventBody) (s : State) : (writeEvent q l t b s).store = s.store := by
  unfold writeEvent
  split <;> simp
@[simp] theorem writeEvent_pool (q : PortSet) (l : Option LineNo) (t : Time) (b : EventBody) (s : State) : (writeEvent q l t b s).pool = s.pool := by
  unfold writeEvent
  split <;> simp
@[simp] theorem writeEvent_scan (q : PortSet) (l : Option LineNo) (t : Time) (b : EventBody) (s : State) : (writeEvent q l t b s).scan = s.scan := by
  unfold writeEvent
  split <;> simp
@[simp] theorem writeEvent_sweep (q : PortSet) (l : Option LineNo) (t : Time) (b : EventBody) (s : State) : (writeEvent q l t b s).sweep = s.sweep := by
  unfold writeEvent
  split <;> simp
@[simp] theorem writeEvent_test (q : PortSet) (l : Option LineNo) (t : Time) (b : EventBody) (s : State) : (writeEvent q l t b s).test = s.test := by
  unfold writeEvent
  split <;> simp
@[simp] theorem writeEvent_tb (q : PortSet) (l : Option LineNo) (t : Time) (b : EventBody) (s : State) : (writeEvent q l t b s).tb = s.tb := by
  unfold writeEvent
  split <;> simp
@[simp] theorem writeEvent_bat (q : PortSet) (l : Option LineNo) (t : Time) (b : EventBody) (s : State) : (writeEvent q l t b s).bat = s.bat := by
  unfold writeEvent
  split <;> simp
@[simp] theorem writeEvent_link0 (q : PortSet) (l : Option LineNo) (t : Time) (b : EventBody) (s : State) : (writeEvent q l t b s).link0 = s.link0 := by
  unfold writeEvent
  split <;> simp
@[simp] theorem writeEvent_link1 (q : PortSet) (l : Option LineNo) (t : Time) (b : EventBody) (s : State) : (writeEvent q l t b s).link1 = s.link1 := by
  unfold writeEvent
  split <;> simp
@[simp] theorem writeEvent_pending (q : PortSet) (l : Option LineNo) (t : Time) (b : EventBody) (s : State) : (writeEvent q l t b s).pending = s.pending := by
  unfold writeEvent
  split <;> simp

/-! ### lineEvent -/

@[simp] theorem lineEvent_lines (l : LineNo) (t : Time) (b : EventBody) (s : State) : (lineEvent l t b s).lines = s.lines := by simp [lineEvent]
@[simp] theorem lineEvent_store (l : LineNo) (t : Time) (b : EventBody) (s : State) : (lineEvent l t b s).store = s.store := by simp [lineEvent]
@[simp] theorem lineEvent_pool (l : LineNo) (t : Time) (b : EventBody) (s : State) : (lineEvent l t b s).pool = s.pool := by simp [lineEvent]
@[simp] theorem lineEvent_scan (l : LineNo) (t : Time) (b : EventBody) (s : State) : (lineEvent l t b s).scan = s.scan := by simp [lineEvent]
@[simp] theorem lineEvent_sweep (l : LineNo) (t : Time) (b : EventBody) (s : State) : (lineEvent l t b s).sweep = s.sweep := by simp [lineEvent]
@[simp] theorem lineEvent_test (l : LineNo) (t : Time) (b : EventBody) (s : State) : (lineEvent l t b s).test = s.test := by simp [lineEvent]
@[simp] theorem lineEvent_tb (l : LineNo) (t : Time) (b : EventBody) (s : State) : (lineEvent l t b s).tb = s.tb := by simp [lineEvent]
@[simp] theorem lineEvent_bat (l : LineNo) (t : Time) (b : EventBody) (s : State) : (lineEvent l t b s).bat = s.bat := by simp [lineEvent]
@[simp] theorem lineEvent_link0 (l : LineNo) (t : Time) (b : EventBody) (s : State) : (lineEvent l t b s).link0 = s.link0 := by simp [lineEvent]
@[simp] theorem lineEvent_link1 (l : LineNo) (t : Time) (b : EventBody) (s : State) : (lineEvent l t b s).link1 = s.link1 := by simp [lineEvent]
@[simp] theorem lineEvent_pending (l : LineNo) (t : Time) (b : EventBody) (s : State) : (lineEvent l t b s).pending = s.pending := by simp [lineEvent]

/-! ### deviceEvent -/

@[simp] theorem deviceEvent_lines (t : Time) (b : EventBody) (s : State) : (deviceEvent t b s).lines = s.lines := by simp [deviceEvent]
@[simp] theorem deviceEvent_store (t : Time) (b : EventBody) (s : State) : (deviceEvent t b s).store = s.store := by simp [deviceEvent]
@[simp] theorem deviceEvent_pool (t : Time) (b : EventBody) (s : State) : (deviceEvent t b s).pool = s.pool := by simp [deviceEvent]
@[simp] theorem deviceEvent_scan (t : Time) (b : EventBody) (s : State) : (deviceEvent t b s).scan = s.scan := by simp [deviceEvent]
@[simp] theorem deviceEvent_sweep (t : Time) (b : EventBody) (s : State) : (deviceEvent t b s).sweep = s.sweep := by simp [deviceEvent]
@[simp] theorem deviceEvent_test (t : Time) (b : EventBody) (s : State) : (deviceEvent t b s).test = s.test := by simp [deviceEvent]
@[simp] theorem deviceEvent_tb (t : Time) (b : EventBody) (s : State) : (deviceEvent t b s).tb = s.tb := by simp [deviceEvent]
@[simp] theorem deviceEvent_bat (t : Time) (b : EventBody) (s : State) : (deviceEvent t b s).bat = s.bat := by simp [deviceEvent]
@[simp] theorem deviceEvent_link0 (t : Time) (b : EventBody) (s : State) : (deviceEvent t b s).link0 = s.link0 := by simp [deviceEvent]
@[simp] theorem deviceEvent_link1 (t : Time) (b : EventBody) (s : State) : (deviceEvent t b s).link1 = s.link1 := by simp [deviceEvent]
@[simp] theorem deviceEvent_pending (t : Time) (b : EventBody) (s : State) : (deviceEvent t b s).pending = s.pending := by simp [deviceEvent]

/-! ### dropPort -/

@[simp] theorem dropPort_lines (p : Port) (s : State) : (dropPort p s).lines = s.lines := rfl
@[simp] theorem dropPort_store (p : Port) (s : State) : (dropPort p s).store = s.store := rfl
@[simp] theorem dropPort_pool (p : Port) (s : State) : (dropPort p s).pool = s.pool := rfl
@[simp] theorem dropPort_scan (p : Port) (s : State) : (dropPort p s).scan = s.scan := rfl
@[simp] theorem dropPort_sweep (p : Port) (s : State) : (dropPort p s).sweep = s.sweep := rfl
@[simp] theorem dropPort_test (p : Port) (s : State) : (dropPort p s).test = s.test := rfl
@[simp] theorem dropPort_tb (p : Port) (s : State) : (dropPort p s).tb = s.tb := rfl
@[simp] theorem dropPort_bat (p : Port) (s : State) : (dropPort p s).bat = s.bat := rfl
@[simp] theorem dropPort_portA (p : Port) (s : State) : (dropPort p s).portA = s.portA := rfl
@[simp] theorem dropPort_portB (p : Port) (s : State) : (dropPort p s).portB = s.portB := rfl
@[simp] theorem dropPort_portT (p : Port) (s : State) : (dropPort p s).portT = s.portT := rfl
@[simp] theorem dropPort_link0 (p : Port) (s : State) : (dropPort p s).link0 = s.link0 := rfl
@[simp] theorem dropPort_link1 (p : Port) (s : State) : (dropPort p s).link1 = s.link1 := rfl
@[simp] theorem dropPort_pending (p : Port) (s : State) : (dropPort p s).pending = s.pending := rfl

/-! ### sendCommand -/

@[simp] theorem sendCommand_lines (l : LineNo) (m : FeedMode) (o : SourceOrder) (s : State) : (sendCommand l m o s).lines = s.lines := by
  unfold sendCommand
  split <;> simp
@[simp] theorem sendCommand_store (l : LineNo) (m : FeedMode) (o : SourceOrder) (s : State) : (sendCommand l m o s).store = s.store := by
  unfold sendCommand
  split <;> simp
@[simp] theorem sendCommand_pool (l : LineNo) (m : FeedMode) (o : SourceOrder) (s : State) : (sendCommand l m o s).pool = s.pool := by
  unfold sendCommand
  split <;> simp
@[simp] theorem sendCommand_scan (l : LineNo) (m : FeedMode) (o : SourceOrder) (s : State) : (sendCommand l m o s).scan = s.scan := by
  unfold sendCommand
  split <;> simp
@[simp] theorem sendCommand_sweep (l : LineNo) (m : FeedMode) (o : SourceOrder) (s : State) : (sendCommand l m o s).sweep = s.sweep := by
  unfold sendCommand
  split <;> simp
@[simp] theorem sendCommand_test (l : LineNo) (m : FeedMode) (o : SourceOrder) (s : State) : (sendCommand l m o s).test = s.test := by
  unfold sendCommand
  split <;> simp
@[simp] theorem sendCommand_tb (l : LineNo) (m : FeedMode) (o : SourceOrder) (s : State) : (sendCommand l m o s).tb = s.tb := by
  unfold sendCommand
  split <;> simp
@[simp] theorem sendCommand_bat (l : LineNo) (m : FeedMode) (o : SourceOrder) (s : State) : (sendCommand l m o s).bat = s.bat := by
  unfold sendCommand
  split <;> simp
@[simp] theorem sendCommand_journal (l : LineNo) (m : FeedMode) (o : SourceOrder) (s : State) : (sendCommand l m o s).journal = s.journal := by
  unfold sendCommand
  split <;> simp
@[simp] theorem sendCommand_portA (l : LineNo) (m : FeedMode) (o : SourceOrder) (s : State) : (sendCommand l m o s).portA = s.portA := by
  unfold sendCommand
  split <;> simp
@[simp] theorem sendCommand_portB (l : LineNo) (m : FeedMode) (o : SourceOrder) (s : State) : (sendCommand l m o s).portB = s.portB := by
  unfold sendCommand
  split <;> simp
@[simp] theorem sendCommand_portT (l : LineNo) (m : FeedMode) (o : SourceOrder) (s : State) : (sendCommand l m o s).portT = s.portT := by
  unfold sendCommand
  split <;> simp
@[simp] theorem sendCommand_pending (l : LineNo) (m : FeedMode) (o : SourceOrder) (s : State) : (sendCommand l m o s).pending = s.pending := by
  unfold sendCommand
  split <;> simp

/-! ### recomputeFeedWith -/

@[simp] theorem recomputeFeedWith_store (o : SourceOrder) (l : LineNo) (s : State) : (recomputeFeedWith o l s).store = s.store := by
  unfold recomputeFeedWith
  dsimp only
  split <;> simp
@[simp] theorem recomputeFeedWith_pool (o : SourceOrder) (l : LineNo) (s : State) : (recomputeFeedWith o l s).pool = s.pool := by
  unfold recomputeFeedWith
  dsimp only
  split <;> simp
@[simp] theorem recomputeFeedWith_scan (o : SourceOrder) (l : LineNo) (s : State) : (recomputeFeedWith o l s).scan = s.scan := by
  unfold recomputeFeedWith
  dsimp only
  split <;> simp
@[simp] theorem recomputeFeedWith_sweep (o : SourceOrder) (l : LineNo) (s : State) : (recomputeFeedWith o l s).sweep = s.sweep := by
  unfold recomputeFeedWith
  dsimp only
  split <;> simp
@[simp] theorem recomputeFeedWith_test (o : SourceOrder) (l : LineNo) (s : State) : (recomputeFeedWith o l s).test = s.test := by
  unfold recomputeFeedWith
  dsimp only
  split <;> simp
@[simp] theorem recomputeFeedWith_tb (o : SourceOrder) (l : LineNo) (s : State) : (recomputeFeedWith o l s).tb = s.tb := by
  unfold recomputeFeedWith
  dsimp only
  split <;> simp
@[simp] theorem recomputeFeedWith_bat (o : SourceOrder) (l : LineNo) (s : State) : (recomputeFeedWith o l s).bat = s.bat := by
  unfold recomputeFeedWith
  dsimp only
  split <;> simp
@[simp] theorem recomputeFeedWith_journal (o : SourceOrder) (l : LineNo) (s : State) : (recomputeFeedWith o l s).journal = s.journal := by
  unfold recomputeFeedWith
  dsimp only
  split <;> simp
@[simp] theorem recomputeFeedWith_portA (o : SourceOrder) (l : LineNo) (s : State) : (recomputeFeedWith o l s).portA = s.portA := by
  unfold recomputeFeedWith
  dsimp only
  split <;> simp
@[simp] theorem recomputeFeedWith_portB (o : SourceOrder) (l : LineNo) (s : State) : (recomputeFeedWith o l s).portB = s.portB := by
  unfold recomputeFeedWith
  dsimp only
  split <;> simp
@[simp] theorem recomputeFeedWith_portT (o : SourceOrder) (l : LineNo) (s : State) : (recomputeFeedWith o l s).portT = s.portT := by
  unfold recomputeFeedWith
  dsimp only
  split <;> simp
@[simp] theorem recomputeFeedWith_pending (o : SourceOrder) (l : LineNo) (s : State) : (recomputeFeedWith o l s).pending = s.pending := by
  unfold recomputeFeedWith
  dsimp only
  split <;> simp

/-! ### recomputeFeed -/

@[simp] theorem recomputeFeed_store (l : LineNo) (s : State) : (recomputeFeed l s).store = s.store := by simp [recomputeFeed]
@[simp] theorem recomputeFeed_pool (l : LineNo) (s : State) : (recomputeFeed l s).pool = s.pool := by simp [recomputeFeed]
@[simp] theorem recomputeFeed_scan (l : LineNo) (s : State) : (recomputeFeed l s).scan = s.scan := by simp [recomputeFeed]
@[simp] theorem recomputeFeed_sweep (l : LineNo) (s : State) : (recomputeFeed l s).sweep = s.sweep := by simp [recomputeFeed]
@[simp] theorem recomputeFeed_test (l : LineNo) (s : State) : (recomputeFeed l s).test = s.test := by simp [recomputeFeed]
@[simp] theorem recomputeFeed_tb (l : LineNo) (s : State) : (recomputeFeed l s).tb = s.tb := by simp [recomputeFeed]
@[simp] theorem recomputeFeed_bat (l : LineNo) (s : State) : (recomputeFeed l s).bat = s.bat := by simp [recomputeFeed]
@[simp] theorem recomputeFeed_journal (l : LineNo) (s : State) : (recomputeFeed l s).journal = s.journal := by simp [recomputeFeed]
@[simp] theorem recomputeFeed_portA (l : LineNo) (s : State) : (recomputeFeed l s).portA = s.portA := by simp [recomputeFeed]
@[simp] theorem recomputeFeed_portB (l : LineNo) (s : State) : (recomputeFeed l s).portB = s.portB := by simp [recomputeFeed]
@[simp] theorem recomputeFeed_portT (l : LineNo) (s : State) : (recomputeFeed l s).portT = s.portT := by simp [recomputeFeed]
@[simp] theorem recomputeFeed_pending (l : LineNo) (s : State) : (recomputeFeed l s).pending = s.pending := by simp [recomputeFeed]

/-! ### rebeginSlot -/

@[simp] theorem rebeginSlot_store (l : LineNo) (s : State) : (rebeginSlot l s).store = s.store := by
  unfold rebeginSlot
  repeat' split
  all_goals simp
@[simp] theorem rebeginSlot_pool (l : LineNo) (s : State) : (rebeginSlot l s).pool = s.pool := by
  unfold rebeginSlot
  repeat' split
  all_goals simp
@[simp] theorem rebeginSlot_scan (l : LineNo) (s : State) : (rebeginSlot l s).scan = s.scan := by
  unfold rebeginSlot
  repeat' split
  all_goals simp
@[simp] theorem rebeginSlot_sweep (l : LineNo) (s : State) : (rebeginSlot l s).sweep = s.sweep := by
  unfold rebeginSlot
  repeat' split
  all_goals simp
@[simp] theorem rebeginSlot_test (l : LineNo) (s : State) : (rebeginSlot l s).test = s.test := by
  unfold rebeginSlot
  repeat' split
  all_goals simp
@[simp] theorem rebeginSlot_tb (l : LineNo) (s : State) : (rebeginSlot l s).tb = s.tb := by
  unfold rebeginSlot
  repeat' split
  all_goals simp
@[simp] theorem rebeginSlot_bat (l : LineNo) (s : State) : (rebeginSlot l s).bat = s.bat := by
  unfold rebeginSlot
  repeat' split
  all_goals simp
@[simp] theorem rebeginSlot_journal (l : LineNo) (s : State) : (rebeginSlot l s).journal = s.journal := by
  unfold rebeginSlot
  repeat' split
  all_goals simp
@[simp] theorem rebeginSlot_portA (l : LineNo) (s : State) : (rebeginSlot l s).portA = s.portA := by
  unfold rebeginSlot
  repeat' split
  all_goals simp
@[simp] theorem rebeginSlot_portB (l : LineNo) (s : State) : (rebeginSlot l s).portB = s.portB := by
  unfold rebeginSlot
  repeat' split
  all_goals simp
@[simp] theorem rebeginSlot_portT (l : LineNo) (s : State) : (rebeginSlot l s).portT = s.portT := by
  unfold rebeginSlot
  repeat' split
  all_goals simp
@[simp] theorem rebeginSlot_link0 (l : LineNo) (s : State) : (rebeginSlot l s).link0 = s.link0 := by
  unfold rebeginSlot
  repeat' split
  all_goals simp
@[simp] theorem rebeginSlot_link1 (l : LineNo) (s : State) : (rebeginSlot l s).link1 = s.link1 := by
  unfold rebeginSlot
  repeat' split
  all_goals simp
@[simp] theorem rebeginSlot_pending (l : LineNo) (s : State) : (rebeginSlot l s).pending = s.pending := by
  unfold rebeginSlot
  repeat' split
  all_goals simp

/-! ### assignDet -/

@[simp] theorem assignDet_store (d : DetNo) (l : LineNo) (k : Bool) (s : State) : (assignDet d l k s).store = s.store := rfl
@[simp] theorem assignDet_scan (d : DetNo) (l : LineNo) (k : Bool) (s : State) : (assignDet d l k s).scan = s.scan := rfl
@[simp] theorem assignDet_sweep (d : DetNo) (l : LineNo) (k : Bool) (s : State) : (assignDet d l k s).sweep = s.sweep := rfl
@[simp] theorem assignDet_test (d : DetNo) (l : LineNo) (k : Bool) (s : State) : (assignDet d l k s).test = s.test := rfl
@[simp] theorem assignDet_tb (d : DetNo) (l : LineNo) (k : Bool) (s : State) : (assignDet d l k s).tb = s.tb := rfl
@[simp] theorem assignDet_bat (d : DetNo) (l : LineNo) (k : Bool) (s : State) : (assignDet d l k s).bat = s.bat := rfl
@[simp] theorem assignDet_journal (d : DetNo) (l : LineNo) (k : Bool) (s : State) : (assignDet d l k s).journal = s.journal := rfl
@[simp] theorem assignDet_portA (d : DetNo) (l : LineNo) (k : Bool) (s : State) : (assignDet d l k s).portA = s.portA := rfl
@[simp] theorem assignDet_portB (d : DetNo) (l : LineNo) (k : Bool) (s : State) : (assignDet d l k s).portB = s.portB := rfl
@[simp] theorem assignDet_portT (d : DetNo) (l : LineNo) (k : Bool) (s : State) : (assignDet d l k s).portT = s.portT := rfl
@[simp] theorem assignDet_link0 (d : DetNo) (l : LineNo) (k : Bool) (s : State) : (assignDet d l k s).link0 = s.link0 := rfl
@[simp] theorem assignDet_link1 (d : DetNo) (l : LineNo) (k : Bool) (s : State) : (assignDet d l k s).link1 = s.link1 := rfl
@[simp] theorem assignDet_pending (d : DetNo) (l : LineNo) (k : Bool) (s : State) : (assignDet d l k s).pending = s.pending := rfl

/-! ### handOn -/

@[simp] theorem handOn_store (d : DetNo) (s : State) : (handOn d s).store = s.store := by
  unfold handOn
  split <;> simp
@[simp] theorem handOn_scan (d : DetNo) (s : State) : (handOn d s).scan = s.scan := by
  unfold handOn
  split <;> simp
@[simp] theorem handOn_sweep (d : DetNo) (s : State) : (handOn d s).sweep = s.sweep := by
  unfold handOn
  split <;> simp
@[simp] theorem handOn_test (d : DetNo) (s : State) : (handOn d s).test = s.test := by
  unfold handOn
  split <;> simp
@[simp] theorem handOn_tb (d : DetNo) (s : State) : (handOn d s).tb = s.tb := by
  unfold handOn
  split <;> simp
@[simp] theorem handOn_bat (d : DetNo) (s : State) : (handOn d s).bat = s.bat := by
  unfold handOn
  split <;> simp
@[simp] theorem handOn_journal (d : DetNo) (s : State) : (handOn d s).journal = s.journal := by
  unfold handOn
  split <;> simp
@[simp] theorem handOn_portA (d : DetNo) (s : State) : (handOn d s).portA = s.portA := by
  unfold handOn
  split <;> simp
@[simp] theorem handOn_portB (d : DetNo) (s : State) : (handOn d s).portB = s.portB := by
  unfold handOn
  split <;> simp
@[simp] theorem handOn_portT (d : DetNo) (s : State) : (handOn d s).portT = s.portT := by
  unfold handOn
  split <;> simp
@[simp] theorem handOn_link0 (d : DetNo) (s : State) : (handOn d s).link0 = s.link0 := by
  unfold handOn
  split <;> simp
@[simp] theorem handOn_link1 (d : DetNo) (s : State) : (handOn d s).link1 = s.link1 := by
  unfold handOn
  split <;> simp
@[simp] theorem handOn_pending (d : DetNo) (s : State) : (handOn d s).pending = s.pending := by
  unfold handOn
  split <;> simp

/-! ### releaseDet -/

@[simp] theorem releaseDet_store (d : DetNo) (l : LineNo) (s : State) : (releaseDet d l s).store = s.store := by simp [releaseDet]
@[simp] theorem releaseDet_scan (d : DetNo) (l : LineNo) (s : State) : (releaseDet d l s).scan = s.scan := by simp [releaseDet]
@[simp] theorem releaseDet_sweep (d : DetNo) (l : LineNo) (s : State) : (releaseDet d l s).sweep = s.sweep := by simp [releaseDet]
@[simp] theorem releaseDet_test (d : DetNo) (l : LineNo) (s : State) : (releaseDet d l s).test = s.test := by simp [releaseDet]
@[simp] theorem releaseDet_tb (d : DetNo) (l : LineNo) (s : State) : (releaseDet d l s).tb = s.tb := by simp [releaseDet]
@[simp] theorem releaseDet_bat (d : DetNo) (l : LineNo) (s : State) : (releaseDet d l s).bat = s.bat := by simp [releaseDet]
@[simp] theorem releaseDet_journal (d : DetNo) (l : LineNo) (s : State) : (releaseDet d l s).journal = s.journal := by simp [releaseDet]
@[simp] theorem releaseDet_portA (d : DetNo) (l : LineNo) (s : State) : (releaseDet d l s).portA = s.portA := by simp [releaseDet]
@[simp] theorem releaseDet_portB (d : DetNo) (l : LineNo) (s : State) : (releaseDet d l s).portB = s.portB := by simp [releaseDet]
@[simp] theorem releaseDet_portT (d : DetNo) (l : LineNo) (s : State) : (releaseDet d l s).portT = s.portT := by simp [releaseDet]
@[simp] theorem releaseDet_link0 (d : DetNo) (l : LineNo) (s : State) : (releaseDet d l s).link0 = s.link0 := by simp [releaseDet]
@[simp] theorem releaseDet_link1 (d : DetNo) (l : LineNo) (s : State) : (releaseDet d l s).link1 = s.link1 := by simp [releaseDet]
@[simp] theorem releaseDet_pending (d : DetNo) (l : LineNo) (s : State) : (releaseDet d l s).pending = s.pending := by simp [releaseDet]

/-! ### leaveQueue -/

@[simp] theorem leaveQueue_store (l : LineNo) (s : State) : (leaveQueue l s).store = s.store := rfl
@[simp] theorem leaveQueue_scan (l : LineNo) (s : State) : (leaveQueue l s).scan = s.scan := rfl
@[simp] theorem leaveQueue_sweep (l : LineNo) (s : State) : (leaveQueue l s).sweep = s.sweep := rfl
@[simp] theorem leaveQueue_test (l : LineNo) (s : State) : (leaveQueue l s).test = s.test := rfl
@[simp] theorem leaveQueue_tb (l : LineNo) (s : State) : (leaveQueue l s).tb = s.tb := rfl
@[simp] theorem leaveQueue_bat (l : LineNo) (s : State) : (leaveQueue l s).bat = s.bat := rfl
@[simp] theorem leaveQueue_journal (l : LineNo) (s : State) : (leaveQueue l s).journal = s.journal := rfl
@[simp] theorem leaveQueue_portA (l : LineNo) (s : State) : (leaveQueue l s).portA = s.portA := rfl
@[simp] theorem leaveQueue_portB (l : LineNo) (s : State) : (leaveQueue l s).portB = s.portB := rfl
@[simp] theorem leaveQueue_portT (l : LineNo) (s : State) : (leaveQueue l s).portT = s.portT := rfl
@[simp] theorem leaveQueue_link0 (l : LineNo) (s : State) : (leaveQueue l s).link0 = s.link0 := rfl
@[simp] theorem leaveQueue_link1 (l : LineNo) (s : State) : (leaveQueue l s).link1 = s.link1 := rfl
@[simp] theorem leaveQueue_pending (l : LineNo) (s : State) : (leaveQueue l s).pending = s.pending := rfl

/-! ### releaseUnlocked -/

@[simp] theorem releaseUnlocked_store (l : LineNo) (s : State) : (releaseUnlocked l s).store = s.store := by
  unfold releaseUnlocked
  split <;> simp
@[simp] theorem releaseUnlocked_scan (l : LineNo) (s : State) : (releaseUnlocked l s).scan = s.scan := by
  unfold releaseUnlocked
  split <;> simp
@[simp] theorem releaseUnlocked_sweep (l : LineNo) (s : State) : (releaseUnlocked l s).sweep = s.sweep := by
  unfold releaseUnlocked
  split <;> simp
@[simp] theorem releaseUnlocked_test (l : LineNo) (s : State) : (releaseUnlocked l s).test = s.test := by
  unfold releaseUnlocked
  split <;> simp
@[simp] theorem releaseUnlocked_tb (l : LineNo) (s : State) : (releaseUnlocked l s).tb = s.tb := by
  unfold releaseUnlocked
  split <;> simp
@[simp] theorem releaseUnlocked_bat (l : LineNo) (s : State) : (releaseUnlocked l s).bat = s.bat := by
  unfold releaseUnlocked
  split <;> simp
@[simp] theorem releaseUnlocked_journal (l : LineNo) (s : State) : (releaseUnlocked l s).journal = s.journal := by
  unfold releaseUnlocked
  split <;> simp
@[simp] theorem releaseUnlocked_portA (l : LineNo) (s : State) : (releaseUnlocked l s).portA = s.portA := by
  unfold releaseUnlocked
  split <;> simp
@[simp] theorem releaseUnlocked_portB (l : LineNo) (s : State) : (releaseUnlocked l s).portB = s.portB := by
  unfold releaseUnlocked
  split <;> simp
@[simp] theorem releaseUnlocked_portT (l : LineNo) (s : State) : (releaseUnlocked l s).portT = s.portT := by
  unfold releaseUnlocked
  split <;> simp
@[simp] theorem releaseUnlocked_link0 (l : LineNo) (s : State) : (releaseUnlocked l s).link0 = s.link0 := by
  unfold releaseUnlocked
  split <;> simp
@[simp] theorem releaseUnlocked_link1 (l : LineNo) (s : State) : (releaseUnlocked l s).link1 = s.link1 := by
  unfold releaseUnlocked
  split <;> simp
@[simp] theorem releaseUnlocked_pending (l : LineNo) (s : State) : (releaseUnlocked l s).pending = s.pending := by
  unfold releaseUnlocked
  split <;> simp

/-! ### releaseAny -/

@[simp] theorem releaseAny_store (l : LineNo) (s : State) : (releaseAny l s).store = s.store := by
  unfold releaseAny
  split <;> simp
@[simp] theorem releaseAny_scan (l : LineNo) (s : State) : (releaseAny l s).scan = s.scan := by
  unfold releaseAny
  split <;> simp
@[simp] theorem releaseAny_sweep (l : LineNo) (s : State) : (releaseAny l s).sweep = s.sweep := by
  unfold releaseAny
  split <;> simp
@[simp] theorem releaseAny_test (l : LineNo) (s : State) : (releaseAny l s).test = s.test := by
  unfold releaseAny
  split <;> simp
@[simp] theorem releaseAny_tb (l : LineNo) (s : State) : (releaseAny l s).tb = s.tb := by
  unfold releaseAny
  split <;> simp
@[simp] theorem releaseAny_bat (l : LineNo) (s : State) : (releaseAny l s).bat = s.bat := by
  unfold releaseAny
  split <;> simp
@[simp] theorem releaseAny_journal (l : LineNo) (s : State) : (releaseAny l s).journal = s.journal := by
  unfold releaseAny
  split <;> simp
@[simp] theorem releaseAny_portA (l : LineNo) (s : State) : (releaseAny l s).portA = s.portA := by
  unfold releaseAny
  split <;> simp
@[simp] theorem releaseAny_portB (l : LineNo) (s : State) : (releaseAny l s).portB = s.portB := by
  unfold releaseAny
  split <;> simp
@[simp] theorem releaseAny_portT (l : LineNo) (s : State) : (releaseAny l s).portT = s.portT := by
  unfold releaseAny
  split <;> simp
@[simp] theorem releaseAny_link0 (l : LineNo) (s : State) : (releaseAny l s).link0 = s.link0 := by
  unfold releaseAny
  split <;> simp
@[simp] theorem releaseAny_link1 (l : LineNo) (s : State) : (releaseAny l s).link1 = s.link1 := by
  unfold releaseAny
  split <;> simp
@[simp] theorem releaseAny_pending (l : LineNo) (s : State) : (releaseAny l s).pending = s.pending := by
  unfold releaseAny
  split <;> simp

/-! ### requestDet -/

@[simp] theorem requestDet_store (l : LineNo) (s : State) : (requestDet l s).store = s.store := by
  unfold requestDet
  split <;> simp
@[simp] theorem requestDet_scan (l : LineNo) (s : State) : (requestDet l s).scan = s.scan := by
  unfold requestDet
  split <;> simp
@[simp] theorem requestDet_sweep (l : LineNo) (s : State) : (requestDet l s).sweep = s.sweep := by
  unfold requestDet
  split <;> simp
@[simp] theorem requestDet_test (l : LineNo) (s : State) : (requestDet l s).test = s.test := by
  unfold requestDet
  split <;> simp
@[simp] theorem requestDet_tb (l : LineNo) (s : State) : (requestDet l s).tb = s.tb := by
  unfold requestDet
  split <;> simp
@[simp] theorem requestDet_bat (l : LineNo) (s : State) : (requestDet l s).bat = s.bat := by
  unfold requestDet
  split <;> simp
@[simp] theorem requestDet_journal (l : LineNo) (s : State) : (requestDet l s).journal = s.journal := by
  unfold requestDet
  split <;> simp
@[simp] theorem requestDet_portA (l : LineNo) (s : State) : (requestDet l s).portA = s.portA := by
  unfold requestDet
  split <;> simp
@[simp] theorem requestDet_portB (l : LineNo) (s : State) : (requestDet l s).portB = s.portB := by
  unfold requestDet
  split <;> simp
@[simp] theorem requestDet_portT (l : LineNo) (s : State) : (requestDet l s).portT = s.portT := by
  unfold requestDet
  split <;> simp
@[simp] theorem requestDet_link0 (l : LineNo) (s : State) : (requestDet l s).link0 = s.link0 := by
  unfold requestDet
  split <;> simp
@[simp] theorem requestDet_link1 (l : LineNo) (s : State) : (requestDet l s).link1 = s.link1 := by
  unfold requestDet
  split <;> simp
@[simp] theorem requestDet_pending (l : LineNo) (s : State) : (requestDet l s).pending = s.pending := by
  unfold requestDet
  split <;> simp

/-! ### recordDigit -/

@[simp] theorem recordDigit_store (l : LineNo) (c : DigitCode) (m : DigitMethod) (t : Time) (s : State) : (recordDigit l c m t s).store = s.store := by
  unfold recordDigit
  dsimp only
  repeat' split
  all_goals simp
@[simp] theorem recordDigit_pool (l : LineNo) (c : DigitCode) (m : DigitMethod) (t : Time) (s : State) : (recordDigit l c m t s).pool = s.pool := by
  unfold recordDigit
  dsimp only
  repeat' split
  all_goals simp
@[simp] theorem recordDigit_scan (l : LineNo) (c : DigitCode) (m : DigitMethod) (t : Time) (s : State) : (recordDigit l c m t s).scan = s.scan := by
  unfold recordDigit
  dsimp only
  repeat' split
  all_goals simp
@[simp] theorem recordDigit_sweep (l : LineNo) (c : DigitCode) (m : DigitMethod) (t : Time) (s : State) : (recordDigit l c m t s).sweep = s.sweep := by
  unfold recordDigit
  dsimp only
  repeat' split
  all_goals simp
@[simp] theorem recordDigit_test (l : LineNo) (c : DigitCode) (m : DigitMethod) (t : Time) (s : State) : (recordDigit l c m t s).test = s.test := by
  unfold recordDigit
  dsimp only
  repeat' split
  all_goals simp
@[simp] theorem recordDigit_tb (l : LineNo) (c : DigitCode) (m : DigitMethod) (t : Time) (s : State) : (recordDigit l c m t s).tb = s.tb := by
  unfold recordDigit
  dsimp only
  repeat' split
  all_goals simp
@[simp] theorem recordDigit_bat (l : LineNo) (c : DigitCode) (m : DigitMethod) (t : Time) (s : State) : (recordDigit l c m t s).bat = s.bat := by
  unfold recordDigit
  dsimp only
  repeat' split
  all_goals simp
@[simp] theorem recordDigit_link0 (l : LineNo) (c : DigitCode) (m : DigitMethod) (t : Time) (s : State) : (recordDigit l c m t s).link0 = s.link0 := by
  unfold recordDigit
  dsimp only
  repeat' split
  all_goals simp
@[simp] theorem recordDigit_link1 (l : LineNo) (c : DigitCode) (m : DigitMethod) (t : Time) (s : State) : (recordDigit l c m t s).link1 = s.link1 := by
  unfold recordDigit
  dsimp only
  repeat' split
  all_goals simp
@[simp] theorem recordDigit_pending (l : LineNo) (c : DigitCode) (m : DigitMethod) (t : Time) (s : State) : (recordDigit l c m t s).pending = s.pending := by
  unfold recordDigit
  dsimp only
  repeat' split
  all_goals simp

/-! ### completeDigit -/

@[simp] theorem completeDigit_store (l : LineNo) (s : State) : (completeDigit l s).store = s.store := by simp [completeDigit]
@[simp] theorem completeDigit_pool (l : LineNo) (s : State) : (completeDigit l s).pool = s.pool := by simp [completeDigit]
@[simp] theorem completeDigit_scan (l : LineNo) (s : State) : (completeDigit l s).scan = s.scan := by simp [completeDigit]
@[simp] theorem completeDigit_sweep (l : LineNo) (s : State) : (completeDigit l s).sweep = s.sweep := by simp [completeDigit]
@[simp] theorem completeDigit_test (l : LineNo) (s : State) : (completeDigit l s).test = s.test := by simp [completeDigit]
@[simp] theorem completeDigit_tb (l : LineNo) (s : State) : (completeDigit l s).tb = s.tb := by simp [completeDigit]
@[simp] theorem completeDigit_bat (l : LineNo) (s : State) : (completeDigit l s).bat = s.bat := by simp [completeDigit]
@[simp] theorem completeDigit_link0 (l : LineNo) (s : State) : (completeDigit l s).link0 = s.link0 := by simp [completeDigit]
@[simp] theorem completeDigit_link1 (l : LineNo) (s : State) : (completeDigit l s).link1 = s.link1 := by simp [completeDigit]
@[simp] theorem completeDigit_pending (l : LineNo) (s : State) : (completeDigit l s).pending = s.pending := by simp [completeDigit]

/-! ### takeInterdigit -/

@[simp] theorem takeInterdigit_store (l : LineNo) (s : State) : (takeInterdigit l s).store = s.store := by
  unfold takeInterdigit
  split <;> simp
@[simp] theorem takeInterdigit_pool (l : LineNo) (s : State) : (takeInterdigit l s).pool = s.pool := by
  unfold takeInterdigit
  split <;> simp
@[simp] theorem takeInterdigit_scan (l : LineNo) (s : State) : (takeInterdigit l s).scan = s.scan := by
  unfold takeInterdigit
  split <;> simp
@[simp] theorem takeInterdigit_sweep (l : LineNo) (s : State) : (takeInterdigit l s).sweep = s.sweep := by
  unfold takeInterdigit
  split <;> simp
@[simp] theorem takeInterdigit_test (l : LineNo) (s : State) : (takeInterdigit l s).test = s.test := by
  unfold takeInterdigit
  split <;> simp
@[simp] theorem takeInterdigit_tb (l : LineNo) (s : State) : (takeInterdigit l s).tb = s.tb := by
  unfold takeInterdigit
  split <;> simp
@[simp] theorem takeInterdigit_bat (l : LineNo) (s : State) : (takeInterdigit l s).bat = s.bat := by
  unfold takeInterdigit
  split <;> simp
@[simp] theorem takeInterdigit_link0 (l : LineNo) (s : State) : (takeInterdigit l s).link0 = s.link0 := by
  unfold takeInterdigit
  split <;> simp
@[simp] theorem takeInterdigit_link1 (l : LineNo) (s : State) : (takeInterdigit l s).link1 = s.link1 := by
  unfold takeInterdigit
  split <;> simp
@[simp] theorem takeInterdigit_pending (l : LineNo) (s : State) : (takeInterdigit l s).pending = s.pending := by
  unfold takeInterdigit
  split <;> simp

/-! ### noticeBreak -/

@[simp] theorem noticeBreak_store (l : LineNo) (t : Time) (s : State) : (noticeBreak l t s).store = s.store := by
  unfold noticeBreak
  repeat' split
  all_goals simp
@[simp] theorem noticeBreak_pool (l : LineNo) (t : Time) (s : State) : (noticeBreak l t s).pool = s.pool := by
  unfold noticeBreak
  repeat' split
  all_goals simp
@[simp] theorem noticeBreak_scan (l : LineNo) (t : Time) (s : State) : (noticeBreak l t s).scan = s.scan := by
  unfold noticeBreak
  repeat' split
  all_goals simp
@[simp] theorem noticeBreak_sweep (l : LineNo) (t : Time) (s : State) : (noticeBreak l t s).sweep = s.sweep := by
  unfold noticeBreak
  repeat' split
  all_goals simp
@[simp] theorem noticeBreak_test (l : LineNo) (t : Time) (s : State) : (noticeBreak l t s).test = s.test := by
  unfold noticeBreak
  repeat' split
  all_goals simp
@[simp] theorem noticeBreak_tb (l : LineNo) (t : Time) (s : State) : (noticeBreak l t s).tb = s.tb := by
  unfold noticeBreak
  repeat' split
  all_goals simp
@[simp] theorem noticeBreak_bat (l : LineNo) (t : Time) (s : State) : (noticeBreak l t s).bat = s.bat := by
  unfold noticeBreak
  repeat' split
  all_goals simp
@[simp] theorem noticeBreak_link0 (l : LineNo) (t : Time) (s : State) : (noticeBreak l t s).link0 = s.link0 := by
  unfold noticeBreak
  repeat' split
  all_goals simp
@[simp] theorem noticeBreak_link1 (l : LineNo) (t : Time) (s : State) : (noticeBreak l t s).link1 = s.link1 := by
  unfold noticeBreak
  repeat' split
  all_goals simp
@[simp] theorem noticeBreak_pending (l : LineNo) (t : Time) (s : State) : (noticeBreak l t s).pending = s.pending := by
  unfold noticeBreak
  repeat' split
  all_goals simp

/-! ### takePulse -/

@[simp] theorem takePulse_store (l : LineNo) (b m : Time) (s : State) : (takePulse l b m s).store = s.store := by
  unfold takePulse
  dsimp only
  repeat' split
  all_goals simp
@[simp] theorem takePulse_pool (l : LineNo) (b m : Time) (s : State) : (takePulse l b m s).pool = s.pool := by
  unfold takePulse
  dsimp only
  repeat' split
  all_goals simp
@[simp] theorem takePulse_scan (l : LineNo) (b m : Time) (s : State) : (takePulse l b m s).scan = s.scan := by
  unfold takePulse
  dsimp only
  repeat' split
  all_goals simp
@[simp] theorem takePulse_sweep (l : LineNo) (b m : Time) (s : State) : (takePulse l b m s).sweep = s.sweep := by
  unfold takePulse
  dsimp only
  repeat' split
  all_goals simp
@[simp] theorem takePulse_test (l : LineNo) (b m : Time) (s : State) : (takePulse l b m s).test = s.test := by
  unfold takePulse
  dsimp only
  repeat' split
  all_goals simp
@[simp] theorem takePulse_tb (l : LineNo) (b m : Time) (s : State) : (takePulse l b m s).tb = s.tb := by
  unfold takePulse
  dsimp only
  repeat' split
  all_goals simp
@[simp] theorem takePulse_bat (l : LineNo) (b m : Time) (s : State) : (takePulse l b m s).bat = s.bat := by
  unfold takePulse
  dsimp only
  repeat' split
  all_goals simp
@[simp] theorem takePulse_link0 (l : LineNo) (b m : Time) (s : State) : (takePulse l b m s).link0 = s.link0 := by
  unfold takePulse
  dsimp only
  repeat' split
  all_goals simp
@[simp] theorem takePulse_link1 (l : LineNo) (b m : Time) (s : State) : (takePulse l b m s).link1 = s.link1 := by
  unfold takePulse
  dsimp only
  repeat' split
  all_goals simp
@[simp] theorem takePulse_pending (l : LineNo) (b m : Time) (s : State) : (takePulse l b m s).pending = s.pending := by
  unfold takePulse
  dsimp only
  repeat' split
  all_goals simp

/-! ### toneDigit -/

@[simp] theorem toneDigit_store (l : LineNo) (c : DigitCode) (t : Time) (s : State) : (toneDigit l c t s).store = s.store := by
  unfold toneDigit
  split <;> simp
@[simp] theorem toneDigit_pool (l : LineNo) (c : DigitCode) (t : Time) (s : State) : (toneDigit l c t s).pool = s.pool := by
  unfold toneDigit
  split <;> simp
@[simp] theorem toneDigit_scan (l : LineNo) (c : DigitCode) (t : Time) (s : State) : (toneDigit l c t s).scan = s.scan := by
  unfold toneDigit
  split <;> simp
@[simp] theorem toneDigit_sweep (l : LineNo) (c : DigitCode) (t : Time) (s : State) : (toneDigit l c t s).sweep = s.sweep := by
  unfold toneDigit
  split <;> simp
@[simp] theorem toneDigit_test (l : LineNo) (c : DigitCode) (t : Time) (s : State) : (toneDigit l c t s).test = s.test := by
  unfold toneDigit
  split <;> simp
@[simp] theorem toneDigit_tb (l : LineNo) (c : DigitCode) (t : Time) (s : State) : (toneDigit l c t s).tb = s.tb := by
  unfold toneDigit
  split <;> simp
@[simp] theorem toneDigit_bat (l : LineNo) (c : DigitCode) (t : Time) (s : State) : (toneDigit l c t s).bat = s.bat := by
  unfold toneDigit
  split <;> simp
@[simp] theorem toneDigit_link0 (l : LineNo) (c : DigitCode) (t : Time) (s : State) : (toneDigit l c t s).link0 = s.link0 := by
  unfold toneDigit
  split <;> simp
@[simp] theorem toneDigit_link1 (l : LineNo) (c : DigitCode) (t : Time) (s : State) : (toneDigit l c t s).link1 = s.link1 := by
  unfold toneDigit
  split <;> simp
@[simp] theorem toneDigit_pending (l : LineNo) (c : DigitCode) (t : Time) (s : State) : (toneDigit l c t s).pending = s.pending := by
  unfold toneDigit
  split <;> simp

/-! ### raisePermanentLoop -/

@[simp] theorem raisePermanentLoop_store (l : LineNo) (t : Time) (s : State) : (raisePermanentLoop l t s).store = s.store := by
  unfold raisePermanentLoop
  dsimp only
  split <;> simp
@[simp] theorem raisePermanentLoop_pool (l : LineNo) (t : Time) (s : State) : (raisePermanentLoop l t s).pool = s.pool := by
  unfold raisePermanentLoop
  dsimp only
  split <;> simp
@[simp] theorem raisePermanentLoop_scan (l : LineNo) (t : Time) (s : State) : (raisePermanentLoop l t s).scan = s.scan := by
  unfold raisePermanentLoop
  dsimp only
  split <;> simp
@[simp] theorem raisePermanentLoop_sweep (l : LineNo) (t : Time) (s : State) : (raisePermanentLoop l t s).sweep = s.sweep := by
  unfold raisePermanentLoop
  dsimp only
  split <;> simp
@[simp] theorem raisePermanentLoop_test (l : LineNo) (t : Time) (s : State) : (raisePermanentLoop l t s).test = s.test := by
  unfold raisePermanentLoop
  dsimp only
  split <;> simp
@[simp] theorem raisePermanentLoop_tb (l : LineNo) (t : Time) (s : State) : (raisePermanentLoop l t s).tb = s.tb := by
  unfold raisePermanentLoop
  dsimp only
  split <;> simp
@[simp] theorem raisePermanentLoop_bat (l : LineNo) (t : Time) (s : State) : (raisePermanentLoop l t s).bat = s.bat := by
  unfold raisePermanentLoop
  dsimp only
  split <;> simp
@[simp] theorem raisePermanentLoop_link0 (l : LineNo) (t : Time) (s : State) : (raisePermanentLoop l t s).link0 = s.link0 := by
  unfold raisePermanentLoop
  dsimp only
  split <;> simp
@[simp] theorem raisePermanentLoop_link1 (l : LineNo) (t : Time) (s : State) : (raisePermanentLoop l t s).link1 = s.link1 := by
  unfold raisePermanentLoop
  dsimp only
  split <;> simp
@[simp] theorem raisePermanentLoop_pending (l : LineNo) (t : Time) (s : State) : (raisePermanentLoop l t s).pending = s.pending := by
  unfold raisePermanentLoop
  dsimp only
  split <;> simp

/-! ### clearPermanentLoop -/

@[simp] theorem clearPermanentLoop_store (l : LineNo) (s : State) : (clearPermanentLoop l s).store = s.store := by
  unfold clearPermanentLoop
  dsimp only
  split <;> simp
@[simp] theorem clearPermanentLoop_pool (l : LineNo) (s : State) : (clearPermanentLoop l s).pool = s.pool := by
  unfold clearPermanentLoop
  dsimp only
  split <;> simp
@[simp] theorem clearPermanentLoop_scan (l : LineNo) (s : State) : (clearPermanentLoop l s).scan = s.scan := by
  unfold clearPermanentLoop
  dsimp only
  split <;> simp
@[simp] theorem clearPermanentLoop_sweep (l : LineNo) (s : State) : (clearPermanentLoop l s).sweep = s.sweep := by
  unfold clearPermanentLoop
  dsimp only
  split <;> simp
@[simp] theorem clearPermanentLoop_test (l : LineNo) (s : State) : (clearPermanentLoop l s).test = s.test := by
  unfold clearPermanentLoop
  dsimp only
  split <;> simp
@[simp] theorem clearPermanentLoop_tb (l : LineNo) (s : State) : (clearPermanentLoop l s).tb = s.tb := by
  unfold clearPermanentLoop
  dsimp only
  split <;> simp
@[simp] theorem clearPermanentLoop_bat (l : LineNo) (s : State) : (clearPermanentLoop l s).bat = s.bat := by
  unfold clearPermanentLoop
  dsimp only
  split <;> simp
@[simp] theorem clearPermanentLoop_link0 (l : LineNo) (s : State) : (clearPermanentLoop l s).link0 = s.link0 := by
  unfold clearPermanentLoop
  dsimp only
  split <;> simp
@[simp] theorem clearPermanentLoop_link1 (l : LineNo) (s : State) : (clearPermanentLoop l s).link1 = s.link1 := by
  unfold clearPermanentLoop
  dsimp only
  split <;> simp
@[simp] theorem clearPermanentLoop_pending (l : LineNo) (s : State) : (clearPermanentLoop l s).pending = s.pending := by
  unfold clearPermanentLoop
  dsimp only
  split <;> simp

/-! ### endDialDigit -/

@[simp] theorem endDialDigit_store (l : LineNo) (s : State) : (endDialDigit l s).store = s.store := by
  unfold endDialDigit
  split <;> simp
@[simp] theorem endDialDigit_pool (l : LineNo) (s : State) : (endDialDigit l s).pool = s.pool := by
  unfold endDialDigit
  split <;> simp
@[simp] theorem endDialDigit_scan (l : LineNo) (s : State) : (endDialDigit l s).scan = s.scan := by
  unfold endDialDigit
  split <;> simp
@[simp] theorem endDialDigit_sweep (l : LineNo) (s : State) : (endDialDigit l s).sweep = s.sweep := by
  unfold endDialDigit
  split <;> simp
@[simp] theorem endDialDigit_test (l : LineNo) (s : State) : (endDialDigit l s).test = s.test := by
  unfold endDialDigit
  split <;> simp
@[simp] theorem endDialDigit_tb (l : LineNo) (s : State) : (endDialDigit l s).tb = s.tb := by
  unfold endDialDigit
  split <;> simp
@[simp] theorem endDialDigit_bat (l : LineNo) (s : State) : (endDialDigit l s).bat = s.bat := by
  unfold endDialDigit
  split <;> simp
@[simp] theorem endDialDigit_link0 (l : LineNo) (s : State) : (endDialDigit l s).link0 = s.link0 := by
  unfold endDialDigit
  split <;> simp
@[simp] theorem endDialDigit_link1 (l : LineNo) (s : State) : (endDialDigit l s).link1 = s.link1 := by
  unfold endDialDigit
  split <;> simp
@[simp] theorem endDialDigit_pending (l : LineNo) (s : State) : (endDialDigit l s).pending = s.pending := by
  unfold endDialDigit
  split <;> simp

/-! ### endDial -/

@[simp] theorem endDial_store (l : LineNo) (s : State) : (endDial l s).store = s.store := by simp [endDial]
@[simp] theorem endDial_scan (l : LineNo) (s : State) : (endDial l s).scan = s.scan := by simp [endDial]
@[simp] theorem endDial_sweep (l : LineNo) (s : State) : (endDial l s).sweep = s.sweep := by simp [endDial]
@[simp] theorem endDial_test (l : LineNo) (s : State) : (endDial l s).test = s.test := by simp [endDial]
@[simp] theorem endDial_tb (l : LineNo) (s : State) : (endDial l s).tb = s.tb := by simp [endDial]
@[simp] theorem endDial_bat (l : LineNo) (s : State) : (endDial l s).bat = s.bat := by simp [endDial]
@[simp] theorem endDial_link0 (l : LineNo) (s : State) : (endDial l s).link0 = s.link0 := by simp [endDial]
@[simp] theorem endDial_link1 (l : LineNo) (s : State) : (endDial l s).link1 = s.link1 := by simp [endDial]
@[simp] theorem endDial_pending (l : LineNo) (s : State) : (endDial l s).pending = s.pending := by simp [endDial]

/-! ### clearDial -/

@[simp] theorem clearDial_store (l : LineNo) (s : State) : (clearDial l s).store = s.store := rfl
@[simp] theorem clearDial_pool (l : LineNo) (s : State) : (clearDial l s).pool = s.pool := rfl
@[simp] theorem clearDial_scan (l : LineNo) (s : State) : (clearDial l s).scan = s.scan := rfl
@[simp] theorem clearDial_sweep (l : LineNo) (s : State) : (clearDial l s).sweep = s.sweep := rfl
@[simp] theorem clearDial_test (l : LineNo) (s : State) : (clearDial l s).test = s.test := rfl
@[simp] theorem clearDial_tb (l : LineNo) (s : State) : (clearDial l s).tb = s.tb := rfl
@[simp] theorem clearDial_bat (l : LineNo) (s : State) : (clearDial l s).bat = s.bat := rfl
@[simp] theorem clearDial_journal (l : LineNo) (s : State) : (clearDial l s).journal = s.journal := rfl
@[simp] theorem clearDial_portA (l : LineNo) (s : State) : (clearDial l s).portA = s.portA := rfl
@[simp] theorem clearDial_portB (l : LineNo) (s : State) : (clearDial l s).portB = s.portB := rfl
@[simp] theorem clearDial_portT (l : LineNo) (s : State) : (clearDial l s).portT = s.portT := rfl
@[simp] theorem clearDial_link0 (l : LineNo) (s : State) : (clearDial l s).link0 = s.link0 := rfl
@[simp] theorem clearDial_link1 (l : LineNo) (s : State) : (clearDial l s).link1 = s.link1 := rfl
@[simp] theorem clearDial_pending (l : LineNo) (s : State) : (clearDial l s).pending = s.pending := rfl

/-! ### enterBlocked -/

@[simp] theorem enterBlocked_store (l : LineNo) (s : State) : (enterBlocked l s).store = s.store := by
  unfold enterBlocked
  split <;> simp
@[simp] theorem enterBlocked_scan (l : LineNo) (s : State) : (enterBlocked l s).scan = s.scan := by
  unfold enterBlocked
  split <;> simp
@[simp] theorem enterBlocked_sweep (l : LineNo) (s : State) : (enterBlocked l s).sweep = s.sweep := by
  unfold enterBlocked
  split <;> simp
@[simp] theorem enterBlocked_test (l : LineNo) (s : State) : (enterBlocked l s).test = s.test := by
  unfold enterBlocked
  split <;> simp
@[simp] theorem enterBlocked_tb (l : LineNo) (s : State) : (enterBlocked l s).tb = s.tb := by
  unfold enterBlocked
  split <;> simp
@[simp] theorem enterBlocked_bat (l : LineNo) (s : State) : (enterBlocked l s).bat = s.bat := by
  unfold enterBlocked
  split <;> simp
@[simp] theorem enterBlocked_journal (l : LineNo) (s : State) : (enterBlocked l s).journal = s.journal := by
  unfold enterBlocked
  split <;> simp
@[simp] theorem enterBlocked_portA (l : LineNo) (s : State) : (enterBlocked l s).portA = s.portA := by
  unfold enterBlocked
  split <;> simp
@[simp] theorem enterBlocked_portB (l : LineNo) (s : State) : (enterBlocked l s).portB = s.portB := by
  unfold enterBlocked
  split <;> simp
@[simp] theorem enterBlocked_portT (l : LineNo) (s : State) : (enterBlocked l s).portT = s.portT := by
  unfold enterBlocked
  split <;> simp
@[simp] theorem enterBlocked_pending (l : LineNo) (s : State) : (enterBlocked l s).pending = s.pending := by
  unfold enterBlocked
  split <;> simp

/-! ### followReasons -/

@[simp] theorem followReasons_store (l : LineNo) (o n : Reasons) (s : State) : (followReasons l o n s).store = s.store := by
  unfold followReasons
  repeat' split
  all_goals simp
@[simp] theorem followReasons_scan (l : LineNo) (o n : Reasons) (s : State) : (followReasons l o n s).scan = s.scan := by
  unfold followReasons
  repeat' split
  all_goals simp
@[simp] theorem followReasons_sweep (l : LineNo) (o n : Reasons) (s : State) : (followReasons l o n s).sweep = s.sweep := by
  unfold followReasons
  repeat' split
  all_goals simp
@[simp] theorem followReasons_test (l : LineNo) (o n : Reasons) (s : State) : (followReasons l o n s).test = s.test := by
  unfold followReasons
  repeat' split
  all_goals simp
@[simp] theorem followReasons_tb (l : LineNo) (o n : Reasons) (s : State) : (followReasons l o n s).tb = s.tb := by
  unfold followReasons
  repeat' split
  all_goals simp
@[simp] theorem followReasons_bat (l : LineNo) (o n : Reasons) (s : State) : (followReasons l o n s).bat = s.bat := by
  unfold followReasons
  repeat' split
  all_goals simp
@[simp] theorem followReasons_journal (l : LineNo) (o n : Reasons) (s : State) : (followReasons l o n s).journal = s.journal := by
  unfold followReasons
  repeat' split
  all_goals simp
@[simp] theorem followReasons_portA (l : LineNo) (o n : Reasons) (s : State) : (followReasons l o n s).portA = s.portA := by
  unfold followReasons
  repeat' split
  all_goals simp
@[simp] theorem followReasons_portB (l : LineNo) (o n : Reasons) (s : State) : (followReasons l o n s).portB = s.portB := by
  unfold followReasons
  repeat' split
  all_goals simp
@[simp] theorem followReasons_portT (l : LineNo) (o n : Reasons) (s : State) : (followReasons l o n s).portT = s.portT := by
  unfold followReasons
  repeat' split
  all_goals simp
@[simp] theorem followReasons_pending (l : LineNo) (o n : Reasons) (s : State) : (followReasons l o n s).pending = s.pending := by
  unfold followReasons
  repeat' split
  all_goals simp

/-! ### setReasons -/

@[simp] theorem setReasons_store (l : LineNo) (n : Reasons) (s : State) : (setReasons l n s).store = s.store := by
  unfold setReasons
  dsimp only
  split <;> simp
@[simp] theorem setReasons_scan (l : LineNo) (n : Reasons) (s : State) : (setReasons l n s).scan = s.scan := by
  unfold setReasons
  dsimp only
  split <;> simp
@[simp] theorem setReasons_sweep (l : LineNo) (n : Reasons) (s : State) : (setReasons l n s).sweep = s.sweep := by
  unfold setReasons
  dsimp only
  split <;> simp
@[simp] theorem setReasons_test (l : LineNo) (n : Reasons) (s : State) : (setReasons l n s).test = s.test := by
  unfold setReasons
  dsimp only
  split <;> simp
@[simp] theorem setReasons_tb (l : LineNo) (n : Reasons) (s : State) : (setReasons l n s).tb = s.tb := by
  unfold setReasons
  dsimp only
  split <;> simp
@[simp] theorem setReasons_bat (l : LineNo) (n : Reasons) (s : State) : (setReasons l n s).bat = s.bat := by
  unfold setReasons
  dsimp only
  split <;> simp
@[simp] theorem setReasons_pending (l : LineNo) (n : Reasons) (s : State) : (setReasons l n s).pending = s.pending := by
  unfold setReasons
  dsimp only
  split <;> simp

/-! ### recomputeReason -/

@[simp] theorem recomputeReason_store (l : LineNo) (s : State) : (recomputeReason l s).store = s.store := by simp [recomputeReason]
@[simp] theorem recomputeReason_scan (l : LineNo) (s : State) : (recomputeReason l s).scan = s.scan := by simp [recomputeReason]
@[simp] theorem recomputeReason_sweep (l : LineNo) (s : State) : (recomputeReason l s).sweep = s.sweep := by simp [recomputeReason]
@[simp] theorem recomputeReason_test (l : LineNo) (s : State) : (recomputeReason l s).test = s.test := by simp [recomputeReason]
@[simp] theorem recomputeReason_tb (l : LineNo) (s : State) : (recomputeReason l s).tb = s.tb := by simp [recomputeReason]
@[simp] theorem recomputeReason_bat (l : LineNo) (s : State) : (recomputeReason l s).bat = s.bat := by simp [recomputeReason]
@[simp] theorem recomputeReason_pending (l : LineNo) (s : State) : (recomputeReason l s).pending = s.pending := by simp [recomputeReason]

/-! ### countOne -/

@[simp] theorem countOne_store (l : LineNo) (t : Time) (o : FaultKind × Verdict) (s : State) : (countOne l t o s).store = s.store := by
  unfold countOne
  dsimp only
  split <;> simp
@[simp] theorem countOne_pool (l : LineNo) (t : Time) (o : FaultKind × Verdict) (s : State) : (countOne l t o s).pool = s.pool := by
  unfold countOne
  dsimp only
  split <;> simp
@[simp] theorem countOne_scan (l : LineNo) (t : Time) (o : FaultKind × Verdict) (s : State) : (countOne l t o s).scan = s.scan := by
  unfold countOne
  dsimp only
  split <;> simp
@[simp] theorem countOne_sweep (l : LineNo) (t : Time) (o : FaultKind × Verdict) (s : State) : (countOne l t o s).sweep = s.sweep := by
  unfold countOne
  dsimp only
  split <;> simp
@[simp] theorem countOne_test (l : LineNo) (t : Time) (o : FaultKind × Verdict) (s : State) : (countOne l t o s).test = s.test := by
  unfold countOne
  dsimp only
  split <;> simp
@[simp] theorem countOne_tb (l : LineNo) (t : Time) (o : FaultKind × Verdict) (s : State) : (countOne l t o s).tb = s.tb := by
  unfold countOne
  dsimp only
  split <;> simp
@[simp] theorem countOne_bat (l : LineNo) (t : Time) (o : FaultKind × Verdict) (s : State) : (countOne l t o s).bat = s.bat := by
  unfold countOne
  dsimp only
  split <;> simp
@[simp] theorem countOne_link0 (l : LineNo) (t : Time) (o : FaultKind × Verdict) (s : State) : (countOne l t o s).link0 = s.link0 := by
  unfold countOne
  dsimp only
  split <;> simp
@[simp] theorem countOne_link1 (l : LineNo) (t : Time) (o : FaultKind × Verdict) (s : State) : (countOne l t o s).link1 = s.link1 := by
  unfold countOne
  dsimp only
  split <;> simp
@[simp] theorem countOne_pending (l : LineNo) (t : Time) (o : FaultKind × Verdict) (s : State) : (countOne l t o s).pending = s.pending := by
  unfold countOne
  dsimp only
  split <;> simp

/-! ### seizeDetector -/

@[simp] theorem seizeDetector_store (l : LineNo) (t : Time) (s : State) : (seizeDetector l t s).store = s.store := by
  unfold seizeDetector
  dsimp only
  repeat' split
  all_goals simp
@[simp] theorem seizeDetector_scan (l : LineNo) (t : Time) (s : State) : (seizeDetector l t s).scan = s.scan := by
  unfold seizeDetector
  dsimp only
  repeat' split
  all_goals simp
@[simp] theorem seizeDetector_sweep (l : LineNo) (t : Time) (s : State) : (seizeDetector l t s).sweep = s.sweep := by
  unfold seizeDetector
  dsimp only
  repeat' split
  all_goals simp
@[simp] theorem seizeDetector_test (l : LineNo) (t : Time) (s : State) : (seizeDetector l t s).test = s.test := by
  unfold seizeDetector
  dsimp only
  repeat' split
  all_goals simp
@[simp] theorem seizeDetector_tb (l : LineNo) (t : Time) (s : State) : (seizeDetector l t s).tb = s.tb := by
  unfold seizeDetector
  dsimp only
  repeat' split
  all_goals simp
@[simp] theorem seizeDetector_bat (l : LineNo) (t : Time) (s : State) : (seizeDetector l t s).bat = s.bat := by
  unfold seizeDetector
  dsimp only
  repeat' split
  all_goals simp
@[simp] theorem seizeDetector_link0 (l : LineNo) (t : Time) (s : State) : (seizeDetector l t s).link0 = s.link0 := by
  unfold seizeDetector
  dsimp only
  repeat' split
  all_goals simp
@[simp] theorem seizeDetector_link1 (l : LineNo) (t : Time) (s : State) : (seizeDetector l t s).link1 = s.link1 := by
  unfold seizeDetector
  dsimp only
  repeat' split
  all_goals simp
@[simp] theorem seizeDetector_pending (l : LineNo) (t : Time) (s : State) : (seizeDetector l t s).pending = s.pending := by
  unfold seizeDetector
  dsimp only
  repeat' split
  all_goals simp

/-! ### clearOpenPair -/

@[simp] theorem clearOpenPair_store (l : LineNo) (s : State) : (clearOpenPair l s).store = s.store := by
  unfold clearOpenPair
  dsimp only
  split <;> simp
@[simp] theorem clearOpenPair_pool (l : LineNo) (s : State) : (clearOpenPair l s).pool = s.pool := by
  unfold clearOpenPair
  dsimp only
  split <;> simp
@[simp] theorem clearOpenPair_scan (l : LineNo) (s : State) : (clearOpenPair l s).scan = s.scan := by
  unfold clearOpenPair
  dsimp only
  split <;> simp
@[simp] theorem clearOpenPair_sweep (l : LineNo) (s : State) : (clearOpenPair l s).sweep = s.sweep := by
  unfold clearOpenPair
  dsimp only
  split <;> simp
@[simp] theorem clearOpenPair_test (l : LineNo) (s : State) : (clearOpenPair l s).test = s.test := by
  unfold clearOpenPair
  dsimp only
  split <;> simp
@[simp] theorem clearOpenPair_tb (l : LineNo) (s : State) : (clearOpenPair l s).tb = s.tb := by
  unfold clearOpenPair
  dsimp only
  split <;> simp
@[simp] theorem clearOpenPair_bat (l : LineNo) (s : State) : (clearOpenPair l s).bat = s.bat := by
  unfold clearOpenPair
  dsimp only
  split <;> simp
@[simp] theorem clearOpenPair_link0 (l : LineNo) (s : State) : (clearOpenPair l s).link0 = s.link0 := by
  unfold clearOpenPair
  dsimp only
  split <;> simp
@[simp] theorem clearOpenPair_link1 (l : LineNo) (s : State) : (clearOpenPair l s).link1 = s.link1 := by
  unfold clearOpenPair
  dsimp only
  split <;> simp
@[simp] theorem clearOpenPair_pending (l : LineNo) (s : State) : (clearOpenPair l s).pending = s.pending := by
  unfold clearOpenPair
  dsimp only
  split <;> simp

/-! ### seize -/

@[simp] theorem seize_store (l : LineNo) (t : Time) (s : State) : (seize l t s).store = s.store := by simp [seize]
@[simp] theorem seize_scan (l : LineNo) (t : Time) (s : State) : (seize l t s).scan = s.scan := by simp [seize]
@[simp] theorem seize_sweep (l : LineNo) (t : Time) (s : State) : (seize l t s).sweep = s.sweep := by simp [seize]
@[simp] theorem seize_test (l : LineNo) (t : Time) (s : State) : (seize l t s).test = s.test := by simp [seize]
@[simp] theorem seize_tb (l : LineNo) (t : Time) (s : State) : (seize l t s).tb = s.tb := by simp [seize]
@[simp] theorem seize_bat (l : LineNo) (t : Time) (s : State) : (seize l t s).bat = s.bat := by simp [seize]
@[simp] theorem seize_link0 (l : LineNo) (t : Time) (s : State) : (seize l t s).link0 = s.link0 := by simp [seize]
@[simp] theorem seize_link1 (l : LineNo) (t : Time) (s : State) : (seize l t s).link1 = s.link1 := by simp [seize]
@[simp] theorem seize_pending (l : LineNo) (t : Time) (s : State) : (seize l t s).pending = s.pending := by simp [seize]

/-! ### hangUp -/

@[simp] theorem hangUp_store (l : LineNo) (t : Time) (w : HangupBy) (s : State) : (hangUp l t w s).store = s.store := by simp [hangUp]
@[simp] theorem hangUp_scan (l : LineNo) (t : Time) (w : HangupBy) (s : State) : (hangUp l t w s).scan = s.scan := by simp [hangUp]
@[simp] theorem hangUp_sweep (l : LineNo) (t : Time) (w : HangupBy) (s : State) : (hangUp l t w s).sweep = s.sweep := by simp [hangUp]
@[simp] theorem hangUp_test (l : LineNo) (t : Time) (w : HangupBy) (s : State) : (hangUp l t w s).test = s.test := by simp [hangUp]
@[simp] theorem hangUp_tb (l : LineNo) (t : Time) (w : HangupBy) (s : State) : (hangUp l t w s).tb = s.tb := by simp [hangUp]
@[simp] theorem hangUp_bat (l : LineNo) (t : Time) (w : HangupBy) (s : State) : (hangUp l t w s).bat = s.bat := by simp [hangUp]
@[simp] theorem hangUp_link0 (l : LineNo) (t : Time) (w : HangupBy) (s : State) : (hangUp l t w s).link0 = s.link0 := by simp [hangUp]
@[simp] theorem hangUp_link1 (l : LineNo) (t : Time) (w : HangupBy) (s : State) : (hangUp l t w s).link1 = s.link1 := by simp [hangUp]
@[simp] theorem hangUp_pending (l : LineNo) (t : Time) (w : HangupBy) (s : State) : (hangUp l t w s).pending = s.pending := by simp [hangUp]

/-! ### openBreak -/

@[simp] theorem openBreak_store (l : LineNo) (t : Time) (s : State) : (openBreak l t s).store = s.store := by
  unfold openBreak
  dsimp only
  repeat' split
  all_goals simp
@[simp] theorem openBreak_scan (l : LineNo) (t : Time) (s : State) : (openBreak l t s).scan = s.scan := by
  unfold openBreak
  dsimp only
  repeat' split
  all_goals simp
@[simp] theorem openBreak_sweep (l : LineNo) (t : Time) (s : State) : (openBreak l t s).sweep = s.sweep := by
  unfold openBreak
  dsimp only
  repeat' split
  all_goals simp
@[simp] theorem openBreak_test (l : LineNo) (t : Time) (s : State) : (openBreak l t s).test = s.test := by
  unfold openBreak
  dsimp only
  repeat' split
  all_goals simp
@[simp] theorem openBreak_tb (l : LineNo) (t : Time) (s : State) : (openBreak l t s).tb = s.tb := by
  unfold openBreak
  dsimp only
  repeat' split
  all_goals simp
@[simp] theorem openBreak_bat (l : LineNo) (t : Time) (s : State) : (openBreak l t s).bat = s.bat := by
  unfold openBreak
  dsimp only
  repeat' split
  all_goals simp
@[simp] theorem openBreak_link0 (l : LineNo) (t : Time) (s : State) : (openBreak l t s).link0 = s.link0 := by
  unfold openBreak
  dsimp only
  repeat' split
  all_goals simp
@[simp] theorem openBreak_link1 (l : LineNo) (t : Time) (s : State) : (openBreak l t s).link1 = s.link1 := by
  unfold openBreak
  dsimp only
  repeat' split
  all_goals simp
@[simp] theorem openBreak_pending (l : LineNo) (t : Time) (s : State) : (openBreak l t s).pending = s.pending := by
  unfold openBreak
  dsimp only
  repeat' split
  all_goals simp

/-! ### makeDialling -/

@[simp] theorem makeDialling_store (l : LineNo) (b t : Time) (n : Nat) (s : State) : (makeDialling l b t n s).store = s.store := by
  unfold makeDialling
  repeat' split
  all_goals simp
@[simp] theorem makeDialling_scan (l : LineNo) (b t : Time) (n : Nat) (s : State) : (makeDialling l b t n s).scan = s.scan := by
  unfold makeDialling
  repeat' split
  all_goals simp
@[simp] theorem makeDialling_sweep (l : LineNo) (b t : Time) (n : Nat) (s : State) : (makeDialling l b t n s).sweep = s.sweep := by
  unfold makeDialling
  repeat' split
  all_goals simp
@[simp] theorem makeDialling_test (l : LineNo) (b t : Time) (n : Nat) (s : State) : (makeDialling l b t n s).test = s.test := by
  unfold makeDialling
  repeat' split
  all_goals simp
@[simp] theorem makeDialling_tb (l : LineNo) (b t : Time) (n : Nat) (s : State) : (makeDialling l b t n s).tb = s.tb := by
  unfold makeDialling
  repeat' split
  all_goals simp
@[simp] theorem makeDialling_bat (l : LineNo) (b t : Time) (n : Nat) (s : State) : (makeDialling l b t n s).bat = s.bat := by
  unfold makeDialling
  repeat' split
  all_goals simp
@[simp] theorem makeDialling_link0 (l : LineNo) (b t : Time) (n : Nat) (s : State) : (makeDialling l b t n s).link0 = s.link0 := by
  unfold makeDialling
  repeat' split
  all_goals simp
@[simp] theorem makeDialling_link1 (l : LineNo) (b t : Time) (n : Nat) (s : State) : (makeDialling l b t n s).link1 = s.link1 := by
  unfold makeDialling
  repeat' split
  all_goals simp
@[simp] theorem makeDialling_pending (l : LineNo) (b t : Time) (n : Nat) (s : State) : (makeDialling l b t n s).pending = s.pending := by
  unfold makeDialling
  repeat' split
  all_goals simp

/-! ### makeTalk -/

@[simp] theorem makeTalk_store (l : LineNo) (b t : Time) (n : Nat) (s : State) : (makeTalk l b t n s).store = s.store := by
  unfold makeTalk
  split <;> simp
@[simp] theorem makeTalk_scan (l : LineNo) (b t : Time) (n : Nat) (s : State) : (makeTalk l b t n s).scan = s.scan := by
  unfold makeTalk
  split <;> simp
@[simp] theorem makeTalk_sweep (l : LineNo) (b t : Time) (n : Nat) (s : State) : (makeTalk l b t n s).sweep = s.sweep := by
  unfold makeTalk
  split <;> simp
@[simp] theorem makeTalk_test (l : LineNo) (b t : Time) (n : Nat) (s : State) : (makeTalk l b t n s).test = s.test := by
  unfold makeTalk
  split <;> simp
@[simp] theorem makeTalk_tb (l : LineNo) (b t : Time) (n : Nat) (s : State) : (makeTalk l b t n s).tb = s.tb := by
  unfold makeTalk
  split <;> simp
@[simp] theorem makeTalk_bat (l : LineNo) (b t : Time) (n : Nat) (s : State) : (makeTalk l b t n s).bat = s.bat := by
  unfold makeTalk
  split <;> simp
@[simp] theorem makeTalk_link0 (l : LineNo) (b t : Time) (n : Nat) (s : State) : (makeTalk l b t n s).link0 = s.link0 := by
  unfold makeTalk
  split <;> simp
@[simp] theorem makeTalk_link1 (l : LineNo) (b t : Time) (n : Nat) (s : State) : (makeTalk l b t n s).link1 = s.link1 := by
  unfold makeTalk
  split <;> simp
@[simp] theorem makeTalk_pending (l : LineNo) (b t : Time) (n : Nat) (s : State) : (makeTalk l b t n s).pending = s.pending := by
  unfold makeTalk
  split <;> simp

/-! ### makeBreak -/

@[simp] theorem makeBreak_store (l : LineNo) (b t : Time) (s : State) : (makeBreak l b t s).store = s.store := by
  unfold makeBreak
  split <;> simp
@[simp] theorem makeBreak_scan (l : LineNo) (b t : Time) (s : State) : (makeBreak l b t s).scan = s.scan := by
  unfold makeBreak
  split <;> simp
@[simp] theorem makeBreak_sweep (l : LineNo) (b t : Time) (s : State) : (makeBreak l b t s).sweep = s.sweep := by
  unfold makeBreak
  split <;> simp
@[simp] theorem makeBreak_test (l : LineNo) (b t : Time) (s : State) : (makeBreak l b t s).test = s.test := by
  unfold makeBreak
  split <;> simp
@[simp] theorem makeBreak_tb (l : LineNo) (b t : Time) (s : State) : (makeBreak l b t s).tb = s.tb := by
  unfold makeBreak
  split <;> simp
@[simp] theorem makeBreak_bat (l : LineNo) (b t : Time) (s : State) : (makeBreak l b t s).bat = s.bat := by
  unfold makeBreak
  split <;> simp
@[simp] theorem makeBreak_link0 (l : LineNo) (b t : Time) (s : State) : (makeBreak l b t s).link0 = s.link0 := by
  unfold makeBreak
  split <;> simp
@[simp] theorem makeBreak_link1 (l : LineNo) (b t : Time) (s : State) : (makeBreak l b t s).link1 = s.link1 := by
  unfold makeBreak
  split <;> simp
@[simp] theorem makeBreak_pending (l : LineNo) (b t : Time) (s : State) : (makeBreak l b t s).pending = s.pending := by
  unfold makeBreak
  split <;> simp

/-! ### confirmRun -/

@[simp] theorem confirmRun_store (l : LineNo) (d : LoopDir) (t : Time) (s : State) : (confirmRun l d t s).store = s.store := by
  unfold confirmRun
  repeat' split
  all_goals simp
@[simp] theorem confirmRun_scan (l : LineNo) (d : LoopDir) (t : Time) (s : State) : (confirmRun l d t s).scan = s.scan := by
  unfold confirmRun
  repeat' split
  all_goals simp
@[simp] theorem confirmRun_sweep (l : LineNo) (d : LoopDir) (t : Time) (s : State) : (confirmRun l d t s).sweep = s.sweep := by
  unfold confirmRun
  repeat' split
  all_goals simp
@[simp] theorem confirmRun_test (l : LineNo) (d : LoopDir) (t : Time) (s : State) : (confirmRun l d t s).test = s.test := by
  unfold confirmRun
  repeat' split
  all_goals simp
@[simp] theorem confirmRun_tb (l : LineNo) (d : LoopDir) (t : Time) (s : State) : (confirmRun l d t s).tb = s.tb := by
  unfold confirmRun
  repeat' split
  all_goals simp
@[simp] theorem confirmRun_bat (l : LineNo) (d : LoopDir) (t : Time) (s : State) : (confirmRun l d t s).bat = s.bat := by
  unfold confirmRun
  repeat' split
  all_goals simp
@[simp] theorem confirmRun_link0 (l : LineNo) (d : LoopDir) (t : Time) (s : State) : (confirmRun l d t s).link0 = s.link0 := by
  unfold confirmRun
  repeat' split
  all_goals simp
@[simp] theorem confirmRun_link1 (l : LineNo) (d : LoopDir) (t : Time) (s : State) : (confirmRun l d t s).link1 = s.link1 := by
  unfold confirmRun
  repeat' split
  all_goals simp
@[simp] theorem confirmRun_pending (l : LineNo) (d : LoopDir) (t : Time) (s : State) : (confirmRun l d t s).pending = s.pending := by
  unfold confirmRun
  repeat' split
  all_goals simp

/-! ### applyClass -/

@[simp] theorem applyClass_store (l : LineNo) (c : MeasClass) (t : Time) (s : State) : (applyClass l c t s).store = s.store := by
  unfold applyClass
  dsimp only
  repeat' split
  all_goals simp
@[simp] theorem applyClass_scan (l : LineNo) (c : MeasClass) (t : Time) (s : State) : (applyClass l c t s).scan = s.scan := by
  unfold applyClass
  dsimp only
  repeat' split
  all_goals simp
@[simp] theorem applyClass_sweep (l : LineNo) (c : MeasClass) (t : Time) (s : State) : (applyClass l c t s).sweep = s.sweep := by
  unfold applyClass
  dsimp only
  repeat' split
  all_goals simp
@[simp] theorem applyClass_test (l : LineNo) (c : MeasClass) (t : Time) (s : State) : (applyClass l c t s).test = s.test := by
  unfold applyClass
  dsimp only
  repeat' split
  all_goals simp
@[simp] theorem applyClass_tb (l : LineNo) (c : MeasClass) (t : Time) (s : State) : (applyClass l c t s).tb = s.tb := by
  unfold applyClass
  dsimp only
  repeat' split
  all_goals simp
@[simp] theorem applyClass_bat (l : LineNo) (c : MeasClass) (t : Time) (s : State) : (applyClass l c t s).bat = s.bat := by
  unfold applyClass
  dsimp only
  repeat' split
  all_goals simp
@[simp] theorem applyClass_link0 (l : LineNo) (c : MeasClass) (t : Time) (s : State) : (applyClass l c t s).link0 = s.link0 := by
  unfold applyClass
  dsimp only
  repeat' split
  all_goals simp
@[simp] theorem applyClass_link1 (l : LineNo) (c : MeasClass) (t : Time) (s : State) : (applyClass l c t s).link1 = s.link1 := by
  unfold applyClass
  dsimp only
  repeat' split
  all_goals simp
@[simp] theorem applyClass_pending (l : LineNo) (c : MeasClass) (t : Time) (s : State) : (applyClass l c t s).pending = s.pending := by
  unfold applyClass
  dsimp only
  repeat' split
  all_goals simp

/-! ### debounce -/

@[simp] theorem debounce_store (l : LineNo) (c : MeasClass) (t : Time) (s : State) : (debounce l c t s).store = s.store := by
  unfold debounce
  split <;> simp
@[simp] theorem debounce_scan (l : LineNo) (c : MeasClass) (t : Time) (s : State) : (debounce l c t s).scan = s.scan := by
  unfold debounce
  split <;> simp
@[simp] theorem debounce_sweep (l : LineNo) (c : MeasClass) (t : Time) (s : State) : (debounce l c t s).sweep = s.sweep := by
  unfold debounce
  split <;> simp
@[simp] theorem debounce_test (l : LineNo) (c : MeasClass) (t : Time) (s : State) : (debounce l c t s).test = s.test := by
  unfold debounce
  split <;> simp
@[simp] theorem debounce_tb (l : LineNo) (c : MeasClass) (t : Time) (s : State) : (debounce l c t s).tb = s.tb := by
  unfold debounce
  split <;> simp
@[simp] theorem debounce_bat (l : LineNo) (c : MeasClass) (t : Time) (s : State) : (debounce l c t s).bat = s.bat := by
  unfold debounce
  split <;> simp
@[simp] theorem debounce_link0 (l : LineNo) (c : MeasClass) (t : Time) (s : State) : (debounce l c t s).link0 = s.link0 := by
  unfold debounce
  split <;> simp
@[simp] theorem debounce_link1 (l : LineNo) (c : MeasClass) (t : Time) (s : State) : (debounce l c t s).link1 = s.link1 := by
  unfold debounce
  split <;> simp
@[simp] theorem debounce_pending (l : LineNo) (c : MeasClass) (t : Time) (s : State) : (debounce l c t s).pending = s.pending := by
  unfold debounce
  split <;> simp

/-! ### settle -/

@[simp] theorem settle_store (l : LineNo) (q : Run) (s : State) : (settle l q s).store = s.store := by
  unfold settle
  split <;> simp
@[simp] theorem settle_pool (l : LineNo) (q : Run) (s : State) : (settle l q s).pool = s.pool := by
  unfold settle
  split <;> simp
@[simp] theorem settle_scan (l : LineNo) (q : Run) (s : State) : (settle l q s).scan = s.scan := by
  unfold settle
  split <;> simp
@[simp] theorem settle_sweep (l : LineNo) (q : Run) (s : State) : (settle l q s).sweep = s.sweep := by
  unfold settle
  split <;> simp
@[simp] theorem settle_test (l : LineNo) (q : Run) (s : State) : (settle l q s).test = s.test := by
  unfold settle
  split <;> simp
@[simp] theorem settle_tb (l : LineNo) (q : Run) (s : State) : (settle l q s).tb = s.tb := by
  unfold settle
  split <;> simp
@[simp] theorem settle_bat (l : LineNo) (q : Run) (s : State) : (settle l q s).bat = s.bat := by
  unfold settle
  split <;> simp
@[simp] theorem settle_link0 (l : LineNo) (q : Run) (s : State) : (settle l q s).link0 = s.link0 := by
  unfold settle
  split <;> simp
@[simp] theorem settle_link1 (l : LineNo) (q : Run) (s : State) : (settle l q s).link1 = s.link1 := by
  unfold settle
  split <;> simp
@[simp] theorem settle_pending (l : LineNo) (q : Run) (s : State) : (settle l q s).pending = s.pending := by
  unfold settle
  split <;> simp

/-! ### settleUnstable -/

@[simp] theorem settleUnstable_store (l : LineNo) (t : Time) (s : State) : (settleUnstable l t s).store = s.store := by simp [settleUnstable]
@[simp] theorem settleUnstable_pool (l : LineNo) (t : Time) (s : State) : (settleUnstable l t s).pool = s.pool := by simp [settleUnstable]
@[simp] theorem settleUnstable_scan (l : LineNo) (t : Time) (s : State) : (settleUnstable l t s).scan = s.scan := by simp [settleUnstable]
@[simp] theorem settleUnstable_sweep (l : LineNo) (t : Time) (s : State) : (settleUnstable l t s).sweep = s.sweep := by simp [settleUnstable]
@[simp] theorem settleUnstable_test (l : LineNo) (t : Time) (s : State) : (settleUnstable l t s).test = s.test := by simp [settleUnstable]
@[simp] theorem settleUnstable_tb (l : LineNo) (t : Time) (s : State) : (settleUnstable l t s).tb = s.tb := by simp [settleUnstable]
@[simp] theorem settleUnstable_bat (l : LineNo) (t : Time) (s : State) : (settleUnstable l t s).bat = s.bat := by simp [settleUnstable]
@[simp] theorem settleUnstable_link0 (l : LineNo) (t : Time) (s : State) : (settleUnstable l t s).link0 = s.link0 := by simp [settleUnstable]
@[simp] theorem settleUnstable_link1 (l : LineNo) (t : Time) (s : State) : (settleUnstable l t s).link1 = s.link1 := by simp [settleUnstable]
@[simp] theorem settleUnstable_pending (l : LineNo) (t : Time) (s : State) : (settleUnstable l t s).pending = s.pending := by simp [settleUnstable]

/-! ### acquireStep -/

@[simp] theorem acquireStep_store (l : LineNo) (c : MeasClass) (t : Time) (s : State) : (acquireStep l c t s).store = s.store := by
  unfold acquireStep
  repeat' split
  all_goals simp
@[simp] theorem acquireStep_pool (l : LineNo) (c : MeasClass) (t : Time) (s : State) : (acquireStep l c t s).pool = s.pool := by
  unfold acquireStep
  repeat' split
  all_goals simp
@[simp] theorem acquireStep_scan (l : LineNo) (c : MeasClass) (t : Time) (s : State) : (acquireStep l c t s).scan = s.scan := by
  unfold acquireStep
  repeat' split
  all_goals simp
@[simp] theorem acquireStep_sweep (l : LineNo) (c : MeasClass) (t : Time) (s : State) : (acquireStep l c t s).sweep = s.sweep := by
  unfold acquireStep
  repeat' split
  all_goals simp
@[simp] theorem acquireStep_test (l : LineNo) (c : MeasClass) (t : Time) (s : State) : (acquireStep l c t s).test = s.test := by
  unfold acquireStep
  repeat' split
  all_goals simp
@[simp] theorem acquireStep_tb (l : LineNo) (c : MeasClass) (t : Time) (s : State) : (acquireStep l c t s).tb = s.tb := by
  unfold acquireStep
  repeat' split
  all_goals simp
@[simp] theorem acquireStep_bat (l : LineNo) (c : MeasClass) (t : Time) (s : State) : (acquireStep l c t s).bat = s.bat := by
  unfold acquireStep
  repeat' split
  all_goals simp
@[simp] theorem acquireStep_link0 (l : LineNo) (c : MeasClass) (t : Time) (s : State) : (acquireStep l c t s).link0 = s.link0 := by
  unfold acquireStep
  repeat' split
  all_goals simp
@[simp] theorem acquireStep_link1 (l : LineNo) (c : MeasClass) (t : Time) (s : State) : (acquireStep l c t s).link1 = s.link1 := by
  unfold acquireStep
  repeat' split
  all_goals simp
@[simp] theorem acquireStep_pending (l : LineNo) (c : MeasClass) (t : Time) (s : State) : (acquireStep l c t s).pending = s.pending := by
  unfold acquireStep
  repeat' split
  all_goals simp

/-! ### acquire -/

@[simp] theorem acquire_store (l : LineNo) (c : MeasClass) (t : Time) (s : State) : (acquire l c t s).store = s.store := by
  unfold acquire
  repeat' split
  all_goals simp
@[simp] theorem acquire_scan (l : LineNo) (c : MeasClass) (t : Time) (s : State) : (acquire l c t s).scan = s.scan := by
  unfold acquire
  repeat' split
  all_goals simp
@[simp] theorem acquire_sweep (l : LineNo) (c : MeasClass) (t : Time) (s : State) : (acquire l c t s).sweep = s.sweep := by
  unfold acquire
  repeat' split
  all_goals simp
@[simp] theorem acquire_test (l : LineNo) (c : MeasClass) (t : Time) (s : State) : (acquire l c t s).test = s.test := by
  unfold acquire
  repeat' split
  all_goals simp
@[simp] theorem acquire_tb (l : LineNo) (c : MeasClass) (t : Time) (s : State) : (acquire l c t s).tb = s.tb := by
  unfold acquire
  repeat' split
  all_goals simp
@[simp] theorem acquire_bat (l : LineNo) (c : MeasClass) (t : Time) (s : State) : (acquire l c t s).bat = s.bat := by
  unfold acquire
  repeat' split
  all_goals simp
@[simp] theorem acquire_link0 (l : LineNo) (c : MeasClass) (t : Time) (s : State) : (acquire l c t s).link0 = s.link0 := by
  unfold acquire
  repeat' split
  all_goals simp
@[simp] theorem acquire_link1 (l : LineNo) (c : MeasClass) (t : Time) (s : State) : (acquire l c t s).link1 = s.link1 := by
  unfold acquire
  repeat' split
  all_goals simp
@[simp] theorem acquire_pending (l : LineNo) (c : MeasClass) (t : Time) (s : State) : (acquire l c t s).pending = s.pending := by
  unfold acquire
  repeat' split
  all_goals simp

/-! ### startRinging -/

@[simp] theorem startRinging_store (l : LineNo) (s : State) : (startRinging l s).store = s.store := by simp [startRinging]
@[simp] theorem startRinging_pool (l : LineNo) (s : State) : (startRinging l s).pool = s.pool := by simp [startRinging]
@[simp] theorem startRinging_scan (l : LineNo) (s : State) : (startRinging l s).scan = s.scan := by simp [startRinging]
@[simp] theorem startRinging_sweep (l : LineNo) (s : State) : (startRinging l s).sweep = s.sweep := by simp [startRinging]
@[simp] theorem startRinging_test (l : LineNo) (s : State) : (startRinging l s).test = s.test := by simp [startRinging]
@[simp] theorem startRinging_tb (l : LineNo) (s : State) : (startRinging l s).tb = s.tb := by simp [startRinging]
@[simp] theorem startRinging_bat (l : LineNo) (s : State) : (startRinging l s).bat = s.bat := by simp [startRinging]
@[simp] theorem startRinging_journal (l : LineNo) (s : State) : (startRinging l s).journal = s.journal := by simp [startRinging]
@[simp] theorem startRinging_portA (l : LineNo) (s : State) : (startRinging l s).portA = s.portA := by simp [startRinging]
@[simp] theorem startRinging_portB (l : LineNo) (s : State) : (startRinging l s).portB = s.portB := by simp [startRinging]
@[simp] theorem startRinging_portT (l : LineNo) (s : State) : (startRinging l s).portT = s.portT := by simp [startRinging]
@[simp] theorem startRinging_pending (l : LineNo) (s : State) : (startRinging l s).pending = s.pending := by simp [startRinging]

/-! ### stopRinging -/

@[simp] theorem stopRinging_store (l : LineNo) (s : State) : (stopRinging l s).store = s.store := by simp [stopRinging]
@[simp] theorem stopRinging_pool (l : LineNo) (s : State) : (stopRinging l s).pool = s.pool := by simp [stopRinging]
@[simp] theorem stopRinging_scan (l : LineNo) (s : State) : (stopRinging l s).scan = s.scan := by simp [stopRinging]
@[simp] theorem stopRinging_sweep (l : LineNo) (s : State) : (stopRinging l s).sweep = s.sweep := by simp [stopRinging]
@[simp] theorem stopRinging_test (l : LineNo) (s : State) : (stopRinging l s).test = s.test := by simp [stopRinging]
@[simp] theorem stopRinging_tb (l : LineNo) (s : State) : (stopRinging l s).tb = s.tb := by simp [stopRinging]
@[simp] theorem stopRinging_bat (l : LineNo) (s : State) : (stopRinging l s).bat = s.bat := by simp [stopRinging]
@[simp] theorem stopRinging_journal (l : LineNo) (s : State) : (stopRinging l s).journal = s.journal := by simp [stopRinging]
@[simp] theorem stopRinging_portA (l : LineNo) (s : State) : (stopRinging l s).portA = s.portA := by simp [stopRinging]
@[simp] theorem stopRinging_portB (l : LineNo) (s : State) : (stopRinging l s).portB = s.portB := by simp [stopRinging]
@[simp] theorem stopRinging_portT (l : LineNo) (s : State) : (stopRinging l s).portT = s.portT := by simp [stopRinging]
@[simp] theorem stopRinging_pending (l : LineNo) (s : State) : (stopRinging l s).pending = s.pending := by simp [stopRinging]

/-! ### answer -/

@[simp] theorem answer_store (l : LineNo) (h : RingPhase) (t : Time) (s : State) : (answer l h t s).store = s.store := by simp [answer]
@[simp] theorem answer_pool (l : LineNo) (h : RingPhase) (t : Time) (s : State) : (answer l h t s).pool = s.pool := by simp [answer]
@[simp] theorem answer_scan (l : LineNo) (h : RingPhase) (t : Time) (s : State) : (answer l h t s).scan = s.scan := by simp [answer]
@[simp] theorem answer_sweep (l : LineNo) (h : RingPhase) (t : Time) (s : State) : (answer l h t s).sweep = s.sweep := by simp [answer]
@[simp] theorem answer_test (l : LineNo) (h : RingPhase) (t : Time) (s : State) : (answer l h t s).test = s.test := by simp [answer]
@[simp] theorem answer_tb (l : LineNo) (h : RingPhase) (t : Time) (s : State) : (answer l h t s).tb = s.tb := by simp [answer]
@[simp] theorem answer_bat (l : LineNo) (h : RingPhase) (t : Time) (s : State) : (answer l h t s).bat = s.bat := by simp [answer]
@[simp] theorem answer_pending (l : LineNo) (h : RingPhase) (t : Time) (s : State) : (answer l h t s).pending = s.pending := by simp [answer]

/-! ### answerStep -/

@[simp] theorem answerStep_store (l : LineNo) (h : RingPhase) (c : MeasClass) (t : Time) (s : State) : (answerStep l h c t s).store = s.store := by
  unfold answerStep
  dsimp only
  repeat' split
  all_goals simp
@[simp] theorem answerStep_pool (l : LineNo) (h : RingPhase) (c : MeasClass) (t : Time) (s : State) : (answerStep l h c t s).pool = s.pool := by
  unfold answerStep
  dsimp only
  repeat' split
  all_goals simp
@[simp] theorem answerStep_scan (l : LineNo) (h : RingPhase) (c : MeasClass) (t : Time) (s : State) : (answerStep l h c t s).scan = s.scan := by
  unfold answerStep
  dsimp only
  repeat' split
  all_goals simp
@[simp] theorem answerStep_sweep (l : LineNo) (h : RingPhase) (c : MeasClass) (t : Time) (s : State) : (answerStep l h c t s).sweep = s.sweep := by
  unfold answerStep
  dsimp only
  repeat' split
  all_goals simp
@[simp] theorem answerStep_test (l : LineNo) (h : RingPhase) (c : MeasClass) (t : Time) (s : State) : (answerStep l h c t s).test = s.test := by
  unfold answerStep
  dsimp only
  repeat' split
  all_goals simp
@[simp] theorem answerStep_tb (l : LineNo) (h : RingPhase) (c : MeasClass) (t : Time) (s : State) : (answerStep l h c t s).tb = s.tb := by
  unfold answerStep
  dsimp only
  repeat' split
  all_goals simp
@[simp] theorem answerStep_bat (l : LineNo) (h : RingPhase) (c : MeasClass) (t : Time) (s : State) : (answerStep l h c t s).bat = s.bat := by
  unfold answerStep
  dsimp only
  repeat' split
  all_goals simp
@[simp] theorem answerStep_pending (l : LineNo) (h : RingPhase) (c : MeasClass) (t : Time) (s : State) : (answerStep l h c t s).pending = s.pending := by
  unfold answerStep
  dsimp only
  repeat' split
  all_goals simp

/-! ### answerRun -/

@[simp] theorem answerRun_store (l : LineNo) (h : RingPhase) (c : MeasClass) (t : Time) (s : State) : (answerRun l h c t s).store = s.store := by
  unfold answerRun
  repeat' split
  all_goals simp
@[simp] theorem answerRun_scan (l : LineNo) (h : RingPhase) (c : MeasClass) (t : Time) (s : State) : (answerRun l h c t s).scan = s.scan := by
  unfold answerRun
  repeat' split
  all_goals simp
@[simp] theorem answerRun_sweep (l : LineNo) (h : RingPhase) (c : MeasClass) (t : Time) (s : State) : (answerRun l h c t s).sweep = s.sweep := by
  unfold answerRun
  repeat' split
  all_goals simp
@[simp] theorem answerRun_test (l : LineNo) (h : RingPhase) (c : MeasClass) (t : Time) (s : State) : (answerRun l h c t s).test = s.test := by
  unfold answerRun
  repeat' split
  all_goals simp
@[simp] theorem answerRun_tb (l : LineNo) (h : RingPhase) (c : MeasClass) (t : Time) (s : State) : (answerRun l h c t s).tb = s.tb := by
  unfold answerRun
  repeat' split
  all_goals simp
@[simp] theorem answerRun_bat (l : LineNo) (h : RingPhase) (c : MeasClass) (t : Time) (s : State) : (answerRun l h c t s).bat = s.bat := by
  unfold answerRun
  repeat' split
  all_goals simp
@[simp] theorem answerRun_pending (l : LineNo) (h : RingPhase) (c : MeasClass) (t : Time) (s : State) : (answerRun l h c t s).pending = s.pending := by
  unfold answerRun
  repeat' split
  all_goals simp

/-! ### ringMeasurement -/

@[simp] theorem ringMeasurement_store (l : LineNo) (f : FeedMode) (c : MeasClass) (t : Time) (s : State) : (ringMeasurement l f c t s).store = s.store := by
  unfold ringMeasurement
  split <;> simp
@[simp] theorem ringMeasurement_scan (l : LineNo) (f : FeedMode) (c : MeasClass) (t : Time) (s : State) : (ringMeasurement l f c t s).scan = s.scan := by
  unfold ringMeasurement
  split <;> simp
@[simp] theorem ringMeasurement_sweep (l : LineNo) (f : FeedMode) (c : MeasClass) (t : Time) (s : State) : (ringMeasurement l f c t s).sweep = s.sweep := by
  unfold ringMeasurement
  split <;> simp
@[simp] theorem ringMeasurement_test (l : LineNo) (f : FeedMode) (c : MeasClass) (t : Time) (s : State) : (ringMeasurement l f c t s).test = s.test := by
  unfold ringMeasurement
  split <;> simp
@[simp] theorem ringMeasurement_tb (l : LineNo) (f : FeedMode) (c : MeasClass) (t : Time) (s : State) : (ringMeasurement l f c t s).tb = s.tb := by
  unfold ringMeasurement
  split <;> simp
@[simp] theorem ringMeasurement_bat (l : LineNo) (f : FeedMode) (c : MeasClass) (t : Time) (s : State) : (ringMeasurement l f c t s).bat = s.bat := by
  unfold ringMeasurement
  split <;> simp
@[simp] theorem ringMeasurement_pending (l : LineNo) (f : FeedMode) (c : MeasClass) (t : Time) (s : State) : (ringMeasurement l f c t s).pending = s.pending := by
  unfold ringMeasurement
  split <;> simp

/-! ### superviseMeasurement -/

@[simp] theorem superviseMeasurement_store (l : LineNo) (f : FeedMode) (c : MeasClass) (t : Time) (s : State) : (superviseMeasurement l f c t s).store = s.store := by
  unfold superviseMeasurement
  split <;> simp
@[simp] theorem superviseMeasurement_scan (l : LineNo) (f : FeedMode) (c : MeasClass) (t : Time) (s : State) : (superviseMeasurement l f c t s).scan = s.scan := by
  unfold superviseMeasurement
  split <;> simp
@[simp] theorem superviseMeasurement_sweep (l : LineNo) (f : FeedMode) (c : MeasClass) (t : Time) (s : State) : (superviseMeasurement l f c t s).sweep = s.sweep := by
  unfold superviseMeasurement
  split <;> simp
@[simp] theorem superviseMeasurement_test (l : LineNo) (f : FeedMode) (c : MeasClass) (t : Time) (s : State) : (superviseMeasurement l f c t s).test = s.test := by
  unfold superviseMeasurement
  split <;> simp
@[simp] theorem superviseMeasurement_tb (l : LineNo) (f : FeedMode) (c : MeasClass) (t : Time) (s : State) : (superviseMeasurement l f c t s).tb = s.tb := by
  unfold superviseMeasurement
  split <;> simp
@[simp] theorem superviseMeasurement_bat (l : LineNo) (f : FeedMode) (c : MeasClass) (t : Time) (s : State) : (superviseMeasurement l f c t s).bat = s.bat := by
  unfold superviseMeasurement
  split <;> simp
@[simp] theorem superviseMeasurement_pending (l : LineNo) (f : FeedMode) (c : MeasClass) (t : Time) (s : State) : (superviseMeasurement l f c t s).pending = s.pending := by
  unfold superviseMeasurement
  split <;> simp

/-! ### learn -/

@[simp] theorem learn_store (l : LineNo) (o : Bool) (im : Int) (s : State) : (learn l o im s).store = s.store := by
  unfold learn
  split <;> simp
@[simp] theorem learn_pool (l : LineNo) (o : Bool) (im : Int) (s : State) : (learn l o im s).pool = s.pool := by
  unfold learn
  split <;> simp
@[simp] theorem learn_scan (l : LineNo) (o : Bool) (im : Int) (s : State) : (learn l o im s).scan = s.scan := by
  unfold learn
  split <;> simp
@[simp] theorem learn_sweep (l : LineNo) (o : Bool) (im : Int) (s : State) : (learn l o im s).sweep = s.sweep := by
  unfold learn
  split <;> simp
@[simp] theorem learn_test (l : LineNo) (o : Bool) (im : Int) (s : State) : (learn l o im s).test = s.test := by
  unfold learn
  split <;> simp
@[simp] theorem learn_tb (l : LineNo) (o : Bool) (im : Int) (s : State) : (learn l o im s).tb = s.tb := by
  unfold learn
  split <;> simp
@[simp] theorem learn_bat (l : LineNo) (o : Bool) (im : Int) (s : State) : (learn l o im s).bat = s.bat := by
  unfold learn
  split <;> simp
@[simp] theorem learn_journal (l : LineNo) (o : Bool) (im : Int) (s : State) : (learn l o im s).journal = s.journal := by
  unfold learn
  split <;> simp
@[simp] theorem learn_portA (l : LineNo) (o : Bool) (im : Int) (s : State) : (learn l o im s).portA = s.portA := by
  unfold learn
  split <;> simp
@[simp] theorem learn_portB (l : LineNo) (o : Bool) (im : Int) (s : State) : (learn l o im s).portB = s.portB := by
  unfold learn
  split <;> simp
@[simp] theorem learn_portT (l : LineNo) (o : Bool) (im : Int) (s : State) : (learn l o im s).portT = s.portT := by
  unfold learn
  split <;> simp
@[simp] theorem learn_link0 (l : LineNo) (o : Bool) (im : Int) (s : State) : (learn l o im s).link0 = s.link0 := by
  unfold learn
  split <;> simp
@[simp] theorem learn_link1 (l : LineNo) (o : Bool) (im : Int) (s : State) : (learn l o im s).link1 = s.link1 := by
  unfold learn
  split <;> simp
@[simp] theorem learn_pending (l : LineNo) (o : Bool) (im : Int) (s : State) : (learn l o im s).pending = s.pending := by
  unfold learn
  split <;> simp

/-! ### endTurn -/

@[simp] theorem endTurn_lines (n : SweepNo) (s : State) : (endTurn n s).lines = s.lines := rfl
@[simp] theorem endTurn_store (n : SweepNo) (s : State) : (endTurn n s).store = s.store := rfl
@[simp] theorem endTurn_pool (n : SweepNo) (s : State) : (endTurn n s).pool = s.pool := rfl
@[simp] theorem endTurn_scan (n : SweepNo) (s : State) : (endTurn n s).scan = s.scan := rfl
@[simp] theorem endTurn_test (n : SweepNo) (s : State) : (endTurn n s).test = s.test := rfl
@[simp] theorem endTurn_tb (n : SweepNo) (s : State) : (endTurn n s).tb = s.tb := rfl
@[simp] theorem endTurn_bat (n : SweepNo) (s : State) : (endTurn n s).bat = s.bat := rfl
@[simp] theorem endTurn_journal (n : SweepNo) (s : State) : (endTurn n s).journal = s.journal := rfl
@[simp] theorem endTurn_portA (n : SweepNo) (s : State) : (endTurn n s).portA = s.portA := rfl
@[simp] theorem endTurn_portB (n : SweepNo) (s : State) : (endTurn n s).portB = s.portB := rfl
@[simp] theorem endTurn_portT (n : SweepNo) (s : State) : (endTurn n s).portT = s.portT := rfl
@[simp] theorem endTurn_link0 (n : SweepNo) (s : State) : (endTurn n s).link0 = s.link0 := rfl
@[simp] theorem endTurn_link1 (n : SweepNo) (s : State) : (endTurn n s).link1 = s.link1 := rfl
@[simp] theorem endTurn_pending (n : SweepNo) (s : State) : (endTurn n s).pending = s.pending := rfl

/-! ### endTurnOf -/

@[simp] theorem endTurnOf_lines (n : SweepNo) (s : State) : (endTurnOf n s).lines = s.lines := by
  unfold endTurnOf
  split <;> simp
@[simp] theorem endTurnOf_store (n : SweepNo) (s : State) : (endTurnOf n s).store = s.store := by
  unfold endTurnOf
  split <;> simp
@[simp] theorem endTurnOf_pool (n : SweepNo) (s : State) : (endTurnOf n s).pool = s.pool := by
  unfold endTurnOf
  split <;> simp
@[simp] theorem endTurnOf_scan (n : SweepNo) (s : State) : (endTurnOf n s).scan = s.scan := by
  unfold endTurnOf
  split <;> simp
@[simp] theorem endTurnOf_test (n : SweepNo) (s : State) : (endTurnOf n s).test = s.test := by
  unfold endTurnOf
  split <;> simp
@[simp] theorem endTurnOf_tb (n : SweepNo) (s : State) : (endTurnOf n s).tb = s.tb := by
  unfold endTurnOf
  split <;> simp
@[simp] theorem endTurnOf_bat (n : SweepNo) (s : State) : (endTurnOf n s).bat = s.bat := by
  unfold endTurnOf
  split <;> simp
@[simp] theorem endTurnOf_journal (n : SweepNo) (s : State) : (endTurnOf n s).journal = s.journal := by
  unfold endTurnOf
  split <;> simp
@[simp] theorem endTurnOf_portA (n : SweepNo) (s : State) : (endTurnOf n s).portA = s.portA := by
  unfold endTurnOf
  split <;> simp
@[simp] theorem endTurnOf_portB (n : SweepNo) (s : State) : (endTurnOf n s).portB = s.portB := by
  unfold endTurnOf
  split <;> simp
@[simp] theorem endTurnOf_portT (n : SweepNo) (s : State) : (endTurnOf n s).portT = s.portT := by
  unfold endTurnOf
  split <;> simp
@[simp] theorem endTurnOf_link0 (n : SweepNo) (s : State) : (endTurnOf n s).link0 = s.link0 := by
  unfold endTurnOf
  split <;> simp
@[simp] theorem endTurnOf_link1 (n : SweepNo) (s : State) : (endTurnOf n s).link1 = s.link1 := by
  unfold endTurnOf
  split <;> simp
@[simp] theorem endTurnOf_pending (n : SweepNo) (s : State) : (endTurnOf n s).pending = s.pending := by
  unfold endTurnOf
  split <;> simp

/-! ### beginTurn -/

@[simp] theorem beginTurn_lines (n : SweepNo) (s : State) : (beginTurn n s).lines = s.lines := rfl
@[simp] theorem beginTurn_store (n : SweepNo) (s : State) : (beginTurn n s).store = s.store := rfl
@[simp] theorem beginTurn_pool (n : SweepNo) (s : State) : (beginTurn n s).pool = s.pool := rfl
@[simp] theorem beginTurn_scan (n : SweepNo) (s : State) : (beginTurn n s).scan = s.scan := rfl
@[simp] theorem beginTurn_test (n : SweepNo) (s : State) : (beginTurn n s).test = s.test := rfl
@[simp] theorem beginTurn_tb (n : SweepNo) (s : State) : (beginTurn n s).tb = s.tb := rfl
@[simp] theorem beginTurn_bat (n : SweepNo) (s : State) : (beginTurn n s).bat = s.bat := rfl
@[simp] theorem beginTurn_journal (n : SweepNo) (s : State) : (beginTurn n s).journal = s.journal := rfl
@[simp] theorem beginTurn_portA (n : SweepNo) (s : State) : (beginTurn n s).portA = s.portA := rfl
@[simp] theorem beginTurn_portB (n : SweepNo) (s : State) : (beginTurn n s).portB = s.portB := rfl
@[simp] theorem beginTurn_portT (n : SweepNo) (s : State) : (beginTurn n s).portT = s.portT := rfl
@[simp] theorem beginTurn_link0 (n : SweepNo) (s : State) : (beginTurn n s).link0 = s.link0 := rfl
@[simp] theorem beginTurn_link1 (n : SweepNo) (s : State) : (beginTurn n s).link1 = s.link1 := rfl
@[simp] theorem beginTurn_pending (n : SweepNo) (s : State) : (beginTurn n s).pending = s.pending := rfl

/-! ### useVisit -/

@[simp] theorem useVisit_lines (n : SweepNo) (s : State) : (useVisit n s).lines = s.lines := by
  unfold useVisit
  dsimp only
  split <;> simp
@[simp] theorem useVisit_store (n : SweepNo) (s : State) : (useVisit n s).store = s.store := by
  unfold useVisit
  dsimp only
  split <;> simp
@[simp] theorem useVisit_pool (n : SweepNo) (s : State) : (useVisit n s).pool = s.pool := by
  unfold useVisit
  dsimp only
  split <;> simp
@[simp] theorem useVisit_scan (n : SweepNo) (s : State) : (useVisit n s).scan = s.scan := by
  unfold useVisit
  dsimp only
  split <;> simp
@[simp] theorem useVisit_test (n : SweepNo) (s : State) : (useVisit n s).test = s.test := by
  unfold useVisit
  dsimp only
  split <;> simp
@[simp] theorem useVisit_tb (n : SweepNo) (s : State) : (useVisit n s).tb = s.tb := by
  unfold useVisit
  dsimp only
  split <;> simp
@[simp] theorem useVisit_bat (n : SweepNo) (s : State) : (useVisit n s).bat = s.bat := by
  unfold useVisit
  dsimp only
  split <;> simp
@[simp] theorem useVisit_journal (n : SweepNo) (s : State) : (useVisit n s).journal = s.journal := by
  unfold useVisit
  dsimp only
  split <;> simp
@[simp] theorem useVisit_portA (n : SweepNo) (s : State) : (useVisit n s).portA = s.portA := by
  unfold useVisit
  dsimp only
  split <;> simp
@[simp] theorem useVisit_portB (n : SweepNo) (s : State) : (useVisit n s).portB = s.portB := by
  unfold useVisit
  dsimp only
  split <;> simp
@[simp] theorem useVisit_portT (n : SweepNo) (s : State) : (useVisit n s).portT = s.portT := by
  unfold useVisit
  dsimp only
  split <;> simp
@[simp] theorem useVisit_link0 (n : SweepNo) (s : State) : (useVisit n s).link0 = s.link0 := by
  unfold useVisit
  dsimp only
  split <;> simp
@[simp] theorem useVisit_link1 (n : SweepNo) (s : State) : (useVisit n s).link1 = s.link1 := by
  unfold useVisit
  dsimp only
  split <;> simp
@[simp] theorem useVisit_pending (n : SweepNo) (s : State) : (useVisit n s).pending = s.pending := by
  unfold useVisit
  dsimp only
  split <;> simp

/-! ### skipVisit -/

@[simp] theorem skipVisit_lines (n : SweepNo) (s : State) : (skipVisit n s).lines = s.lines := by simp [skipVisit]
@[simp] theorem skipVisit_store (n : SweepNo) (s : State) : (skipVisit n s).store = s.store := by simp [skipVisit]
@[simp] theorem skipVisit_pool (n : SweepNo) (s : State) : (skipVisit n s).pool = s.pool := by simp [skipVisit]
@[simp] theorem skipVisit_scan (n : SweepNo) (s : State) : (skipVisit n s).scan = s.scan := by simp [skipVisit]
@[simp] theorem skipVisit_test (n : SweepNo) (s : State) : (skipVisit n s).test = s.test := by simp [skipVisit]
@[simp] theorem skipVisit_tb (n : SweepNo) (s : State) : (skipVisit n s).tb = s.tb := by simp [skipVisit]
@[simp] theorem skipVisit_bat (n : SweepNo) (s : State) : (skipVisit n s).bat = s.bat := by simp [skipVisit]
@[simp] theorem skipVisit_journal (n : SweepNo) (s : State) : (skipVisit n s).journal = s.journal := by simp [skipVisit]
@[simp] theorem skipVisit_portA (n : SweepNo) (s : State) : (skipVisit n s).portA = s.portA := by simp [skipVisit]
@[simp] theorem skipVisit_portB (n : SweepNo) (s : State) : (skipVisit n s).portB = s.portB := by simp [skipVisit]
@[simp] theorem skipVisit_portT (n : SweepNo) (s : State) : (skipVisit n s).portT = s.portT := by simp [skipVisit]
@[simp] theorem skipVisit_link0 (n : SweepNo) (s : State) : (skipVisit n s).link0 = s.link0 := by simp [skipVisit]
@[simp] theorem skipVisit_link1 (n : SweepNo) (s : State) : (skipVisit n s).link1 = s.link1 := by simp [skipVisit]
@[simp] theorem skipVisit_pending (n : SweepNo) (s : State) : (skipVisit n s).pending = s.pending := by simp [skipVisit]

/-! ### withdrawOffer -/

@[simp] theorem withdrawOffer_lines (s : State) : (withdrawOffer s).lines = s.lines := rfl
@[simp] theorem withdrawOffer_store (s : State) : (withdrawOffer s).store = s.store := rfl
@[simp] theorem withdrawOffer_pool (s : State) : (withdrawOffer s).pool = s.pool := rfl
@[simp] theorem withdrawOffer_scan (s : State) : (withdrawOffer s).scan = s.scan := rfl
@[simp] theorem withdrawOffer_test (s : State) : (withdrawOffer s).test = s.test := rfl
@[simp] theorem withdrawOffer_tb (s : State) : (withdrawOffer s).tb = s.tb := rfl
@[simp] theorem withdrawOffer_bat (s : State) : (withdrawOffer s).bat = s.bat := rfl
@[simp] theorem withdrawOffer_journal (s : State) : (withdrawOffer s).journal = s.journal := rfl
@[simp] theorem withdrawOffer_portA (s : State) : (withdrawOffer s).portA = s.portA := rfl
@[simp] theorem withdrawOffer_portB (s : State) : (withdrawOffer s).portB = s.portB := rfl
@[simp] theorem withdrawOffer_portT (s : State) : (withdrawOffer s).portT = s.portT := rfl
@[simp] theorem withdrawOffer_link0 (s : State) : (withdrawOffer s).link0 = s.link0 := rfl
@[simp] theorem withdrawOffer_link1 (s : State) : (withdrawOffer s).link1 = s.link1 := rfl
@[simp] theorem withdrawOffer_pending (s : State) : (withdrawOffer s).pending = s.pending := rfl

/-! ### issueVisit -/

@[simp] theorem issueVisit_lines (n : SweepNo) (s : State) : (issueVisit n s).lines = s.lines := by simp [issueVisit]
@[simp] theorem issueVisit_store (n : SweepNo) (s : State) : (issueVisit n s).store = s.store := by simp [issueVisit]
@[simp] theorem issueVisit_pool (n : SweepNo) (s : State) : (issueVisit n s).pool = s.pool := by simp [issueVisit]
@[simp] theorem issueVisit_scan (n : SweepNo) (s : State) : (issueVisit n s).scan = s.scan := by simp [issueVisit]
@[simp] theorem issueVisit_test (n : SweepNo) (s : State) : (issueVisit n s).test = s.test := by simp [issueVisit]
@[simp] theorem issueVisit_tb (n : SweepNo) (s : State) : (issueVisit n s).tb = s.tb := by simp [issueVisit]
@[simp] theorem issueVisit_bat (n : SweepNo) (s : State) : (issueVisit n s).bat = s.bat := by simp [issueVisit]
@[simp] theorem issueVisit_journal (n : SweepNo) (s : State) : (issueVisit n s).journal = s.journal := by simp [issueVisit]
@[simp] theorem issueVisit_portA (n : SweepNo) (s : State) : (issueVisit n s).portA = s.portA := by simp [issueVisit]
@[simp] theorem issueVisit_portB (n : SweepNo) (s : State) : (issueVisit n s).portB = s.portB := by simp [issueVisit]
@[simp] theorem issueVisit_portT (n : SweepNo) (s : State) : (issueVisit n s).portT = s.portT := by simp [issueVisit]
@[simp] theorem issueVisit_link0 (n : SweepNo) (s : State) : (issueVisit n s).link0 = s.link0 := by simp [issueVisit]
@[simp] theorem issueVisit_link1 (n : SweepNo) (s : State) : (issueVisit n s).link1 = s.link1 := by simp [issueVisit]
@[simp] theorem issueVisit_pending (n : SweepNo) (s : State) : (issueVisit n s).pending = s.pending := by simp [issueVisit]

/-! ### tallyItem -/

@[simp] theorem tallyItem_lines (n : SweepNo) (s : State) : (tallyItem n s).lines = s.lines := rfl
@[simp] theorem tallyItem_store (n : SweepNo) (s : State) : (tallyItem n s).store = s.store := rfl
@[simp] theorem tallyItem_pool (n : SweepNo) (s : State) : (tallyItem n s).pool = s.pool := rfl
@[simp] theorem tallyItem_scan (n : SweepNo) (s : State) : (tallyItem n s).scan = s.scan := rfl
@[simp] theorem tallyItem_test (n : SweepNo) (s : State) : (tallyItem n s).test = s.test := rfl
@[simp] theorem tallyItem_tb (n : SweepNo) (s : State) : (tallyItem n s).tb = s.tb := rfl
@[simp] theorem tallyItem_bat (n : SweepNo) (s : State) : (tallyItem n s).bat = s.bat := rfl
@[simp] theorem tallyItem_journal (n : SweepNo) (s : State) : (tallyItem n s).journal = s.journal := rfl
@[simp] theorem tallyItem_portA (n : SweepNo) (s : State) : (tallyItem n s).portA = s.portA := rfl
@[simp] theorem tallyItem_portB (n : SweepNo) (s : State) : (tallyItem n s).portB = s.portB := rfl
@[simp] theorem tallyItem_portT (n : SweepNo) (s : State) : (tallyItem n s).portT = s.portT := rfl
@[simp] theorem tallyItem_link0 (n : SweepNo) (s : State) : (tallyItem n s).link0 = s.link0 := rfl
@[simp] theorem tallyItem_link1 (n : SweepNo) (s : State) : (tallyItem n s).link1 = s.link1 := rfl
@[simp] theorem tallyItem_pending (n : SweepNo) (s : State) : (tallyItem n s).pending = s.pending := rfl

/-! ### endPass -/

@[simp] theorem endPass_lines (n : SweepNo) (s : State) : (endPass n s).lines = s.lines := by simp [endPass]
@[simp] theorem endPass_store (n : SweepNo) (s : State) : (endPass n s).store = s.store := by simp [endPass]
@[simp] theorem endPass_pool (n : SweepNo) (s : State) : (endPass n s).pool = s.pool := by simp [endPass]
@[simp] theorem endPass_scan (n : SweepNo) (s : State) : (endPass n s).scan = s.scan := by simp [endPass]
@[simp] theorem endPass_test (n : SweepNo) (s : State) : (endPass n s).test = s.test := by simp [endPass]
@[simp] theorem endPass_tb (n : SweepNo) (s : State) : (endPass n s).tb = s.tb := by simp [endPass]
@[simp] theorem endPass_bat (n : SweepNo) (s : State) : (endPass n s).bat = s.bat := by simp [endPass]
@[simp] theorem endPass_link0 (n : SweepNo) (s : State) : (endPass n s).link0 = s.link0 := by simp [endPass]
@[simp] theorem endPass_link1 (n : SweepNo) (s : State) : (endPass n s).link1 = s.link1 := by simp [endPass]
@[simp] theorem endPass_pending (n : SweepNo) (s : State) : (endPass n s).pending = s.pending := by simp [endPass]

/-! ### pauseSweep -/

@[simp] theorem pauseSweep_lines (n : SweepNo) (s : State) : (pauseSweep n s).lines = s.lines := by
  unfold pauseSweep
  repeat' split
  all_goals simp
@[simp] theorem pauseSweep_store (n : SweepNo) (s : State) : (pauseSweep n s).store = s.store := by
  unfold pauseSweep
  repeat' split
  all_goals simp
@[simp] theorem pauseSweep_pool (n : SweepNo) (s : State) : (pauseSweep n s).pool = s.pool := by
  unfold pauseSweep
  repeat' split
  all_goals simp
@[simp] theorem pauseSweep_scan (n : SweepNo) (s : State) : (pauseSweep n s).scan = s.scan := by
  unfold pauseSweep
  repeat' split
  all_goals simp
@[simp] theorem pauseSweep_test (n : SweepNo) (s : State) : (pauseSweep n s).test = s.test := by
  unfold pauseSweep
  repeat' split
  all_goals simp
@[simp] theorem pauseSweep_tb (n : SweepNo) (s : State) : (pauseSweep n s).tb = s.tb := by
  unfold pauseSweep
  repeat' split
  all_goals simp
@[simp] theorem pauseSweep_bat (n : SweepNo) (s : State) : (pauseSweep n s).bat = s.bat := by
  unfold pauseSweep
  repeat' split
  all_goals simp
@[simp] theorem pauseSweep_journal (n : SweepNo) (s : State) : (pauseSweep n s).journal = s.journal := by
  unfold pauseSweep
  repeat' split
  all_goals simp
@[simp] theorem pauseSweep_portA (n : SweepNo) (s : State) : (pauseSweep n s).portA = s.portA := by
  unfold pauseSweep
  repeat' split
  all_goals simp
@[simp] theorem pauseSweep_portB (n : SweepNo) (s : State) : (pauseSweep n s).portB = s.portB := by
  unfold pauseSweep
  repeat' split
  all_goals simp
@[simp] theorem pauseSweep_portT (n : SweepNo) (s : State) : (pauseSweep n s).portT = s.portT := by
  unfold pauseSweep
  repeat' split
  all_goals simp
@[simp] theorem pauseSweep_link0 (n : SweepNo) (s : State) : (pauseSweep n s).link0 = s.link0 := by
  unfold pauseSweep
  repeat' split
  all_goals simp
@[simp] theorem pauseSweep_link1 (n : SweepNo) (s : State) : (pauseSweep n s).link1 = s.link1 := by
  unfold pauseSweep
  repeat' split
  all_goals simp
@[simp] theorem pauseSweep_pending (n : SweepNo) (s : State) : (pauseSweep n s).pending = s.pending := by
  unfold pauseSweep
  repeat' split
  all_goals simp

/-! ### resumeSweep -/

@[simp] theorem resumeSweep_lines (n : SweepNo) (s : State) : (resumeSweep n s).lines = s.lines := by
  unfold resumeSweep
  split <;> simp
@[simp] theorem resumeSweep_store (n : SweepNo) (s : State) : (resumeSweep n s).store = s.store := by
  unfold resumeSweep
  split <;> simp
@[simp] theorem resumeSweep_pool (n : SweepNo) (s : State) : (resumeSweep n s).pool = s.pool := by
  unfold resumeSweep
  split <;> simp
@[simp] theorem resumeSweep_scan (n : SweepNo) (s : State) : (resumeSweep n s).scan = s.scan := by
  unfold resumeSweep
  split <;> simp
@[simp] theorem resumeSweep_test (n : SweepNo) (s : State) : (resumeSweep n s).test = s.test := by
  unfold resumeSweep
  split <;> simp
@[simp] theorem resumeSweep_tb (n : SweepNo) (s : State) : (resumeSweep n s).tb = s.tb := by
  unfold resumeSweep
  split <;> simp
@[simp] theorem resumeSweep_bat (n : SweepNo) (s : State) : (resumeSweep n s).bat = s.bat := by
  unfold resumeSweep
  split <;> simp
@[simp] theorem resumeSweep_journal (n : SweepNo) (s : State) : (resumeSweep n s).journal = s.journal := by
  unfold resumeSweep
  split <;> simp
@[simp] theorem resumeSweep_portA (n : SweepNo) (s : State) : (resumeSweep n s).portA = s.portA := by
  unfold resumeSweep
  split <;> simp
@[simp] theorem resumeSweep_portB (n : SweepNo) (s : State) : (resumeSweep n s).portB = s.portB := by
  unfold resumeSweep
  split <;> simp
@[simp] theorem resumeSweep_portT (n : SweepNo) (s : State) : (resumeSweep n s).portT = s.portT := by
  unfold resumeSweep
  split <;> simp
@[simp] theorem resumeSweep_link0 (n : SweepNo) (s : State) : (resumeSweep n s).link0 = s.link0 := by
  unfold resumeSweep
  split <;> simp
@[simp] theorem resumeSweep_link1 (n : SweepNo) (s : State) : (resumeSweep n s).link1 = s.link1 := by
  unfold resumeSweep
  split <;> simp
@[simp] theorem resumeSweep_pending (n : SweepNo) (s : State) : (resumeSweep n s).pending = s.pending := by
  unfold resumeSweep
  split <;> simp

/-! ### startSweep -/

@[simp] theorem startSweep_lines (n : SweepNo) (r : Bool) (s : State) : (startSweep n r s).lines = s.lines := rfl
@[simp] theorem startSweep_store (n : SweepNo) (r : Bool) (s : State) : (startSweep n r s).store = s.store := rfl
@[simp] theorem startSweep_pool (n : SweepNo) (r : Bool) (s : State) : (startSweep n r s).pool = s.pool := rfl
@[simp] theorem startSweep_scan (n : SweepNo) (r : Bool) (s : State) : (startSweep n r s).scan = s.scan := rfl
@[simp] theorem startSweep_test (n : SweepNo) (r : Bool) (s : State) : (startSweep n r s).test = s.test := rfl
@[simp] theorem startSweep_tb (n : SweepNo) (r : Bool) (s : State) : (startSweep n r s).tb = s.tb := rfl
@[simp] theorem startSweep_bat (n : SweepNo) (r : Bool) (s : State) : (startSweep n r s).bat = s.bat := rfl
@[simp] theorem startSweep_journal (n : SweepNo) (r : Bool) (s : State) : (startSweep n r s).journal = s.journal := rfl
@[simp] theorem startSweep_portA (n : SweepNo) (r : Bool) (s : State) : (startSweep n r s).portA = s.portA := rfl
@[simp] theorem startSweep_portB (n : SweepNo) (r : Bool) (s : State) : (startSweep n r s).portB = s.portB := rfl
@[simp] theorem startSweep_portT (n : SweepNo) (r : Bool) (s : State) : (startSweep n r s).portT = s.portT := rfl
@[simp] theorem startSweep_link0 (n : SweepNo) (r : Bool) (s : State) : (startSweep n r s).link0 = s.link0 := rfl
@[simp] theorem startSweep_link1 (n : SweepNo) (r : Bool) (s : State) : (startSweep n r s).link1 = s.link1 := rfl
@[simp] theorem startSweep_pending (n : SweepNo) (r : Bool) (s : State) : (startSweep n r s).pending = s.pending := rfl

/-! ### recordOut -/

@[simp] theorem recordOut_lines (p : Port) (n : Nat) (s : State) : (recordOut p n s).lines = s.lines := by simp [recordOut]
@[simp] theorem recordOut_store (p : Port) (n : Nat) (s : State) : (recordOut p n s).store = s.store := by simp [recordOut]
@[simp] theorem recordOut_pool (p : Port) (n : Nat) (s : State) : (recordOut p n s).pool = s.pool := by simp [recordOut]
@[simp] theorem recordOut_scan (p : Port) (n : Nat) (s : State) : (recordOut p n s).scan = s.scan := by simp [recordOut]
@[simp] theorem recordOut_sweep (p : Port) (n : Nat) (s : State) : (recordOut p n s).sweep = s.sweep := by simp [recordOut]
@[simp] theorem recordOut_test (p : Port) (n : Nat) (s : State) : (recordOut p n s).test = s.test := by simp [recordOut]
@[simp] theorem recordOut_tb (p : Port) (n : Nat) (s : State) : (recordOut p n s).tb = s.tb := by simp [recordOut]
@[simp] theorem recordOut_bat (p : Port) (n : Nat) (s : State) : (recordOut p n s).bat = s.bat := by simp [recordOut]
@[simp] theorem recordOut_journal (p : Port) (n : Nat) (s : State) : (recordOut p n s).journal = s.journal := by simp [recordOut]
@[simp] theorem recordOut_link0 (p : Port) (n : Nat) (s : State) : (recordOut p n s).link0 = s.link0 := by simp [recordOut]
@[simp] theorem recordOut_link1 (p : Port) (n : Nat) (s : State) : (recordOut p n s).link1 = s.link1 := by simp [recordOut]
@[simp] theorem recordOut_pending (p : Port) (n : Nat) (s : State) : (recordOut p n s).pending = s.pending := by simp [recordOut]

/-! ### respond -/

@[simp] theorem respond_lines (p : Port) (c : Byte) (x : Status) (y : List Byte) (s : State) : (respond p c x y s).lines = s.lines := by simp [respond]
@[simp] theorem respond_store (p : Port) (c : Byte) (x : Status) (y : List Byte) (s : State) : (respond p c x y s).store = s.store := by simp [respond]
@[simp] theorem respond_pool (p : Port) (c : Byte) (x : Status) (y : List Byte) (s : State) : (respond p c x y s).pool = s.pool := by simp [respond]
@[simp] theorem respond_scan (p : Port) (c : Byte) (x : Status) (y : List Byte) (s : State) : (respond p c x y s).scan = s.scan := by simp [respond]
@[simp] theorem respond_sweep (p : Port) (c : Byte) (x : Status) (y : List Byte) (s : State) : (respond p c x y s).sweep = s.sweep := by simp [respond]
@[simp] theorem respond_test (p : Port) (c : Byte) (x : Status) (y : List Byte) (s : State) : (respond p c x y s).test = s.test := by simp [respond]
@[simp] theorem respond_tb (p : Port) (c : Byte) (x : Status) (y : List Byte) (s : State) : (respond p c x y s).tb = s.tb := by simp [respond]
@[simp] theorem respond_bat (p : Port) (c : Byte) (x : Status) (y : List Byte) (s : State) : (respond p c x y s).bat = s.bat := by simp [respond]
@[simp] theorem respond_journal (p : Port) (c : Byte) (x : Status) (y : List Byte) (s : State) : (respond p c x y s).journal = s.journal := by simp [respond]
@[simp] theorem respond_link0 (p : Port) (c : Byte) (x : Status) (y : List Byte) (s : State) : (respond p c x y s).link0 = s.link0 := by simp [respond]
@[simp] theorem respond_link1 (p : Port) (c : Byte) (x : Status) (y : List Byte) (s : State) : (respond p c x y s).link1 = s.link1 := by simp [respond]
@[simp] theorem respond_pending (p : Port) (c : Byte) (x : Status) (y : List Byte) (s : State) : (respond p c x y s).pending = s.pending := by simp [respond]

/-! ### dropItems -/

@[simp] theorem dropItems_lines (l : LineNo) (s : State) : (dropItems l s).lines = s.lines := rfl
@[simp] theorem dropItems_store (l : LineNo) (s : State) : (dropItems l s).store = s.store := rfl
@[simp] theorem dropItems_pool (l : LineNo) (s : State) : (dropItems l s).pool = s.pool := rfl
@[simp] theorem dropItems_sweep (l : LineNo) (s : State) : (dropItems l s).sweep = s.sweep := rfl
@[simp] theorem dropItems_tb (l : LineNo) (s : State) : (dropItems l s).tb = s.tb := rfl
@[simp] theorem dropItems_bat (l : LineNo) (s : State) : (dropItems l s).bat = s.bat := rfl
@[simp] theorem dropItems_journal (l : LineNo) (s : State) : (dropItems l s).journal = s.journal := rfl
@[simp] theorem dropItems_portA (l : LineNo) (s : State) : (dropItems l s).portA = s.portA := rfl
@[simp] theorem dropItems_portB (l : LineNo) (s : State) : (dropItems l s).portB = s.portB := rfl
@[simp] theorem dropItems_portT (l : LineNo) (s : State) : (dropItems l s).portT = s.portT := rfl
@[simp] theorem dropItems_link0 (l : LineNo) (s : State) : (dropItems l s).link0 = s.link0 := rfl
@[simp] theorem dropItems_link1 (l : LineNo) (s : State) : (dropItems l s).link1 = s.link1 := rfl
@[simp] theorem dropItems_pending (l : LineNo) (s : State) : (dropItems l s).pending = s.pending := rfl

/-! ### freeSlotOf -/

@[simp] theorem freeSlotOf_lines (l : LineNo) (s : State) : (freeSlotOf l s).lines = s.lines := by
  unfold freeSlotOf
  split <;> simp
@[simp] theorem freeSlotOf_store (l : LineNo) (s : State) : (freeSlotOf l s).store = s.store := by
  unfold freeSlotOf
  split <;> simp
@[simp] theorem freeSlotOf_pool (l : LineNo) (s : State) : (freeSlotOf l s).pool = s.pool := by
  unfold freeSlotOf
  split <;> simp
@[simp] theorem freeSlotOf_scan (l : LineNo) (s : State) : (freeSlotOf l s).scan = s.scan := by
  unfold freeSlotOf
  split <;> simp
@[simp] theorem freeSlotOf_sweep (l : LineNo) (s : State) : (freeSlotOf l s).sweep = s.sweep := by
  unfold freeSlotOf
  split <;> simp
@[simp] theorem freeSlotOf_tb (l : LineNo) (s : State) : (freeSlotOf l s).tb = s.tb := by
  unfold freeSlotOf
  split <;> simp
@[simp] theorem freeSlotOf_bat (l : LineNo) (s : State) : (freeSlotOf l s).bat = s.bat := by
  unfold freeSlotOf
  split <;> simp
@[simp] theorem freeSlotOf_journal (l : LineNo) (s : State) : (freeSlotOf l s).journal = s.journal := by
  unfold freeSlotOf
  split <;> simp
@[simp] theorem freeSlotOf_portA (l : LineNo) (s : State) : (freeSlotOf l s).portA = s.portA := by
  unfold freeSlotOf
  split <;> simp
@[simp] theorem freeSlotOf_portB (l : LineNo) (s : State) : (freeSlotOf l s).portB = s.portB := by
  unfold freeSlotOf
  split <;> simp
@[simp] theorem freeSlotOf_portT (l : LineNo) (s : State) : (freeSlotOf l s).portT = s.portT := by
  unfold freeSlotOf
  split <;> simp
@[simp] theorem freeSlotOf_link0 (l : LineNo) (s : State) : (freeSlotOf l s).link0 = s.link0 := by
  unfold freeSlotOf
  split <;> simp
@[simp] theorem freeSlotOf_link1 (l : LineNo) (s : State) : (freeSlotOf l s).link1 = s.link1 := by
  unfold freeSlotOf
  split <;> simp
@[simp] theorem freeSlotOf_pending (l : LineNo) (s : State) : (freeSlotOf l s).pending = s.pending := by
  unfold freeSlotOf
  split <;> simp

/-! ### takeHold -/

@[simp] theorem takeHold_store (l : LineNo) (n : ShadowNo) (f : Bool) (s : State) : (takeHold l n f s).store = s.store := by simp [takeHold]
@[simp] theorem takeHold_scan (l : LineNo) (n : ShadowNo) (f : Bool) (s : State) : (takeHold l n f s).scan = s.scan := by simp [takeHold]
@[simp] theorem takeHold_sweep (l : LineNo) (n : ShadowNo) (f : Bool) (s : State) : (takeHold l n f s).sweep = s.sweep := by simp [takeHold]
@[simp] theorem takeHold_tb (l : LineNo) (n : ShadowNo) (f : Bool) (s : State) : (takeHold l n f s).tb = s.tb := by simp [takeHold]
@[simp] theorem takeHold_bat (l : LineNo) (n : ShadowNo) (f : Bool) (s : State) : (takeHold l n f s).bat = s.bat := by simp [takeHold]
@[simp] theorem takeHold_pending (l : LineNo) (n : ShadowNo) (f : Bool) (s : State) : (takeHold l n f s).pending = s.pending := by simp [takeHold]

/-! ### releaseLine -/

@[simp] theorem releaseLine_store (l : LineNo) (m : ReleaseMode) (y : ReleaseReason) (s : State) : (releaseLine l m y s).store = s.store := by
  unfold releaseLine
  dsimp only
  split <;> simp
@[simp] theorem releaseLine_pool (l : LineNo) (m : ReleaseMode) (y : ReleaseReason) (s : State) : (releaseLine l m y s).pool = s.pool := by
  unfold releaseLine
  dsimp only
  split <;> simp
@[simp] theorem releaseLine_sweep (l : LineNo) (m : ReleaseMode) (y : ReleaseReason) (s : State) : (releaseLine l m y s).sweep = s.sweep := by
  unfold releaseLine
  dsimp only
  split <;> simp
@[simp] theorem releaseLine_tb (l : LineNo) (m : ReleaseMode) (y : ReleaseReason) (s : State) : (releaseLine l m y s).tb = s.tb := by
  unfold releaseLine
  dsimp only
  split <;> simp
@[simp] theorem releaseLine_bat (l : LineNo) (m : ReleaseMode) (y : ReleaseReason) (s : State) : (releaseLine l m y s).bat = s.bat := by
  unfold releaseLine
  dsimp only
  split <;> simp
@[simp] theorem releaseLine_pending (l : LineNo) (m : ReleaseMode) (y : ReleaseReason) (s : State) : (releaseLine l m y s).pending = s.pending := by
  unfold releaseLine
  dsimp only
  split <;> simp

/-! ### leavePort -/

@[simp] theorem leavePort_lines (p : Port) (x : PortState) (y : LapseCause) (s : State) : (leavePort p x y s).lines = s.lines := by simp [leavePort]
@[simp] theorem leavePort_store (p : Port) (x : PortState) (y : LapseCause) (s : State) : (leavePort p x y s).store = s.store := by simp [leavePort]
@[simp] theorem leavePort_pool (p : Port) (x : PortState) (y : LapseCause) (s : State) : (leavePort p x y s).pool = s.pool := by simp [leavePort]
@[simp] theorem leavePort_scan (p : Port) (x : PortState) (y : LapseCause) (s : State) : (leavePort p x y s).scan = s.scan := by simp [leavePort]
@[simp] theorem leavePort_sweep (p : Port) (x : PortState) (y : LapseCause) (s : State) : (leavePort p x y s).sweep = s.sweep := by simp [leavePort]
@[simp] theorem leavePort_test (p : Port) (x : PortState) (y : LapseCause) (s : State) : (leavePort p x y s).test = s.test := by simp [leavePort]
@[simp] theorem leavePort_tb (p : Port) (x : PortState) (y : LapseCause) (s : State) : (leavePort p x y s).tb = s.tb := by simp [leavePort]
@[simp] theorem leavePort_bat (p : Port) (x : PortState) (y : LapseCause) (s : State) : (leavePort p x y s).bat = s.bat := by simp [leavePort]
@[simp] theorem leavePort_link0 (p : Port) (x : PortState) (y : LapseCause) (s : State) : (leavePort p x y s).link0 = s.link0 := by simp [leavePort]
@[simp] theorem leavePort_link1 (p : Port) (x : PortState) (y : LapseCause) (s : State) : (leavePort p x y s).link1 = s.link1 := by simp [leavePort]
@[simp] theorem leavePort_pending (p : Port) (x : PortState) (y : LapseCause) (s : State) : (leavePort p x y s).pending = s.pending := by simp [leavePort]

/-! ### retune -/

@[simp] theorem retune_lines (l : LineNo) (s : State) : (retune l s).lines = s.lines := by
  unfold retune
  split <;> simp
@[simp] theorem retune_store (l : LineNo) (s : State) : (retune l s).store = s.store := by
  unfold retune
  split <;> simp
@[simp] theorem retune_scan (l : LineNo) (s : State) : (retune l s).scan = s.scan := by
  unfold retune
  split <;> simp
@[simp] theorem retune_sweep (l : LineNo) (s : State) : (retune l s).sweep = s.sweep := by
  unfold retune
  split <;> simp
@[simp] theorem retune_test (l : LineNo) (s : State) : (retune l s).test = s.test := by
  unfold retune
  split <;> simp
@[simp] theorem retune_tb (l : LineNo) (s : State) : (retune l s).tb = s.tb := by
  unfold retune
  split <;> simp
@[simp] theorem retune_bat (l : LineNo) (s : State) : (retune l s).bat = s.bat := by
  unfold retune
  split <;> simp
@[simp] theorem retune_journal (l : LineNo) (s : State) : (retune l s).journal = s.journal := by
  unfold retune
  split <;> simp
@[simp] theorem retune_portA (l : LineNo) (s : State) : (retune l s).portA = s.portA := by
  unfold retune
  split <;> simp
@[simp] theorem retune_portB (l : LineNo) (s : State) : (retune l s).portB = s.portB := by
  unfold retune
  split <;> simp
@[simp] theorem retune_portT (l : LineNo) (s : State) : (retune l s).portT = s.portT := by
  unfold retune
  split <;> simp
@[simp] theorem retune_link0 (l : LineNo) (s : State) : (retune l s).link0 = s.link0 := by
  unfold retune
  split <;> simp
@[simp] theorem retune_link1 (l : LineNo) (s : State) : (retune l s).link1 = s.link1 := by
  unfold retune
  split <;> simp
@[simp] theorem retune_pending (l : LineNo) (s : State) : (retune l s).pending = s.pending := by
  unfold retune
  split <;> simp

/-! ### setLaw -/

@[simp] theorem setLaw_lines (w : Law) (s : State) : (setLaw w s).lines = s.lines := by
  unfold setLaw
  split <;> simp
@[simp] theorem setLaw_store (w : Law) (s : State) : (setLaw w s).store = s.store := by
  unfold setLaw
  split <;> simp
@[simp] theorem setLaw_scan (w : Law) (s : State) : (setLaw w s).scan = s.scan := by
  unfold setLaw
  split <;> simp
@[simp] theorem setLaw_sweep (w : Law) (s : State) : (setLaw w s).sweep = s.sweep := by
  unfold setLaw
  split <;> simp
@[simp] theorem setLaw_test (w : Law) (s : State) : (setLaw w s).test = s.test := by
  unfold setLaw
  split <;> simp
@[simp] theorem setLaw_tb (w : Law) (s : State) : (setLaw w s).tb = s.tb := by
  unfold setLaw
  split <;> simp
@[simp] theorem setLaw_bat (w : Law) (s : State) : (setLaw w s).bat = s.bat := by
  unfold setLaw
  split <;> simp
@[simp] theorem setLaw_journal (w : Law) (s : State) : (setLaw w s).journal = s.journal := by
  unfold setLaw
  split <;> simp
@[simp] theorem setLaw_portA (w : Law) (s : State) : (setLaw w s).portA = s.portA := by
  unfold setLaw
  split <;> simp
@[simp] theorem setLaw_portB (w : Law) (s : State) : (setLaw w s).portB = s.portB := by
  unfold setLaw
  split <;> simp
@[simp] theorem setLaw_portT (w : Law) (s : State) : (setLaw w s).portT = s.portT := by
  unfold setLaw
  split <;> simp
@[simp] theorem setLaw_link0 (w : Law) (s : State) : (setLaw w s).link0 = s.link0 := by
  unfold setLaw
  split <;> simp
@[simp] theorem setLaw_link1 (w : Law) (s : State) : (setLaw w s).link1 = s.link1 := by
  unfold setLaw
  split <;> simp
@[simp] theorem setLaw_pending (w : Law) (s : State) : (setLaw w s).pending = s.pending := by
  unfold setLaw
  split <;> simp

end Sys2Proof.Machine
end

