-- ==== Sys2Proof/Laws/Reads.lean ====
section
/-! SUPPORT. Reads through an operation that leaves what they read unchanged, and the ports' fields through a write of the journal. -/

namespace Sys2Proof.Machine

/-! ### setLine -/

@[simp] theorem now_setLine (s : State) (l : LineNo) (r : Line) : (s.setLine l r).now = s.now := by simp [State.now]
@[simp] theorem effectiveNo_setLine (s : State) (l : LineNo) (r : Line) (ln : LineNo) : (s.setLine l r).effectiveNo ln = s.effectiveNo ln := by simp [State.effectiveNo]
@[simp] theorem effective_setLine (s : State) (l : LineNo) (r : Line) (ln : LineNo) : (s.setLine l r).effective ln = s.effective ln := by simp [State.effective, State.effectiveNo]
@[simp] theorem det_setLine (s : State) (l : LineNo) (r : Line) (dn : DetNo) : (s.setLine l r).det dn = s.det dn := by simp [State.det]
@[simp] theorem sw_setLine (s : State) (l : LineNo) (r : Line) (wn : SweepNo) : (s.setLine l r).sw wn = s.sw wn := by simp [State.sw]
@[simp] theorem bankItem_setLine (s : State) (l : LineNo) (r : Line) (bn : Bank) : (s.setLine l r).bankItem bn = s.bankItem bn := by cases bn <;> simp [State.bankItem]
@[simp] theorem port_setLine (s : State) (l : LineNo) (r : Line) (pn : Port) : (s.setLine l r).port pn = s.port pn := by cases pn <;> simp [State.port]

/-! ### modLine -/

@[simp] theorem now_modLine (s : State) (l : LineNo) (f : Line → Line) : (s.modLine l f).now = s.now := by simp [State.now]
@[simp] theorem effectiveNo_modLine (s : State) (l : LineNo) (f : Line → Line) (ln : LineNo) : (s.modLine l f).effectiveNo ln = s.effectiveNo ln := by simp [State.effectiveNo]
@[simp] theorem effective_modLine (s : State) (l : LineNo) (f : Line → Line) (ln : LineNo) : (s.modLine l f).effective ln = s.effective ln := by simp [State.effective, State.effectiveNo]
@[simp] theorem det_modLine (s : State) (l : LineNo) (f : Line → Line) (dn : DetNo) : (s.modLine l f).det dn = s.det dn := by simp [State.det]
@[simp] theorem sw_modLine (s : State) (l : LineNo) (f : Line → Line) (wn : SweepNo) : (s.modLine l f).sw wn = s.sw wn := by simp [State.sw]
@[simp] theorem bankItem_modLine (s : State) (l : LineNo) (f : Line → Line) (bn : Bank) : (s.modLine l f).bankItem bn = s.bankItem bn := by cases bn <;> simp [State.bankItem]
@[simp] theorem port_modLine (s : State) (l : LineNo) (f : Line → Line) (pn : Port) : (s.modLine l f).port pn = s.port pn := by cases pn <;> simp [State.port]

/-! ### setDet -/

@[simp] theorem line_setDet (s : State) (d : DetNo) (r : Detector) (ln : LineNo) : (s.setDet d r).line ln = s.line ln := by simp [State.line]
@[simp] theorem now_setDet (s : State) (d : DetNo) (r : Detector) : (s.setDet d r).now = s.now := by simp [State.now]
@[simp] theorem effectiveNo_setDet (s : State) (d : DetNo) (r : Detector) (ln : LineNo) : (s.setDet d r).effectiveNo ln = s.effectiveNo ln := by simp [State.effectiveNo]
@[simp] theorem effective_setDet (s : State) (d : DetNo) (r : Detector) (ln : LineNo) : (s.setDet d r).effective ln = s.effective ln := by simp [State.effective, State.effectiveNo]
@[simp] theorem sw_setDet (s : State) (d : DetNo) (r : Detector) (wn : SweepNo) : (s.setDet d r).sw wn = s.sw wn := by simp [State.sw]
@[simp] theorem bankItem_setDet (s : State) (d : DetNo) (r : Detector) (bn : Bank) : (s.setDet d r).bankItem bn = s.bankItem bn := by cases bn <;> simp [State.bankItem]
@[simp] theorem port_setDet (s : State) (d : DetNo) (r : Detector) (pn : Port) : (s.setDet d r).port pn = s.port pn := by cases pn <;> simp [State.port]

/-! ### setQueue -/

@[simp] theorem line_setQueue (s : State) (q : List LineNo) (ln : LineNo) : (s.setQueue q).line ln = s.line ln := by simp [State.line]
@[simp] theorem now_setQueue (s : State) (q : List LineNo) : (s.setQueue q).now = s.now := by simp [State.now]
@[simp] theorem effectiveNo_setQueue (s : State) (q : List LineNo) (ln : LineNo) : (s.setQueue q).effectiveNo ln = s.effectiveNo ln := by simp [State.effectiveNo]
@[simp] theorem effective_setQueue (s : State) (q : List LineNo) (ln : LineNo) : (s.setQueue q).effective ln = s.effective ln := by simp [State.effective, State.effectiveNo]
@[simp] theorem sw_setQueue (s : State) (q : List LineNo) (wn : SweepNo) : (s.setQueue q).sw wn = s.sw wn := by simp [State.sw]
@[simp] theorem bankItem_setQueue (s : State) (q : List LineNo) (bn : Bank) : (s.setQueue q).bankItem bn = s.bankItem bn := by cases bn <;> simp [State.bankItem]
@[simp] theorem port_setQueue (s : State) (q : List LineNo) (pn : Port) : (s.setQueue q).port pn = s.port pn := by cases pn <;> simp [State.port]

/-! ### setStatus -/

@[simp] theorem now_setStatus (s : State) (l : LineNo) (d : DetStatus) : (s.setStatus l d).now = s.now := by simp [State.now]
@[simp] theorem effectiveNo_setStatus (s : State) (l : LineNo) (d : DetStatus) (ln : LineNo) : (s.setStatus l d).effectiveNo ln = s.effectiveNo ln := by simp [State.effectiveNo]
@[simp] theorem effective_setStatus (s : State) (l : LineNo) (d : DetStatus) (ln : LineNo) : (s.setStatus l d).effective ln = s.effective ln := by simp [State.effective, State.effectiveNo]
@[simp] theorem det_setStatus (s : State) (l : LineNo) (d : DetStatus) (dn : DetNo) : (s.setStatus l d).det dn = s.det dn := by simp [State.det]
@[simp] theorem sw_setStatus (s : State) (l : LineNo) (d : DetStatus) (wn : SweepNo) : (s.setStatus l d).sw wn = s.sw wn := by simp [State.sw]
@[simp] theorem bankItem_setStatus (s : State) (l : LineNo) (d : DetStatus) (bn : Bank) : (s.setStatus l d).bankItem bn = s.bankItem bn := by cases bn <;> simp [State.bankItem]
@[simp] theorem port_setStatus (s : State) (l : LineNo) (d : DetStatus) (pn : Port) : (s.setStatus l d).port pn = s.port pn := by cases pn <;> simp [State.port]

/-! ### setSw -/

@[simp] theorem line_setSw (s : State) (n : SweepNo) (w : Sweep) (ln : LineNo) : (s.setSw n w).line ln = s.line ln := by simp [State.line]
@[simp] theorem now_setSw (s : State) (n : SweepNo) (w : Sweep) : (s.setSw n w).now = s.now := by simp [State.now]
@[simp] theorem effectiveNo_setSw (s : State) (n : SweepNo) (w : Sweep) (ln : LineNo) : (s.setSw n w).effectiveNo ln = s.effectiveNo ln := by simp [State.effectiveNo]
@[simp] theorem effective_setSw (s : State) (n : SweepNo) (w : Sweep) (ln : LineNo) : (s.setSw n w).effective ln = s.effective ln := by simp [State.effective, State.effectiveNo]
@[simp] theorem det_setSw (s : State) (n : SweepNo) (w : Sweep) (dn : DetNo) : (s.setSw n w).det dn = s.det dn := by simp [State.det]
@[simp] theorem bankItem_setSw (s : State) (n : SweepNo) (w : Sweep) (bn : Bank) : (s.setSw n w).bankItem bn = s.bankItem bn := by cases bn <;> simp [State.bankItem]
@[simp] theorem port_setSw (s : State) (n : SweepNo) (w : Sweep) (pn : Port) : (s.setSw n w).port pn = s.port pn := by cases pn <;> simp [State.port]

/-! ### setShadow -/

@[simp] theorem line_setShadow (s : State) (n : ShadowNo) (v : Option Shadow) (ln : LineNo) : (s.setShadow n v).line ln = s.line ln := by simp [State.line]
@[simp] theorem now_setShadow (s : State) (n : ShadowNo) (v : Option Shadow) : (s.setShadow n v).now = s.now := by simp [State.now]
@[simp] theorem effectiveNo_setShadow (s : State) (n : ShadowNo) (v : Option Shadow) (ln : LineNo) : (s.setShadow n v).effectiveNo ln = s.effectiveNo ln := by simp [State.effectiveNo]
@[simp] theorem effective_setShadow (s : State) (n : ShadowNo) (v : Option Shadow) (ln : LineNo) : (s.setShadow n v).effective ln = s.effective ln := by simp [State.effective, State.effectiveNo]
@[simp] theorem det_setShadow (s : State) (n : ShadowNo) (v : Option Shadow) (dn : DetNo) : (s.setShadow n v).det dn = s.det dn := by simp [State.det]
@[simp] theorem sw_setShadow (s : State) (n : ShadowNo) (v : Option Shadow) (wn : SweepNo) : (s.setShadow n v).sw wn = s.sw wn := by simp [State.sw]
@[simp] theorem bankItem_setShadow (s : State) (n : ShadowNo) (v : Option Shadow) (bn : Bank) : (s.setShadow n v).bankItem bn = s.bankItem bn := by cases bn <;> simp [State.bankItem]
@[simp] theorem port_setShadow (s : State) (n : ShadowNo) (v : Option Shadow) (pn : Port) : (s.setShadow n v).port pn = s.port pn := by cases pn <;> simp [State.port]

/-! ### setTb -/

@[simp] theorem line_setTb (s : State) (tb : TimeBase) (ln : LineNo) : (s.setTb tb).line ln = s.line ln := by simp [State.line]
@[simp] theorem effectiveNo_setTb (s : State) (tb : TimeBase) (ln : LineNo) : (s.setTb tb).effectiveNo ln = s.effectiveNo ln := by simp [State.effectiveNo]
@[simp] theorem effective_setTb (s : State) (tb : TimeBase) (ln : LineNo) : (s.setTb tb).effective ln = s.effective ln := by simp [State.effective, State.effectiveNo]
@[simp] theorem det_setTb (s : State) (tb : TimeBase) (dn : DetNo) : (s.setTb tb).det dn = s.det dn := by simp [State.det]
@[simp] theorem sw_setTb (s : State) (tb : TimeBase) (wn : SweepNo) : (s.setTb tb).sw wn = s.sw wn := by simp [State.sw]
@[simp] theorem bankItem_setTb (s : State) (tb : TimeBase) (bn : Bank) : (s.setTb tb).bankItem bn = s.bankItem bn := by cases bn <;> simp [State.bankItem]
@[simp] theorem port_setTb (s : State) (tb : TimeBase) (pn : Port) : (s.setTb tb).port pn = s.port pn := by cases pn <;> simp [State.port]

/-! ### setTimeslot -/

@[simp] theorem now_setTimeslot (s : State) (l : LineNo) (t : Option Timeslot) : (s.setTimeslot l t).now = s.now := by simp [State.now]
@[simp] theorem effectiveNo_setTimeslot (s : State) (l : LineNo) (t : Option Timeslot) (ln : LineNo) : (s.setTimeslot l t).effectiveNo ln = s.effectiveNo ln := by simp [State.effectiveNo]
@[simp] theorem effective_setTimeslot (s : State) (l : LineNo) (t : Option Timeslot) (ln : LineNo) : (s.setTimeslot l t).effective ln = s.effective ln := by simp [State.effective, State.effectiveNo]
@[simp] theorem det_setTimeslot (s : State) (l : LineNo) (t : Option Timeslot) (dn : DetNo) : (s.setTimeslot l t).det dn = s.det dn := by simp [State.det]
@[simp] theorem sw_setTimeslot (s : State) (l : LineNo) (t : Option Timeslot) (wn : SweepNo) : (s.setTimeslot l t).sw wn = s.sw wn := by simp [State.sw]
@[simp] theorem bankItem_setTimeslot (s : State) (l : LineNo) (t : Option Timeslot) (bn : Bank) : (s.setTimeslot l t).bankItem bn = s.bankItem bn := by cases bn <;> simp [State.bankItem]
@[simp] theorem port_setTimeslot (s : State) (l : LineNo) (t : Option Timeslot) (pn : Port) : (s.setTimeslot l t).port pn = s.port pn := by cases pn <;> simp [State.port]

/-! ### setPort -/

@[simp] theorem line_setPort (s : State) (p : Port) (r : PortRec) (ln : LineNo) : (s.setPort p r).line ln = s.line ln := by simp [State.line]
@[simp] theorem now_setPort (s : State) (p : Port) (r : PortRec) : (s.setPort p r).now = s.now := by simp [State.now]
@[simp] theorem effectiveNo_setPort (s : State) (p : Port) (r : PortRec) (ln : LineNo) : (s.setPort p r).effectiveNo ln = s.effectiveNo ln := by simp [State.effectiveNo]
@[simp] theorem effective_setPort (s : State) (p : Port) (r : PortRec) (ln : LineNo) : (s.setPort p r).effective ln = s.effective ln := by simp [State.effective, State.effectiveNo]
@[simp] theorem det_setPort (s : State) (p : Port) (r : PortRec) (dn : DetNo) : (s.setPort p r).det dn = s.det dn := by simp [State.det]
@[simp] theorem sw_setPort (s : State) (p : Port) (r : PortRec) (wn : SweepNo) : (s.setPort p r).sw wn = s.sw wn := by simp [State.sw]
@[simp] theorem bankItem_setPort (s : State) (p : Port) (r : PortRec) (bn : Bank) : (s.setPort p r).bankItem bn = s.bankItem bn := by cases bn <;> simp [State.bankItem]

/-! ### setBankItem -/

@[simp] theorem line_setBankItem (s : State) (bk : Bank) (i : Option Item) (ln : LineNo) : (s.setBankItem bk i).line ln = s.line ln := by simp [State.line]
@[simp] theorem now_setBankItem (s : State) (bk : Bank) (i : Option Item) : (s.setBankItem bk i).now = s.now := by simp [State.now]
@[simp] theorem effectiveNo_setBankItem (s : State) (bk : Bank) (i : Option Item) (ln : LineNo) : (s.setBankItem bk i).effectiveNo ln = s.effectiveNo ln := by simp [State.effectiveNo]
@[simp] theorem effective_setBankItem (s : State) (bk : Bank) (i : Option Item) (ln : LineNo) : (s.setBankItem bk i).effective ln = s.effective ln := by simp [State.effective, State.effectiveNo]
@[simp] theorem det_setBankItem (s : State) (bk : Bank) (i : Option Item) (dn : DetNo) : (s.setBankItem bk i).det dn = s.det dn := by simp [State.det]
@[simp] theorem sw_setBankItem (s : State) (bk : Bank) (i : Option Item) (wn : SweepNo) : (s.setBankItem bk i).sw wn = s.sw wn := by simp [State.sw]
@[simp] theorem port_setBankItem (s : State) (bk : Bank) (i : Option Item) (pn : Port) : (s.setBankItem bk i).port pn = s.port pn := by cases pn <;> simp [State.port]

/-! ### makeRoom -/

@[simp] theorem line_makeRoom (s : State) (ln : LineNo) : (makeRoom s).line ln = s.line ln := by simp [State.line]
@[simp] theorem now_makeRoom (s : State) : (makeRoom s).now = s.now := by simp [State.now]
@[simp] theorem effectiveNo_makeRoom (s : State) (ln : LineNo) : (makeRoom s).effectiveNo ln = s.effectiveNo ln := by simp [State.effectiveNo]
@[simp] theorem effective_makeRoom (s : State) (ln : LineNo) : (makeRoom s).effective ln = s.effective ln := by simp [State.effective, State.effectiveNo]
@[simp] theorem det_makeRoom (s : State) (dn : DetNo) : (makeRoom s).det dn = s.det dn := by simp [State.det]
@[simp] theorem sw_makeRoom (s : State) (wn : SweepNo) : (makeRoom s).sw wn = s.sw wn := by simp [State.sw]
@[simp] theorem bankItem_makeRoom (s : State) (bn : Bank) : (makeRoom s).bankItem bn = s.bankItem bn := by cases bn <;> simp [State.bankItem]

/-! ### writeEvent -/

@[simp] theorem line_writeEvent (q : PortSet) (l : Option LineNo) (t : Time) (b : EventBody) (s : State) (ln : LineNo) : (writeEvent q l t b s).line ln = s.line ln := by simp [State.line]
@[simp] theorem now_writeEvent (q : PortSet) (l : Option LineNo) (t : Time) (b : EventBody) (s : State) : (writeEvent q l t b s).now = s.now := by simp [State.now]
@[simp] theorem effectiveNo_writeEvent (q : PortSet) (l : Option LineNo) (t : Time) (b : EventBody) (s : State) (ln : LineNo) : (writeEvent q l t b s).effectiveNo ln = s.effectiveNo ln := by simp [State.effectiveNo]
@[simp] theorem effective_writeEvent (q : PortSet) (l : Option LineNo) (t : Time) (b : EventBody) (s : State) (ln : LineNo) : (writeEvent q l t b s).effective ln = s.effective ln := by simp [State.effective, State.effectiveNo]
@[simp] theorem det_writeEvent (q : PortSet) (l : Option LineNo) (t : Time) (b : EventBody) (s : State) (dn : DetNo) : (writeEvent q l t b s).det dn = s.det dn := by simp [State.det]
@[simp] theorem sw_writeEvent (q : PortSet) (l : Option LineNo) (t : Time) (b : EventBody) (s : State) (wn : SweepNo) : (writeEvent q l t b s).sw wn = s.sw wn := by simp [State.sw]
@[simp] theorem bankItem_writeEvent (q : PortSet) (l : Option LineNo) (t : Time) (b : EventBody) (s : State) (bn : Bank) : (writeEvent q l t b s).bankItem bn = s.bankItem bn := by cases bn <;> simp [State.bankItem]

/-! ### lineEvent -/

@[simp] theorem line_lineEvent (l : LineNo) (t : Time) (b : EventBody) (s : State) (ln : LineNo) : (lineEvent l t b s).line ln = s.line ln := by simp [State.line]
@[simp] theorem now_lineEvent (l : LineNo) (t : Time) (b : EventBody) (s : State) : (lineEvent l t b s).now = s.now := by simp [State.now]
@[simp] theorem effectiveNo_lineEvent (l : LineNo) (t : Time) (b : EventBody) (s : State) (ln : LineNo) : (lineEvent l t b s).effectiveNo ln = s.effectiveNo ln := by simp [State.effectiveNo]
@[simp] theorem effective_lineEvent (l : LineNo) (t : Time) (b : EventBody) (s : State) (ln : LineNo) : (lineEvent l t b s).effective ln = s.effective ln := by simp [State.effective, State.effectiveNo]
@[simp] theorem det_lineEvent (l : LineNo) (t : Time) (b : EventBody) (s : State) (dn : DetNo) : (lineEvent l t b s).det dn = s.det dn := by simp [State.det]
@[simp] theorem sw_lineEvent (l : LineNo) (t : Time) (b : EventBody) (s : State) (wn : SweepNo) : (lineEvent l t b s).sw wn = s.sw wn := by simp [State.sw]
@[simp] theorem bankItem_lineEvent (l : LineNo) (t : Time) (b : EventBody) (s : State) (bn : Bank) : (lineEvent l t b s).bankItem bn = s.bankItem bn := by cases bn <;> simp [State.bankItem]

/-! ### deviceEvent -/

@[simp] theorem line_deviceEvent (t : Time) (b : EventBody) (s : State) (ln : LineNo) : (deviceEvent t b s).line ln = s.line ln := by simp [State.line]
@[simp] theorem now_deviceEvent (t : Time) (b : EventBody) (s : State) : (deviceEvent t b s).now = s.now := by simp [State.now]
@[simp] theorem effectiveNo_deviceEvent (t : Time) (b : EventBody) (s : State) (ln : LineNo) : (deviceEvent t b s).effectiveNo ln = s.effectiveNo ln := by simp [State.effectiveNo]
@[simp] theorem effective_deviceEvent (t : Time) (b : EventBody) (s : State) (ln : LineNo) : (deviceEvent t b s).effective ln = s.effective ln := by simp [State.effective, State.effectiveNo]
@[simp] theorem det_deviceEvent (t : Time) (b : EventBody) (s : State) (dn : DetNo) : (deviceEvent t b s).det dn = s.det dn := by simp [State.det]
@[simp] theorem sw_deviceEvent (t : Time) (b : EventBody) (s : State) (wn : SweepNo) : (deviceEvent t b s).sw wn = s.sw wn := by simp [State.sw]
@[simp] theorem bankItem_deviceEvent (t : Time) (b : EventBody) (s : State) (bn : Bank) : (deviceEvent t b s).bankItem bn = s.bankItem bn := by cases bn <;> simp [State.bankItem]

/-! ### dropPort -/

@[simp] theorem line_dropPort (p : Port) (s : State) (ln : LineNo) : (dropPort p s).line ln = s.line ln := by simp [State.line]
@[simp] theorem now_dropPort (p : Port) (s : State) : (dropPort p s).now = s.now := by simp [State.now]
@[simp] theorem effectiveNo_dropPort (p : Port) (s : State) (ln : LineNo) : (dropPort p s).effectiveNo ln = s.effectiveNo ln := by simp [State.effectiveNo]
@[simp] theorem effective_dropPort (p : Port) (s : State) (ln : LineNo) : (dropPort p s).effective ln = s.effective ln := by simp [State.effective, State.effectiveNo]
@[simp] theorem det_dropPort (p : Port) (s : State) (dn : DetNo) : (dropPort p s).det dn = s.det dn := by simp [State.det]
@[simp] theorem sw_dropPort (p : Port) (s : State) (wn : SweepNo) : (dropPort p s).sw wn = s.sw wn := by simp [State.sw]
@[simp] theorem bankItem_dropPort (p : Port) (s : State) (bn : Bank) : (dropPort p s).bankItem bn = s.bankItem bn := by cases bn <;> simp [State.bankItem]
@[simp] theorem port_dropPort (p : Port) (s : State) (pn : Port) : (dropPort p s).port pn = s.port pn := by cases pn <;> simp [State.port]

/-! ### sendCommand -/

@[simp] theorem line_sendCommand (l : LineNo) (m : FeedMode) (o : SourceOrder) (s : State) (ln : LineNo) : (sendCommand l m o s).line ln = s.line ln := by simp [State.line]
@[simp] theorem now_sendCommand (l : LineNo) (m : FeedMode) (o : SourceOrder) (s : State) : (sendCommand l m o s).now = s.now := by simp [State.now]
@[simp] theorem effectiveNo_sendCommand (l : LineNo) (m : FeedMode) (o : SourceOrder) (s : State) (ln : LineNo) : (sendCommand l m o s).effectiveNo ln = s.effectiveNo ln := by simp [State.effectiveNo]
@[simp] theorem effective_sendCommand (l : LineNo) (m : FeedMode) (o : SourceOrder) (s : State) (ln : LineNo) : (sendCommand l m o s).effective ln = s.effective ln := by simp [State.effective, State.effectiveNo]
@[simp] theorem det_sendCommand (l : LineNo) (m : FeedMode) (o : SourceOrder) (s : State) (dn : DetNo) : (sendCommand l m o s).det dn = s.det dn := by simp [State.det]
@[simp] theorem sw_sendCommand (l : LineNo) (m : FeedMode) (o : SourceOrder) (s : State) (wn : SweepNo) : (sendCommand l m o s).sw wn = s.sw wn := by simp [State.sw]
@[simp] theorem bankItem_sendCommand (l : LineNo) (m : FeedMode) (o : SourceOrder) (s : State) (bn : Bank) : (sendCommand l m o s).bankItem bn = s.bankItem bn := by cases bn <;> simp [State.bankItem]
@[simp] theorem port_sendCommand (l : LineNo) (m : FeedMode) (o : SourceOrder) (s : State) (pn : Port) : (sendCommand l m o s).port pn = s.port pn := by cases pn <;> simp [State.port]

/-! ### recomputeFeedWith -/

@[simp] theorem now_recomputeFeedWith (o : SourceOrder) (l : LineNo) (s : State) : (recomputeFeedWith o l s).now = s.now := by simp [State.now]
@[simp] theorem effectiveNo_recomputeFeedWith (o : SourceOrder) (l : LineNo) (s : State) (ln : LineNo) : (recomputeFeedWith o l s).effectiveNo ln = s.effectiveNo ln := by simp [State.effectiveNo]
@[simp] theorem effective_recomputeFeedWith (o : SourceOrder) (l : LineNo) (s : State) (ln : LineNo) : (recomputeFeedWith o l s).effective ln = s.effective ln := by simp [State.effective, State.effectiveNo]
@[simp] theorem det_recomputeFeedWith (o : SourceOrder) (l : LineNo) (s : State) (dn : DetNo) : (recomputeFeedWith o l s).det dn = s.det dn := by simp [State.det]
@[simp] theorem sw_recomputeFeedWith (o : SourceOrder) (l : LineNo) (s : State) (wn : SweepNo) : (recomputeFeedWith o l s).sw wn = s.sw wn := by simp [State.sw]
@[simp] theorem bankItem_recomputeFeedWith (o : SourceOrder) (l : LineNo) (s : State) (bn : Bank) : (recomputeFeedWith o l s).bankItem bn = s.bankItem bn := by cases bn <;> simp [State.bankItem]
@[simp] theorem port_recomputeFeedWith (o : SourceOrder) (l : LineNo) (s : State) (pn : Port) : (recomputeFeedWith o l s).port pn = s.port pn := by cases pn <;> simp [State.port]

/-! ### recomputeFeed -/

@[simp] theorem now_recomputeFeed (l : LineNo) (s : State) : (recomputeFeed l s).now = s.now := by simp [State.now]
@[simp] theorem effectiveNo_recomputeFeed (l : LineNo) (s : State) (ln : LineNo) : (recomputeFeed l s).effectiveNo ln = s.effectiveNo ln := by simp [State.effectiveNo]
@[simp] theorem effective_recomputeFeed (l : LineNo) (s : State) (ln : LineNo) : (recomputeFeed l s).effective ln = s.effective ln := by simp [State.effective, State.effectiveNo]
@[simp] theorem det_recomputeFeed (l : LineNo) (s : State) (dn : DetNo) : (recomputeFeed l s).det dn = s.det dn := by simp [State.det]
@[simp] theorem sw_recomputeFeed (l : LineNo) (s : State) (wn : SweepNo) : (recomputeFeed l s).sw wn = s.sw wn := by simp [State.sw]
@[simp] theorem bankItem_recomputeFeed (l : LineNo) (s : State) (bn : Bank) : (recomputeFeed l s).bankItem bn = s.bankItem bn := by cases bn <;> simp [State.bankItem]
@[simp] theorem port_recomputeFeed (l : LineNo) (s : State) (pn : Port) : (recomputeFeed l s).port pn = s.port pn := by cases pn <;> simp [State.port]

/-! ### rebeginSlot -/

@[simp] theorem now_rebeginSlot (l : LineNo) (s : State) : (rebeginSlot l s).now = s.now := by simp [State.now]
@[simp] theorem effectiveNo_rebeginSlot (l : LineNo) (s : State) (ln : LineNo) : (rebeginSlot l s).effectiveNo ln = s.effectiveNo ln := by simp [State.effectiveNo]
@[simp] theorem effective_rebeginSlot (l : LineNo) (s : State) (ln : LineNo) : (rebeginSlot l s).effective ln = s.effective ln := by simp [State.effective, State.effectiveNo]
@[simp] theorem det_rebeginSlot (l : LineNo) (s : State) (dn : DetNo) : (rebeginSlot l s).det dn = s.det dn := by simp [State.det]
@[simp] theorem sw_rebeginSlot (l : LineNo) (s : State) (wn : SweepNo) : (rebeginSlot l s).sw wn = s.sw wn := by simp [State.sw]
@[simp] theorem bankItem_rebeginSlot (l : LineNo) (s : State) (bn : Bank) : (rebeginSlot l s).bankItem bn = s.bankItem bn := by cases bn <;> simp [State.bankItem]
@[simp] theorem port_rebeginSlot (l : LineNo) (s : State) (pn : Port) : (rebeginSlot l s).port pn = s.port pn := by cases pn <;> simp [State.port]

/-! ### assignDet -/

@[simp] theorem now_assignDet (d : DetNo) (l : LineNo) (k : Bool) (s : State) : (assignDet d l k s).now = s.now := by simp [State.now]
@[simp] theorem effectiveNo_assignDet (d : DetNo) (l : LineNo) (k : Bool) (s : State) (ln : LineNo) : (assignDet d l k s).effectiveNo ln = s.effectiveNo ln := by simp [State.effectiveNo]
@[simp] theorem effective_assignDet (d : DetNo) (l : LineNo) (k : Bool) (s : State) (ln : LineNo) : (assignDet d l k s).effective ln = s.effective ln := by simp [State.effective, State.effectiveNo]
@[simp] theorem sw_assignDet (d : DetNo) (l : LineNo) (k : Bool) (s : State) (wn : SweepNo) : (assignDet d l k s).sw wn = s.sw wn := by simp [State.sw]
@[simp] theorem bankItem_assignDet (d : DetNo) (l : LineNo) (k : Bool) (s : State) (bn : Bank) : (assignDet d l k s).bankItem bn = s.bankItem bn := by cases bn <;> simp [State.bankItem]
@[simp] theorem port_assignDet (d : DetNo) (l : LineNo) (k : Bool) (s : State) (pn : Port) : (assignDet d l k s).port pn = s.port pn := by cases pn <;> simp [State.port]

/-! ### handOn -/

@[simp] theorem now_handOn (d : DetNo) (s : State) : (handOn d s).now = s.now := by simp [State.now]
@[simp] theorem effectiveNo_handOn (d : DetNo) (s : State) (ln : LineNo) : (handOn d s).effectiveNo ln = s.effectiveNo ln := by simp [State.effectiveNo]
@[simp] theorem effective_handOn (d : DetNo) (s : State) (ln : LineNo) : (handOn d s).effective ln = s.effective ln := by simp [State.effective, State.effectiveNo]
@[simp] theorem sw_handOn (d : DetNo) (s : State) (wn : SweepNo) : (handOn d s).sw wn = s.sw wn := by simp [State.sw]
@[simp] theorem bankItem_handOn (d : DetNo) (s : State) (bn : Bank) : (handOn d s).bankItem bn = s.bankItem bn := by cases bn <;> simp [State.bankItem]
@[simp] theorem port_handOn (d : DetNo) (s : State) (pn : Port) : (handOn d s).port pn = s.port pn := by cases pn <;> simp [State.port]

/-! ### releaseDet -/

@[simp] theorem now_releaseDet (d : DetNo) (l : LineNo) (s : State) : (releaseDet d l s).now = s.now := by simp [State.now]
@[simp] theorem effectiveNo_releaseDet (d : DetNo) (l : LineNo) (s : State) (ln : LineNo) : (releaseDet d l s).effectiveNo ln = s.effectiveNo ln := by simp [State.effectiveNo]
@[simp] theorem effective_releaseDet (d : DetNo) (l : LineNo) (s : State) (ln : LineNo) : (releaseDet d l s).effective ln = s.effective ln := by simp [State.effective, State.effectiveNo]
@[simp] theorem sw_releaseDet (d : DetNo) (l : LineNo) (s : State) (wn : SweepNo) : (releaseDet d l s).sw wn = s.sw wn := by simp [State.sw]
@[simp] theorem bankItem_releaseDet (d : DetNo) (l : LineNo) (s : State) (bn : Bank) : (releaseDet d l s).bankItem bn = s.bankItem bn := by cases bn <;> simp [State.bankItem]
@[simp] theorem port_releaseDet (d : DetNo) (l : LineNo) (s : State) (pn : Port) : (releaseDet d l s).port pn = s.port pn := by cases pn <;> simp [State.port]

/-! ### leaveQueue -/

@[simp] theorem now_leaveQueue (l : LineNo) (s : State) : (leaveQueue l s).now = s.now := by simp [State.now]
@[simp] theorem effectiveNo_leaveQueue (l : LineNo) (s : State) (ln : LineNo) : (leaveQueue l s).effectiveNo ln = s.effectiveNo ln := by simp [State.effectiveNo]
@[simp] theorem effective_leaveQueue (l : LineNo) (s : State) (ln : LineNo) : (leaveQueue l s).effective ln = s.effective ln := by simp [State.effective, State.effectiveNo]
@[simp] theorem sw_leaveQueue (l : LineNo) (s : State) (wn : SweepNo) : (leaveQueue l s).sw wn = s.sw wn := by simp [State.sw]
@[simp] theorem bankItem_leaveQueue (l : LineNo) (s : State) (bn : Bank) : (leaveQueue l s).bankItem bn = s.bankItem bn := by cases bn <;> simp [State.bankItem]
@[simp] theorem port_leaveQueue (l : LineNo) (s : State) (pn : Port) : (leaveQueue l s).port pn = s.port pn := by cases pn <;> simp [State.port]

/-! ### releaseUnlocked -/

@[simp] theorem now_releaseUnlocked (l : LineNo) (s : State) : (releaseUnlocked l s).now = s.now := by simp [State.now]
@[simp] theorem effectiveNo_releaseUnlocked (l : LineNo) (s : State) (ln : LineNo) : (releaseUnlocked l s).effectiveNo ln = s.effectiveNo ln := by simp [State.effectiveNo]
@[simp] theorem effective_releaseUnlocked (l : LineNo) (s : State) (ln : LineNo) : (releaseUnlocked l s).effective ln = s.effective ln := by simp [State.effective, State.effectiveNo]
@[simp] theorem sw_releaseUnlocked (l : LineNo) (s : State) (wn : SweepNo) : (releaseUnlocked l s).sw wn = s.sw wn := by simp [State.sw]
@[simp] theorem bankItem_releaseUnlocked (l : LineNo) (s : State) (bn : Bank) : (releaseUnlocked l s).bankItem bn = s.bankItem bn := by cases bn <;> simp [State.bankItem]
@[simp] theorem port_releaseUnlocked (l : LineNo) (s : State) (pn : Port) : (releaseUnlocked l s).port pn = s.port pn := by cases pn <;> simp [State.port]

/-! ### releaseAny -/

@[simp] theorem now_releaseAny (l : LineNo) (s : State) : (releaseAny l s).now = s.now := by simp [State.now]
@[simp] theorem effectiveNo_releaseAny (l : LineNo) (s : State) (ln : LineNo) : (releaseAny l s).effectiveNo ln = s.effectiveNo ln := by simp [State.effectiveNo]
@[simp] theorem effective_releaseAny (l : LineNo) (s : State) (ln : LineNo) : (releaseAny l s).effective ln = s.effective ln := by simp [State.effective, State.effectiveNo]
@[simp] theorem sw_releaseAny (l : LineNo) (s : State) (wn : SweepNo) : (releaseAny l s).sw wn = s.sw wn := by simp [State.sw]
@[simp] theorem bankItem_releaseAny (l : LineNo) (s : State) (bn : Bank) : (releaseAny l s).bankItem bn = s.bankItem bn := by cases bn <;> simp [State.bankItem]
@[simp] theorem port_releaseAny (l : LineNo) (s : State) (pn : Port) : (releaseAny l s).port pn = s.port pn := by cases pn <;> simp [State.port]

/-! ### requestDet -/

@[simp] theorem now_requestDet (l : LineNo) (s : State) : (requestDet l s).now = s.now := by simp [State.now]
@[simp] theorem effectiveNo_requestDet (l : LineNo) (s : State) (ln : LineNo) : (requestDet l s).effectiveNo ln = s.effectiveNo ln := by simp [State.effectiveNo]
@[simp] theorem effective_requestDet (l : LineNo) (s : State) (ln : LineNo) : (requestDet l s).effective ln = s.effective ln := by simp [State.effective, State.effectiveNo]
@[simp] theorem sw_requestDet (l : LineNo) (s : State) (wn : SweepNo) : (requestDet l s).sw wn = s.sw wn := by simp [State.sw]
@[simp] theorem bankItem_requestDet (l : LineNo) (s : State) (bn : Bank) : (requestDet l s).bankItem bn = s.bankItem bn := by cases bn <;> simp [State.bankItem]
@[simp] theorem port_requestDet (l : LineNo) (s : State) (pn : Port) : (requestDet l s).port pn = s.port pn := by cases pn <;> simp [State.port]

/-! ### recordDigit -/

@[simp] theorem now_recordDigit (l : LineNo) (c : DigitCode) (m : DigitMethod) (t : Time) (s : State) : (recordDigit l c m t s).now = s.now := by simp [State.now]
@[simp] theorem effectiveNo_recordDigit (l : LineNo) (c : DigitCode) (m : DigitMethod) (t : Time) (s : State) (ln : LineNo) : (recordDigit l c m t s).effectiveNo ln = s.effectiveNo ln := by simp [State.effectiveNo]
@[simp] theorem effective_recordDigit (l : LineNo) (c : DigitCode) (m : DigitMethod) (t : Time) (s : State) (ln : LineNo) : (recordDigit l c m t s).effective ln = s.effective ln := by simp [State.effective, State.effectiveNo]
@[simp] theorem det_recordDigit (l : LineNo) (c : DigitCode) (m : DigitMethod) (t : Time) (s : State) (dn : DetNo) : (recordDigit l c m t s).det dn = s.det dn := by simp [State.det]
@[simp] theorem sw_recordDigit (l : LineNo) (c : DigitCode) (m : DigitMethod) (t : Time) (s : State) (wn : SweepNo) : (recordDigit l c m t s).sw wn = s.sw wn := by simp [State.sw]
@[simp] theorem bankItem_recordDigit (l : LineNo) (c : DigitCode) (m : DigitMethod) (t : Time) (s : State) (bn : Bank) : (recordDigit l c m t s).bankItem bn = s.bankItem bn := by cases bn <;> simp [State.bankItem]

/-! ### completeDigit -/

@[simp] theorem now_completeDigit (l : LineNo) (s : State) : (completeDigit l s).now = s.now := by simp [State.now]
@[simp] theorem effectiveNo_completeDigit (l : LineNo) (s : State) (ln : LineNo) : (completeDigit l s).effectiveNo ln = s.effectiveNo ln := by simp [State.effectiveNo]
@[simp] theorem effective_completeDigit (l : LineNo) (s : State) (ln : LineNo) : (completeDigit l s).effective ln = s.effective ln := by simp [State.effective, State.effectiveNo]
@[simp] theorem det_completeDigit (l : LineNo) (s : State) (dn : DetNo) : (completeDigit l s).det dn = s.det dn := by simp [State.det]
@[simp] theorem sw_completeDigit (l : LineNo) (s : State) (wn : SweepNo) : (completeDigit l s).sw wn = s.sw wn := by simp [State.sw]
@[simp] theorem bankItem_completeDigit (l : LineNo) (s : State) (bn : Bank) : (completeDigit l s).bankItem bn = s.bankItem bn := by cases bn <;> simp [State.bankItem]

/-! ### takeInterdigit -/

@[simp] theorem now_takeInterdigit (l : LineNo) (s : State) : (takeInterdigit l s).now = s.now := by simp [State.now]
@[simp] theorem effectiveNo_takeInterdigit (l : LineNo) (s : State) (ln : LineNo) : (takeInterdigit l s).effectiveNo ln = s.effectiveNo ln := by simp [State.effectiveNo]
@[simp] theorem effective_takeInterdigit (l : LineNo) (s : State) (ln : LineNo) : (takeInterdigit l s).effective ln = s.effective ln := by simp [State.effective, State.effectiveNo]
@[simp] theorem det_takeInterdigit (l : LineNo) (s : State) (dn : DetNo) : (takeInterdigit l s).det dn = s.det dn := by simp [State.det]
@[simp] theorem sw_takeInterdigit (l : LineNo) (s : State) (wn : SweepNo) : (takeInterdigit l s).sw wn = s.sw wn := by simp [State.sw]
@[simp] theorem bankItem_takeInterdigit (l : LineNo) (s : State) (bn : Bank) : (takeInterdigit l s).bankItem bn = s.bankItem bn := by cases bn <;> simp [State.bankItem]

/-! ### raisePermanentLoop -/

@[simp] theorem now_raisePermanentLoop (l : LineNo) (t : Time) (s : State) : (raisePermanentLoop l t s).now = s.now := by simp [State.now]
@[simp] theorem effectiveNo_raisePermanentLoop (l : LineNo) (t : Time) (s : State) (ln : LineNo) : (raisePermanentLoop l t s).effectiveNo ln = s.effectiveNo ln := by simp [State.effectiveNo]
@[simp] theorem effective_raisePermanentLoop (l : LineNo) (t : Time) (s : State) (ln : LineNo) : (raisePermanentLoop l t s).effective ln = s.effective ln := by simp [State.effective, State.effectiveNo]
@[simp] theorem det_raisePermanentLoop (l : LineNo) (t : Time) (s : State) (dn : DetNo) : (raisePermanentLoop l t s).det dn = s.det dn := by simp [State.det]
@[simp] theorem sw_raisePermanentLoop (l : LineNo) (t : Time) (s : State) (wn : SweepNo) : (raisePermanentLoop l t s).sw wn = s.sw wn := by simp [State.sw]
@[simp] theorem bankItem_raisePermanentLoop (l : LineNo) (t : Time) (s : State) (bn : Bank) : (raisePermanentLoop l t s).bankItem bn = s.bankItem bn := by cases bn <;> simp [State.bankItem]

/-! ### clearPermanentLoop -/

@[simp] theorem now_clearPermanentLoop (l : LineNo) (s : State) : (clearPermanentLoop l s).now = s.now := by simp [State.now]
@[simp] theorem effectiveNo_clearPermanentLoop (l : LineNo) (s : State) (ln : LineNo) : (clearPermanentLoop l s).effectiveNo ln = s.effectiveNo ln := by simp [State.effectiveNo]
@[simp] theorem effective_clearPermanentLoop (l : LineNo) (s : State) (ln : LineNo) : (clearPermanentLoop l s).effective ln = s.effective ln := by simp [State.effective, State.effectiveNo]
@[simp] theorem det_clearPermanentLoop (l : LineNo) (s : State) (dn : DetNo) : (clearPermanentLoop l s).det dn = s.det dn := by simp [State.det]
@[simp] theorem sw_clearPermanentLoop (l : LineNo) (s : State) (wn : SweepNo) : (clearPermanentLoop l s).sw wn = s.sw wn := by simp [State.sw]
@[simp] theorem bankItem_clearPermanentLoop (l : LineNo) (s : State) (bn : Bank) : (clearPermanentLoop l s).bankItem bn = s.bankItem bn := by cases bn <;> simp [State.bankItem]

/-! ### enterBlocked -/

@[simp] theorem now_enterBlocked (l : LineNo) (s : State) : (enterBlocked l s).now = s.now := by simp [State.now]
@[simp] theorem effectiveNo_enterBlocked (l : LineNo) (s : State) (ln : LineNo) : (enterBlocked l s).effectiveNo ln = s.effectiveNo ln := by simp [State.effectiveNo]
@[simp] theorem effective_enterBlocked (l : LineNo) (s : State) (ln : LineNo) : (enterBlocked l s).effective ln = s.effective ln := by simp [State.effective, State.effectiveNo]
@[simp] theorem sw_enterBlocked (l : LineNo) (s : State) (wn : SweepNo) : (enterBlocked l s).sw wn = s.sw wn := by simp [State.sw]
@[simp] theorem bankItem_enterBlocked (l : LineNo) (s : State) (bn : Bank) : (enterBlocked l s).bankItem bn = s.bankItem bn := by cases bn <;> simp [State.bankItem]
@[simp] theorem port_enterBlocked (l : LineNo) (s : State) (pn : Port) : (enterBlocked l s).port pn = s.port pn := by cases pn <;> simp [State.port]

/-! ### followReasons -/

@[simp] theorem now_followReasons (l : LineNo) (o n : Reasons) (s : State) : (followReasons l o n s).now = s.now := by simp [State.now]
@[simp] theorem effectiveNo_followReasons (l : LineNo) (o n : Reasons) (s : State) (ln : LineNo) : (followReasons l o n s).effectiveNo ln = s.effectiveNo ln := by simp [State.effectiveNo]
@[simp] theorem effective_followReasons (l : LineNo) (o n : Reasons) (s : State) (ln : LineNo) : (followReasons l o n s).effective ln = s.effective ln := by simp [State.effective, State.effectiveNo]
@[simp] theorem sw_followReasons (l : LineNo) (o n : Reasons) (s : State) (wn : SweepNo) : (followReasons l o n s).sw wn = s.sw wn := by simp [State.sw]
@[simp] theorem bankItem_followReasons (l : LineNo) (o n : Reasons) (s : State) (bn : Bank) : (followReasons l o n s).bankItem bn = s.bankItem bn := by cases bn <;> simp [State.bankItem]
@[simp] theorem port_followReasons (l : LineNo) (o n : Reasons) (s : State) (pn : Port) : (followReasons l o n s).port pn = s.port pn := by cases pn <;> simp [State.port]

/-! ### setReasons -/

@[simp] theorem now_setReasons (l : LineNo) (n : Reasons) (s : State) : (setReasons l n s).now = s.now := by simp [State.now]
@[simp] theorem effectiveNo_setReasons (l : LineNo) (n : Reasons) (s : State) (ln : LineNo) : (setReasons l n s).effectiveNo ln = s.effectiveNo ln := by simp [State.effectiveNo]
@[simp] theorem effective_setReasons (l : LineNo) (n : Reasons) (s : State) (ln : LineNo) : (setReasons l n s).effective ln = s.effective ln := by simp [State.effective, State.effectiveNo]
@[simp] theorem sw_setReasons (l : LineNo) (n : Reasons) (s : State) (wn : SweepNo) : (setReasons l n s).sw wn = s.sw wn := by simp [State.sw]
@[simp] theorem bankItem_setReasons (l : LineNo) (n : Reasons) (s : State) (bn : Bank) : (setReasons l n s).bankItem bn = s.bankItem bn := by cases bn <;> simp [State.bankItem]

/-! ### recomputeReason -/

@[simp] theorem now_recomputeReason (l : LineNo) (s : State) : (recomputeReason l s).now = s.now := by simp [State.now]
@[simp] theorem effectiveNo_recomputeReason (l : LineNo) (s : State) (ln : LineNo) : (recomputeReason l s).effectiveNo ln = s.effectiveNo ln := by simp [State.effectiveNo]
@[simp] theorem effective_recomputeReason (l : LineNo) (s : State) (ln : LineNo) : (recomputeReason l s).effective ln = s.effective ln := by simp [State.effective, State.effectiveNo]
@[simp] theorem sw_recomputeReason (l : LineNo) (s : State) (wn : SweepNo) : (recomputeReason l s).sw wn = s.sw wn := by simp [State.sw]
@[simp] theorem bankItem_recomputeReason (l : LineNo) (s : State) (bn : Bank) : (recomputeReason l s).bankItem bn = s.bankItem bn := by cases bn <;> simp [State.bankItem]

/-! ### countOne -/

@[simp] theorem now_countOne (l : LineNo) (t : Time) (o : FaultKind × Verdict) (s : State) : (countOne l t o s).now = s.now := by simp [State.now]
@[simp] theorem effectiveNo_countOne (l : LineNo) (t : Time) (o : FaultKind × Verdict) (s : State) (ln : LineNo) : (countOne l t o s).effectiveNo ln = s.effectiveNo ln := by simp [State.effectiveNo]
@[simp] theorem effective_countOne (l : LineNo) (t : Time) (o : FaultKind × Verdict) (s : State) (ln : LineNo) : (countOne l t o s).effective ln = s.effective ln := by simp [State.effective, State.effectiveNo]
@[simp] theorem det_countOne (l : LineNo) (t : Time) (o : FaultKind × Verdict) (s : State) (dn : DetNo) : (countOne l t o s).det dn = s.det dn := by simp [State.det]
@[simp] theorem sw_countOne (l : LineNo) (t : Time) (o : FaultKind × Verdict) (s : State) (wn : SweepNo) : (countOne l t o s).sw wn = s.sw wn := by simp [State.sw]
@[simp] theorem bankItem_countOne (l : LineNo) (t : Time) (o : FaultKind × Verdict) (s : State) (bn : Bank) : (countOne l t o s).bankItem bn = s.bankItem bn := by cases bn <;> simp [State.bankItem]

/-! ### seize -/

@[simp] theorem now_seize (l : LineNo) (t : Time) (s : State) : (seize l t s).now = s.now := by simp [State.now]
@[simp] theorem effectiveNo_seize (l : LineNo) (t : Time) (s : State) (ln : LineNo) : (seize l t s).effectiveNo ln = s.effectiveNo ln := by simp [State.effectiveNo]
@[simp] theorem effective_seize (l : LineNo) (t : Time) (s : State) (ln : LineNo) : (seize l t s).effective ln = s.effective ln := by simp [State.effective, State.effectiveNo]
@[simp] theorem sw_seize (l : LineNo) (t : Time) (s : State) (wn : SweepNo) : (seize l t s).sw wn = s.sw wn := by simp [State.sw]
@[simp] theorem bankItem_seize (l : LineNo) (t : Time) (s : State) (bn : Bank) : (seize l t s).bankItem bn = s.bankItem bn := by cases bn <;> simp [State.bankItem]

/-! ### hangUp -/

@[simp] theorem now_hangUp (l : LineNo) (t : Time) (w : HangupBy) (s : State) : (hangUp l t w s).now = s.now := by simp [State.now]
@[simp] theorem effectiveNo_hangUp (l : LineNo) (t : Time) (w : HangupBy) (s : State) (ln : LineNo) : (hangUp l t w s).effectiveNo ln = s.effectiveNo ln := by simp [State.effectiveNo]
@[simp] theorem effective_hangUp (l : LineNo) (t : Time) (w : HangupBy) (s : State) (ln : LineNo) : (hangUp l t w s).effective ln = s.effective ln := by simp [State.effective, State.effectiveNo]
@[simp] theorem sw_hangUp (l : LineNo) (t : Time) (w : HangupBy) (s : State) (wn : SweepNo) : (hangUp l t w s).sw wn = s.sw wn := by simp [State.sw]
@[simp] theorem bankItem_hangUp (l : LineNo) (t : Time) (w : HangupBy) (s : State) (bn : Bank) : (hangUp l t w s).bankItem bn = s.bankItem bn := by cases bn <;> simp [State.bankItem]

/-! ### endTurn -/

@[simp] theorem line_endTurn (n : SweepNo) (s : State) (ln : LineNo) : (endTurn n s).line ln = s.line ln := by simp [State.line]
@[simp] theorem now_endTurn (n : SweepNo) (s : State) : (endTurn n s).now = s.now := by simp [State.now]
@[simp] theorem effectiveNo_endTurn (n : SweepNo) (s : State) (ln : LineNo) : (endTurn n s).effectiveNo ln = s.effectiveNo ln := by simp [State.effectiveNo]
@[simp] theorem effective_endTurn (n : SweepNo) (s : State) (ln : LineNo) : (endTurn n s).effective ln = s.effective ln := by simp [State.effective, State.effectiveNo]
@[simp] theorem det_endTurn (n : SweepNo) (s : State) (dn : DetNo) : (endTurn n s).det dn = s.det dn := by simp [State.det]
@[simp] theorem bankItem_endTurn (n : SweepNo) (s : State) (bn : Bank) : (endTurn n s).bankItem bn = s.bankItem bn := by cases bn <;> simp [State.bankItem]
@[simp] theorem port_endTurn (n : SweepNo) (s : State) (pn : Port) : (endTurn n s).port pn = s.port pn := by cases pn <;> simp [State.port]

/-! ### endTurnOf -/

@[simp] theorem line_endTurnOf (n : SweepNo) (s : State) (ln : LineNo) : (endTurnOf n s).line ln = s.line ln := by simp [State.line]
@[simp] theorem now_endTurnOf (n : SweepNo) (s : State) : (endTurnOf n s).now = s.now := by simp [State.now]
@[simp] theorem effectiveNo_endTurnOf (n : SweepNo) (s : State) (ln : LineNo) : (endTurnOf n s).effectiveNo ln = s.effectiveNo ln := by simp [State.effectiveNo]
@[simp] theorem effective_endTurnOf (n : SweepNo) (s : State) (ln : LineNo) : (endTurnOf n s).effective ln = s.effective ln := by simp [State.effective, State.effectiveNo]
@[simp] theorem det_endTurnOf (n : SweepNo) (s : State) (dn : DetNo) : (endTurnOf n s).det dn = s.det dn := by simp [State.det]
@[simp] theorem bankItem_endTurnOf (n : SweepNo) (s : State) (bn : Bank) : (endTurnOf n s).bankItem bn = s.bankItem bn := by cases bn <;> simp [State.bankItem]
@[simp] theorem port_endTurnOf (n : SweepNo) (s : State) (pn : Port) : (endTurnOf n s).port pn = s.port pn := by cases pn <;> simp [State.port]

/-! ### useVisit -/

@[simp] theorem line_useVisit (n : SweepNo) (s : State) (ln : LineNo) : (useVisit n s).line ln = s.line ln := by simp [State.line]
@[simp] theorem now_useVisit (n : SweepNo) (s : State) : (useVisit n s).now = s.now := by simp [State.now]
@[simp] theorem effectiveNo_useVisit (n : SweepNo) (s : State) (ln : LineNo) : (useVisit n s).effectiveNo ln = s.effectiveNo ln := by simp [State.effectiveNo]
@[simp] theorem effective_useVisit (n : SweepNo) (s : State) (ln : LineNo) : (useVisit n s).effective ln = s.effective ln := by simp [State.effective, State.effectiveNo]
@[simp] theorem det_useVisit (n : SweepNo) (s : State) (dn : DetNo) : (useVisit n s).det dn = s.det dn := by simp [State.det]
@[simp] theorem bankItem_useVisit (n : SweepNo) (s : State) (bn : Bank) : (useVisit n s).bankItem bn = s.bankItem bn := by cases bn <;> simp [State.bankItem]
@[simp] theorem port_useVisit (n : SweepNo) (s : State) (pn : Port) : (useVisit n s).port pn = s.port pn := by cases pn <;> simp [State.port]

/-! ### withdrawOffer -/

@[simp] theorem line_withdrawOffer (s : State) (ln : LineNo) : (withdrawOffer s).line ln = s.line ln := by simp [State.line]
@[simp] theorem now_withdrawOffer (s : State) : (withdrawOffer s).now = s.now := by simp [State.now]
@[simp] theorem effectiveNo_withdrawOffer (s : State) (ln : LineNo) : (withdrawOffer s).effectiveNo ln = s.effectiveNo ln := by simp [State.effectiveNo]
@[simp] theorem effective_withdrawOffer (s : State) (ln : LineNo) : (withdrawOffer s).effective ln = s.effective ln := by simp [State.effective, State.effectiveNo]
@[simp] theorem det_withdrawOffer (s : State) (dn : DetNo) : (withdrawOffer s).det dn = s.det dn := by simp [State.det]
@[simp] theorem bankItem_withdrawOffer (s : State) (bn : Bank) : (withdrawOffer s).bankItem bn = s.bankItem bn := by cases bn <;> simp [State.bankItem]
@[simp] theorem port_withdrawOffer (s : State) (pn : Port) : (withdrawOffer s).port pn = s.port pn := by cases pn <;> simp [State.port]

/-! ### issueVisit -/

@[simp] theorem line_issueVisit (n : SweepNo) (s : State) (ln : LineNo) : (issueVisit n s).line ln = s.line ln := by simp [State.line]
@[simp] theorem now_issueVisit (n : SweepNo) (s : State) : (issueVisit n s).now = s.now := by simp [State.now]
@[simp] theorem effectiveNo_issueVisit (n : SweepNo) (s : State) (ln : LineNo) : (issueVisit n s).effectiveNo ln = s.effectiveNo ln := by simp [State.effectiveNo]
@[simp] theorem effective_issueVisit (n : SweepNo) (s : State) (ln : LineNo) : (issueVisit n s).effective ln = s.effective ln := by simp [State.effective, State.effectiveNo]
@[simp] theorem det_issueVisit (n : SweepNo) (s : State) (dn : DetNo) : (issueVisit n s).det dn = s.det dn := by simp [State.det]
@[simp] theorem bankItem_issueVisit (n : SweepNo) (s : State) (bn : Bank) : (issueVisit n s).bankItem bn = s.bankItem bn := by cases bn <;> simp [State.bankItem]
@[simp] theorem port_issueVisit (n : SweepNo) (s : State) (pn : Port) : (issueVisit n s).port pn = s.port pn := by cases pn <;> simp [State.port]

/-! ### tallyItem -/

@[simp] theorem line_tallyItem (n : SweepNo) (s : State) (ln : LineNo) : (tallyItem n s).line ln = s.line ln := by simp [State.line]
@[simp] theorem now_tallyItem (n : SweepNo) (s : State) : (tallyItem n s).now = s.now := by simp [State.now]
@[simp] theorem effectiveNo_tallyItem (n : SweepNo) (s : State) (ln : LineNo) : (tallyItem n s).effectiveNo ln = s.effectiveNo ln := by simp [State.effectiveNo]
@[simp] theorem effective_tallyItem (n : SweepNo) (s : State) (ln : LineNo) : (tallyItem n s).effective ln = s.effective ln := by simp [State.effective, State.effectiveNo]
@[simp] theorem det_tallyItem (n : SweepNo) (s : State) (dn : DetNo) : (tallyItem n s).det dn = s.det dn := by simp [State.det]
@[simp] theorem bankItem_tallyItem (n : SweepNo) (s : State) (bn : Bank) : (tallyItem n s).bankItem bn = s.bankItem bn := by cases bn <;> simp [State.bankItem]
@[simp] theorem port_tallyItem (n : SweepNo) (s : State) (pn : Port) : (tallyItem n s).port pn = s.port pn := by cases pn <;> simp [State.port]

/-! ### endPass -/

@[simp] theorem line_endPass (n : SweepNo) (s : State) (ln : LineNo) : (endPass n s).line ln = s.line ln := by simp [State.line]
@[simp] theorem now_endPass (n : SweepNo) (s : State) : (endPass n s).now = s.now := by simp [State.now]
@[simp] theorem effectiveNo_endPass (n : SweepNo) (s : State) (ln : LineNo) : (endPass n s).effectiveNo ln = s.effectiveNo ln := by simp [State.effectiveNo]
@[simp] theorem effective_endPass (n : SweepNo) (s : State) (ln : LineNo) : (endPass n s).effective ln = s.effective ln := by simp [State.effective, State.effectiveNo]
@[simp] theorem det_endPass (n : SweepNo) (s : State) (dn : DetNo) : (endPass n s).det dn = s.det dn := by simp [State.det]
@[simp] theorem bankItem_endPass (n : SweepNo) (s : State) (bn : Bank) : (endPass n s).bankItem bn = s.bankItem bn := by cases bn <;> simp [State.bankItem]

/-! ### recordOut -/

@[simp] theorem line_recordOut (p : Port) (n : Nat) (s : State) (ln : LineNo) : (recordOut p n s).line ln = s.line ln := by simp [State.line]
@[simp] theorem now_recordOut (p : Port) (n : Nat) (s : State) : (recordOut p n s).now = s.now := by simp [State.now]
@[simp] theorem effectiveNo_recordOut (p : Port) (n : Nat) (s : State) (ln : LineNo) : (recordOut p n s).effectiveNo ln = s.effectiveNo ln := by simp [State.effectiveNo]
@[simp] theorem effective_recordOut (p : Port) (n : Nat) (s : State) (ln : LineNo) : (recordOut p n s).effective ln = s.effective ln := by simp [State.effective, State.effectiveNo]
@[simp] theorem det_recordOut (p : Port) (n : Nat) (s : State) (dn : DetNo) : (recordOut p n s).det dn = s.det dn := by simp [State.det]
@[simp] theorem sw_recordOut (p : Port) (n : Nat) (s : State) (wn : SweepNo) : (recordOut p n s).sw wn = s.sw wn := by simp [State.sw]
@[simp] theorem bankItem_recordOut (p : Port) (n : Nat) (s : State) (bn : Bank) : (recordOut p n s).bankItem bn = s.bankItem bn := by cases bn <;> simp [State.bankItem]

/-! ### respond -/

@[simp] theorem line_respond (p : Port) (c : Byte) (x : Status) (y : List Byte) (s : State) (ln : LineNo) : (respond p c x y s).line ln = s.line ln := by simp [State.line]
@[simp] theorem now_respond (p : Port) (c : Byte) (x : Status) (y : List Byte) (s : State) : (respond p c x y s).now = s.now := by simp [State.now]
@[simp] theorem effectiveNo_respond (p : Port) (c : Byte) (x : Status) (y : List Byte) (s : State) (ln : LineNo) : (respond p c x y s).effectiveNo ln = s.effectiveNo ln := by simp [State.effectiveNo]
@[simp] theorem effective_respond (p : Port) (c : Byte) (x : Status) (y : List Byte) (s : State) (ln : LineNo) : (respond p c x y s).effective ln = s.effective ln := by simp [State.effective, State.effectiveNo]
@[simp] theorem det_respond (p : Port) (c : Byte) (x : Status) (y : List Byte) (s : State) (dn : DetNo) : (respond p c x y s).det dn = s.det dn := by simp [State.det]
@[simp] theorem sw_respond (p : Port) (c : Byte) (x : Status) (y : List Byte) (s : State) (wn : SweepNo) : (respond p c x y s).sw wn = s.sw wn := by simp [State.sw]
@[simp] theorem bankItem_respond (p : Port) (c : Byte) (x : Status) (y : List Byte) (s : State) (bn : Bank) : (respond p c x y s).bankItem bn = s.bankItem bn := by cases bn <;> simp [State.bankItem]

/-! ### dropItems -/

@[simp] theorem line_dropItems (l : LineNo) (s : State) (ln : LineNo) : (dropItems l s).line ln = s.line ln := by simp [State.line]
@[simp] theorem now_dropItems (l : LineNo) (s : State) : (dropItems l s).now = s.now := by simp [State.now]
@[simp] theorem effectiveNo_dropItems (l : LineNo) (s : State) (ln : LineNo) : (dropItems l s).effectiveNo ln = s.effectiveNo ln := by simp [State.effectiveNo]
@[simp] theorem effective_dropItems (l : LineNo) (s : State) (ln : LineNo) : (dropItems l s).effective ln = s.effective ln := by simp [State.effective, State.effectiveNo]
@[simp] theorem det_dropItems (l : LineNo) (s : State) (dn : DetNo) : (dropItems l s).det dn = s.det dn := by simp [State.det]
@[simp] theorem sw_dropItems (l : LineNo) (s : State) (wn : SweepNo) : (dropItems l s).sw wn = s.sw wn := by simp [State.sw]
@[simp] theorem port_dropItems (l : LineNo) (s : State) (pn : Port) : (dropItems l s).port pn = s.port pn := by cases pn <;> simp [State.port]

/-! ### freeSlotOf -/

@[simp] theorem line_freeSlotOf (l : LineNo) (s : State) (ln : LineNo) : (freeSlotOf l s).line ln = s.line ln := by simp [State.line]
@[simp] theorem now_freeSlotOf (l : LineNo) (s : State) : (freeSlotOf l s).now = s.now := by simp [State.now]
@[simp] theorem effectiveNo_freeSlotOf (l : LineNo) (s : State) (ln : LineNo) : (freeSlotOf l s).effectiveNo ln = s.effectiveNo ln := by simp [State.effectiveNo]
@[simp] theorem effective_freeSlotOf (l : LineNo) (s : State) (ln : LineNo) : (freeSlotOf l s).effective ln = s.effective ln := by simp [State.effective, State.effectiveNo]
@[simp] theorem det_freeSlotOf (l : LineNo) (s : State) (dn : DetNo) : (freeSlotOf l s).det dn = s.det dn := by simp [State.det]
@[simp] theorem sw_freeSlotOf (l : LineNo) (s : State) (wn : SweepNo) : (freeSlotOf l s).sw wn = s.sw wn := by simp [State.sw]
@[simp] theorem bankItem_freeSlotOf (l : LineNo) (s : State) (bn : Bank) : (freeSlotOf l s).bankItem bn = s.bankItem bn := by cases bn <;> simp [State.bankItem]
@[simp] theorem port_freeSlotOf (l : LineNo) (s : State) (pn : Port) : (freeSlotOf l s).port pn = s.port pn := by cases pn <;> simp [State.port]

/-! ### takeHold -/

@[simp] theorem now_takeHold (l : LineNo) (n : ShadowNo) (f : Bool) (s : State) : (takeHold l n f s).now = s.now := by simp [State.now]
@[simp] theorem effectiveNo_takeHold (l : LineNo) (n : ShadowNo) (f : Bool) (s : State) (ln : LineNo) : (takeHold l n f s).effectiveNo ln = s.effectiveNo ln := by simp [State.effectiveNo]
@[simp] theorem effective_takeHold (l : LineNo) (n : ShadowNo) (f : Bool) (s : State) (ln : LineNo) : (takeHold l n f s).effective ln = s.effective ln := by simp [State.effective, State.effectiveNo]
@[simp] theorem sw_takeHold (l : LineNo) (n : ShadowNo) (f : Bool) (s : State) (wn : SweepNo) : (takeHold l n f s).sw wn = s.sw wn := by simp [State.sw]
@[simp] theorem bankItem_takeHold (l : LineNo) (n : ShadowNo) (f : Bool) (s : State) (bn : Bank) : (takeHold l n f s).bankItem bn = s.bankItem bn := by cases bn <;> simp [State.bankItem]

/-! ### releaseLine -/

@[simp] theorem now_releaseLine (l : LineNo) (m : ReleaseMode) (y : ReleaseReason) (s : State) : (releaseLine l m y s).now = s.now := by simp [State.now]
@[simp] theorem effectiveNo_releaseLine (l : LineNo) (m : ReleaseMode) (y : ReleaseReason) (s : State) (ln : LineNo) : (releaseLine l m y s).effectiveNo ln = s.effectiveNo ln := by simp [State.effectiveNo]
@[simp] theorem effective_releaseLine (l : LineNo) (m : ReleaseMode) (y : ReleaseReason) (s : State) (ln : LineNo) : (releaseLine l m y s).effective ln = s.effective ln := by simp [State.effective, State.effectiveNo]
@[simp] theorem det_releaseLine (l : LineNo) (m : ReleaseMode) (y : ReleaseReason) (s : State) (dn : DetNo) : (releaseLine l m y s).det dn = s.det dn := by simp [State.det]
@[simp] theorem sw_releaseLine (l : LineNo) (m : ReleaseMode) (y : ReleaseReason) (s : State) (wn : SweepNo) : (releaseLine l m y s).sw wn = s.sw wn := by simp [State.sw]

/-! ### leavePort -/

@[simp] theorem line_leavePort (p : Port) (x : PortState) (y : LapseCause) (s : State) (ln : LineNo) : (leavePort p x y s).line ln = s.line ln := by simp [State.line]
@[simp] theorem now_leavePort (p : Port) (x : PortState) (y : LapseCause) (s : State) : (leavePort p x y s).now = s.now := by simp [State.now]
@[simp] theorem effectiveNo_leavePort (p : Port) (x : PortState) (y : LapseCause) (s : State) (ln : LineNo) : (leavePort p x y s).effectiveNo ln = s.effectiveNo ln := by simp [State.effectiveNo]
@[simp] theorem effective_leavePort (p : Port) (x : PortState) (y : LapseCause) (s : State) (ln : LineNo) : (leavePort p x y s).effective ln = s.effective ln := by simp [State.effective, State.effectiveNo]
@[simp] theorem det_leavePort (p : Port) (x : PortState) (y : LapseCause) (s : State) (dn : DetNo) : (leavePort p x y s).det dn = s.det dn := by simp [State.det]
@[simp] theorem sw_leavePort (p : Port) (x : PortState) (y : LapseCause) (s : State) (wn : SweepNo) : (leavePort p x y s).sw wn = s.sw wn := by simp [State.sw]
@[simp] theorem bankItem_leavePort (p : Port) (x : PortState) (y : LapseCause) (s : State) (bn : Bank) : (leavePort p x y s).bankItem bn = s.bankItem bn := by cases bn <;> simp [State.bankItem]

/-! ### The ports' fields through gap counts, journal writes and responses -/

@[simp] theorem bumpGap_state (r : PortRec) : (bumpGap r).state = r.state := rfl
@[simp] theorem bumpGap_window (r : PortRec) : (bumpGap r).window = r.window := rfl
@[simp] theorem bumpGap_expiry (r : PortRec) : (bumpGap r).expiry = r.expiry := rfl
@[simp] theorem bumpGap_phase (r : PortRec) : (bumpGap r).phase = r.phase := rfl
@[simp] theorem bumpGap_alertMask (r : PortRec) : (bumpGap r).alertMask = r.alertMask := rfl
@[simp] theorem bumpGap_response (r : PortRec) : (bumpGap r).response = r.response := rfl
@[simp] theorem bumpGap_dataOut (r : PortRec) : (bumpGap r).dataOut = r.dataOut := rfl

@[simp] theorem port_raiseGaps_state (q : PortSet) (s : State) (p : Port) : ((raiseGaps q s).port p).state = (s.port p).state := by
  cases p <;> simp only [State.port, raiseGaps] <;> split <;> simp
@[simp] theorem port_raiseGaps_window (q : PortSet) (s : State) (p : Port) : ((raiseGaps q s).port p).window = (s.port p).window := by
  cases p <;> simp only [State.port, raiseGaps] <;> split <;> simp
@[simp] theorem port_raiseGaps_expiry (q : PortSet) (s : State) (p : Port) : ((raiseGaps q s).port p).expiry = (s.port p).expiry := by
  cases p <;> simp only [State.port, raiseGaps] <;> split <;> simp
@[simp] theorem port_raiseGaps_phase (q : PortSet) (s : State) (p : Port) : ((raiseGaps q s).port p).phase = (s.port p).phase := by
  cases p <;> simp only [State.port, raiseGaps] <;> split <;> simp
@[simp] theorem port_raiseGaps_alertMask (q : PortSet) (s : State) (p : Port) : ((raiseGaps q s).port p).alertMask = (s.port p).alertMask := by
  cases p <;> simp only [State.port, raiseGaps] <;> split <;> simp
@[simp] theorem port_raiseGaps_response (q : PortSet) (s : State) (p : Port) : ((raiseGaps q s).port p).response = (s.port p).response := by
  cases p <;> simp only [State.port, raiseGaps] <;> split <;> simp
@[simp] theorem port_raiseGaps_dataOut (q : PortSet) (s : State) (p : Port) : ((raiseGaps q s).port p).dataOut = (s.port p).dataOut := by
  cases p <;> simp only [State.port, raiseGaps] <;> split <;> simp
@[simp] theorem attached_raiseGaps (q : PortSet) (s : State) (p : Port) : (raiseGaps q s).attached p = s.attached p := by simp [State.attached]

@[simp] theorem port_makeRoom_state (s : State) (p : Port) : ((makeRoom s).port p).state = (s.port p).state := by
  unfold makeRoom
  repeat' split
  all_goals first | rfl | exact port_raiseGaps_state _ _ p
@[simp] theorem port_makeRoom_window (s : State) (p : Port) : ((makeRoom s).port p).window = (s.port p).window := by
  unfold makeRoom
  repeat' split
  all_goals first | rfl | exact port_raiseGaps_window _ _ p
@[simp] theorem port_makeRoom_expiry (s : State) (p : Port) : ((makeRoom s).port p).expiry = (s.port p).expiry := by
  unfold makeRoom
  repeat' split
  all_goals first | rfl | exact port_raiseGaps_expiry _ _ p
@[simp] theorem port_makeRoom_phase (s : State) (p : Port) : ((makeRoom s).port p).phase = (s.port p).phase := by
  unfold makeRoom
  repeat' split
  all_goals first | rfl | exact port_raiseGaps_phase _ _ p
@[simp] theorem port_makeRoom_alertMask (s : State) (p : Port) : ((makeRoom s).port p).alertMask = (s.port p).alertMask := by
  unfold makeRoom
  repeat' split
  all_goals first | rfl | exact port_raiseGaps_alertMask _ _ p
@[simp] theorem port_makeRoom_response (s : State) (p : Port) : ((makeRoom s).port p).response = (s.port p).response := by
  unfold makeRoom
  repeat' split
  all_goals first | rfl | exact port_raiseGaps_response _ _ p
@[simp] theorem port_makeRoom_dataOut (s : State) (p : Port) : ((makeRoom s).port p).dataOut = (s.port p).dataOut := by
  unfold makeRoom
  repeat' split
  all_goals first | rfl | exact port_raiseGaps_dataOut _ _ p
@[simp] theorem attached_makeRoom (s : State) (p : Port) : (makeRoom s).attached p = s.attached p := by simp [State.attached]

@[simp] theorem port_writeEvent_state (q : PortSet) (l : Option LineNo) (t : Time) (b : EventBody) (s : State) (p : Port) : ((writeEvent q l t b s).port p).state = (s.port p).state := by
  unfold writeEvent
  split
  · rfl
  · exact port_makeRoom_state s p
@[simp] theorem port_writeEvent_window (q : PortSet) (l : Option LineNo) (t : Time) (b : EventBody) (s : State) (p : Port) : ((writeEvent q l t b s).port p).window = (s.port p).window := by
  unfold writeEvent
  split
  · rfl
  · exact port_makeRoom_window s p
@[simp] theorem port_writeEvent_expiry (q : PortSet) (l : Option LineNo) (t : Time) (b : EventBody) (s : State) (p : Port) : ((writeEvent q l t b s).port p).expiry = (s.port p).expiry := by
  unfold writeEvent
  split
  · rfl
  · exact port_makeRoom_expiry s p
@[simp] theorem port_writeEvent_phase (q : PortSet) (l : Option LineNo) (t : Time) (b : EventBody) (s : State) (p : Port) : ((writeEvent q l t b s).port p).phase = (s.port p).phase := by
  unfold writeEvent
  split
  · rfl
  · exact port_makeRoom_phase s p
@[simp] theorem port_writeEvent_alertMask (q : PortSet) (l : Option LineNo) (t : Time) (b : EventBody) (s : State) (p : Port) : ((writeEvent q l t b s).port p).alertMask = (s.port p).alertMask := by
  unfold writeEvent
  split
  · rfl
  · exact port_makeRoom_alertMask s p
@[simp] theorem port_writeEvent_response (q : PortSet) (l : Option LineNo) (t : Time) (b : EventBody) (s : State) (p : Port) : ((writeEvent q l t b s).port p).response = (s.port p).response := by
  unfold writeEvent
  split
  · rfl
  · exact port_makeRoom_response s p
@[simp] theorem port_writeEvent_dataOut (q : PortSet) (l : Option LineNo) (t : Time) (b : EventBody) (s : State) (p : Port) : ((writeEvent q l t b s).port p).dataOut = (s.port p).dataOut := by
  unfold writeEvent
  split
  · rfl
  · exact port_makeRoom_dataOut s p
@[simp] theorem attached_writeEvent (q : PortSet) (l : Option LineNo) (t : Time) (b : EventBody) (s : State) (p : Port) : (writeEvent q l t b s).attached p = s.attached p := by simp [State.attached]

@[simp] theorem port_lineEvent_state (l : LineNo) (t : Time) (b : EventBody) (s : State) (p : Port) : ((lineEvent l t b s).port p).state = (s.port p).state := port_writeEvent_state _ _ _ _ _ p
@[simp] theorem port_lineEvent_window (l : LineNo) (t : Time) (b : EventBody) (s : State) (p : Port) : ((lineEvent l t b s).port p).window = (s.port p).window := port_writeEvent_window _ _ _ _ _ p
@[simp] theorem port_lineEvent_expiry (l : LineNo) (t : Time) (b : EventBody) (s : State) (p : Port) : ((lineEvent l t b s).port p).expiry = (s.port p).expiry := port_writeEvent_expiry _ _ _ _ _ p
@[simp] theorem port_lineEvent_phase (l : LineNo) (t : Time) (b : EventBody) (s : State) (p : Port) : ((lineEvent l t b s).port p).phase = (s.port p).phase := port_writeEvent_phase _ _ _ _ _ p
@[simp] theorem port_lineEvent_alertMask (l : LineNo) (t : Time) (b : EventBody) (s : State) (p : Port) : ((lineEvent l t b s).port p).alertMask = (s.port p).alertMask := port_writeEvent_alertMask _ _ _ _ _ p
@[simp] theorem port_lineEvent_response (l : LineNo) (t : Time) (b : EventBody) (s : State) (p : Port) : ((lineEvent l t b s).port p).response = (s.port p).response := port_writeEvent_response _ _ _ _ _ p
@[simp] theorem port_lineEvent_dataOut (l : LineNo) (t : Time) (b : EventBody) (s : State) (p : Port) : ((lineEvent l t b s).port p).dataOut = (s.port p).dataOut := port_writeEvent_dataOut _ _ _ _ _ p
@[simp] theorem attached_lineEvent (l : LineNo) (t : Time) (b : EventBody) (s : State) (p : Port) : (lineEvent l t b s).attached p = s.attached p := by simp [State.attached]

@[simp] theorem port_deviceEvent_state (t : Time) (b : EventBody) (s : State) (p : Port) : ((deviceEvent t b s).port p).state = (s.port p).state := port_writeEvent_state _ _ _ _ _ p
@[simp] theorem port_deviceEvent_window (t : Time) (b : EventBody) (s : State) (p : Port) : ((deviceEvent t b s).port p).window = (s.port p).window := port_writeEvent_window _ _ _ _ _ p
@[simp] theorem port_deviceEvent_expiry (t : Time) (b : EventBody) (s : State) (p : Port) : ((deviceEvent t b s).port p).expiry = (s.port p).expiry := port_writeEvent_expiry _ _ _ _ _ p
@[simp] theorem port_deviceEvent_phase (t : Time) (b : EventBody) (s : State) (p : Port) : ((deviceEvent t b s).port p).phase = (s.port p).phase := port_writeEvent_phase _ _ _ _ _ p
@[simp] theorem port_deviceEvent_alertMask (t : Time) (b : EventBody) (s : State) (p : Port) : ((deviceEvent t b s).port p).alertMask = (s.port p).alertMask := port_writeEvent_alertMask _ _ _ _ _ p
@[simp] theorem port_deviceEvent_response (t : Time) (b : EventBody) (s : State) (p : Port) : ((deviceEvent t b s).port p).response = (s.port p).response := port_writeEvent_response _ _ _ _ _ p
@[simp] theorem port_deviceEvent_dataOut (t : Time) (b : EventBody) (s : State) (p : Port) : ((deviceEvent t b s).port p).dataOut = (s.port p).dataOut := port_writeEvent_dataOut _ _ _ _ _ p
@[simp] theorem attached_deviceEvent (t : Time) (b : EventBody) (s : State) (p : Port) : (deviceEvent t b s).attached p = s.attached p := by simp [State.attached]

@[simp] theorem attached_setLine (s : State) (l : LineNo) (r : Line) (p : Port) : (s.setLine l r).attached p = s.attached p := by
  simp [State.attached]

@[simp] theorem attached_modLine (s : State) (l : LineNo) (f : Line → Line) (p : Port) : (s.modLine l f).attached p = s.attached p := by
  simp [State.attached]

@[simp] theorem port_recordOut_self (p : Port) (n : Nat) (s : State) :
    (recordOut p n s).port p = { s.port p with dataOut := shiftOut (s.port p).response n } := by simp [recordOut]

@[simp] theorem port_recordOut_ne (p : Port) (n : Nat) (s : State) {q : Port} (h : q ≠ p) : (recordOut p n s).port q = s.port q := by
  simp [recordOut, h]

@[simp] theorem port_respond_self (p : Port) (c : Byte) (x : Status) (y : List Byte) (s : State) :
    (respond p c x y s).port p = { s.port p with response := statusByte x :: c :: byteOf y.length :: y } := by simp [respond]

@[simp] theorem port_respond_ne (p : Port) (c : Byte) (x : Status) (y : List Byte) (s : State) {q : Port} (h : q ≠ p) :
    (respond p c x y s).port q = s.port q := by simp [respond, h]

@[simp] theorem attached_recordOut (p : Port) (n : Nat) (s : State) (q : Port) : (recordOut p n s).attached q = s.attached q := by
  by_cases h : q = p
  · subst h; simp [State.attached]
  · simp [State.attached, h]

@[simp] theorem attached_respond (p : Port) (c : Byte) (x : Status) (y : List Byte) (s : State) (q : Port) :
    (respond p c x y s).attached q = s.attached q := by
  by_cases h : q = p
  · subst h; simp [State.attached]
  · simp [State.attached, h]

@[simp] theorem gap_recordOut (p : Port) (n : Nat) (s : State) (q : Port) : ((recordOut p n s).port q).gap = (s.port q).gap := by
  by_cases h : q = p
  · subst h; simp
  · simp [h]

@[simp] theorem gap_respond (p : Port) (c : Byte) (x : Status) (y : List Byte) (s : State) (q : Port) :
    ((respond p c x y s).port q).gap = (s.port q).gap := by
  by_cases h : q = p
  · subst h; simp
  · simp [h]

@[simp] theorem attachedPorts_recordOut (p : Port) (n : Nat) (s : State) : (recordOut p n s).attachedPorts = s.attachedPorts := by
  simp [State.attachedPorts]

@[simp] theorem attachedControllers_recordOut (p : Port) (n : Nat) (s : State) :
    (recordOut p n s).attachedControllers = s.attachedControllers := by simp [State.attachedControllers]

@[simp] theorem linePorts_recordOut (p : Port) (n : Nat) (s : State) (l : LineNo) : (recordOut p n s).linePorts l = s.linePorts l := by
  simp [State.linePorts]

@[simp] theorem holdPorts_recordOut (p : Port) (n : Nat) (s : State) (l : LineNo) : (recordOut p n s).holdPorts l = s.holdPorts l := by
  simp [State.holdPorts]

end Sys2Proof.Machine
end

