-- ==== Sys2Proof/Laws/Requests.lean ====
section
/-! SUPPORT. How a request is served: the payload of a whole frame, the judgement of R185, and the bytes of a line number. -/

namespace Sys2Proof.Machine

@[simp] theorem byteOf_toNat (n : Nat) : (byteOf n).toNat = n % 256 := by simp [byteOf]

/-- A whole frame's payload is taken, whatever fill follows it (R185 step 2). -/
theorem framePayload_frameTail (payload fill : List Byte) {len : Nat} (h : payload.length = len) (h62 : len ≤ 62) :
    framePayload len (frameTail payload fill) = some payload := by
  subst h
  have h1 : payload.length % 256 = payload.length := by omega
  unfold framePayload frameTail
  simp only [Config.transactionMax, List.take_succ_cons, byteOf_toNat, h1, true_and]
  have h2 : payload.length ≤ ((payload ++ fill).take 62).length := by
    simp only [List.length_take, List.length_append]; omega
  rw [if_pos h2]
  simp [List.take_take, Nat.min_eq_left h62]

/-- The length of a whole frame is good (R185 step 2). -/
theorem lengthGood_frameTail (payload fill : List Byte) (h62 : payload.length ≤ 62) :
    lengthGood payload.length (frameTail payload fill) := by
  have h1 : payload.length % 256 = payload.length := by omega
  refine ⟨by simp [frameTail, h1], by simp [frameTail]⟩

/-- A frame whose length is not good has no payload (R185 step 2). -/
theorem framePayload_none {len : Nat} {tail : List Byte} (h62 : len ≤ 62) (h : ¬ lengthGood len tail) : framePayload len tail = none := by
  cases tail with
  | nil => rfl
  | cons l rest =>
    unfold framePayload
    simp only [Config.transactionMax, List.take_succ_cons]
    rw [if_neg]
    rintro ⟨h1, h2⟩
    refine h ⟨by simp [h1], ?_⟩
    simp only [List.length_take] at h2
    simp only [List.length_cons]; omega

/-- A frame whose length is good has a payload of that length (R185 step 2). -/
theorem framePayload_some {len : Nat} {tail : List Byte} (h62 : len ≤ 62) (h : lengthGood len tail) :
    ∃ pl, framePayload len tail = some pl ∧ pl.length = len := by
  cases tail with
  | nil => simp [lengthGood] at h
  | cons l rest =>
    obtain ⟨h1, h2⟩ := h
    simp only [List.head?_cons, Option.map_some, Option.some.injEq] at h1
    simp only [List.length_cons] at h2
    refine ⟨(rest.take 62).take len, ?_, ?_⟩
    · unfold framePayload
      simp only [Config.transactionMax, List.take_succ_cons]
      rw [if_pos]
      refine ⟨h1, ?_⟩
      simp only [List.length_take]; omega
    · simp only [List.length_take]; omega

/-- A request with a whole frame, on a port that may send it and is attached, or with a code served in every state, is answered by its own
rule (R185 step 5). -/
theorem serve_rule {p : Port} {code : Byte} {len : Nat} {a : Access} (payload fill : List Byte) (body : List Byte → State → Reply)
    {s : State} (hlen : payload.length = len) (h62 : len ≤ 62) (hp : permitted p a = true)
    (ha : s.attached p = true ∨ openCode code = true) :
    serve p code len a (frameTail payload fill) body s =
      .next (respond p code (body payload (recordOut p (frameBytes payload fill) s)).status
        (body payload (recordOut p (frameBytes payload fill) s)).payload
        (body payload (recordOut p (frameBytes payload fill) s)).state) := by
  have hj : ∀ u : State, u.attached p = s.attached p → judge p code len a (frameTail payload fill) body u = body payload u := by
    intro u hu
    unfold judge
    rw [framePayload_frameTail payload fill hlen h62]
    rcases ha with ha | ha <;> simp [hp, hu, ha]
  unfold serve
  rw [hj _ (attached_recordOut _ _ _ _)]
  rfl

/-- A request on a line: a line number 0..63 passes the check of R1. -/
theorem withLine_line (l : LineNo) (s : State) (f : LineNo → Reply) : withLine (byteOf l.val) s f = f l := by
  unfold withLine
  have h : (byteOf l.val).toNat = l.val := by simp; omega
  rw [dif_pos (by rw [h]; exact l.isLt)]
  congr 1
  exact Fin.ext h

/-- A line number above 63 is refused (R1). -/
theorem withLine_bad {b : Byte} (h : 63 < b.toNat) (s : State) (f : LineNo → Reply) : withLine b s f = deny .badLine s := by
  unfold withLine
  rw [dif_neg (by omega)]

@[simp] theorem arg_cons_zero (b : Byte) (pl : List Byte) : arg (b :: pl) 0 = b := rfl

@[simp] theorem arg_cons_succ (b : Byte) (pl : List Byte) (i : Nat) : arg (b :: pl) (i + 1) = arg pl i := rfl

@[simp] theorem deny_status (st : Status) (s : State) : (deny st s).status = st := rfl
@[simp] theorem deny_payload (st : Status) (s : State) : (deny st s).payload = [] := rfl
@[simp] theorem deny_state (st : Status) (s : State) : (deny st s).state = s := rfl
@[simp] theorem accept_status (s : State) : (accept s).status = .ok := rfl
@[simp] theorem accept_payload (s : State) : (accept s).payload = [] := rfl
@[simp] theorem accept_state (s : State) : (accept s).state = s := rfl

/-- What a request's transaction leaves in the ports' buffers, whatever its rule does to the state, as long as the rule leaves the buffers
alone (R184). -/
theorem replies_respond {p : Port} {code : Byte} {st : Status} {payload : List Byte} {n : Nat} {s u : State}
    (h : BuffersKept (recordOut p n s) u) : Replies p code st payload n s (respond p code st payload u) := by
  refine ⟨by simp, ?_, fun q hq => ?_⟩
  · simpa using (h p).2
  · simpa [hq] using h q

end Sys2Proof.Machine
end

