-- ==== Sys2Proof/Laws/Transactions.lean ====
section
/-! SUPPORT. A transaction's data out stands apart from what its request does: recording it commutes with the shared operations, so
that a request's effect may be stated on the state before the transaction. -/

namespace Sys2Proof.Machine

/-- A change of a state that touches no port commutes with the recording of data out. -/
theorem recordOut_apart (p : Port) (n : Nat) (s : State) (f : State → State)
    (h : ∀ a b t, f { s with portA := a, portB := b, portT := t } = { f s with portA := a, portB := b, portT := t }) :
    f (recordOut p n s) = recordOut p n (f s) := by
  have hs := h s.portA s.portB s.portT
  have e : ({ s with portA := s.portA, portB := s.portB, portT := s.portT } : State) = s := rfl
  rw [e] at hs
  have ha : (f s).portA = s.portA := by rw [hs]
  have hb : (f s).portB = s.portB := by rw [hs]
  have ht : (f s).portT = s.portT := by rw [hs]
  cases p
  · have := h { s.portA with dataOut := shiftOut s.portA.response n } s.portB s.portT
    unfold recordOut State.setPort State.port
    simp only [ha]
    exact this.trans (by rw [← hb, ← ht])
  · have := h s.portA { s.portB with dataOut := shiftOut s.portB.response n } s.portT
    unfold recordOut State.setPort State.port
    simp only [hb]
    exact this.trans (by rw [← ha, ← ht])
  · have := h s.portA s.portB { s.portT with dataOut := shiftOut s.portT.response n }
    unfold recordOut State.setPort State.port
    simp only [ht]
    exact this.trans (by rw [← ha, ← hb])

/-! ### Plain updates -/

variable (p : Port) (n : Nat) (s : State)

@[simp] theorem setLine_recordOut (l : LineNo) (r : Line) : (recordOut p n s).setLine l r = recordOut p n (s.setLine l r) :=
  recordOut_apart p n s (fun u => u.setLine l r) (fun _ _ _ => rfl)

@[simp] theorem modLine_recordOut (l : LineNo) (f : Line → Line) : (recordOut p n s).modLine l f = recordOut p n (s.modLine l f) :=
  recordOut_apart p n s (fun u => u.modLine l f) (fun _ _ _ => rfl)

@[simp] theorem setDet_recordOut (d : DetNo) (r : Detector) : (recordOut p n s).setDet d r = recordOut p n (s.setDet d r) :=
  recordOut_apart p n s (fun u => u.setDet d r) (fun _ _ _ => rfl)

@[simp] theorem setQueue_recordOut (q : List LineNo) : (recordOut p n s).setQueue q = recordOut p n (s.setQueue q) :=
  recordOut_apart p n s (fun u => u.setQueue q) (fun _ _ _ => rfl)

@[simp] theorem setStatus_recordOut (l : LineNo) (d : DetStatus) : (recordOut p n s).setStatus l d = recordOut p n (s.setStatus l d) :=
  recordOut_apart p n s (fun u => u.setStatus l d) (fun _ _ _ => rfl)

@[simp] theorem setSw_recordOut (m : SweepNo) (w : Sweep) : (recordOut p n s).setSw m w = recordOut p n (s.setSw m w) :=
  recordOut_apart p n s (fun u => u.setSw m w) (fun _ _ _ => rfl)

@[simp] theorem setShadow_recordOut (m : ShadowNo) (v : Option Shadow) : (recordOut p n s).setShadow m v = recordOut p n (s.setShadow m v) :=
  recordOut_apart p n s (fun u => u.setShadow m v) (fun _ _ _ => rfl)

@[simp] theorem setTimeslot_recordOut (l : LineNo) (x : Option Timeslot) :
    (recordOut p n s).setTimeslot l x = recordOut p n (s.setTimeslot l x) :=
  recordOut_apart p n s (fun u => u.setTimeslot l x) (fun _ _ _ => rfl)

theorem putStore_recordOut (x : Store) : ({ recordOut p n s with store := x } : State) = recordOut p n { s with store := x } :=
  recordOut_apart p n s (fun u => { u with store := x }) (fun _ _ _ => rfl)

theorem putPool_recordOut (x : TonePool) : ({ recordOut p n s with pool := x } : State) = recordOut p n { s with pool := x } :=
  recordOut_apart p n s (fun u => { u with pool := x }) (fun _ _ _ => rfl)

theorem putBat_recordOut (x : Battery) : ({ recordOut p n s with bat := x } : State) = recordOut p n { s with bat := x } :=
  recordOut_apart p n s (fun u => { u with bat := x }) (fun _ _ _ => rfl)

theorem putTest_recordOut (x : TestUnit) : ({ recordOut p n s with test := x } : State) = recordOut p n { s with test := x } :=
  recordOut_apart p n s (fun u => { u with test := x }) (fun _ _ _ => rfl)

theorem putSweep_recordOut (x : SweepUnit) : ({ recordOut p n s with sweep := x } : State) = recordOut p n { s with sweep := x } :=
  recordOut_apart p n s (fun u => { u with sweep := x }) (fun _ _ _ => rfl)

theorem putScan_recordOut (x : Scan) : ({ recordOut p n s with scan := x } : State) = recordOut p n { s with scan := x } :=
  recordOut_apart p n s (fun u => { u with scan := x }) (fun _ _ _ => rfl)

theorem putJournal_recordOut (x : List Entry) : ({ recordOut p n s with journal := x } : State) = recordOut p n { s with journal := x } :=
  recordOut_apart p n s (fun u => { u with journal := x }) (fun _ _ _ => rfl)

/-! ### Reads that see no port -/

@[simp] theorem derivedMode_recordOut (l : LineNo) : (recordOut p n s).derivedMode l = s.derivedMode l := by
  simp [State.derivedMode, State.heldMode, State.plainMode, State.isolated, State.itemOn]

@[simp] theorem freeDet_recordOut : (recordOut p n s).freeDet = s.freeDet := by simp [State.freeDet]
@[simp] theorem lockedCount_recordOut : (recordOut p n s).lockedCount = s.lockedCount := by simp [State.lockedCount]
@[simp] theorem assignedCount_recordOut : (recordOut p n s).assignedCount = s.assignedCount := by simp [State.assignedCount]
@[simp] theorem freeShadow_recordOut : (recordOut p n s).freeShadow = s.freeShadow := by simp [State.freeShadow]
@[simp] theorem faultReason_recordOut (l : LineNo) : (recordOut p n s).faultReason l = s.faultReason l := by simp [State.faultReason]

/-! ### Shared operations -/

@[simp] theorem raiseGaps_recordOut (q : PortSet) : raiseGaps q (recordOut p n s) = recordOut p n (raiseGaps q s) := by
  cases p <;> simp only [recordOut, raiseGaps, State.setPort, State.port] <;> congr 1 <;> split <;> rfl

@[simp] theorem makeRoom_recordOut : makeRoom (recordOut p n s) = recordOut p n (makeRoom s) := by
  unfold makeRoom
  simp only [recordOut_journal]
  split
  · split
    · rfl
    · rw [raiseGaps_recordOut]
      exact putJournal_recordOut _ _ _ _
  · rfl

@[simp] theorem writeEvent_recordOut (q : PortSet) (l : Option LineNo) (t : Time) (b : EventBody) :
    writeEvent q l t b (recordOut p n s) = recordOut p n (writeEvent q l t b s) := by
  unfold writeEvent
  split
  · rfl
  · refine Eq.trans ?_ (putJournal_recordOut p n (makeRoom s) _)
    simp only [makeRoom_recordOut, recordOut_tb, recordOut_journal]

@[simp] theorem lineEvent_recordOut (l : LineNo) (t : Time) (b : EventBody) :
    lineEvent l t b (recordOut p n s) = recordOut p n (lineEvent l t b s) := by simp [lineEvent]

@[simp] theorem deviceEvent_recordOut (t : Time) (b : EventBody) :
    deviceEvent t b (recordOut p n s) = recordOut p n (deviceEvent t b s) := by simp [deviceEvent]

@[simp] theorem sendCommand_recordOut (l : LineNo) (m : FeedMode) (src : SourceOrder) :
    sendCommand l m src (recordOut p n s) = recordOut p n (sendCommand l m src s) :=
  recordOut_apart p n s (fun u => sendCommand l m src u) (fun a b t => by unfold sendCommand; cases bankOf l <;> rfl)

@[simp] theorem recomputeFeedWith_recordOut (src : SourceOrder) (l : LineNo) :
    recomputeFeedWith src l (recordOut p n s) = recordOut p n (recomputeFeedWith src l s) := by
  simp only [recomputeFeedWith, derivedMode_recordOut, line_recordOut, modLine_recordOut, sendCommand_recordOut]
  split <;> rfl

@[simp] theorem recomputeFeed_recordOut (l : LineNo) : recomputeFeed l (recordOut p n s) = recordOut p n (recomputeFeed l s) := by
  simp [recomputeFeed]

@[simp] theorem assignDet_recordOut (d : DetNo) (l : LineNo) (b : Bool) : assignDet d l b (recordOut p n s) = recordOut p n (assignDet d l b s) := by
  simp [assignDet]

@[simp] theorem handOn_recordOut (d : DetNo) : handOn d (recordOut p n s) = recordOut p n (handOn d s) := by
  unfold handOn
  simp only [recordOut_pool]
  split <;> simp

@[simp] theorem releaseDet_recordOut (d : DetNo) (l : LineNo) : releaseDet d l (recordOut p n s) = recordOut p n (releaseDet d l s) := by
  simp [releaseDet]

@[simp] theorem leaveQueue_recordOut (l : LineNo) : leaveQueue l (recordOut p n s) = recordOut p n (leaveQueue l s) := by simp [leaveQueue]

@[simp] theorem releaseUnlocked_recordOut (l : LineNo) : releaseUnlocked l (recordOut p n s) = recordOut p n (releaseUnlocked l s) := by
  unfold releaseUnlocked
  simp only [line_recordOut]
  split <;> simp

@[simp] theorem releaseAny_recordOut (l : LineNo) : releaseAny l (recordOut p n s) = recordOut p n (releaseAny l s) := by
  unfold releaseAny
  simp only [line_recordOut]
  split <;> simp

@[simp] theorem recordDigit_recordOut (l : LineNo) (c : DigitCode) (m : DigitMethod) (t : Time) :
    recordDigit l c m t (recordOut p n s) = recordOut p n (recordDigit l c m t s) := by
  unfold recordDigit
  simp only [line_recordOut]
  repeat' split
  all_goals simp

@[simp] theorem completeDigit_recordOut (l : LineNo) : completeDigit l (recordOut p n s) = recordOut p n (completeDigit l s) := by
  simp [completeDigit]

@[simp] theorem enterBlocked_recordOut (l : LineNo) : enterBlocked l (recordOut p n s) = recordOut p n (enterBlocked l s) := by
  unfold enterBlocked
  simp only [line_recordOut]
  split <;> simp

@[simp] theorem followReasons_recordOut (l : LineNo) (a b : Reasons) :
    followReasons l a b (recordOut p n s) = recordOut p n (followReasons l a b s) := by
  unfold followReasons
  simp only [line_recordOut]
  repeat' split
  all_goals simp

@[simp] theorem setReasons_recordOut (l : LineNo) (r : Reasons) : setReasons l r (recordOut p n s) = recordOut p n (setReasons l r s) := by
  unfold setReasons
  simp only [line_recordOut]
  split <;> simp

@[simp] theorem recomputeReason_recordOut (l : LineNo) : recomputeReason l (recordOut p n s) = recordOut p n (recomputeReason l s) := by
  simp [recomputeReason]

/-- An operation on each line of a list commutes with the recording of data out when the operation does. -/
theorem forLines_recordOut (ls : List LineNo) (f : LineNo → State → State)
    (h : ∀ l u, f l (recordOut p n u) = recordOut p n (f l u)) : forLines ls f (recordOut p n s) = recordOut p n (forLines ls f s) := by
  unfold forLines
  induction ls generalizing s with
  | nil => rfl
  | cons l ls ih => simp only [List.foldl_cons, h, ih]

@[simp] theorem writeStore_recordOut (w : Port) (i : StoreItem) (st : Store) :
    writeStore w i st (recordOut p n s) = recordOut p n (writeStore w i st s) := by
  unfold writeStore
  rw [now_recordOut, putStore_recordOut]
  dsimp only
  rw [deviceEvent_recordOut]
  have e : ∀ l u, recomputeAutoBlock (recordOut p n s) (recordOut p n { s with store := st }) l u =
      recomputeAutoBlock s { s with store := st } l u := by
    intro l u
    simp only [recomputeAutoBlock, effective_recordOut]
  rw [show recomputeAutoBlock (recordOut p n s) (recordOut p n { s with store := st }) = recomputeAutoBlock s { s with store := st } from
    funext fun l => funext fun u => e l u]
  refine forLines_recordOut p n _ _ _ ?_
  intro l u
  unfold recomputeAutoBlock
  split <;> simp

end Sys2Proof.Machine
end

