-- ==== Sys2Proof/Laws/Events.lean ====
section
/-! SUPPORT. Writing an event stands apart from the line records, the Tone Pool and the feed-control links: it commutes with their
updates, so that the parts of a command's effect may be put in one order. -/

namespace Sys2Proof.Machine

variable (s : State) (q : PortSet) (o : Option LineNo) (t : Time) (b : EventBody)

/-- A write of the same line twice keeps the second. -/
@[simp] theorem setLine_setLine (l : LineNo) (r r' : Line) : (s.setLine l r).setLine l r' = s.setLine l r' := by
  unfold State.setLine
  congr 1
  exact Vector.ext fun i hi => by simp [Vector.getElem_set]

/-- Writing a line's own record back changes nothing. -/
@[simp] theorem setLine_line (l : LineNo) : s.setLine l (s.line l) = s := by
  have : s.lines.set l (s.line l) = s.lines := by
    refine Vector.ext fun i hi => ?_
    simp only [State.line, Vector.getElem_set]
    split
    · rename_i h; subst h; rfl
    · rfl
  unfold State.setLine
  rw [this]

/-- The pending set of a line's event sees only the subscription of the line (R3). -/
theorem linePorts_setLine (l m : LineNo) (r : Line) (h : r.subscription = (s.line l).subscription) :
    (s.setLine l r).linePorts m = s.linePorts m := by
  by_cases hm : m = l
  · subst hm; simp [State.linePorts, h, State.attached]
  · simp [State.linePorts, hm, State.attached]

/-- A state update apart from the journal, the gap counts and the Time Base commutes with the writing of an event. -/
theorem writeEvent_apart (f : State → State)
    (h : ∀ u : State, ∀ j x y z, f { u with journal := j, portA := x, portB := y, portT := z }
      = { f u with journal := j, portA := x, portB := y, portT := z })
    (hk : ∀ u : State, (f u).journal = u.journal ∧ (f u).portA = u.portA ∧ (f u).portB = u.portB ∧ (f u).portT = u.portT ∧ (f u).tb = u.tb) :
    f (writeEvent q o t b s) = writeEvent q o t b (f s) := by
  obtain ⟨h1, h2, h3, h4, h5⟩ := hk s
  unfold writeEvent
  split
  · rfl
  · have hm : makeRoom (f s) = f (makeRoom s) := by
      unfold makeRoom raiseGaps
      rw [h1]
      split
      · split
        · rfl
        · dsimp only
          simp only [h2, h3, h4]
          exact (h s _ _ _ _).symm
      · rfl
    dsimp only
    rw [hm]
    obtain ⟨g1, g2, g3, g4, g5⟩ := hk (makeRoom s)
    refine (h (makeRoom s) _ _ _ _).trans ?_
    simp only [g1, g2, g3, g4, g5]

@[simp] theorem writeEvent_setLine (l : LineNo) (r : Line) :
    (writeEvent q o t b s).setLine l r = writeEvent q o t b (s.setLine l r) :=
  writeEvent_apart s q o t b (fun u => u.setLine l r) (fun _ _ _ _ _ => rfl) (fun _ => ⟨rfl, rfl, rfl, rfl, rfl⟩)

@[simp] theorem writeEvent_modLine (l : LineNo) (f : Line → Line) :
    (writeEvent q o t b s).modLine l f = writeEvent q o t b (s.modLine l f) :=
  writeEvent_apart s q o t b (fun u => u.modLine l f) (fun _ _ _ _ _ => rfl) (fun _ => ⟨rfl, rfl, rfl, rfl, rfl⟩)

@[simp] theorem writeEvent_setDet (d : DetNo) (r : Detector) :
    (writeEvent q o t b s).setDet d r = writeEvent q o t b (s.setDet d r) :=
  writeEvent_apart s q o t b (fun u => u.setDet d r) (fun _ _ _ _ _ => rfl) (fun _ => ⟨rfl, rfl, rfl, rfl, rfl⟩)

@[simp] theorem writeEvent_setQueue (ls : List LineNo) :
    (writeEvent q o t b s).setQueue ls = writeEvent q o t b (s.setQueue ls) :=
  writeEvent_apart s q o t b (fun u => u.setQueue ls) (fun _ _ _ _ _ => rfl) (fun _ => ⟨rfl, rfl, rfl, rfl, rfl⟩)

@[simp] theorem writeEvent_setSw (n : SweepNo) (w : Sweep) :
    (writeEvent q o t b s).setSw n w = writeEvent q o t b (s.setSw n w) :=
  writeEvent_apart s q o t b (fun u => u.setSw n w) (fun _ _ _ _ _ => rfl) (fun _ => ⟨rfl, rfl, rfl, rfl, rfl⟩)

end Sys2Proof.Machine
end

