-- ==== Sys2Proof/Laws/Others.lean ====
section
/-! SUPPORT. What the operations on one line do to the other lines: nothing but a detector that is handed on to one that waits. -/

namespace Sys2Proof.Machine

theorem others_refl (l : LineNo) (s : State) : OtherLinesButDetector l s s := fun _ _ => rfl

theorem others_trans {l : LineNo} {s t u : State} (h : OtherLinesButDetector l s t) (k : OtherLinesButDetector l t u) :
    OtherLinesButDetector l s u := by
  intro m hm
  rw [← h m hm, ← k m hm]

/-- An operation after one that leaves the other lines alone. -/
theorem others_then {l : LineNo} {s u : State} (f : State → State) (h : OtherLinesButDetector l s u)
    (k : ∀ v, OtherLinesButDetector l v (f v)) : OtherLinesButDetector l s (f u) := others_trans h (k u)

/-- A state with the same lines. -/
theorem others_lines {l : LineNo} {s t : State} (h : t.lines = s.lines) : OtherLinesButDetector l s t := by
  intro m _
  simp [State.line, h]

theorem others_setLine (l : LineNo) (r : Line) (s : State) : OtherLinesButDetector l s (s.setLine l r) := by
  intro m hm
  simp [hm]

theorem others_modLine (l : LineNo) (f : Line → Line) (s : State) : OtherLinesButDetector l s (s.modLine l f) := others_setLine l _ s

theorem others_setStatus (l m : LineNo) (d : DetStatus) (s : State) : OtherLinesButDetector l s (s.setStatus m d) := by
  intro x hx
  by_cases h : x = m
  · subst h; simp [State.setStatus, State.modLine]
  · simp [State.setStatus, State.modLine, h]

theorem others_assignDet (l m : LineNo) (d : DetNo) (b : Bool) (s : State) : OtherLinesButDetector l s (assignDet d m b s) :=
  others_trans (others_lines rfl) (others_setStatus l m _ _)

theorem others_handOn (l : LineNo) (d : DetNo) (s : State) : OtherLinesButDetector l s (handOn d s) := by
  unfold handOn
  split
  · exact others_refl l s
  · exact others_trans (others_lines rfl) (others_assignDet l _ d false _)

theorem others_releaseDet (l m : LineNo) (d : DetNo) (s : State) : OtherLinesButDetector l s (releaseDet d m s) :=
  others_trans (others_trans (others_lines rfl) (others_setStatus l m _ _)) (others_handOn l d _)

theorem others_leaveQueue (l m : LineNo) (s : State) : OtherLinesButDetector l s (leaveQueue m s) :=
  others_trans (others_lines rfl) (others_setStatus l m _ _)

theorem others_releaseUnlocked (l m : LineNo) (s : State) : OtherLinesButDetector l s (releaseUnlocked m s) := by
  unfold releaseUnlocked
  split
  · exact others_releaseDet l m _ s
  · exact others_leaveQueue l m s
  · exact others_refl l s
  · exact others_refl l s

theorem others_releaseAny (l m : LineNo) (s : State) : OtherLinesButDetector l s (releaseAny m s) := by
  unfold releaseAny
  split
  · exact others_releaseDet l m _ s
  · exact others_releaseDet l m _ s
  · exact others_leaveQueue l m s
  · exact others_refl l s

theorem others_requestDet (l m : LineNo) (s : State) : OtherLinesButDetector l s (requestDet m s) := by
  unfold requestDet
  split
  · exact others_assignDet l m _ false s
  · exact others_trans (others_lines rfl) (others_setStatus l m _ _)

theorem others_writeEvent (l : LineNo) (q : PortSet) (o : Option LineNo) (t : Time) (b : EventBody) (s : State) :
    OtherLinesButDetector l s (writeEvent q o t b s) := others_lines (by simp)

theorem others_lineEvent (l m : LineNo) (t : Time) (b : EventBody) (s : State) : OtherLinesButDetector l s (lineEvent m t b s) :=
  others_lines (by simp)

theorem others_recomputeFeedWith (l : LineNo) (o : SourceOrder) (s : State) : OtherLinesButDetector l s (recomputeFeedWith o l s) := by
  unfold recomputeFeedWith
  dsimp only
  split
  · exact others_refl l s
  · exact others_trans (others_modLine l (noteMode (s.derivedMode l)) s) (others_lines (by simp))

theorem others_recomputeFeed (l : LineNo) (s : State) : OtherLinesButDetector l s (recomputeFeed l s) := others_recomputeFeedWith l .none s

theorem others_rebeginSlot (l : LineNo) (s : State) : OtherLinesButDetector l s (rebeginSlot l s) := by
  unfold rebeginSlot
  split
  · split
    · exact others_modLine l _ s
    · exact others_refl l s
  · exact others_refl l s

/-! ### Digits -/

theorem others_recordDigit (l : LineNo) (c : DigitCode) (m : DigitMethod) (t : Time) (s : State) :
    OtherLinesButDetector l s (recordDigit l c m t s) := by
  unfold recordDigit
  dsimp only
  split
  · exact others_trans (others_setLine l _ s) (others_lineEvent l l _ _ _)
  · split
    · exact others_lineEvent l l _ _ s
    · exact others_trans (others_trans (others_setLine l _ s) (others_lineEvent l l _ _ _)) (others_lineEvent l l _ _ _)

theorem others_completeDigit (l : LineNo) (s : State) : OtherLinesButDetector l s (completeDigit l s) :=
  others_trans (others_setLine l _ s) (others_recordDigit l _ _ _ _)

theorem others_takeInterdigit (l : LineNo) (s : State) : OtherLinesButDetector l s (takeInterdigit l s) := by
  unfold takeInterdigit
  split
  · exact others_modLine l _ s
  · exact others_completeDigit l s

theorem others_noticeBreak (l : LineNo) (t : Time) (s : State) : OtherLinesButDetector l s (noticeBreak l t s) := by
  unfold noticeBreak
  split
  · split
    · exact others_refl l s
    · exact others_takeInterdigit l s
  · exact others_refl l s

theorem others_takePulse (l : LineNo) (b m : Time) (s : State) : OtherLinesButDetector l s (takePulse l b m s) := by
  unfold takePulse
  dsimp only
  split
  · exact others_setLine l _ s
  · split
    · exact others_setLine l _ s
    · split
      · exact others_setLine l _ s
      · exact others_trans (others_setLine l _ s) (others_lineEvent l l _ _ _)

theorem others_toneDigit (l : LineNo) (c : DigitCode) (t : Time) (s : State) : OtherLinesButDetector l s (toneDigit l c t s) := by
  unfold toneDigit
  split
  · exact others_trans (others_modLine l _ s) (others_recordDigit l _ _ _ _)
  · exact others_lineEvent l l _ _ s
  all_goals exact others_refl l s

theorem others_raisePermanentLoop (l : LineNo) (t : Time) (s : State) : OtherLinesButDetector l s (raisePermanentLoop l t s) := by
  unfold raisePermanentLoop
  dsimp only
  split
  · exact others_modLine l _ s
  · exact others_trans (others_modLine l _ s) (others_lineEvent l l _ _ _)

theorem others_clearPermanentLoop (l : LineNo) (s : State) : OtherLinesButDetector l s (clearPermanentLoop l s) := by
  unfold clearPermanentLoop
  dsimp only
  split
  · exact others_trans (others_modLine l _ s) (others_lineEvent l l _ _ _)
  · exact others_modLine l _ s

/-! ### BLOCKED, faults -/

theorem others_enterBlocked (l : LineNo) (s : State) : OtherLinesButDetector l s (enterBlocked l s) := by
  unfold enterBlocked
  split
  · exact others_modLine l _ s
  · exact others_trans (others_modLine l _ s) (others_releaseUnlocked l l _)
  · exact others_trans (others_modLine l _ s) (others_releaseUnlocked l l _)
  · exact others_trans (others_modLine l _ s) (others_recomputeFeed l _)
  · exact others_modLine l _ s
  · exact others_modLine l _ s
  · exact others_refl l s

theorem others_followReasons (l : LineNo) (a b : Reasons) (s : State) : OtherLinesButDetector l s (followReasons l a b s) := by
  unfold followReasons
  split
  · exact others_refl l s
  · split
    · exact others_enterBlocked l s
    · split
      · exact others_modLine l _ s
      · exact others_refl l s

theorem others_setReasons (l : LineNo) (q : Reasons) (s : State) : OtherLinesButDetector l s (setReasons l q s) := by
  unfold setReasons
  dsimp only
  split
  · exact others_refl l s
  · exact others_trans (others_trans (others_modLine l _ s) (others_lineEvent l l _ _ _)) (others_followReasons l _ _ _)

theorem others_recomputeReason (l : LineNo) (s : State) : OtherLinesButDetector l s (recomputeReason l s) := others_setReasons l _ s

theorem others_countOne (l : LineNo) (t : Time) (o : FaultKind × Verdict) (s : State) : OtherLinesButDetector l s (countOne l t o s) := by
  unfold countOne
  dsimp only
  split
  · exact others_trans (others_modLine l _ s) (others_lineEvent l l _ _ _)
  · exact others_trans (others_modLine l _ s) (others_lineEvent l l _ _ _)
  · exact others_modLine l _ s

theorem others_countAll (l : LineNo) (t : Time) (os : List (FaultKind × Verdict)) (s : State) :
    OtherLinesButDetector l s (os.foldl (fun s o => countOne l t o s) s) := by
  induction os generalizing s with
  | nil => exact others_refl l s
  | cons o os ih => exact others_trans (others_countOne l t o s) (ih _)

theorem others_countGroup (l : LineNo) (t : Time) (os : List (FaultKind × Verdict)) (s : State) :
    OtherLinesButDetector l s (countGroup l t os s) := by
  unfold countGroup
  dsimp only
  split
  · exact others_refl l s
  · have h1 := others_countAll l t os s
    have h2 : OtherLinesButDetector l s
        (if standing (s.line l).faults = standing ((os.foldl (fun s o => countOne l t o s) s).line l).faults
          then os.foldl (fun s o => countOne l t o s) s else recomputeReason l (os.foldl (fun s o => countOne l t o s) s)) := by
      split
      · exact h1
      · exact others_trans h1 (others_recomputeReason l _)
    split
    · exact h2
    · exact others_trans h2 (others_recomputeFeed l _)

/-! ### The hook -/

theorem others_seizeDetector (l : LineNo) (t : Time) (s : State) : OtherLinesButDetector l s (seizeDetector l t s) := by
  unfold seizeDetector
  dsimp only
  split
  · exact others_refl l s
  · split
    · exact others_lineEvent l l _ _ s
    · exact others_requestDet l l s
    all_goals exact others_refl l s

theorem others_clearOpenPair (l : LineNo) (s : State) : OtherLinesButDetector l s (clearOpenPair l s) := by
  unfold clearOpenPair
  dsimp only
  split
  · exact others_trans (others_modLine l _ s) (others_lineEvent l l _ _ _)
  · exact others_modLine l _ s

theorem others_seize (l : LineNo) (t : Time) (s : State) : OtherLinesButDetector l s (seize l t s) :=
  others_trans (others_trans (others_trans (others_modLine l _ s) (others_lineEvent l l _ _ _)) (others_seizeDetector l t _))
    (others_clearOpenPair l _)

theorem others_hangUp (l : LineNo) (t : Time) (w : HangupBy) (s : State) : OtherLinesButDetector l s (hangUp l t w s) :=
  others_trans (others_trans (others_trans (others_modLine l _ s) (others_lineEvent l l _ _ _)) (others_releaseUnlocked l l _))
    (others_clearPermanentLoop l _)

theorem others_openBreak (l : LineNo) (t : Time) (s : State) : OtherLinesButDetector l s (openBreak l t s) := by
  have expiry : ∀ v, OtherLinesButDetector l s v →
      OtherLinesButDetector l s (if expiryDue v.now (v.line l).hangupExpiry then hangUp l t .expiry v else v) := by
    intro v h
    split
    · exact others_trans h (others_hangUp l t .expiry v)
    · exact h
  have notice : ∀ v, OtherLinesButDetector l s v →
      OtherLinesButDetector l s (if (v.line l).state = .dialling then noticeBreak l t v else v) := by
    intro v h
    split
    · exact others_trans h (others_noticeBreak l t v)
    · exact h
  exact expiry _ (notice _ (others_modLine l _ s))

theorem others_makeDialling (l : LineNo) (b t : Time) (dur : Nat) (s : State) : OtherLinesButDetector l s (makeDialling l b t dur s) := by
  unfold makeDialling
  dsimp only
  split
  · exact others_refl l s
  · exact others_takePulse l b t s
  · exact others_trans (others_modLine l _ s) (others_lineEvent l l _ _ _)
  · split
    · exact others_trans (others_trans (others_modLine l _ s) (others_lineEvent l l _ _ _)) (others_lineEvent l l _ _ _)
    · exact others_trans (others_modLine l _ s) (others_lineEvent l l _ _ _)
  · exact others_trans (others_hangUp l b .make s) (others_seize l t _)

theorem others_makeTalk (l : LineNo) (b t : Time) (dur : Nat) (s : State) : OtherLinesButDetector l s (makeTalk l b t dur s) := by
  unfold makeTalk
  split
  · exact others_refl l s
  · exact others_refl l s
  · exact others_refl l s
  · exact others_lineEvent l l _ _ s
  · exact others_trans (others_hangUp l b .make s) (others_seize l t _)

theorem others_makeBreak (l : LineNo) (b t : Time) (s : State) : OtherLinesButDetector l s (makeBreak l b t s) := by
  unfold makeBreak
  dsimp only
  split
  · exact others_trans (others_modLine l _ s) (others_makeDialling l b t _ _)
  · exact others_trans (others_modLine l _ s) (others_makeTalk l b t _ _)

theorem others_confirmRun (l : LineNo) (d : LoopDir) (t : Time) (s : State) : OtherLinesButDetector l s (confirmRun l d t s) := by
  have h1 := others_modLine l (fun r => { r with loop := condOf d, run := none }) s
  unfold confirmRun
  dsimp only
  split
  · exact others_trans h1 (others_seize l t _)
  · exact h1
  · split
    · exact others_trans h1 (others_makeBreak l _ t _)
    · exact h1
  · split
    · exact others_trans h1 (others_makeBreak l _ t _)
    · exact h1
  · exact others_trans h1 (others_openBreak l t _)
  · exact others_trans h1 (others_openBreak l t _)
  · exact h1
  · exact h1
  · exact h1
  · exact h1

theorem others_applyClass (l : LineNo) (c : MeasClass) (t : Time) (s : State) : OtherLinesButDetector l s (applyClass l c t s) := by
  unfold applyClass
  dsimp only
  split
  · exact others_setLine l _ s
  · split
    · exact others_setLine l _ s
    · split
      · exact others_confirmRun l _ _ s
      · exact others_setLine l _ s

theorem others_debounce (l : LineNo) (c : MeasClass) (t : Time) (s : State) : OtherLinesButDetector l s (debounce l c t s) := by
  unfold debounce
  split
  · exact others_trans (others_confirmRun l _ _ s) (others_applyClass l c t _)
  · exact others_applyClass l c t s

theorem others_settle (l : LineNo) (q : Run) (s : State) : OtherLinesButDetector l s (settle l q s) := by
  unfold settle
  dsimp only
  split
  · exact others_trans (others_trans (others_modLine l _ s) (others_lineEvent l l _ _ _)) (others_clearPermanentLoop l _)
  · exact others_trans (others_modLine l _ s) (others_lineEvent l l _ _ _)

theorem others_settleUnstable (l : LineNo) (t : Time) (s : State) : OtherLinesButDetector l s (settleUnstable l t s) :=
  others_trans (others_modLine l _ s) (others_lineEvent l l _ _ _)

theorem others_acquireStep (l : LineNo) (c : MeasClass) (t : Time) (s : State) : OtherLinesButDetector l s (acquireStep l c t s) := by
  unfold acquireStep
  dsimp only
  split
  · exact others_trans (others_setLine l _ s) (others_settle l _ _)
  · split
    · exact others_trans (others_setLine l _ s) (others_settleUnstable l t _)
    · exact others_setLine l _ s

theorem others_acquire (l : LineNo) (c : MeasClass) (t : Time) (s : State) : OtherLinesButDetector l s (acquire l c t s) := by
  unfold acquire
  dsimp only
  split
  · split
    · exact others_trans (others_trans (others_modLine l _ s) (others_modLine l _ _)) (others_acquireStep l c t _)
    · exact others_trans (others_trans (others_modLine l _ s) (others_settle l _ _)) (others_applyClass l c t _)
  · exact others_trans (others_modLine l _ s) (others_acquireStep l c t _)

/-! ### Ringing, measurements -/

theorem others_answer (l : LineNo) (ph : RingPhase) (t : Time) (s : State) : OtherLinesButDetector l s (answer l ph t s) :=
  others_trans (others_trans (others_lineEvent l l _ _ s) (others_modLine l _ _)) (others_recomputeFeed l _)

theorem others_answerStep (l : LineNo) (ph : RingPhase) (c : MeasClass) (t : Time) (s : State) :
    OtherLinesButDetector l s (answerStep l ph c t s) := by
  unfold answerStep
  dsimp only
  split
  · split
    · exact others_answer l ph _ s
    · exact others_setLine l _ s
  · exact others_setLine l _ s
  · exact others_setLine l _ s

theorem others_answerRun (l : LineNo) (ph : RingPhase) (c : MeasClass) (t : Time) (s : State) :
    OtherLinesButDetector l s (answerRun l ph c t s) := by
  unfold answerRun
  split
  · split
    · exact others_answer l _ _ s
    · exact others_trans (others_answer l _ _ s) (others_applyClass l c t _)
  · exact others_answerStep l ph c t s

theorem others_ringMeasurement (l : LineNo) (f : FeedMode) (c : MeasClass) (t : Time) (s : State) :
    OtherLinesButDetector l s (ringMeasurement l f c t s) := by
  unfold ringMeasurement
  split
  · exact others_answerRun l _ c t s
  · exact others_answerRun l _ c t s
  · exact others_refl l s

theorem others_superviseMeasurement (l : LineNo) (f : FeedMode) (c : MeasClass) (t : Time) (s : State) :
    OtherLinesButDetector l s (superviseMeasurement l f c t s) := by
  unfold superviseMeasurement
  split
  · exact others_ringMeasurement l f c t s
  · exact others_acquire l c t s
  · exact others_debounce l c t s
  · exact others_debounce l c t s
  · exact others_debounce l c t s
  · exact others_debounce l c t s
  · exact others_refl l s

theorem others_learn (l : LineNo) (b : Bool) (im : Int) (s : State) : OtherLinesButDetector l s (learn l b im s) := by
  unfold learn
  split
  · exact others_modLine l _ s
  · exact others_refl l s

theorem others_decimate (l : LineNo) (b : Bool) (im il : Int) (t : Time) (s : State) :
    OtherLinesButDetector l s (decimate l b im il t s) := by
  unfold decimate
  dsimp only
  split
  · exact others_trans (others_modLine l _ s) (others_countGroup l t _ _)
  · exact others_modLine l _ s

theorem others_evaluateValid (l : LineNo) (m : LoopSlot) (b : Bool) (im il : Int) (s : State) :
    OtherLinesButDetector l s (evaluateValid l m b im il s) := by
  unfold evaluateValid
  dsimp only
  have h := others_trans (others_superviseMeasurement l m.feed (classOf (s.effective l) m.feed (s.line l).lastMc) m.stamp s)
    (others_learn l b im _)
  split
  · exact h
  · exact others_trans h (others_decimate l b im il _ _)

theorem others_evaluate (l : LineNo) (m : LoopSlot) (it ir : Int) (s : State) : OtherLinesButDetector l s (evaluate l m it ir s) := by
  unfold evaluate
  dsimp only
  split
  · exact others_modLine l _ s
  · exact others_trans (others_modLine l _ s) (others_evaluateValid l m _ _ _ _)

end Sys2Proof.Machine
end

