-- ==== Sys2Proof/Laws/Ops.lean ====
section
/-! SUPPORT. What each shared operation can do, said once: bytes read back, searches, the oscillator, samples, the journal, the feed mode
of a line, requests for a detector, turns of the Sweep Unit. -/

namespace Sys2Proof.Machine

/-! ### Bytes read back (R196) -/

theorem rangeNoOf_byteOf (j : Fin 8) : rangeNoOf (byteOf j.val) = some j := by revert j; decide
theorem profileNoOf_byteOf (n : ProfileNo) : profileNoOf (byteOf n.val) = some n := by revert n; decide
theorem lineNoOf_byteOf (l : LineNo) : lineNoOf (byteOf l.val) = some l := by revert l; decide
theorem timeslotOf_byteOf (x : Timeslot) : timeslotOf (byteOf x.val) = some (some x) := by revert x; decide
theorem yesOf_byteOf (b : Bool) : yesOf (byteOf (yesCode b)) = some b := by revert b; decide
theorem subscriptionOf_byteOf (q : Subscription) : subscriptionOf (byteOf (subscriptionBits q)) = some q := by
  rcases q with ⟨_ | _, _ | _⟩ <;> rfl
theorem itemKindOf_byteOf (k : ItemKind) : itemKindOf (byteOf (itemKindCode k)) = some k := by cases k <;> rfl
theorem sweepKindOf_byteOf (k : SweepKind) : sweepKindOf (byteOf (sweepKindCode k)) = some k := by cases k <;> rfl
theorem releaseModeOf_byteOf (m : ReleaseMode) : releaseModeOf (byteOf (releaseModeCode m)) = some m := by cases m <;> rfl
theorem dialMethodOf_byteOf (m : DialMethod) : dialMethodOf (byteOf (dialMethodCode m)) = some m := by cases m <;> rfl
theorem yesOf_none (b : Byte) : 1 < b.toNat → yesOf b = none := by revert b; decide
theorem releaseModeOf_none (b : Byte) : 1 < b.toNat → releaseModeOf b = none := by revert b; decide
theorem itemKindOf_none (b : Byte) : 3 < b.toNat → itemKindOf b = none := by revert b; decide
theorem rangeNoOf_none (b : Byte) : 7 < b.toNat → rangeNoOf b = none := by revert b; decide
theorem profileNoOf_none (b : Byte) : 7 < b.toNat → profileNoOf b = none := by revert b; decide

/-! ### Searches -/

/-- The lowest-numbered free detector is found (R108). -/
theorem freeDet_some (s : State) (d : DetNo) (h : (s.det d).line = none) (h1 : ∀ e, e < d → (s.det e).line ≠ none) :
    s.freeDet = some d := by
  rw [State.freeDet, allDets, List.find?_eq_some_iff_getElem]
  refine ⟨by simp [h], d.val, by simp, by simp, ?_⟩
  intro j hj
  have := h1 ⟨j, by omega⟩ hj
  simpa [Option.isNone_iff_eq_none, Option.ne_none_iff_isSome] using this

/-- No detector is found when none is free (R108). -/
theorem freeDet_none (s : State) (h : ∀ d, (s.det d).line ≠ none) : s.freeDet = none := by
  rw [State.freeDet, List.find?_eq_none]
  intro d _
  have := h d
  simpa [Option.isNone_iff_eq_none] using this

/-- The lowest-numbered free shadow slot is found (R159). -/
theorem freeShadow_some (s : State) (n : ShadowNo) (h : s.test.shadows[n] = none) (h1 : ∀ m : ShadowNo, m < n → s.test.shadows[m] ≠ none) :
    s.freeShadow = some n := by
  rw [State.freeShadow, List.find?_eq_some_iff_getElem]
  refine ⟨by simpa using h, n.val, by simp, by simp, ?_⟩
  intro j hj
  have := h1 ⟨j, by omega⟩ hj
  simpa [Option.isNone_iff_eq_none, Option.ne_none_iff_isSome] using this

/-- A slot another line holds (R5). -/
theorem slotTaken_iff (s : State) (l : LineNo) (x : Timeslot) :
    s.slotTaken l x = true ↔ ∃ m, m ≠ l ∧ (s.line m).timeslot = some x := by simp [State.slotTaken, allLines]

/-! ### Reports see no buffer -/

theorem statusReport_recordOut (p q : Port) (n : Nat) (s : State) : statusReport p (recordOut q n s) = statusReport p s := by
  have h1 : (recordOut q n s).portA.state = s.portA.state := by cases q <;> rfl
  have h2 : (recordOut q n s).portB.state = s.portB.state := by cases q <;> rfl
  have h3 : (recordOut q n s).portT.state = s.portT.state := by cases q <;> rfl
  simp [statusReport, h1, h2, h3, State.heldCount, State.assignedCount, State.lockedCount, State.pendingFor]

theorem lineReport_recordOut (l : LineNo) (q : Port) (n : Nat) (s : State) : lineReport l (recordOut q n s) = lineReport l s := by
  simp [lineReport]

/-! ### The oscillator and the samples -/

/-- Cycles in which nothing falls due only pass (R171). -/
theorem elapse_quiet (c : Nat) (s : State) (h : c < (nextTbEvent s.tb).2) : elapse c s = advance c s := by
  unfold elapse
  rw [show 2 * c + 4 = (2 * c + 3) + 1 from rfl, elapseWith, if_neg (by omega)]

/-- A detector with a line takes the sample of the line's timeslot (R98). -/
theorem sampleAll_assigned (k : UnitKind) (s : State) (d : DetNo) (l : LineNo) (h : (s.det d).line = some l) :
    (sampleAll k s).det d = takeSample k s.pool.law (s.line l).timeslot s.now (s.det d) := by
  rw [State.det, Fin.getElem_fin] at h
  simp [sampleAll, State.det, h]

/-- A free detector takes none (R98). -/
theorem sampleAll_free (k : UnitKind) (s : State) (d : DetNo) (h : (s.det d).line = none) : (sampleAll k s).det d = s.det d := by
  rw [State.det, Fin.getElem_fin] at h
  simp [sampleAll, State.det, h]

/-! ### The journal -/

/-- The pending set of a line's event is the same after a write (R3). -/
theorem linePorts_writeEvent (q : PortSet) (o : Option LineNo) (t : Time) (b : EventBody) (s : State) (l : LineNo) :
    (writeEvent q o t b s).linePorts l = s.linePorts l := by
  simp [State.linePorts, attached_writeEvent]

theorem holdPorts_writeEvent (q : PortSet) (o : Option LineNo) (t : Time) (b : EventBody) (s : State) (l : LineNo) :
    (writeEvent q o t b s).holdPorts l = s.holdPorts l := by
  simp [State.holdPorts, linePorts_writeEvent, attached_writeEvent]

/-- A port taken out of the pending sets is in none of them, and no entry is left without a port (R186, R188). -/
theorem dropPort_mem (p : Port) (s : State) {e : Entry} (h : e ∈ (dropPort p s).journal) :
    e.pend.has p = false ∧ e.pend.isEmpty = false := by
  simp only [dropPort, List.mem_filter, List.mem_map] at h
  obtain ⟨⟨x, _, rfl⟩, h2⟩ := h
  refine ⟨by cases p <;> rfl, by simpa using h2⟩

/-- The entries READ_EVENTS leaves pending for its port are those beyond the ones it took (R192). -/
theorem takeEntries_pending (p : Port) (n : Nat) (es : List Entry) :
    (takeEntries p n es).filter (fun e => e.pend.has p) = (es.filter (fun e => e.pend.has p)).drop n := by
  induction es generalizing n with
  | nil => cases n <;> rfl
  | cons e es ih =>
    cases n with
    | zero => simp [takeEntries]
    | succ n =>
      unfold takeEntries
      by_cases h : e.pend.has p = true
      · have h' : (e.pend.without p).has p = false := by cases p <;> rfl
        rw [if_pos h]
        dsimp only
        split
        · simp [ih, h]
        · simp [h', ih, h]
      · rw [if_neg h]
        simp [h, ih]

/-! ### Feed modes -/

/-- The derived feed mode of a line sees the line's state, ring phase, Fault Set and test feed mode, the Profile Store and the items in
progress, and nothing else (R35). -/
theorem derivedMode_eq {s t : State} {l : LineNo} (hl : (t.line l).state = (s.line l).state)
    (hr : (t.line l).ringPhase = (s.line l).ringPhase) (hf : (t.line l).faults = (s.line l).faults)
    (ht : (t.line l).testFeed = (s.line l).testFeed) (hs : t.store = s.store) (hi : t.itemOn l = s.itemOn l) :
    t.derivedMode l = s.derivedMode l := by
  simp [State.derivedMode, State.heldMode, State.plainMode, State.isolated, State.effective, State.effectiveNo, hl, hr, hf, ht, hs, hi]

/-- The mode sent last is the derived mode after a recomputation (R36). -/
theorem recomputeFeed_sent (l : LineNo) (s : State) : ((recomputeFeed l s).line l).sentMode = s.derivedMode l := by
  unfold recomputeFeed recomputeFeedWith
  dsimp only
  split
  · rename_i h; exact h.1.symm
  · simp [sendCommand, noteMode, State.modLine]
    split <;> simp [State.line, State.setLine]

/-- A recomputation touches two fields of the line and the line's link (R36, R37). -/
theorem recomputeFeed_line (l : LineNo) (s : State) :
    { (recomputeFeed l s).line l with sentMode := (s.line l).sentMode, recoveryDiscard := (s.line l).recoveryDiscard } = s.line l := by
  unfold recomputeFeed recomputeFeedWith
  dsimp only
  split
  · rfl
  · simp only [sendCommand, noteMode, State.modLine]
    split <;> simp [State.line, State.setLine]

/-! ### Requests for a detector -/

/-- A request takes the lowest free detector, or joins the tail of the Wait Queue (R108). -/
theorem requestDet_cases (l : LineNo) (s : State) :
    (∃ d, s.freeDet = some d ∧ requestDet l s = assignDet d l false s) ∨
    (s.freeDet = none ∧ requestDet l s = (s.setQueue (s.pool.waitQueue ++ [l])).setStatus l .waiting) := by
  unfold requestDet
  cases h : s.freeDet with
  | some d => exact .inl ⟨d, rfl, rfl⟩
  | none => exact .inr ⟨rfl, rfl⟩

/-! ### Reasons -/

/-- A change of the reason set: none, or the set replaced, BLOCK_CHANGED written, and the state's answer (R78 to R82). -/
theorem setReasons_cases (l : LineNo) (q : Reasons) (s : State) :
    (q = (s.line l).reasons ∧ setReasons l q s = s) ∨
    (q ≠ (s.line l).reasons ∧ setReasons l q s = followReasons l (s.line l).reasons q
      (writeEvent (s.linePorts l) (some l) s.now (.blockChanged q) (s.setLine l { s.line l with reasons := q }))) := by
  unfold setReasons
  dsimp only
  by_cases h : (s.line l).reasons = q
  · exact .inl ⟨h.symm, by rw [if_pos h]⟩
  · refine .inr ⟨fun h' => h h'.symm, ?_⟩
    rw [if_neg h]
    simp [lineEvent, State.modLine, linePorts_setLine]

/-! ### A slot made again (R22) -/

/-- What is said of an item's slot last is what counts. -/
@[simp] theorem reseeSlot_reseeSlot (m n : FeedMode) (i : Item) : reseeSlot m (reseeSlot n i) = reseeSlot m i := rfl
@[simp] theorem reseeSlot_seeSlot (m n : FeedMode) (i : Item) : reseeSlot m (seeSlot n i) = seeSlot m i := rfl
@[simp] theorem seeSlot_line (m : FeedMode) (i : Item) : (seeSlot m i).line = i.line := rfl
@[simp] theorem seeSlot_kind (m : FeedMode) (i : Item) : (seeSlot m i).kind = i.kind := rfl
@[simp] theorem seeSlot_origin (m : FeedMode) (i : Item) : (seeSlot m i).origin = i.origin := rfl
@[simp] theorem seeSlot_last (m : FeedMode) (i : Item) : (seeSlot m i).last = i.last := rfl
@[simp] theorem reseeSlot_line (m : FeedMode) (i : Item) : (reseeSlot m i).line = i.line := rfl
@[simp] theorem reseeSlot_kind (m : FeedMode) (i : Item) : (reseeSlot m i).kind = i.kind := rfl
@[simp] theorem reseeSlot_origin (m : FeedMode) (i : Item) : (reseeSlot m i).origin = i.origin := rfl
@[simp] theorem reseeSlot_last (m : FeedMode) (i : Item) : (reseeSlot m i).last = i.last := rfl

/-- What a LOOP slot's start can do to a line: nothing, or a measurement begins. -/
theorem startLoop_cases (k : Nat) (l : LineNo) (s : State) :
    startLoop k l s = s ∨
      (s.measured l = true ∧
        startLoop k l s = s.modLine l (beginMeasuring (s.slotTime k) (s.derivedMode l) (decide (s.bat.feed = .lost)))) := by
  unfold startLoop
  split
  · exact .inr ⟨‹_›, rfl⟩
  · exact .inl rfl

/-- What making a slot again can do: nothing; the line's LOOP slot starts, with no measurement in it; the item's slot is judged again. -/
theorem remakeSlot_cases (l : LineNo) (s : State) :
    remakeSlot l s = s ∨
      (∃ k, s.boundarySlot = some k ∧ k < 32 ∧ l ∈ slotLines k ∧ (s.line l).measuring.map (fun m => m.stamp) ≠ some (s.slotTime k) ∧
        remakeSlot l s = startLoop k l s) ∨
      ∃ k i, s.boundarySlot = some k ∧ 32 ≤ k ∧ s.itemOn l = some i ∧
        remakeSlot l s = s.setBankItem (bankOf l) (some (reseeSlot (s.derivedMode l) i)) := by
  unfold remakeSlot
  split
  · rename_i k hk
    split
    · rename_i h
      unfold remakeLoop
      split
      · rename_i h'
        exact .inr (.inl ⟨k, hk, h, h'.1, h'.2, rfl⟩)
      · exact .inl rfl
    · rename_i h
      unfold remakeItem
      split
      · rename_i i hi
        exact .inr (.inr ⟨k, i, hk, Nat.le_of_not_lt h, hi, rfl⟩)
      · exact .inl rfl
  · exact .inl rfl

/-- Making a slot again touches lines and items in progress only. -/
theorem remakeSlot_frame (l : LineNo) (s : State) : { remakeSlot l s with lines := s.lines, scan := s.scan } = s := by
  rcases remakeSlot_cases l s with h | ⟨k, -, -, -, -, h⟩ | ⟨k, i, -, -, -, h⟩ <;> rw [h]
  · rcases startLoop_cases k l s with h | ⟨-, h⟩ <;> rw [h]
    rfl
  · cases bankOf l <;> rfl

/-- Making a slot again for a line leaves the other lines. -/
theorem remakeSlot_line_ne {l m : LineNo} (s : State) (hm : m ≠ l) : (remakeSlot l s).line m = s.line m := by
  rcases remakeSlot_cases l s with h | ⟨k, -, -, -, -, h⟩ | ⟨k, i, -, -, -, h⟩ <;> rw [h]
  · rcases startLoop_cases k l s with h | ⟨-, h⟩ <;> rw [h]
    exact State.line_modLine_ne s _ hm
  · exact State.line_congr (by simp) m

/-! ### Turns -/

/-- A turn's next holder is eligible, and no end of its pass was taken in the request (R139, R144). -/
theorem nextHolder_eligible {s : State} {ended : List SweepNo} {n : SweepNo} (h : s.nextHolder ended = some n) :
    eligible (s.sw n) = true ∧ n ∉ ended := by
  have := List.find?_some (p := fun m => eligible (s.sw m) && !ended.contains m) h
  simpa using this

/-- With no sweep eligible, but for those whose end of pass the request has taken, no turn begins (R139, R144). -/
theorem nextHolder_none (s : State) (ended : List SweepNo) (h : ∀ n, n ∉ ended → eligible (s.sw n) = false) : s.nextHolder ended = none := by
  unfold State.nextHolder
  dsimp only
  rw [List.find?_eq_none]
  intro n _
  by_cases hn : n ∈ ended
  · simp [hn]
  · simp [h n hn]

/-- The end of a pass is due when the pass is closing with no item in progress (R142). -/
theorem passDue_iff (w : Sweep) : passDue w = true ↔ w.closing = true ∧ w.items = 0 := by simp [passDue]

/-- The end of a pass writes its SWEEP_DONE and leaves the sweep as R144 says. -/
theorem endPass_eq (n : SweepNo) (s : State) : endPass n s = (passesDone [(n, (s.sw n).measured, (s.sw n).skipped)] s).setSw n (passEnded (s.sw n)) := by
  rcases h : s.sw n with ⟨k, f, c, st, r, bl, state, cu, m, sk, cl, it⟩
  cases state <;> cases r <;> simp [endPass, passesDone, passEnded, afterPass, h]

/-- What a request for an offer keeps: whatever the beginnings of turns, the skips, the ends of passes that are due, and the offer keep (R141). -/
theorem requestOffer_keeps {P : State → Prop} (hbegin : ∀ n s, P s → eligible (s.sw n) = true → P (beginTurn n s))
    (hskip : ∀ n s, P s → s.sweep.holder = some n → P (skipVisit n s)) (hend : ∀ n s, P s → passDue (s.sw n) = true → P (endPass n s))
    (hoffer : ∀ n l k s, P s → s.sweep.holder = some n → P { s with sweep := { s.sweep with offer := some ⟨n, l, k⟩ } })
    (fuel : Nat) (begun ended : List SweepNo) (s : State) (h : P s) : P (requestOffer fuel begun ended s) := by
  induction fuel generalizing begun ended s with
  | zero => exact h
  | succ fuel ih =>
    unfold requestOffer
    split
    · split
      · exact h
      · rename_i n hn
        split
        · exact h
        · exact ih _ _ _ (hbegin n s h (nextHolder_eligible hn).1)
    · rename_i n hn
      dsimp only
      split
      · exact hoffer n _ _ s h hn
      · split
        · rename_i hd
          exact ih _ _ _ (hend n _ (hskip n s h hn) hd)
        · exact ih _ _ _ (hskip n s h hn)

end Sys2Proof.Machine
end

