-- ==== Sys2Proof/Tests/Slice0.lean ====
section
/-! SUPPORT. Tests: the checks of WellFormed, the requests' bytes, the numbers of the spec's worked examples, one step of each command on
a small state, and a state that meets the hypotheses of each statement. Expected values are the spec's; each docstring names their place. -/

namespace Sys2Proof.Tests

open Sys2Proof Sys2Proof.Machine

/-! ### States -/

/-- A port that is attached. -/
def attachedPort : PortRec := { resetPort with state := .attached, window := 2000, expiry := some 16000, alertMask := 0x3F }

/-- The part after reset with its three ports attached and the battery NORMAL. -/
def serving : State :=
  { State.reset with
    portA := attachedPort, portB := attachedPort, portT := attachedPort
    bat := { resetBattery with feed := .normal } }

/-- The serving part under a profile with auto block. -/
def blocking : State := { serving with store := { resetStore with profiles := resetStore.profiles.set 0 { resetProfile with autoBlock := true } } }

/-- An IDLE line. -/
def idleLine : Line := { resetLine with state := .idle, loop := .opened, subscription := ⟨true, true⟩ }

/-- A line in DIALLING. -/
def diallingLine : Line := { idleLine with state := .dialling, loop := .closed, firstDigitExpiry := some 120000 }

/-- A line in TALK. -/
def talkLine : Line := { idleLine with state := .talk, loop := .closed }

/-- A RINGING line in phase RING. -/
def ringingLine : Line :=
  { idleLine with
    state := .ringing, ringPhase := some .ring, ringPhaseExpiry := some 8000, ringLimitExpiry := some 480000, sentMode := .ring }

/-- A HELD line in shadow slot 0. -/
def heldLine : Line := { idleLine with state := .held, loop := .unknown, shadowSlot := some 0, testFeed := some .highZ, sentMode := .highZ }

/-- The serving part with line 5 in some record. -/
def withLine5 (r : Line) : State := serving.setLine 5 r

/-- The serving part at a time unit. -/
def atTime (t : Time) (s : State) : State := { s with tb := { s.tb with counter := t } }

/-- The state after a command. -/
def after (c : Instr) (s : State) : State :=
  match exec c s with
  | .next t => t
  | .fault _ => s
  | .refused _ => s

/-- The kinds of the journal's events, oldest first. -/
def kinds (s : State) : List Nat := s.journal.map (fun e => kindValue e.event.body)

/-- A frame of highway bytes, all the same. -/
def frameOf (b : Byte) : Vector Byte 128 := Vector.replicate 128 b

/-- No energy at any frequency. -/
def silent : Energies := ⟨0, 0, 0, 0, 0, 0, 0, 0, 0⟩

/-- The energies of the worked example of a decided block (chapter 6). -/
def digitFive : Energies := ⟨1200, 41000, 3100, 900, 600, 52000, 5200, 400, 120000⟩

/-! ### WellFormed refuses what no sender gives -/

/-- R185: a code of the table is no unknown code. -/
theorem test_wellFormed_code : WellFormed (.unknownCodeRequest .a 0x22 []) = false := by decide

/-- R23: a reading outside the current codes, on either side. -/
theorem test_wellFormed_loop : WellFormed (.loopMeasurement 3 8192 0) = false ∧ WellFormed (.loopMeasurement 3 0 (-8193)) = false := by
  decide

/-- R23, R28: an item's reading outside the codes. -/
theorem test_wellFormed_item : WellFormed (.itemComplete .zero 9000 0) = false ∧ WellFormed (.itemComplete .zero 0 (-9000)) = false := by
  decide

/-- R180: a battery sample above 1023. -/
theorem test_wellFormed_sample : WellFormed (.roundStart 1024) = false := by decide

/-- R100: an energy above 2^24 − 1. -/
theorem test_wellFormed_energy : WellFormed (.toneBlockEnd 0 { silent with f941 := 16777216 }) = false := by decide

/-- The ends of the ranges are well formed. -/
theorem test_wellFormed_ends :
    WellFormed (.loopMeasurement 63 8191 (-8192)) = true ∧ WellFormed (.roundStart 1023) = true ∧
      WellFormed (.toneBlockEnd 15 { silent with total := 16777215 }) = true ∧ WellFormed (.unknownCodeRequest .t 0x44 []) = true := by
  decide

/-! ### Requests by their bytes (R185) -/

/-- RING(5) on Port A: code 0x22, length 1, line 5. -/
theorem test_decode_ring : decodeRequest .a [0x22, 0x01, 0x05] = some (.ring .a [0x01, 0x05]) := by decide

/-- HOLD(22, yes) on Port T: code 0x40, length 2. -/
theorem test_decode_hold : decodeRequest .t [0x40, 0x02, 0x16, 0x01] = some (.hold .t [0x02, 0x16, 0x01]) := by decide

/-- WRITE_SWEEP on Port B: code 0x30, length 7. -/
theorem test_decode_writeSweep :
    decodeRequest .b [0x30, 7, 0, 1, 28, 8, 0, 0, 8] = some (.writeSweep .b [7, 0, 1, 28, 8, 0, 0, 8]) := by decide

/-- A code outside the table; and no byte at all is no request. -/
theorem test_decode_unknown : decodeRequest .a [0x19, 0x00] = some (.unknownCodeRequest .a 0x19 [0x00]) ∧ decodeRequest .a [] = none := by
  decide

/-- No word of the table spells a command, and none is put in the queue. -/
theorem test_table_words : decodeTableWord 8 0x22 = none ∧ State.reset.withFetchWord 8 0x22 = State.reset := ⟨rfl, rfl⟩

/-! ### Numbers of the worked examples -/

/-- R40, its table. -/
theorem test_metallic :
    metallic 180 171 = 175 ∧ metallic (-3) 0 = -2 ∧ metallic (-40) (-25) = -33 ∧ metallic 8191 (-8192) = -1 ∧
      longitudinal (-8192) 8191 = -16383 := by decide

/-- R41, chapter 3, the four measurements: Mc of each. -/
theorem test_compensated :
    compensated false 175 120 = 55 ∧ compensated false 118 123 = 0 ∧ compensated false 2833 122 = 2711 ∧ compensated true 8145 300 = 8191 := by
  decide

/-- R47, chapter 3: the baselines of the two worked examples. -/
theorem test_baseline :
    nextBaseline 120 175 4 = 123 ∧ nextBaseline 123 118 4 = 122 ∧ nextBaseline 122 1105 4 = 183 ∧ nextBaseline 0 (-33) 6 = 0 ∧
      nextBaseline 3 (-303) 6 = 0 ∧ nextBaseline 4093 4107 2 = 4095 ∧ nextBaseline 419 421 6 = 420 := by decide

/-- R68, chapter 4: the bands of the six breaks under the default profile. -/
theorem test_bands :
    bandOf resetProfile 100 = .short ∧ bandOf resetProfile 480 = .pulse ∧ bandOf resetProfile 700 = .invalid ∧
      bandOf resetProfile 1600 = .flash ∧ bandOf resetProfile 4000 = .invalid ∧ bandOf resetProfile 4800 = .hangup := by decide

/-- R98: under LAW_A 0xD5 is code 0x80, the value 1, and 0x55 is −1; 0xAA is code 0xFF, 4032. Under LAW_MU 0xFF is code 0, the value 0,
and 0x80 is code 0x7F, 8031. -/
theorem test_expand : expandA 0xD5 = 1 ∧ expandA 0x55 = -1 ∧ expandA 0xAA = 4032 ∧ expandMu 0xFF = 0 ∧ expandMu 0x80 = 8031 := by decide

/-- R101, R102, chapter 6: the block decided, the same as speech, and the weak second tone. -/
theorem test_blockDigit :
    blockDigit digitFive = some 5 ∧ blockDigit { digitFive with total := 160000 } = none ∧
      blockDigit { digitFive with f1336 := 15000 } = none := by decide

/-- R171 to R174, chapter 10: the bounds under Cal 129601. -/
theorem test_syncBounds :
    inWindow 129601 1899 1 = true ∧ inWindow 129601 1898 1 = false ∧ inWindow 129601 2151 1 = true ∧ inWindow 129601 6075 3 = true ∧
      windowPassedAt 129601 1 = 2152 ∧ windowPassedAt 129601 2 = 4177 ∧ lossAt 129601 = 6076 := by decide

/-- R178, chapter 10: the fourth accepted count makes Cal 129601. -/
theorem test_calibration :
    (takeCount 129603 { resetTimeBase with acceptedCount := 3, acceptedSum := 388799 }).cal = 129601 := by decide

/-- R181, chapter 10: the battery dip and the recovery. -/
theorem test_batteryClass :
    batteryClass .normal 32 42 170 = .normal ∧ batteryClass .normal 32 42 160 = .low ∧ batteryClass .normal 32 42 126 = .lost ∧
      batteryClass .lost 32 42 134 = .lost ∧ batteryClass .lost 32 42 136 = .low ∧ batteryClass .lost 32 42 175 = .low ∧
      batteryClass .lost 32 42 176 = .normal := by decide

/-- R8, R9, chapter 1: the profile A sends is clamped and passes, with t_on, t_off, pb_min, flash_max and interdigit named; the one B sends
fails, with interdigit named. -/
theorem test_profileClamp :
    let a := { resetProfile with
      tOn := 5000, tOff := 4500, pbMin := 5, pbMax := 70, flashMin := 90, flashMax := 1200, hangupMin := 1500, interdigit := 90 }
    let b := { resetProfile with pbMax := 110, interdigit := 60 }
    (clampProfile a).tOn = 4000 ∧ (clampProfile a).tOff = 3990 ∧ (clampProfile a).interdigit = 100 ∧ profileOrdered (clampProfile a) = true ∧
      clampedMap a (clampProfile a) = 1 + 2 + 32 + 256 + 1024 ∧ profileOrdered (clampProfile b) = false ∧
      clampedMap b (clampProfile b) = 1024 := by decide

/-- R135, chapter 8: a pass UP from line 28 crosses to line 35 in eight visits; DOWN from 0 wraps to 63. -/
theorem test_visitLine :
    visitLine { resetSweep with first := 28, count := 8 } 7 = 35 ∧ visitLine { resetSweep with first := 0, step := .down } 1 = 63 := by decide

/-! ### One step of each command -/

/-- RESET (R2): line 5 back in ACQUIRE; the waiting commands stay. -/
theorem test_reset : ((after .reset (withLine5 talkLine)).line 5).state = .acquire ∧
    (after .reset { State.reset with pending := [.slotStart] }).pending = [.slotStart] := by decide

/-- NOP (R185): the response of the transaction before is given out, the new one buffered. -/
theorem test_nop : (after (.nop .b [0, 0xEE, 0xEE]) { serving with portB := { attachedPort with response := [0, 5, 0] } }).portB.dataOut
    = [0, 5, 0, 0] := by decide

/-- An unknown code (R185): BAD_CODE with the code's echo. -/
theorem test_unknownCode : (after (.unknownCodeRequest .a 0x19 [0]) State.reset).portA.response = [0x01, 0x19, 0x00] := by decide

/-- ATTACH (R186): a window of 1 ms is held at 500 ms, 4000 time units from now. -/
theorem test_attach : (after (.attach .a [3, 0, 1, 0x03]) State.reset).portA.expiry = some 4000 ∧
    (after (.attach .a [3, 0, 1, 0x03]) State.reset).portA.response = [0x00, 0x01, 0x02, 0x01, 0xF4] := by decide

/-- DETACH (R189): the other ports are told. -/
theorem test_detach : (after (.detach .a [0]) serving).portA.state = .detached ∧
    (after (.detach .a [0]) serving).journal.map (fun e => e.pend) = [⟨false, true, true⟩] := by decide

/-- KEEPALIVE (R187): the expected phase is 0 at first, then 1; a repeat is out of order. -/
theorem test_keepalive : (after (.keepalive .a [1, 0]) serving).portA.response = [0x00, 0x03, 0x01, 0x01] ∧
    (after (.keepalive .a [1, 1]) serving).portA.response = [0x06, 0x03, 0x01, 0x00] := by decide

/-- READ_EVENTS (R192): a gap of 3 comes first, and the count returns to 0. -/
theorem test_readEvents : (after (.readEvents .b [1, 5]) { serving with portB := { attachedPort with gap := 3 } }).portB.response
    = [0x00, 0x04, 12, 0x7F, 255, 0, 0, 0, 0, 2, 0, 3, 0, 0, 0] := by decide

/-- SET_ALERT_MASK (R194): bit 6 is refused with BAD_RANGE. -/
theorem test_setAlertMask : (after (.setAlertMask .a [1, 0x40]) serving).portA.response = [0x0D, 0x05, 0x00] ∧
    (after (.setAlertMask .a [1, 0x05]) serving).portA.alertMask = 0x05 := by decide

/-- READ_STATUS (R195) needs no attachment; the Cal of reset is 131072. -/
theorem test_readStatus : (after (.readStatus .t [0]) State.reset).portT.response.take 8 = [0x00, 0x06, 23, 0, 2, 0, 0, 0] := by decide

/-- WRITE_PROFILE (R8): number 8 is refused with BAD_PROFILE; a good one is stored. -/
theorem test_writeProfile : ((after (.writeProfile .a (51 :: 8 :: profileForm resetProfile)) serving).portA.response).headD 0 = 0x0C ∧
    ((after (.writeProfile .a (51 :: 2 :: profileForm { resetProfile with shift := 4 })) serving).store.profiles[2]).shift = 4 := by decide

/-- READ_PROFILE (R10): the form begins with t_on 1000. -/
theorem test_readProfile : (after (.readProfile .t [1, 7]) serving).portT.response.take 5 = [0x00, 0x11, 50, 0x03, 0xE8] := by decide

/-- WRITE_RANGE (R11) and resolution (R13), chapter 1: line 45 by its override, 44 by entry 0, 48 by entry 2, 10 by none. -/
theorem test_writeRange :
    let s := after (.writeRange .a [5, 2, 32, 63, 5, 1]) (after (.writeRange .a [5, 0, 40, 47, 3, 1]) serving)
    s.effectiveNo 44 = 3 ∧ s.effectiveNo 48 = 5 ∧ s.effectiveNo 10 = 0 := by decide

/-- WRITE_OVERRIDE (R12): 255 unsets, 8 is refused with BAD_PROFILE. -/
theorem test_writeOverride : (after (.writeOverride .b [2, 45, 6]) serving).effectiveNo 45 = 6 ∧
    (after (.writeOverride .b [2, 45, 8]) serving).portB.response = [0x0C, 0x13, 0x00] := by decide

/-- SET_SUBSCRIPTION (R4). -/
theorem test_setSubscription : ((after (.setSubscription .a [2, 5, 2]) serving).line 5).subscription = ⟨false, true⟩ := by decide

/-- SET_TIMESLOT (R5): a slot that another line holds is refused with SLOT_IN_USE. -/
theorem test_setTimeslot : (after (.setTimeslot .a [2, 6, 9]) (withLine5 { idleLine with timeslot := some 9 })).portA.response
    = [0x0E, 0x15, 0x00] := by decide

/-- READ_LINE (R19): line 64 is refused with BAD_LINE. -/
theorem test_readLine : (after (.readLine .t [1, 64]) serving).portT.response = [0x03, 0x16, 0x00] ∧
    (after (.readLine .t [1, 5]) (withLine5 talkLine)).portT.response.take 6 = [0x00, 0x16, 40, 5, 4, 2] := by decide

/-- SET_FEED_LIMITS (R180): both clamped, 50 V and 56 V are 4 V apart; 50 V and 52 V are not. -/
theorem test_setFeedLimits : (after (.setFeedLimits .a [2, 60, 60]) serving).portA.response = [0x00, 0x17, 0x01, 0x03] ∧
    (after (.setFeedLimits .a [2, 50, 52]) serving).portA.response = [0x0C, 0x17, 0x01, 0x00] := by decide

/-- SET_LAW (R99). -/
theorem test_setLaw : (after (.setLaw .b [1, 1]) serving).pool.law = .lawMu := by decide

/-- BLOCK (R76, R79), chapter 4: a call is broken without HANGUP, the loop condition is kept. -/
theorem test_block : ((after (.block .b [1, 5]) (withLine5 { diallingLine with pulseCounter := 2 })).line 5).state = .blocked ∧
    kinds (after (.block .b [1, 5]) (withLine5 { diallingLine with pulseCounter := 2 })) = [0x05] := by decide

/-- UNBLOCK (R77): {CONTROLLER, FAULT} becomes {FAULT}, and the line stays BLOCKED. -/
theorem test_unblock :
    ((after (.unblock .a [1, 5]) (withLine5 { idleLine with state := .blocked, reasons := ⟨true, true⟩ })).line 5).reasons = ⟨false, true⟩ ∧
    ((after (.unblock .a [1, 5]) (withLine5 { idleLine with state := .blocked, reasons := ⟨true, true⟩ })).line 5).state = .blocked := by decide

/-- RING (R123), chapter 7: taken in unit 200015, its expiries are at 208015 and 680015. -/
theorem test_ring : ((after (.ring .a [1, 5]) (atTime 200015 (withLine5 idleLine))).line 5).ringPhaseExpiry = some 208015 ∧
    ((after (.ring .a [1, 5]) (atTime 200015 (withLine5 idleLine))).line 5).ringLimitExpiry = some 680015 := by decide

/-- RING_STOP (R126): IDLE, and the link of bank 0 carries NORMAL for position 5. -/
theorem test_ringStop : ((after (.ringStop .a [1, 5]) (withLine5 ringingLine)).line 5).state = .idle ∧
    (after (.ringStop .a [1, 5]) (withLine5 ringingLine)).link0.getLast? = some ⟨5, .normal, .none⟩ := by decide

/-- END_DIAL (R94), chapter 5: two pulses counted complete as digit 2, index 2. -/
theorem test_endDial :
    (after (.endDial .b [1, 5])
      (withLine5 { diallingLine with
        pulseCounter := 2, digitOnset := some 94000, dialRecord := [⟨2, .pulse⟩, ⟨1, .pulse⟩] })).journal.map (fun e => e.event.body)
      = [.digit 2 .pulse (some 2)] := by decide

/-- CLEAR_DIAL (R95): refused while HELD. -/
theorem test_clearDial : (after (.clearDial .a [1, 5]) (withLine5 heldLine)).portA.response = [0x07, 0x25, 0x00] ∧
    ((after (.clearDial .a [1, 5]) (withLine5 { talkLine with dialRecord := [⟨2, .tone⟩] })).line 5).dialRecord = [] := by decide

/-- LOCK_DETECTOR (R116): the lowest free detector. -/
theorem test_lockDetector : ((after (.lockDetector .a [1, 5]) (withLine5 { talkLine with timeslot := some 9 })).line 5).detStatus = .locked 0 := by
  decide

/-- UNLOCK_DETECTOR (R118): refused for a line that is not locked. -/
theorem test_unlockDetector : (after (.unlockDetector .a [1, 5]) (withLine5 talkLine)).portA.response = [0x07, 0x27, 0x00] := by decide

/-- WRITE_SWEEP (R136): count 0 and block length 65 are clamped and named. -/
theorem test_writeSweep : (after (.writeSweep .a [7, 0, 1, 28, 0, 0, 0, 65]) serving).portA.response = [0x00, 0x30, 0x01, 0x03] ∧
    ((after (.writeSweep .a [7, 0, 1, 28, 0, 0, 0, 65]) serving).sw 0).count = 1 := by decide

/-- START_SWEEP (R137): ACTIVE under a NORMAL battery, else PAUSED. -/
theorem test_startSweep : ((after (.startSweep .a [2, 3, 0]) serving).sw 3).state = .active ∧
    ((after (.startSweep .a [2, 3, 0]) { serving with bat := resetBattery }).sw 3).state = .paused := by decide

/-- STOP_SWEEP (R138): the holder's turn ends. -/
theorem test_stopSweep :
    (after (.stopSweep .a [1, 0])
      { serving with
        sweep := { resetSweepUnit with sweeps := Vector.replicate 4 { resetSweep with state := .active }, holder := some 0 } }).sweep.holder
      = none := by decide

/-- HOLD (R158), chapter 9: a line in TALK without force is LINE_BUSY; with force it is HELD in the lowest free slot. -/
theorem test_hold : (after (.hold .t [2, 5, 0]) (withLine5 talkLine)).portT.response = [0x08, 0x40, 0x00] ∧
    ((after (.hold .t [2, 5, 1]) (withLine5 talkLine)).line 5).shadowSlot = some 0 := by decide

/-- RELEASE (R166, R167): a line held from IDLE comes back IDLE. -/
theorem test_release :
    ((after (.release .t [2, 5, 0]) (after (.hold .t [2, 5, 0]) (withLine5 idleLine))).line 5).state = .idle := by decide

/-- SET_TEST_FEED (R163), chapter 9: PULL with pull-up is DIAG_UP, on the link. -/
theorem test_setTestFeed : (after (.setTestFeed .t [3, 5, 2, 1]) (withLine5 heldLine)).link0.getLast? = some ⟨5, .diagUp, .none⟩ := by decide

/-- MEASURE (R164): the answer is the queue's length. -/
theorem test_measure : (after (.measure .t [2, 5, 1]) (withLine5 heldLine)).portT.response = [0x00, 0x43, 0x01, 0x01] := by decide

/-- FRAME_SYNC (R172): in LOCKED, 2048 cycles after the reference, a unit; 1 cycle after, none. -/
theorem test_frameSync :
    let s : State := { serving with tb := { resetTimeBase with lock := .locked, hasRef := true } }
    (after (.frameSync 2048 (frameOf 0)) s).now = 1 ∧ (after (.frameSync 1 (frameOf 0)) s).now = 0 := by decide +kernel

/-- FLYWHEEL_UNIT (R173), chapter 10: for frame 1 under Cal 129601 at g = 2152. -/
theorem test_flywheelUnit :
    let s : State := { serving with tb := { resetTimeBase with lock := .locked, hasRef := true, cal := 129601 } }
    (after .flywheelUnit s).tb.g = 2152 ∧ (after .flywheelUnit s).now = 1 := by decide +kernel

/-- LOSS_OF_LOCK (R174), chapter 10: from frame 3 at g = 6075, at the next cycle. -/
theorem test_lossOfLock :
    let s : State := { serving with tb := { resetTimeBase with lock := .locked, hasRef := true, cal := 129601, n := 3, g := 6075 } }
    (after .lossOfLock s).tb.lock = .freeRun ∧ kinds (after .lossOfLock s) = [0x50] := by decide +kernel

/-- FREE_UNIT (R175): from 0, the accumulator reaches 131072 after 2048 cycles. -/
theorem test_freeUnit : (after .freeUnit State.reset).now = 1 ∧ (after .freeUnit State.reset).tb.acc = 0 := by decide +kernel

/-- RELOCK_WINDOW_EXPIRY (R176): the reference and the run are dropped. -/
theorem test_relockWindowExpiry :
    let s : State := { serving with tb := { resetTimeBase with hasRef := true, relockRun := 7, g := 2176, acc := 100 } }
    (after .relockWindowExpiry s).tb.hasRef = false ∧ (after .relockWindowExpiry s).tb.relockRun = 0 := by decide +kernel

/-- ROUND_START (R181), chapter 10: 160 under NORMAL starts a run. -/
theorem test_roundStart : (after (.roundStart 160) serving).bat.run = some ⟨1, 0⟩ := by decide

/-- FEED_STATE_CHANGE (R181, R182): a change to LOST sends a line in TALK to ACQUIRE; FEED is dated at the run start. -/
theorem test_feedStateChange :
    let s : State := { withLine5 talkLine with bat := { resetBattery with feed := .normal, due := some ⟨.lost, 127, 700020⟩ } }
    ((after .feedStateChange s).line 5).state = .acquire ∧ (after .feedStateChange s).journal.map (fun e => e.event.time) = [700020] := by
  decide +kernel

/-- SLOT_START (R21): slot 5 measures line 5 and line 37. -/
theorem test_slotStart :
    let s : State := atTime 2 { withLine5 idleLine with scan := { resetScan with nextSlot := 5 } }
    ((after .slotStart s).line 5).measuring = some ⟨2, .normal, .valid⟩ ∧ ((after .slotStart s).line 37).measuring.isSome = true := by decide

/-- LOOP_MEASUREMENT (R40 to R57), chapter 3: the third measurement begins a run toward CLOSED. -/
theorem test_loopMeasurement :
    let s := withLine5 { idleLine with baseline := 122, measuring := some ⟨60, .normal, .valid⟩ }
    ((after (.loopMeasurement 5 2840 2826) s).line 5).run = some ⟨.closed, 1, 60⟩ ∧
      ((after (.loopMeasurement 5 2840 2826) s).line 5).lastMc = 2711 := by decide

/-- LOOP_MEASUREMENT (R60): with D = 1 the opposite class completes the first half at the measurement that begins its run. -/
theorem test_acquireAtOnce :
    let s := withLine5 { resetLine with loop := .closed, run := some ⟨.closed, 0, 40⟩, measuring := some ⟨60, .normal, .valid⟩ }
    let one : State := { s with store := { resetStore with profiles := resetStore.profiles.set 0 { resetProfile with debounce := 1 } } }
    ((after (.loopMeasurement 5 100 100) one).line 5).loop = .opened ∧
      ((after (.loopMeasurement 5 100 100) one).line 5).run = some ⟨.opened, 0, 60⟩ := by decide

/-- ITEM_COMPLETE (R165), chapter 9: a LOOP item of a held line reports to Port T alone. -/
theorem test_itemComplete :
    let s : State := { withLine5 heldLine with scan := { resetScan with nextSlot := 33, item0 := some ⟨5, .loop, .test, 32, false, false, false, false⟩ } }
    (after (.itemComplete .zero 2650 2630) s).journal.map (fun e => (e.event.body, e.event.time, e.pend))
      = [(.testResult (.loop 2650 2630 0) false, 16, ⟨false, false, true⟩)] := by decide

/-- END_OF_PASS (R144): a sweep that runs ONCE is IDLE after it. -/
theorem test_endOfPass :
    let s : State := serving.setSw 2 { resetSweep with state := .active, closing := true, measured := 60, skipped := 4 }
    ((after (.endOfPass 2) s).sw 2).state = .idle ∧
      (after (.endOfPass 2) s).journal.map (fun e => e.event.body) = [.sweepDone 2 .foreign 60 4] := by decide

/-- SLOT_START (R142, R144): S0, CYCLIC, skips the last visit of its pass, which ends at once; S1's visit issues and uses its turn; S0 is
eligible at the next request of the same slot, and offers its visit 0. -/
theorem test_passEndsAtTheSkip :
    let s0 := ((withLine5 talkLine).setLine 6 idleLine).setLine 40 idleLine
    let s1 := s0.setSw 0 { resetSweep with state := .active, rept := .cyclic, first := 40, step := .down, count := 36, cursor := 35, skipped := 35, blockLength := 1 }
    let s2 := s1.setSw 1 { resetSweep with state := .active, first := 6, step := .fixed, count := 9, blockLength := 1 }
    let s := after .slotStart (atTime 16 { s2 with
      scan := { resetScan with nextSlot := 32 }, sweep := { s2.sweep with holder := some 0 } })
    s.journal.map (fun e => (e.event.body, e.event.time)) = [(.sweepDone 0 .foreign 0 36, 16)] ∧
      s.scan.item0.map (fun i => i.line) = some 6 ∧ s.scan.item1.map (fun i => (i.line, i.origin)) = some (40, .sweep 0) ∧
      (s.sw 0).cursor = 1 := by decide +kernel

/-- HANGUP_EXPIRY (R74), chapter 4: HANGUP is dated at the break start; the run is kept. -/
theorem test_hangupExpiry :
    let s := atTime 14804 (withLine5 { diallingLine with
      loop := .opened, breakStart := some 10004, hangupExpiry := some 14804, run := some ⟨.closed, 2, 14784⟩ })
    ((after (.hangupExpiry 5) s).line 5).run = some ⟨.closed, 2, 14784⟩ ∧
      (after (.hangupExpiry 5) s).journal.map (fun e => (e.event.body, e.event.time)) = [(.hangup .expiry, 10004)] := by decide

/-- INTERDIGIT_EXPIRY (R89), chapter 5: the digit 3, onset 8000, index 0. -/
theorem test_interdigitExpiry :
    let s := atTime 12080 (withLine5 { diallingLine with
      pulseCounter := 3, digitOnset := some 8000, lastMakeStart := some 10080, interdigitExpiry := some 12080 })
    (after (.interdigitExpiry 5) s).journal.map (fun e => (e.event.body, e.event.time)) = [(.digit 3 .pulse (some 0), 8000)] := by decide

/-- INTERDIGIT_HELD_SETTLE (R88), chapter 5: held by a run that began at 12060; settled once the run is gone. -/
theorem test_interdigitHeldSettle :
    let r := { diallingLine with pulseCounter := 3, digitOnset := some 8000, interdigitExpiry := some 12080, interdigitHeld := true }
    kinds (after (.interdigitHeldSettle 5) (withLine5 { r with run := some ⟨.opened, 2, 12060⟩ })) = [] ∧
      kinds (after (.interdigitHeldSettle 5) (withLine5 r)) = [0x10] := by decide

/-- FIRST_DIGIT_EXPIRY (R93, R153), chapter 5: DIAL_TIMEOUT, then FAULT_RAISED(PERMANENT_LOOP). -/
theorem test_firstDigitExpiry : kinds (after (.firstDigitExpiry 5) (atTime 120000 (withLine5 diallingLine))) = [0x12, 0x30] := by decide

/-- RING_PHASE_EXPIRY (R124), chapter 7: at 208015 the pause begins, to 240015. -/
theorem test_ringPhaseExpiry :
    ((after (.ringPhaseExpiry 5) (atTime 208015 (withLine5 { ringingLine with ringPhaseExpiry := some 208015 }))).line 5).ringPhaseExpiry
      = some 240015 := by decide

/-- RING_LIMIT_EXPIRY (R125): RING_TIMEOUT, and IDLE. -/
theorem test_ringLimitExpiry :
    ((after (.ringLimitExpiry 5) (atTime 480000 (withLine5 ringingLine))).line 5).state = .idle ∧
      kinds (after (.ringLimitExpiry 5) (atTime 480000 (withLine5 ringingLine))) = [0x21] := by decide

/-- POOL_REVIEW (R113): the silent detector goes to the head of the queue, its line to the tail. -/
theorem test_poolReview :
    let d : Detector := { freshDetector 9 false 0 with used := false }
    let s : State := { serving with pool := { resetPool with detectors := resetPool.detectors.set 3 d, waitQueue := [40, 41], reviewDue := true } }
    (after .poolReview s).pool.waitQueue = [41, 9] ∧ ((after .poolReview s).det 3).line = some 40 := by decide

/-- TONE_BLOCK_END (R105), chapter 6: the second block of digit 5 is accepted, its onset the first block's start. -/
theorem test_toneBlockEnd :
    let d : Detector := { freshDetector 5 false 0 with ended := some ⟨70193, false⟩, decision := .mute (some (5, 70097)) }
    (after (.toneBlockEnd 4 digitFive) ((withLine5 diallingLine).setDet 4 d)).journal.map (fun e => (e.event.body, e.event.time))
      = [(.digit 5 .tone (some 0), 70097)] := by decide

/-- WINDOW_EXPIRY (R188), chapter 11: line 5, {A}, goes to {B}; PORT_LAPSED for B and T, TAKEOVER for B. -/
theorem test_windowExpiry :
    let s := atTime 16000 (withLine5 { idleLine with subscription := ⟨true, false⟩ })
    ((after (.windowExpiry .a) s).line 5).subscription = ⟨false, true⟩ ∧
      (after (.windowExpiry .a) s).journal.map (fun e => (kindValue e.event.body, e.pend)) = [(0x53, ⟨false, true, true⟩), (0x54, ⟨false, true, false⟩)] := by
  decide +kernel

/-- WINDOW_EXPIRY of Port T (R22, R33, R25): a LOOP test item whose line is released into HIGH_Z at the boundary of its slot is DISTURBED, and
sets the flag when it completes. -/
theorem test_windowExpiryAtASlot :
    let foreign := shadowOf 5 { idleLine with faults := { resetFaultSet with foreignVoltage := presentEntry } }
    let s : State := atTime 16016 { blocking with scan := { resetScan with roundStart := 16000 } }
    let held := (s.setLine 5 { heldLine with testFeed := some .normal, sentMode := .normal }).setShadow 0 (some foreign)
    let begun : State := { held with
      scan := { held.scan with nextSlot := 33, item0 := some ⟨5, .loop, .test, 32, false, false, false, false⟩ } }
    let t := after (.windowExpiry .t) begun
    t.scan.item0 = some ⟨5, .loop, .test, 32, true, true, false, false⟩ ∧
      ((after (.itemComplete .zero 2650 2630) t).line 5).recoveryDiscard = true := by
  decide +kernel

/-- An idle step: with no command waiting the part idles; with two, the first is taken. -/
theorem test_step :
    step serving = .next serving ∧ (after .slotStart serving).pending = [] ∧
      step { serving with pending := [.nop .a [0], .slotStart] } = exec (.nop .a [0]) { serving with pending := [.slotStart] } :=
  ⟨rfl, by decide, rfl⟩

/-! ### A state and operands for the hypotheses of each statement, clause by clause -/

/-- Port A may send a controller's request, and is attached. -/
theorem witness_admits : Admits .a .controllers serving ∧ Admits .t .test serving := ⟨⟨rfl, rfl⟩, ⟨rfl, rfl⟩⟩

/-- RequestsDecode. -/
theorem witness_RequestsDecode :
    WellFormed (.ring .a [1, 5]) = true ∧ encodeRequest (.ring .a [1, 5]) = some (.a, [0x22, 1, 5]) ∧
      decodeRequest .a [0x22, 1, 5] = some (.ring .a [1, 5]) := by decide

/-- ProfileFormsDecode. -/
theorem witness_ProfileFormsDecode : ∀ x ∈ numericFields { resetProfile with shortThr := 65535 }, x.2 < 65536 := by decide

/-- MalformedRequestsAreRefused: an unknown code; a length byte too large; a short transaction; a port that may not; a detached one. -/
theorem witness_MalformedRequests :
    knownCode 0x44 = false ∧
    requestRow (.ring .a [2, 5]) = some ⟨.a, [2, 5], 0x22, 1, .controllers⟩ ∧ ¬ lengthGood 1 [2, 5] ∧ ¬ lengthGood 1 [1] ∧
    lengthGood 1 [1, 5] ∧ permitted .t .controllers = false ∧ permitted .b .controllers = true ∧ State.reset.attached .b = false := by
  simp only [lengthGood]; decide

/-- ReadsChangeNothing: both ends of each range. -/
theorem witness_ReadsChangeNothing :
    serving.attached .t = true ∧ byteOf (7 : ProfileNo).val = 7 ∧ 7 < (8 : Byte).toNat ∧ byteOf (63 : LineNo).val = 63 ∧ 63 < (64 : Byte).toNat := by
  decide

/-- JournalWritesEvict: an empty set; room; a full journal. -/
theorem witness_JournalWritesEvict :
    noPorts.isEmpty = true ∧ (onlyPort .a).isEmpty = false ∧ serving.journal.length < 256 ∧
      256 ≤ (List.replicate 256 (⟨⟨none, 0, .locked, .dialTimeout⟩, onlyPort .b⟩ : Entry)).length := by
  rw [List.length_replicate]
  decide

/-- AttachStartsAfresh: the last mask refused, and the last taken. -/
theorem witness_AttachStartsAfresh : 63 < (64 : Byte).toNat ∧ (63 : Byte).toNat ≤ 63 := by decide

/-- DetachLeavesLinesAlone. -/
theorem witness_Detach : isController .b = true ∧ serving.attached .b = true := by decide

/-- Line 5 held in slot 0, and the same with a LOOP slot and with an item's slot of the line begun at Port T's expiry. -/
def lapsing (r : Line) (slot : Nat) (i : Option Item) : State :=
  atTime (timeAfter 16000 (slot / 2)) (((withLine5 r).setShadow 0 (some (shadowOf 5 talkLine))) |> fun s =>
    { s with scan := { resetScan with roundStart := 16000, nextSlot := slot + 1, item0 := i } })

/-- TestPortLossReleasesLines: by DETACH, and by a due expiry, with a line held in a slot of its own; at the boundary of the line's LOOP slot, as
line 4, and of its item's slot. -/
theorem witness_TestPortLoss :
    (withLine5 heldLine).attached .t = true ∧ ((withLine5 heldLine).line 5).state = .held ∧
      expiryDue (atTime 16000 (withLine5 heldLine)).now (atTime 16000 (withLine5 heldLine)).portT.expiry = true ∧
      ((lapsing heldLine 0 none).line 5).shadowSlot = some 0 ∧
      (lapsing heldLine 0 none).test.shadows[(0 : ShadowNo)] = some (shadowOf 5 talkLine) ∧
      (∀ m : LineNo, m ≠ 5 → ((lapsing heldLine 0 none).line m).state ≠ .held) ∧
      (let s := (lapsing idleLine 4 none).setLine 4 heldLine;
        0 < s.scan.nextSlot ∧ (s.scan.nextSlot - 1) % 2 = 0 ∧ timeAfter s.scan.roundStart ((s.scan.nextSlot - 1) / 2) = s.now ∧
          (4 : LineNo).val % 32 = s.scan.nextSlot - 1 ∧ (s.line 4).measuring = none ∧ ((after (.windowExpiry .t) s).line 4).measuring.isSome = true) ∧
      (let s := lapsing heldLine 32 (some ⟨5, .loop, .test, 32, false, false, false, false⟩);
        32 ≤ s.scan.nextSlot - 1 ∧ timeAfter s.scan.roundStart ((s.scan.nextSlot - 1) / 2) = s.now ∧ (s.line 5).state = .held ∧
          s.scan.item0 = some ⟨5, .loop, .test, 32, false, false, false, false⟩) := by decide +kernel

/-- KeepaliveAlternates: neither phase; the expected one; the other. -/
theorem witness_Keepalive :
    serving.attached .a = true ∧ 1 < (2 : Byte).toNat ∧ (0 : Byte).toNat = yesCode (serving.port .a).phase ∧
      (1 : Byte).toNat = yesCode (!(serving.port .a).phase) := by decide

/-- ReadEventsDeliversOldest: 0 and 6 refused; 1 and 5 taken. -/
theorem witness_ReadEvents :
    serving.attached .a = true ∧ (0 : Byte).toNat = 0 ∧ 5 < (6 : Byte).toNat ∧ 1 ≤ (1 : Byte).toNat ∧ (5 : Byte).toNat ≤ 5 := by decide

/-- AlertFollowsTheMask. -/
theorem witness_AlertMask : serving.attached .a = true ∧ 63 < (64 : Byte).toNat ∧ (63 : Byte).toNat ≤ 63 := by decide

/-- WindowExpiryLapsesAndMovesLines, with a line that moves. -/
theorem witness_WindowExpiry :
    let s := atTime 16000 (withLine5 { idleLine with subscription := ⟨true, false⟩ })
    otherController .a = some .b ∧ s.attached .a = true ∧ expiryDue s.now (s.port .a).expiry = true ∧ s.attached .b = true ∧
      (s.line 5).subscription = onlySubscription .a ∧ (s.effective 5).takeover = true := by decide

/-- BadLinesAreRefused: WRITE_OVERRIDE of line 64. -/
theorem witness_BadLines :
    requestRow (.writeOverride .a (frameTail [64, 3] [])) = some ⟨.a, frameTail [64, 3] [], 0x13, 2, .controllers⟩ ∧
      (0x13 : Byte) ∈ ([0x13, 0x14, 0x15, 0x16, 0x20, 0x21, 0x22, 0x23, 0x24, 0x25, 0x26, 0x27, 0x40, 0x41, 0x42, 0x43] : List Byte) ∧
      ([3] : List Byte).length + 1 = 2 ∧ 63 < (64 : Byte).toNat := by decide

/-- The resolution of chapter 1: entries 0 and 2, and an override of line 45. -/
def resolving : State :=
  { serving with
    store := { resetStore with
      ranges := (resetStore.ranges.set 0 ⟨40, 47, 3, true⟩).set 2 ⟨32, 63, 5, true⟩
      overrides := resetStore.overrides.set 45 (some 6) } }

/-- EffectiveProfileOrder: an override; the lowest entry that covers line 47; the second for line 48; none for line 31. -/
theorem witness_EffectiveProfile :
    resolving.store.overrides[(45 : LineNo)] = some 6 ∧ resolving.store.overrides[(47 : LineNo)] = none ∧
    (resolving.store.ranges[(0 : Fin 8)]).enabled = true ∧ (resolving.store.ranges[(0 : Fin 8)]).last = (47 : LineNo) ∧
    (∀ j : Fin 8, j < 2 → ¬ ((resolving.store.ranges[j]).enabled = true ∧ (resolving.store.ranges[j]).first ≤ (48 : LineNo) ∧
      (48 : LineNo) ≤ (resolving.store.ranges[j]).last)) ∧
    (∀ j : Fin 8, ¬ ((resolving.store.ranges[j]).enabled = true ∧ (resolving.store.ranges[j]).first ≤ (31 : LineNo) ∧
      (31 : LineNo) ≤ (resolving.store.ranges[j]).last)) := by decide

/-- StoreWritesRecompute: a write that changes no auto block, and one that changes every line's: where a fault stands, an empty set becomes
non-empty on an IDLE line and in a call, and a BLOCKED line's set becomes empty. -/
theorem witness_StoreWrites :
    (∀ l : LineNo, (serving.effective l).autoBlock = (resolving.effective l).autoBlock) ∧
      (serving.effective 5).autoBlock ≠ (blocking.effective 5).autoBlock ∧
      isolatingFault { resetFaultSet with short := presentEntry } = true ∧
      breaksCall ⟨false, true⟩ { talkLine with faults := { resetFaultSet with short := presentEntry } } = true ∧
      (reasonsTaken ⟨false, true⟩ idleLine).state = .blocked ∧
      (reasonsTaken ⟨false, false⟩ { idleLine with state := .blocked, reasons := ⟨false, true⟩ }).state = .acquire := by decide +kernel

/-- ProfileWritesClampThenOrder: a number of 8; a dial method of 3; a form that passes and one that fails the ordering. -/
theorem witness_ProfileWrites :
    (profileForm resetProfile).length = 50 ∧ 7 < (8 : Byte).toNat ∧ 2 < (((profileForm resetProfile).set 24 3).getD 24 0).toNat ∧
      ((profileForm resetProfile).set 24 3).length = 50 ∧
      byteOf (7 : ProfileNo).val = 7 ∧ profileOf (profileForm resetProfile) = some resetProfile ∧
      profileOrdered (clampProfile resetProfile) = true ∧
      profileOrdered (clampProfile { resetProfile with pbMax := 110, interdigit := 60 }) = false ∧
      (0, 5000) ∈ numericFields { resetProfile with tOn := 5000 } ∧
      (0, 4000) ∈ numericFields (clampProfile { resetProfile with tOn := 5000 }) := by decide

/-- RangeAndOverrideWrites: each check by itself, a taken write of one line, the ends of the override values. -/
theorem witness_RangeWrites :
    7 < (8 : Byte).toNat ∧ 63 < (64 : Byte).toNat ∧ (4 : Byte).toNat < (5 : Byte).toNat ∧ 1 < (2 : Byte).toNat ∧
      (7 : Byte) = byteOf (7 : Fin 8).val ∧ (63 : Byte) = byteOf (63 : LineNo).val ∧ (1 : Byte) = byteOf (yesCode true) ∧
      (63 : LineNo) ≤ 63 ∧ (7 : Byte) = byteOf (7 : ProfileNo).val ∧ (255 : Byte).toNat = 255 ∧ (254 : Byte).toNat < 255 := by decide

/-- SettingsAreReplaced: all ports and none; both laws; limits that are clamped, 4 V apart and closer. -/
theorem witness_Settings :
    (3 : Byte) = byteOf (subscriptionBits ⟨true, true⟩) ∧ 3 < (4 : Byte).toNat ∧ (1 : Byte).toNat = (if Law.lawMu = .lawA then 0 else 1) ∧
      Law.lawMu ≠ serving.pool.law ∧ Law.lawA = serving.pool.law ∧ 1 < (2 : Byte).toNat ∧
      max 20 (min 50 52) + 4 ≤ max 30 (min 56 54) ∧ max 30 (min 56 53) < max 20 (min 50 52) + 4 := by decide

/-- TimeslotsAreTaken: the ends of the values; a slot taken, the line's own, a new one with and without a detector. -/
theorem witness_Timeslots :
    127 < (128 : Byte).toNat ∧ (254 : Byte).toNat < 255 ∧ (255 : Byte).toNat = 255 ∧ (127 : Byte) = byteOf (127 : Timeslot).val ∧
      ((withLine5 { idleLine with timeslot := some 127 }).line 5).timeslot = some 127 ∧ (6 : LineNo) ≠ 5 ∧
      (∀ m : LineNo, m ≠ 5 → ((withLine5 { idleLine with timeslot := some 127 }).line m).timeslot ≠ some 127) ∧
      (serving.line 5).timeslot = none ∧ heldDet (serving.line 5).detStatus = none ∧
      heldDet ((withLine5 { diallingLine with timeslot := some 9, detStatus := .assigned 2 }).line 5).detStatus = some 2 := by decide

/-- An item in progress on line 5. -/
def itemOn5 (o : Origin) (s : State) : State :=
  { s with scan := { resetScan with nextSlot := 33, item0 := some ⟨5, .foreign, o, 35, false, false, false, false⟩ } }

/-- FeedModeCases: a held line in and out of its item; isolation; a sweep's item; ringing; none of these. -/
theorem witness_FeedModes :
    (itemOn5 .test (withLine5 heldLine)).itemOn 5 = some ⟨5, .foreign, .test, 35, false, false, false, false⟩ ∧
    ((withLine5 heldLine).line 5).testFeed = some .highZ ∧ (withLine5 heldLine).itemOn 5 = none ∧
    (((blocking.setLine 5 { idleLine with faults := { resetFaultSet with foreignVoltage := presentEntry } }).line 5).faults.foreignVoltage.state
      = .present) ∧ (blocking.effective 5).autoBlock = true ∧
    (itemOn5 (.sweep 2) (withLine5 idleLine)).itemOn 5 = some ⟨5, .foreign, .sweep 2, 35, false, false, false, false⟩ ∧
    ((withLine5 ringingLine).line 5).ringPhase = some .ring ∧ (withLine5 ringingLine).derivedMode 5 = .ring ∧
    (withLine5 idleLine).itemOn 5 = none := by decide

/-- FeedChangesAreSent: a mode that stands, and one that changes; both orders; a DIAG item whose last slot has started. -/
theorem witness_FeedChanges :
    serving.derivedMode 5 = (serving.line 5).sentMode ∧
      (withLine5 { ringingLine with sentMode := .normal }).derivedMode 5 ≠ ((withLine5 { ringingLine with sentMode := .normal }).line 5).sentMode ∧
      SourceOrder.connect ≠ .none ∧ SourceOrder.disconnect ≠ .none ∧
      (let s : State := { withLine5 idleLine with
          scan := { resetScan with nextSlot := 34, item0 := some ⟨5, .diagUp, .sweep 1, 33, false, true, false, true⟩ } };
        s.bankItem .zero = some ⟨5, .diagUp, .sweep 1, 33, false, true, false, true⟩ ∧ bankOf 5 = .zero ∧ 33 < s.scan.nextSlot) := by
  decide

/-- BlockingIsCommanded: the set with and without its members, in each state. -/
theorem witness_Blocking :
    (serving.line 5).reasons.controller = false ∧ (serving.line 5).reasons.fault = false ∧ (serving.line 5).state = .acquire ∧
    ((withLine5 heldLine).line 5).state = .held ∧ ((withLine5 idleLine).line 5).state = .idle ∧
    ((withLine5 talkLine).line 5).state = .talk ∧ ((withLine5 ringingLine).line 5).state = .ringing ∧
    ((withLine5 { idleLine with state := .blocked, reasons := ⟨true, false⟩ }).line 5).reasons.controller = true ∧
    ((withLine5 { idleLine with state := .blocked, reasons := ⟨true, true⟩ }).line 5).reasons.fault = true := by decide

/-- RingingIsCommanded: not IDLE; IDLE under LOW; IDLE under NORMAL; RINGING. -/
theorem witness_Ringing :
    (serving.line 5).state ≠ .idle ∧ ((withLine5 idleLine).line 5).state = .idle ∧ (withLine5 idleLine).bat.feed = .normal ∧
      ({ withLine5 idleLine with bat := { resetBattery with feed := .low } } : State).bat.feed ≠ .normal ∧
      ((withLine5 ringingLine).line 5).state = .ringing := by decide

/-- DiallingIsCommanded: not DIALLING; DIALLING with ten pulses; HELD; not HELD. -/
theorem witness_Dialling :
    (serving.line 5).state ≠ .dialling ∧
      ((withLine5 { diallingLine with pulseCounter := 10, digitOnset := some 7 }).line 5).state = .dialling ∧
      ((withLine5 heldLine).line 5).state = .held ∧ ((withLine5 talkLine).line 5).state ≠ .held := by decide

/-- DigitsAreRecorded: 23 entries, 24 entries with and without the marker. -/
theorem witness_Digits :
    ((withLine5 { diallingLine with dialRecord := List.replicate 23 ⟨1, .pulse⟩ }).line 5).dialRecord.length < 24 ∧
      24 ≤ ((withLine5 { diallingLine with dialRecord := List.replicate 24 ⟨1, .pulse⟩ }).line 5).dialRecord.length ∧
      ((withLine5 { diallingLine with dialRecord := List.replicate 24 ⟨1, .pulse⟩, overflow := true }).line 5).overflow = true ∧
      (diallingLine).overflow = false := by decide

/-- Line 5 with a timeslot and a detector status. -/
def detecting (d : DetStatus) : State := withLine5 { diallingLine with timeslot := some 9, detStatus := d }

/-- Line 5 on the Wait Queue, and every detector but the last with a line. -/
def waiting5 (lock : Bool) : State :=
  { detecting .waiting with
    pool := { resetPool with detectors := (Vector.replicate 16 (freshDetector 7 lock 0)).set 15 resetDetector, waitQueue := [5] } }

/-- LocksAreTaken: no timeslot; locked; eight locked; assigned; none free; the last detector alone free, for a waiting line. -/
theorem witness_Locks :
    (serving.line 5).timeslot = none ∧ ((detecting .none).line 5).timeslot ≠ none ∧ ((detecting .none).line 5).state ≠ .held ∧
      ((detecting (.locked 3)).line 5).detStatus = .locked 3 ∧
      (∀ d, ((detecting (.assigned 15)).line 5).detStatus ≠ .locked d) ∧ ((detecting (.assigned 15)).line 5).detStatus = .assigned 15 ∧
      (allDets.filter (fun d => ((detecting .none).det d).locked)).length < 8 ∧
      8 ≤ (allDets.filter (fun d => ((waiting5 true).det d).locked)).length ∧
      (∀ d, (((waiting5 true).setDet 15 (freshDetector 8 false 0)).det d).line ≠ none) ∧
      ((waiting5 false).det 15).line = none ∧ ∀ e, e < 15 → ((waiting5 false).det e).line ≠ none := by decide +kernel

/-- UnlocksAreTaken: not locked; locked in DIALLING, and in TALK. -/
theorem witness_Unlocks :
    (∀ d, ((detecting (.assigned 2)).line 5).detStatus ≠ .locked d) ∧ ((detecting (.locked 0)).line 5).detStatus = .locked 0 ∧
      ((detecting (.locked 0)).line 5).state = .dialling ∧ ((withLine5 { talkLine with detStatus := .locked 0 }).line 5).state ≠ .dialling := by
  decide

/-- ReleasedDetectorsGoToTheQueue: an empty queue and one with a head; each status. -/
theorem witness_Releases :
    serving.pool.waitQueue = [] ∧ (serving.setQueue [40, 41]).pool.waitQueue = 40 :: [41] ∧ ((detecting .waiting).line 5).detStatus = .waiting ∧
      ((detecting (.assigned 2)).line 5).detStatus = .assigned 2 ∧ ((detecting (.locked 2)).line 5).detStatus = .locked 2 := by decide

/-- SweepsAreWritten: each value out of range by one; the first line; a sweep that is ACTIVE or has an item; one that is free. -/
theorem witness_SweepsAreWritten :
    3 < (4 : Byte).toNat ∧ (0 : Byte).toNat = 0 ∧ 2 < (3 : Byte).toNat ∧ 1 < (2 : Byte).toNat ∧ 63 < (64 : Byte).toNat ∧
      (3 : Byte) = byteOf (3 : SweepNo).val ∧ (3 : Byte) = byteOf (sweepKindCode .diagDown) ∧
      (((serving.setSw 3 { resetSweep with state := .paused }).sw 3).state ≠ .idle) ∧ 0 < ((serving.setSw 3 { resetSweep with items := 1 }).sw 3).items ∧
      (serving.sw 3).state = .idle ∧ (serving.sw 3).items = 0 := by decide

/-- SweepsRun: START and STOP in and out of range, IDLE and not, with and without an offer; a pass that ends. -/
theorem witness_SweepsRun :
    3 < (4 : Byte).toNat ∧ 1 < (2 : Byte).toNat ∧ (1 : Byte).toNat ≤ 1 ∧ (serving.sw 0).state = .idle ∧ (serving.sw 0).items = 0 ∧
      ((serving.setSw 0 { resetSweep with state := .active }).sw 0).state ≠ .idle ∧ serving.sweep.offer = none ∧
      ((serving.setSw 0 { resetSweep with closing := true }).sw 0).closing = true ∧
      ((serving.setSw 0 { resetSweep with closing := true }).sw 0).items = 0 := by decide

/-- A round at slot 32, with two items of line 5 in the Test Queue. -/
def atSweepSlot : State :=
  atTime 16 { withLine5 heldLine with scan := { resetScan with nextSlot := 32 }, test := { resetTestUnit with queue := [⟨5, .foreign⟩, ⟨5, .loop⟩] } }

/-- Slot 32 of a round, no test item waiting, with S1 ACTIVE over three lines from line 5 at a cursor, line 5's record given, and line 6 IDLE. -/
def offering (r : Line) (cursor used : Nat) (o : Option Offer) : State :=
  let s := ((withLine5 r).setLine 6 idleLine).setSw 1 { resetSweep with state := .active, first := 5, count := 3, cursor := cursor }
  atTime 16 { s with
    scan := { resetScan with nextSlot := 32 }, sweep := { s.sweep with holder := some 1, used := used, offer := o } }

/-- ItemsIssueInOrder, offers: one that issues at its pass's last visit; one followed by the next visit; a busy line skipped within a turn; the
skip that ends a turn, with S2 eligible; the skip that ends a CYCLIC sweep's pass; a test slot with no sweep ACTIVE; a further slot of an item. -/
theorem witness_Offers :
    (let s := offering idleLine 2 0 (some ⟨1, 7, .foreign⟩);
      s.slotDue = true ∧ s.scan.item0 = none ∧ s.scan.item1 = none ∧ s.sweep.offer = some ⟨1, 7, .foreign⟩ ∧ s.sweep.holder = some 1 ∧
        s.scan.noOffer = false ∧ s.scan.nextSlot = 32 ∧ s.test.queue = [] ∧ s.scan.nextSlot + itemSlots .foreign ≤ 40 ∧
        (s.sw 1).count ≤ (s.sw 1).cursor + 1 ∧ (∀ m, m ≠ 1 → (s.sw m).state ≠ .active)) ∧
    (let s := offering idleLine 0 0 (some ⟨1, 5, .foreign⟩);
      (s.sw 1).cursor + 1 < (s.sw 1).count ∧ (s.sw 1).closing = false ∧ s.sweep.used + 1 < (s.sw 1).blockLength ∧
        visitLine (s.sw 1) 1 = 6 ∧ bankOf 6 = bankOf 5 ∧ (s.line 6).state = .idle) ∧
    (let s := offering talkLine 0 0 none;
      s.sweep.offer = none ∧ s.sweep.holder = some 1 ∧ visitLine (s.sw 1) 0 = 5 ∧ (s.line 5).state = .talk ∧ (s.line 6).state = .idle) ∧
    (let s := (offering talkLine 0 7 none).setSw 2 { resetSweep with state := .active, first := 6, step := .fixed };
      (s.sw 1).blockLength ≤ s.sweep.used + 1 ∧ (s.sw (1 + 1)).state = .active ∧ (s.sw (1 + 1)).closing = false ∧
        (s.line (visitLine (s.sw (1 + 1)) 0)).state = .idle) ∧
    (let s := (offering talkLine 0 0 none).setSw 1 { resetSweep with state := .active, rept := .cyclic, first := 6, count := 64, step := .up, cursor := 63 };
      s.sweep.offer = none ∧ s.sweep.holder = some 1 ∧ visitLine (s.sw 1) 63 = 5 ∧ (s.line 5).state = .talk ∧ (s.sw 1).count ≤ (s.sw 1).cursor + 1 ∧
        (s.sw 1).items = 0 ∧ (s.sw 1).state = .active ∧ (∀ m, m ≠ 1 → (s.sw m).state ≠ .active) ∧ (s.sw 1).rept = .cyclic ∧
        visitLine (s.sw 1) 0 = 6 ∧ (s.line 6).state = .idle) ∧
    (atSweepSlot.sweep.holder = none ∧ ∀ n, (atSweepSlot.sw n).state ≠ .active) ∧
    (let s : State := atTime 17 { (withLine5 idleLine) with
        scan := { resetScan with nextSlot := 33, item0 := some ⟨5, .foreign, .sweep 1, 35, false, true, false, false⟩ } };
      s.slotDue = true ∧ 32 ≤ s.scan.nextSlot ∧ s.bankItem .zero = some ⟨5, .foreign, .sweep 1, 35, false, true, false, false⟩ ∧
        bankOf 5 = .zero) := by decide +kernel

/-- ItemsIssueInOrder: the first sweep slot, and the last that a FOREIGN item fits; an offer asked for. -/
theorem witness_ItemsIssue :
    atSweepSlot.slotDue = true ∧ atSweepSlot.scan.item0 = none ∧ atSweepSlot.scan.item1 = none ∧
      atSweepSlot.test.queue = ⟨5, .foreign⟩ :: [⟨5, .loop⟩] ∧ atSweepSlot.scan.nextSlot = 32 ∧
      (let s := atTime 18 { atSweepSlot with scan := { resetScan with nextSlot := 36, testPart := 2 } };
        s.slotDue = true ∧ 0 < s.scan.testPart ∧ s.scan.nextSlot + itemSlots .foreign ≤ 40) ∧
      serving.sweep.offer = none ∧ serving.sweep.holder = none ∧ (∀ n, (serving.sw n).state ≠ .active ∨ (serving.sw n).closing = true) ∧
      (askOffer (serving.setSw 1 { resetSweep with state := .active, first := 5, step := .fixed, count := 3 })).sweep.offer = none ∧
      (askOffer ((withLine5 idleLine).setSw 1 { resetSweep with state := .active, first := 5, step := .fixed })).sweep.offer
        = some ⟨1, 5, .foreign⟩ := by decide +kernel

/-- The serving part with its four shadow slots taken but for the last. -/
def oneSlot (r : Line) : State :=
  { withLine5 r with
    test := { resetTestUnit with
      shadows := (Vector.replicate 4 (some (shadowOf 9 idleLine))).set 3 none } }

/-- HoldTakesTheLine: the byte; a line held; no slot; the last slot alone, for a line with and without a call. -/
theorem witness_Hold :
    1 < (2 : Byte).toNat ∧ ((withLine5 heldLine).line 5).state = .held ∧
      (∀ n : ShadowNo, ((oneSlot idleLine).setShadow 3 (some (shadowOf 9 idleLine))).test.shadows[n] ≠ none) ∧
      (oneSlot talkLine).test.shadows[(3 : ShadowNo)] = none ∧ (∀ m : ShadowNo, m < 3 → (oneSlot talkLine).test.shadows[m] ≠ none) ∧
      ((oneSlot talkLine).line 5).state = .talk ∧ ((oneSlot idleLine).line 5).state = .idle ∧
      ((oneSlot talkLine).line 5).detStatus ≠ .waiting ∧ (5 : LineNo) ∉ (oneSlot talkLine).pool.waitQueue := by decide

/-- ReleaseReturnsTheLine: the byte; a line not held; a line held with its slot, by either mode. -/
theorem witness_Release :
    1 < (2 : Byte).toNat ∧ (1 : Byte).toNat ≤ 1 ∧ (serving.line 5).state ≠ .held ∧ (1 : Byte) = byteOf (releaseModeCode .fresh) ∧
      (((withLine5 heldLine).setShadow 0 (some (shadowOf 5 talkLine))).line 5).shadowSlot = some 0 ∧
      ((withLine5 heldLine).setShadow 0 (some (shadowOf 5 talkLine))).test.shadows[(0 : ShadowNo)] = some (shadowOf 5 talkLine) := by decide

/-- HeldLinesAreTested: selectors and flags at their ends; kinds; a queue of 7 and of 8. -/
theorem witness_HeldLines :
    (3 : Byte).toNat ≤ 3 ∧ 2 < (3 : Byte).toNat ∧ (2 : Byte).toNat = 2 ∧ (0 : Byte).toNat = 0 ∧
      ((withLine5 heldLine).line 5).state = .held ∧ (serving.line 5).state ≠ .held ∧ 3 < (4 : Byte).toNat ∧
      (3 : Byte) = byteOf (itemKindCode .diagDown) ∧ (List.replicate 7 (⟨5, .loop⟩ : TestItem)).length < 8 ∧
      8 ≤ (List.replicate 8 (⟨5, .loop⟩ : TestItem)).length := by decide

/-- The Time Base LOCKED under nominal Cal. -/
def locked (g n : Nat) : State := { serving with tb := { resetTimeBase with lock := .locked, hasRef := true, g := g, n := n } }

/-- SyncsPaceTheUnits: counts at the ends of the range; a good sync at the end of the window for frame 1; one out of it; frame 3; a closing
window; a sampling detector. -/
theorem witness_SyncsPace :
    (117964 < 117965 ∧ 117965 ≤ 117965 ∧ 144179 < 144180) ∧ (locked 0 1).tb.lock = .locked ∧ (locked 0 1).tb.hasRef = true ∧
      1024 * (0 + 2176) ≤ (16 * 1 + 1) * (locked 0 1).tb.cal ∧ 16 * 1 * 131072 ≤ 1024 * 2176 + 131072 ∧
      ¬ 16 * 1 * 131072 ≤ 1024 * 1919 + 131072 ∧ 2 < (locked 0 3).tb.n ∧ 6144 ≤ 3 * (locked 0 3).tb.cal / 64 ∧
      (some (⟨128928, 63⟩ : CalWindow)).map (fun w : CalWindow => { w with cycles := w.cycles + 2048 }) = some ⟨130976, 63⟩ ∧
      1599 + 1 = 1600 ∧ (((locked 0 1).setDet 4 (freshDetector 5 false 0)).det 4).line = some 5 ∧
      ((locked 0 1).det 4).line = none := by decide

/-- SyncsRelock: no reference; a sync out of the window, in it, and the 64th. -/
theorem witness_SyncsRelock :
    serving.tb.lock = .freeRun ∧ serving.tb.window = none ∧ serving.tb.hasRef = false ∧ 0 + 64 * 2047 < serving.tb.cal ∧
      1024 * 1920 ≤ 17 * serving.tb.cal ∧ 16 * serving.tb.cal ≤ 1024 * 1920 + serving.tb.cal ∧ ¬ 16 * serving.tb.cal ≤ 1024 * 1919 + serving.tb.cal ∧
      62 + 1 < 64 ∧ 64 ≤ 63 + 1 := by decide

/-- TheOscillatorRunsOn: each of its clauses at its first state. -/
theorem witness_Oscillator :
    (locked 2176 2).tb.n ≤ 2 ∧ 1024 * (locked 2176 1).tb.g ≤ (16 * 1 + 1) * (locked 2176 1).tb.cal ∧ (locked 6144 3).tb.n = 3 ∧
      (locked 6144 3).tb.g ≤ 3 * (locked 6144 3).tb.cal / 64 ∧ serving.tb.acc < serving.tb.cal ∧
      (let b : TimeBase := { resetTimeBase with hasRef := true };
        1024 * (b.g + (b.cal - b.acc + 63) / 64 - 1) ≤ 17 * b.cal) ∧
      (let b : TimeBase := { resetTimeBase with hasRef := true, g := 2176 };
        1024 * b.g ≤ 17 * b.cal ∧ b.acc + 64 * (17 * b.cal / 1024 + 1 - b.g - 1) < b.cal) := by decide

/-- A round that has run out of slots. -/
def roundDone (f : FeedState) (r : Option ChangeRun) : State :=
  atTime 20 { serving with scan := { resetScan with nextSlot := 40, sampled := true }, bat := { resetBattery with feed := f, run := r } }

/-- RoundsSampleTheBattery: a sample that agrees; the first, a later and the eighth of a run; the round that reset began. -/
theorem witness_Rounds :
    (1023 ≤ 1023) ∧ (roundDone .normal none).scan.nextSlot = 40 ∧
      20 ≤ timeSince (roundDone .normal none).scan.roundStart (roundDone .normal none).now ∧ (roundDone .normal none).scan.item0 = none ∧
      batteryClass .normal 32 42 168 = .normal ∧ batteryClass .normal 32 42 127 ≠ .normal ∧
      (roundDone .normal (some ⟨6, 3⟩)).bat.run = some ⟨6, 3⟩ ∧ 6 < 7 ∧ 7 ≤ 7 ∧ (20 + 4 ≤ 24) ∧
      serving.scan.nextSlot = 0 ∧ serving.scan.sampled = false := by decide

/-- FeedChangesAreTaken: into LOST, out of it, and neither. -/
theorem witness_FeedChangesTaken :
    ({ serving with bat := { resetBattery with feed := .normal, due := some ⟨.lost, 127, 700020⟩ } } : State).bat.due = some ⟨.lost, 127, 700020⟩ ∧
      FeedState.lost ≠ .normal ∧ (withLine5 ringingLine).derivedMode 5 = .ring ∧
      (FeedState.low ≠ .lost ∧ FeedState.normal ≠ FeedState.lost) := by decide

/-- LoopSlotsMeasure: a slot that is not due, and slot 31. -/
theorem witness_LoopSlots :
    ({ serving with scan := { resetScan with nextSlot := 31 } } : State).slotDue = false ∧
      (atTime 15 { serving with scan := { resetScan with nextSlot := 31 } }).slotDue = true := by decide

/-- ItemsComplete: an item of a test, and of a sweep, disturbed and not, whose last slot has started. -/
theorem witness_ItemsComplete :
    (Item.disturbed ⟨5, .foreign, .sweep 1, 35, false, true, false, true⟩ = false ∧ (4 * 50 ≤ (-200 : Int).natAbs ∧ ¬ 4 * 50 ≤ (199 : Int).natAbs) ∧
      ((4 * 40 : Nat) : Int) ≤ 160 ∧ ¬ ((4 * 40 : Nat) : Int) ≤ 159) ∧
    let s : State := { withLine5 heldLine with scan := { resetScan with nextSlot := 36, item0 := some ⟨5, .foreign, .test, 35, false, true, false, false⟩ } }
    s.bankItem .zero = some ⟨5, .foreign, .test, 35, false, true, false, false⟩ ∧ bankOf 5 = .zero ∧ 35 < s.scan.nextSlot ∧
      (s.setBankItem .zero (some ⟨5, .foreign, .sweep 1, 35, true, true, false, false⟩)).bankItem .zero = some ⟨5, .foreign, .sweep 1, 35, true, true, false, false⟩ := by
  decide

/-- An IDLE line with a VALID measurement under feed NORMAL, and a decimation counter. -/
def measured (n : Nat) (r : Line) : Line :=
  { r with measuring := some ⟨60, .normal, .valid⟩, faults := { r.faults with decimation := n } }

/-- LoopArithmetic: a measurement an IDLE line learns from. -/
theorem witness_Learning :
    Evaluates ⟨60, .normal, .valid⟩ .normal 180 171 ((withLine5 (measured 0 idleLine)).line 5) ∧ (measured 0 idleLine).state = .idle ∧
      (measured 0 idleLine).loop = .opened ∧ (measured 0 idleLine).run = none ∧
      (withLast 180 171 (measured 0 idleLine)).lastMc < ((withLine5 (measured 0 idleLine)).effective 5).tOn := by
  unfold Evaluates; decide

/-- LoopArithmetic: the ends of the codes, an Im above and below the baseline. -/
theorem witness_LoopArithmetic :
    (-8192 : Int) ≤ -8192 ∧ (8191 : Int) ≤ 8191 ∧ ((120 : Nat) : Int) ≤ metallic 180 171 ∧ metallic (-40) (-25) < (0 : Nat) ∧
      (4093 ≤ 4095 ∧ 2 ≤ 2 ∧ 10 ≤ 10) ∧ (((2 ^ 4 : Nat) : Int) ≤ 175 - 120) ∧ ((0 : Nat) < 3 ∧ (-303 : Int) < (3 : Nat)) ∧
      (((2 ^ 6 : Nat) : Int) ≤ (3 : Nat) - (-303)) := by decide

/-- MeasurementsLeaveLastValues: none in progress; marked DISCARD; held; a RING one of a line in TALK; VALID. -/
theorem witness_Measurements :
    (serving.line 5).measuring = none ∧
      ((withLine5 { idleLine with measuring := some ⟨0, .normal, .discard⟩ }).line 5).measuring = some ⟨0, .normal, .discard⟩ ∧
      ((withLine5 { heldLine with measuring := some ⟨0, .normal, .valid⟩ }).line 5).state = .held ∧
      ((withLine5 { talkLine with measuring := some ⟨0, .ring, .valid⟩ }).line 5).state ≠ .ringing ∧ (-8192 : Int) ≤ 8191 := by decide

/-- MeasurementsLeaveLastValues, a decimated sample: an IDLE line OPEN, one BETWEEN, and a line in TALK CLOSED. -/
theorem witness_Decimated :
    (measured 7 idleLine).faults.decimation = 7 ∧ (measured 7 idleLine).run = none ∧
      Opens resetProfile (withLast 180 171 (measured 7 idleLine)).lastMc ∧ (measured 7 idleLine).loop = .opened ∧
      (¬ Closes resetProfile (withLast 700 700 (measured 7 idleLine)).lastMc ∧ ¬ Opens resetProfile (withLast 700 700 (measured 7 idleLine)).lastMc) ∧
      Closes resetProfile (withLast 1000 1000 (measured 7 talkLine)).lastMc ∧ (measured 7 talkLine).loop = .closed := by
  unfold Closes Opens; decide

/-- An IDLE line one measurement before its seizure. -/
def almostSeized : State :=
  withLine5 { idleLine with timeslot := some 9, run := some ⟨.closed, 3, 14784⟩, measuring := some ⟨14844, .normal, .valid⟩ }

/-- ClosedRunsSeize, with a detector asked for. -/
theorem witness_ClosedRuns :
    (almostSeized.line 5).measuring = some ⟨14844, .normal, .valid⟩ ∧ (almostSeized.line 5).state = .idle ∧
      (almostSeized.line 5).loop = .opened ∧ (almostSeized.line 5).faults.decimation ≠ 7 ∧
      (almostSeized.line 5).run = some ⟨.closed, 3, 14784⟩ ∧ 3 + 1 = (almostSeized.effective 5).debounce ∧
      (almostSeized.effective 5).tOn ≤ compensated false (metallic 1000 1000) (almostSeized.line 5).baseline ∧
      (almostSeized.effective 5).dialMethod ≠ .pulse ∧ (almostSeized.line 5).detStatus = .none := by decide

/-- A line in ACQUIRE with a measurement, a loop condition and a run. -/
def acquiring (c : LoopCond) (n : Option Run) : Line := measured 0 { resetLine with loop := c, run := n, acquireCount := 398 }

/-- ClosedRunsSeize, acquisition: each row of R60's table, short of D and at it; the 399th and the 400th measurement; D = 1. -/
theorem witness_Acquires :
    Evaluates ⟨60, .normal, .valid⟩ .normal 1000 1000 (acquiring .unknown none) ∧ (acquiring .unknown none).state = .acquire ∧
      (acquiring .unknown none).acquireCount + 1 < 400 ∧ 400 ≤ 399 + 1 ∧
      (runAfter (some ⟨.closed, 2, 7⟩) .closed 60).count < resetProfile.debounce ∧
      resetProfile.debounce ≤ (runAfter (some ⟨.closed, 3, 7⟩) .closed 60).count ∧
      (acquiring .closed (some ⟨.closed, 3, 7⟩)).loop = condOf .closed ∧ (acquiring .closed none).loop ≠ condOf .opened ∧
      (∀ q, (acquiring .closed (some ⟨.closed, 3, 7⟩)).run = some q → q.count < resetProfile.debounce) ∧
      Closes resetProfile 1000 ∧ Opens resetProfile 699 ∧ ¬ Closes resetProfile 999 ∧ ¬ Opens resetProfile 700 ∧ 1 < resetProfile.debounce ∧
      ({ resetProfile with debounce := 1 } : Profile).debounce ≤ 1 := by
  refine ⟨by unfold Evaluates; decide, by decide, by decide, by decide, by decide, by decide, by decide, by decide, ?_, by unfold Closes; decide,
    by unfold Opens; decide, by unfold Closes; decide, by unfold Opens; decide, by decide, by decide⟩
  intro q h
  have : q = ⟨.closed, 3, 7⟩ := (Option.some.inj h).symm
  subst this
  decide

/-- ClosedRunsSeize, ringing: a measurement of either feed in either phase; below the level and at it; a run short of its length and at it. -/
theorem witness_Answers :
    Evaluates ⟨60, .ring, .valid⟩ .ring 1500 1500 { ringingLine with measuring := some ⟨60, .ring, .valid⟩ } ∧
      Evaluates ⟨60, .normal, .valid⟩ .normal 1000 1000 (measured 0 { ringingLine with ringPhase := some .pause }) ∧
      (ringingLine.state = .ringing ∧ ringingLine.ringPhase = some .ring) ∧ FeedMode.normal ≠ .ring ∧
      ((withLast 1500 1500 ringingLine).lastMc = resetProfile.tTrip ∧ (withLast 999 999 ringingLine).lastMc < resetProfile.tOn) ∧
      (runAfter (some ⟨.closed, 1, 7⟩) .closed 60).count < resetProfile.tripDebounce ∧
      resetProfile.tripDebounce ≤ (runAfter (some ⟨.closed, 2, 7⟩) .closed 60).count := by
  unfold Evaluates; decide

/-- MakesAreClassed, by the measurement: one that makes a break, and one that opens one before, at and without an interdigit expiry, with its
hang-up expiry to come and past. -/
theorem witness_Breaks :
    Evaluates ⟨60, .normal, .valid⟩ .normal 1000 1000 (measured 0 diallingLine) ∧ 3 + 1 = resetProfile.debounce ∧
      Closes resetProfile 1000 ∧ Opens resetProfile 0 ∧ diallingLine.loop = .closed ∧ diallingLine.interdigitExpiry = none ∧
      (1 ≤ ((12080 : Time) - 12079).toNat ∧ ((12080 : Time) - 12079).toNat < 2 ^ 31) ∧ ¬ 1 ≤ ((12080 : Time) - 12080).toNat ∧
      ((14800 : Time) - timeAfter 10000 (600 * 8)).toNat < 2 ^ 31 ∧ ¬ ((14799 : Time) - timeAfter 10000 (600 * 8)).toNat < 2 ^ 31 := by
  unfold Evaluates Closes Opens; decide

/-- MakesAreClassed: a DIALLING line under a good profile; each band at its ends; a line in TALK. -/
theorem witness_Makes :
    ((withLine5 { diallingLine with pulseCounter := 10 }).line 5).state = .dialling ∧ profileGood ((withLine5 diallingLine).effective 5) = true ∧
      (let p := resetProfile;
        159 < p.pbMin * 8 ∧ p.pbMin * 8 ≤ 160 ∧ 640 ≤ p.pbMax * 8 ∧ p.pbMax * 8 < 641 ∧ 799 < p.flashMin * 8 ∧ p.flashMin * 8 ≤ 800 ∧
          3200 ≤ p.flashMax * 8 ∧ p.flashMax * 8 < 3201 ∧ 4799 < p.hangupMin * 8 ∧ p.hangupMin * 8 ≤ 4800) ∧
      ((withLine5 talkLine).line 5).state = .talk ∧
      ((10004 + 4800 : Time) - 10004).toNat = 4800 := by decide

/-- ExpiriesEndDialling: a break whose expiry is due, and a first-digit expiry in DIALLING. -/
theorem witness_Expiries :
    let s := atTime 120000 (withLine5 { diallingLine with loop := .opened, breakStart := some 115200, hangupExpiry := some 120000 })
    (s.line 5).breakStart = some 115200 ∧ (s.line 5).hangupExpiry = some 120000 ∧ (s.now - 120000).toNat < 2 ^ 31 ∧
      (s.line 5).firstDigitExpiry = some 120000 ∧ (s.line 5).state = .dialling := by decide

/-- InterdigitExpiriesCompleteDigits: a break one unit before the expiry holds it; one at it does not; a held one; an overcount. -/
theorem witness_Interdigit :
    let r := { diallingLine with pulseCounter := 10, digitOnset := some 8000, interdigitExpiry := some 12080 }
    let s := atTime 12080 (withLine5 r)
    (s.line 5).interdigitExpiry = some 12080 ∧ (s.now - 12080).toNat < 2 ^ 31 ∧ (s.line 5).interdigitHeld = false ∧
      (1 ≤ ((12080 : Time) - 12079).toNat ∧ ((12080 : Time) - 12079).toNat < 2 ^ 31) ∧ ¬ 1 ≤ ((12080 : Time) - 12080).toNat ∧
      ((withLine5 { r with interdigitHeld := true }).line 5).interdigitHeld = true ∧ (s.line 5).digitOnset = some 8000 ∧
      ((withLine5 { r with pulseDiscard := true }).line 5).pulseDiscard = true := by decide

/-- RingExpiriesAreTaken: either phase, and the limit. -/
theorem witness_RingExpiries :
    let s := atTime 480000 (withLine5 { ringingLine with ringPhaseExpiry := some 480000, measuring := some ⟨479988, .ring, .valid⟩ })
    (∀ m, (s.line 5).measuring = some m → m.stamp ≠ s.now) ∧ (s.now - 480000).toNat < 2 ^ 31 ∧ (s.line 5).ringPhaseExpiry = some 480000 ∧
      (s.line 5).ringPhase = some .ring ∧ (s.line 5).ringLimitExpiry = some 480000 ∧
      ((withLine5 { ringingLine with ringPhase := some .pause }).line 5).ringPhase = some .pause := by
  refine ⟨?_, by decide, by decide, by decide, by decide, by decide⟩
  intro m h
  have : m = ⟨479988, .ring, .valid⟩ := (Option.some.inj h).symm
  subst this
  decide

/-- The review of chapter 6: d3 is silent, line 40 waits at the head. -/
def reviewing (used : Bool) : State :=
  { serving with
    pool := { resetPool with
      detectors := (Vector.replicate 16 (freshDetector 7 false 0)).set 3 { freshDetector 9 false 0 with used := used }
      waitQueue := [40, 41], reviewDue := true } }

/-- ReviewsEvictTheSilent: an empty queue; a silent detector; none. -/
theorem witness_Reviews :
    ({ serving with pool := { resetPool with reviewDue := true } } : State).pool.waitQueue = [] ∧ (reviewing false).pool.reviewDue = true ∧
      (reviewing false).pool.waitQueue = 40 :: [41] ∧ ((reviewing false).det 3).line = some 9 ∧ ((reviewing false).det 3).used = false ∧
      ((reviewing false).det 3).locked = false ∧ ((reviewing false).det 3).decision = .mute none ∧
      (∀ x, x < 3 → ((reviewing false).det x).used = true) ∧ (∀ d, ((reviewing true).det d).used = true) := by decide +kernel

/-- A block end due at d4 for line 5. -/
def blockEnd (x : Decision) (r : Line) : State :=
  (withLine5 r).setDet 4 { freshDetector 5 false 0 with ended := some ⟨70193, false⟩, decision := x }

/-- ToneBlocksAreDecided: discarded by an open loop; each decision state, in DIALLING and in TALK. -/
theorem witness_ToneBlocks :
    energiesInRange digitFive = true ∧ energiesInRange silent = true ∧ blockDigit digitFive = some 5 ∧ blockDigit silent = none ∧
      ((blockEnd (.mute none) diallingLine).det 4).ended = some ⟨70193, false⟩ ∧ ((blockEnd (.mute none) diallingLine).det 4).line = some 5 ∧
      ((blockEnd (.mute none) { diallingLine with loop := .opened }).line 5).loop = .opened ∧
      ((blockEnd (.mute (some (5, 70097))) talkLine).det 4).decision = .mute (some (5, 70097)) ∧
      ((blockEnd (.tone 5 1) talkLine).det 4).decision = .tone 5 1 ∧ ((blockEnd (.mute none) talkLine).det 4).discardMark = false ∧
      ((blockEnd (.mute none) talkLine).line 5).pulseCounter = 0 := by decide

/-- FaultsNeedARun: runs that reach their counts and runs that fall one short; a group on a line not HELD, that touches an isolating kind and one
that does not; a held line. -/
theorem witness_FaultRuns :
    (idleLine.state ≠ .held ∧ heldLine.state = .held ∧ (idleLine.faults.entry .short = clearEntry ∧ faultStands clearEntry = false) ∧
      faultStands (countObservation ⟨.suspect, 2, some 8⟩ .bad 3 3 60).1 = true ∧ faultStands (countObservation clearEntry .bad 3 3 60).1 = false) ∧
    (1 : Nat) ≤ 15 ∧ ([4, 8] : List Time).length + 1 = 3 ∧ ([4] : List Time).length + 1 < 3 ∧ ([] : List Time).length + 1 = 1 := by decide

/-- A state, not that of reset, with one entry pending for Port A and a command waiting. -/
def invariantState : State :=
  { serving with journal := [⟨⟨some 5, 7, .freeNominal, .ringTimeout⟩, onlyPort .a⟩], pending := [.keepalive .a [1, 0]] }

/-- StepsKeepTheJournal: a state with the property, and its step. -/
theorem witness_StepsKeepTheJournal : JournalOk invariantState ∧ ∃ t, step invariantState = .next t := by
  refine ⟨⟨by decide, ?_, ?_⟩, ⟨_, rfl⟩⟩
  · intro e h
    have : e = ⟨⟨some 5, 7, .freeNominal, .ringTimeout⟩, onlyPort .a⟩ := by simpa [invariantState] using h
    subst this
    exact ⟨by decide, by decide, by decide, by decide⟩
  · intro q; cases q <;> decide

/-- StepsKeepTheRecords. -/
theorem witness_StepsKeepTheRecords :
    StoreOk invariantState ∧ TimeslotsOk invariantState ∧ ItemsOk invariantState ∧ RangesOk invariantState := by
  refine ⟨⟨by decide +kernel, by decide⟩, ?_, ⟨?_, ?_, ?_⟩, ?_, ?_⟩
  · intro l m _ _
    simp [State.line, invariantState, serving, State.reset, resetLine]
  · intro i h; exact absurd h (by simp [invariantState, serving, State.reset, resetScan])
  · intro i h; exact absurd h (by simp [invariantState, serving, State.reset, resetScan])
  · intro i j h; exact absurd h (by simp [invariantState, serving, State.reset, resetScan])
  · intro l
    have : invariantState.line l = resetLine := by simp [State.line, invariantState, serving, State.reset]
    rw [this]
    refine ⟨by decide, by decide, ⟨by decide, fun k => by cases k <;> decide⟩, by decide, by decide, ?_, by decide⟩
    intro q h; exact absurd h (by simp [resetLine])
  · intro n sh h; exact absurd h (by simp [invariantState, serving, State.reset, resetTestUnit])

/-- StepsKeepTheFeeds. -/
theorem witness_StepsKeepTheFeeds : FeedsFollow (withLine5 ringingLine) := by
  intro l
  revert l
  decide +kernel

/-- StepsKeepThePool: line 5 with its detector. -/
theorem witness_StepsKeepThePool : PoolAgrees ((detecting (.locked 2)).setDet 2 (freshDetector 5 true 0)) := by
  refine ⟨?_, ?_, ?_, ?_, ?_, ?_, ?_⟩ <;> decide +kernel

end Sys2Proof.Tests
end

