-- ==== Sys2Proof/Proofs/EffectiveProfile.lean ====
section
/-! PROOF. The resolution of a line's effective profile (R13). -/

namespace Sys2Proof.Machine

theorem covers_iff (r : RangeEntry) (l : LineNo) : covers r l = true ↔ r.enabled = true ∧ r.first ≤ l ∧ l ≤ r.last := by
  simp [covers, and_assoc]

/-- The lowest-numbered covering entry is the one the search of the ranges finds. -/
theorem find_covers_some (st : Store) (l : LineNo) (i : Fin 8) (hi : covers st.ranges[i] l = true)
    (hlow : ∀ j : Fin 8, j < i → ¬ covers st.ranges[j] l = true) :
    st.ranges.toList.find? (fun r => covers r l) = some st.ranges[i] := by
  rw [List.find?_eq_some_iff_getElem]
  refine ⟨hi, i.val, by simp, by simp, ?_⟩
  intro j hj
  simpa using hlow ⟨j, by omega⟩ hj

theorem find_covers_none (st : Store) (l : LineNo) (h : ∀ i : Fin 8, ¬ covers st.ranges[i] l = true) :
    st.ranges.toList.find? (fun r => covers r l) = none := by
  rw [List.find?_eq_none]
  intro r hr
  obtain ⟨i, hi, rfl⟩ := Vector.mem_iff_getElem.mp (Vector.mem_toList_iff.mp hr)
  exact h ⟨i, hi⟩

/-! ### The three cases of R13 -/

theorem effectiveNo_of_override {s : State} {l : LineNo} {n : ProfileNo} (ho : s.store.overrides[l] = some n) :
    s.effectiveNo l = n := by
  simp only [State.effectiveNo, ho]

theorem effectiveNo_of_lowest_covering {s : State} {l : LineNo} (ho : s.store.overrides[l] = none) (i : Fin 8)
    (hi : covers s.store.ranges[i] l = true) (hlow : ∀ j : Fin 8, j < i → ¬ covers s.store.ranges[j] l = true) :
    s.effectiveNo l = s.store.ranges[i].profile := by
  simp only [State.effectiveNo, ho, find_covers_some s.store l i hi hlow]

theorem effectiveNo_of_uncovered {s : State} {l : LineNo} (ho : s.store.overrides[l] = none)
    (h : ∀ i : Fin 8, ¬ covers s.store.ranges[i] l = true) : s.effectiveNo l = 0 := by
  simp only [State.effectiveNo, ho, find_covers_none s.store l h]

/-- Byte 3 of the line report is the number of the effective profile (R199). -/
theorem lineReport_profileByte (l : LineNo) (s : State) : (lineReport l s)[3]? = some (byteOf (s.effectiveNo l).val) := by
  simp [lineReport]

/-- Settles O17, by the cases of R13: an override, the lowest-numbered covering entry, and neither. -/
theorem effectiveProfileOrder : Obligations.EffectiveProfileOrder := by
  unfold Obligations.EffectiveProfileOrder
  intro s l
  simp only [← covers_iff]
  refine ⟨fun _ => effectiveNo_of_override, fun ho => ⟨?lowest, ?uncovered⟩, rfl, lineReport_profileByte l s⟩
  case lowest =>
    intro i hen hfirst hlast
    exact effectiveNo_of_lowest_covering ho i ((covers_iff _ _).mpr ⟨hen, hfirst, hlast⟩)
  case uncovered => exact effectiveNo_of_uncovered ho

end Sys2Proof.Machine
end

