-- ==== Sys2Proof/Proofs/FeedModes.lean ====
section
/-! PROOF. The derived feed mode of a line (R35). -/

namespace Sys2Proof.Machine

/-! ### The modes that are never RING (R28, R163) -/

theorem itemMode_ne_ring (k : ItemKind) : itemMode k ≠ .ring := by cases k <;> decide

theorem testFeedMode_ne_ring (f : TestFeed) : testFeedMode f ≠ .ring := by cases f <;> decide

section
variable {s : State} {l : LineNo}

theorem isolated_iff :
    s.isolated l = true ↔ (s.line l).faults.foreignVoltage.state = .present ∧ (s.effective l).autoBlock = true := by
  simp [State.isolated]

/-! ### Case 1: the mode of a HELD line -/

theorem heldMode_of_testItem {i : Item} (hi : s.itemOn l = some i) (ho : i.origin = .test) :
    s.heldMode l = itemMode i.kind := by
  obtain ⟨line, kind, origin⟩ := i
  subst ho
  simp only [State.heldMode, hi]

theorem heldMode_of_no_testItem (h : ∀ i, s.itemOn l = some i → i.origin ≠ .test) :
    s.heldMode l = testFeedMode ((s.line l).testFeed.getD .highZ) := by
  unfold State.heldMode
  split
  next hi => exact absurd rfl (h _ hi)
  next => rfl

theorem heldMode_ne_ring (s : State) (l : LineNo) : s.heldMode l ≠ .ring := by
  unfold State.heldMode
  split
  next => exact itemMode_ne_ring _
  next => exact testFeedMode_ne_ring _

/-! ### Cases 3 to 5: a sweep item, ringing, and neither -/

theorem plainMode_of_sweepItem {i : Item} {n : SweepNo} (hi : s.itemOn l = some i) (ho : i.origin = .sweep n) :
    s.plainMode l = itemMode i.kind := by
  obtain ⟨line, kind, origin⟩ := i
  subst ho
  simp only [State.plainMode, hi]

theorem plainMode_of_no_sweepItem (h : ∀ i n, s.itemOn l = some i → i.origin ≠ .sweep n) :
    s.plainMode l = if (s.line l).state = .ringing ∧ (s.line l).ringPhase = some .ring then .ring else .normal := by
  unfold State.plainMode
  split
  next hi => exact absurd rfl (h _ _ hi)
  next => rfl

theorem ringing_of_plainMode_ring (h : s.plainMode l = .ring) :
    (s.line l).state = .ringing ∧ (s.line l).ringPhase = some .ring := by
  by_cases hsweep : ∃ i n, s.itemOn l = some i ∧ i.origin = .sweep n
  case pos =>
    obtain ⟨i, n, hi, ho⟩ := hsweep
    exact absurd (plainMode_of_sweepItem hi ho ▸ h) (itemMode_ne_ring i.kind)
  case neg =>
    rw [plainMode_of_no_sweepItem fun i n hi ho => hsweep ⟨i, n, hi, ho⟩] at h
    by_contra hring
    simp [hring] at h

/-! ### The order of the cases -/

theorem derivedMode_of_held (h : (s.line l).state = .held) : s.derivedMode l = s.heldMode l := if_pos h

theorem derivedMode_of_isolated (h : (s.line l).state ≠ .held)
    (hiso : (s.line l).faults.foreignVoltage.state = .present ∧ (s.effective l).autoBlock = true) :
    s.derivedMode l = .highZ := by
  rw [State.derivedMode, if_neg h, if_pos (isolated_iff.mpr hiso)]

theorem derivedMode_of_plain (h : (s.line l).state ≠ .held)
    (hiso : ¬ ((s.line l).faults.foreignVoltage.state = .present ∧ (s.effective l).autoBlock = true)) :
    s.derivedMode l = s.plainMode l := by
  rw [State.derivedMode, if_neg h, if_neg (mt isolated_iff.mp hiso)]

/-- RING is the mode of case 4 alone: no item, test feed mode or isolation gives it. -/
theorem ringing_of_derivedMode_ring (h : s.derivedMode l = .ring) :
    (s.line l).state = .ringing ∧ (s.line l).ringPhase = some .ring := by
  by_cases hheld : (s.line l).state = .held
  · exact absurd (derivedMode_of_held hheld ▸ h) (heldMode_ne_ring s l)
  by_cases hiso : (s.line l).faults.foreignVoltage.state = .present ∧ (s.effective l).autoBlock = true
  · exact absurd (derivedMode_of_isolated hheld hiso ▸ h) (by decide)
  · exact ringing_of_plainMode_ring (derivedMode_of_plain hheld hiso ▸ h)

end

/-- Settles O23, by the cases of R35 in their order. -/
theorem feedModeCases : Obligations.FeedModeCases := by
  unfold Obligations.FeedModeCases
  intro s l
  refine ⟨?testItem, ?testFeed, derivedMode_of_isolated, ?sweepItem, ?ring, ?normal, ringing_of_derivedMode_ring⟩
  case testItem =>
    intro i hheld hi ho
    rw [derivedMode_of_held hheld, heldMode_of_testItem hi ho]
  case testFeed =>
    intro f hheld hno hf
    rw [derivedMode_of_held hheld, heldMode_of_no_testItem hno, hf, Option.getD_some]
  case sweepItem =>
    intro i n hheld hiso hi ho
    rw [derivedMode_of_plain hheld hiso, plainMode_of_sweepItem hi ho]
  case ring =>
    intro hheld hiso hno hring
    rw [derivedMode_of_plain hheld hiso, plainMode_of_no_sweepItem hno, if_pos hring]
  case normal =>
    intro hheld hiso hno hring
    rw [derivedMode_of_plain hheld hiso, plainMode_of_no_sweepItem hno, if_neg hring]

end Sys2Proof.Machine
end

