-- ==== Sys2Proof/Proofs/ToneBlocks.lean ====
section
/-! PROOF. The digit a tone block gives (R101, R102). -/

namespace Sys2Proof.Machine

/-! ### The strongest of four energies -/

/-- The energy at a place of a group of four, as the statement of O54 writes it. -/
def groupEnergy (w x y z : Nat) (j : Fin 4) : Nat := [w, x, y, z].getD j.val 0

/-- The place `i` of a group of four reaches the floor and is at least 6 times every other of its group (R101). -/
def Dominant (g : Fin 4 → Nat) (i : Fin 4) : Prop := 2000 ≤ g i ∧ ∀ j : Fin 4, j ≠ i → 6 * g j ≤ g i

section
variable {w x y z : Nat}

theorem forall_groupEnergy_le_iff {b : Nat} : (∀ j, groupEnergy w x y z j ≤ b) ↔ w ≤ b ∧ x ≤ b ∧ y ≤ b ∧ z ≤ b := by
  simp [Fin.forall_fin_succ, groupEnergy]

/-- What `topTwo` answers: the energy at the place it names, none above it, and the second largest as the largest of the others. -/
theorem topTwo_spec (w x y z : Nat) :
    groupEnergy w x y z (topTwo w x y z).2.1 = (topTwo w x y z).1 ∧
      (∀ j, groupEnergy w x y z j ≤ (topTwo w x y z).1) ∧
      ∀ b, (topTwo w x y z).2.2 ≤ b ↔ ∀ j, j ≠ (topTwo w x y z).2.1 → groupEnergy w x y z j ≤ b := by
  rw [forall_groupEnergy_le_iff]
  unfold topTwo
  split_ifs with h0 h1 h2
  case pos => simp [Fin.forall_fin_succ, groupEnergy, h0]
  case pos => simp [Fin.forall_fin_succ, groupEnergy, h1]; omega
  case pos => simp [Fin.forall_fin_succ, groupEnergy, h2]; omega
  case neg => simp [Fin.forall_fin_succ, groupEnergy]; omega

/-- A dominant place is the one `topTwo` names: at any other, the largest would be at most a sixth of one it is not below. -/
theorem dominant_iff_topTwo {i : Fin 4} :
    Dominant (groupEnergy w x y z) i ↔
      2000 ≤ (topTwo w x y z).1 ∧ 6 * (topTwo w x y z).2.2 ≤ (topTwo w x y z).1 ∧ i = (topTwo w x y z).2.1 := by
  obtain ⟨hplace, htop, hsecond⟩ := topTwo_spec w x y z
  generalize topTwo w x y z = t at *
  have six_mul_second : 6 * t.2.2 ≤ t.1 ↔ ∀ j, j ≠ t.2.1 → 6 * groupEnergy w x y z j ≤ t.1 := by
    simpa only [Nat.le_div_iff_mul_le (show 0 < 6 by decide), Nat.mul_comm _ 6] using hsecond (t.1 / 6)
  rw [six_mul_second]
  constructor
  case mp =>
    rintro ⟨hfloor, hdom⟩
    have hi : i = t.2.1 := by
      by_contra hne
      have := hdom t.2.1 (Ne.symm hne)
      have := htop i
      omega
    subst hi
    exact ⟨hplace ▸ hfloor, hplace ▸ hdom, rfl⟩
  case mpr =>
    rintro ⟨hfloor, hdom, rfl⟩
    exact ⟨hplace.symm ▸ hfloor, hplace.symm ▸ hdom⟩

end

/-! ### The keypad and the block -/

theorem keypad_val (row col : Fin 4) :
    (keypad row col).val = [1, 2, 3, 12, 4, 5, 6, 13, 7, 8, 9, 14, 10, 0, 11, 15].getD (4 * row.val + col.val) 0 := by
  revert row col
  decide

/-- Twist and purity (R101), of the strongest of each group and the total. -/
def TwistAndPurity (lo hi total : Nat) : Prop := lo * 2 ≤ hi * 5 ∧ hi ≤ lo * 6 ∧ total * 5 ≤ (lo + hi) * 8

theorem blockDigit_eq_some_iff {e : Energies} {x : DigitCode} :
    blockDigit e = some x ↔
      (2000 ≤ (lowTop e).1 ∧ 2000 ≤ (highTop e).1 ∧ 6 * (lowTop e).2.2 ≤ (lowTop e).1 ∧ 6 * (highTop e).2.2 ≤ (highTop e).1 ∧
        TwistAndPurity (lowTop e).1 (highTop e).1 e.total) ∧ x = keypad (lowTop e).2.1 (highTop e).2.1 := by
  rw [eq_comm (a := x), ← Option.some_inj (a := keypad _ _)]
  exact Option.ite_none_right_eq_some

/-- The low-group energies by row. -/
def lowGroup (e : Energies) : Fin 4 → Nat := groupEnergy e.f697 e.f770 e.f852 e.f941

/-- The high-group energies by column. -/
def highGroup (e : Energies) : Fin 4 → Nat := groupEnergy e.f1209 e.f1336 e.f1477 e.f1633

theorem blockDigit_iff_dominant {e : Energies} {x : DigitCode} :
    blockDigit e = some x ↔
      ∃ row col, Dominant (lowGroup e) row ∧ Dominant (highGroup e) col ∧
        TwistAndPurity (lowGroup e row) (highGroup e col) e.total ∧ x = keypad row col := by
  have low_at : lowGroup e (lowTop e).2.1 = (lowTop e).1 := (topTwo_spec ..).1
  have high_at : highGroup e (highTop e).2.1 = (highTop e).1 := (topTwo_spec ..).1
  rw [blockDigit_eq_some_iff]
  constructor
  case mp =>
    rintro ⟨⟨hlo, hhi, hl2, hh2, htp⟩, hx⟩
    refine ⟨_, _, dominant_iff_topTwo.mpr ⟨hlo, hl2, rfl⟩, dominant_iff_topTwo.mpr ⟨hhi, hh2, rfl⟩, ?_, hx⟩
    rwa [← low_at, ← high_at] at htp
  case mpr =>
    rintro ⟨row, col, hlow, hhigh, htp, hx⟩
    obtain ⟨hlo, hl2, rfl⟩ := dominant_iff_topTwo.mp hlow
    obtain ⟨hhi, hh2, rfl⟩ := dominant_iff_topTwo.mp hhigh
    exact ⟨⟨hlo, hhi, hl2, hh2, low_at ▸ high_at ▸ htp⟩, hx⟩

/-- Settles O54: the strongest of each group is its one dominant frequency, and the digit is the keypad's at their crossing. -/
theorem blocksGiveTheCrossing : Obligations.BlocksGiveTheCrossing := by
  unfold Obligations.BlocksGiveTheCrossing
  intro e x low high codes
  rw [blockDigit_iff_dominant]
  refine exists_congr fun row => exists_congr fun col => ?_
  rw [Fin.ext_iff, keypad_val]
  constructor
  case mp =>
    rintro ⟨⟨hlo, hlow⟩, ⟨hhi, hhigh⟩, ⟨hrev, hfwd, hpure⟩, hx⟩
    exact ⟨hlo, hhi, hlow, hhigh, hrev, hfwd, hpure, hx⟩
  case mpr =>
    rintro ⟨hlo, hhi, hlow, hhigh, hrev, hfwd, hpure, hx⟩
    exact ⟨⟨hlo, hlow⟩, ⟨hhi, hhigh⟩, ⟨hrev, hfwd, hpure⟩, hx⟩

end Sys2Proof.Machine
end

