-- ==== Sys2Proof/Proofs/JournalWrites.lean ====
section
/-! PROOF. The writing of an event to the Event Journal, and the eviction it may take (R190, R191). -/

namespace Sys2Proof.Machine

/-! ### Gap counts and the eviction of the oldest entry (R191) -/

theorem port_raiseGaps (q : PortSet) (s : State) (p : Port) :
    (raiseGaps q s).port p = if q.has p then bumpGap (s.port p) else s.port p := by
  cases p <;> rfl

theorem port_raiseGaps_gap (q : PortSet) (s : State) (p : Port) :
    ((raiseGaps q s).port p).gap = if q.has p then min ((s.port p).gap + 1) 65535 else (s.port p).gap := by
  rw [port_raiseGaps, apply_ite PortRec.gap]
  rfl

theorem port_raiseGaps_but_gap (q : PortSet) (s : State) (p : Port) :
    { (raiseGaps q s).port p with gap := (s.port p).gap } = s.port p := by
  rw [port_raiseGaps]
  split <;> rfl

theorem makeRoom_of_room {s : State} (h : s.journal.length < 256) : makeRoom s = s := if_neg (Nat.not_le_of_lt h)

theorem makeRoom_of_full {s : State} {old : Entry} {rest : List Entry} (hj : s.journal = old :: rest)
    (h : 256 ≤ s.journal.length) : makeRoom s = { raiseGaps old.pend s with journal := rest } := by
  unfold makeRoom
  rw [if_pos (show Config.journalCapacity ≤ s.journal.length from h), hj]

/-! ### The write: for an empty pending set, with room, and on a full journal (R190) -/

section
variable {q : PortSet} {s : State} (line : Option LineNo) (time : Time) (body : EventBody)

theorem writeEvent_of_isEmpty (hq : q.isEmpty = true) : writeEvent q line time body s = s := if_pos hq

theorem writeEvent_of_pending (hq : q.isEmpty = false) :
    writeEvent q line time body s =
      { makeRoom s with journal := (makeRoom s).journal ++ [⟨⟨line, time, qualityOf s.tb, body⟩, q⟩] } := by
  simp [writeEvent, hq]

theorem writeEvent_of_room (hq : q.isEmpty = false) (h : s.journal.length < 256) :
    writeEvent q line time body s = { s with journal := s.journal ++ [⟨⟨line, time, qualityOf s.tb, body⟩, q⟩] } := by
  rw [writeEvent_of_pending line time body hq, makeRoom_of_room h]

theorem writeEvent_of_full {old : Entry} {rest : List Entry} (hq : q.isEmpty = false) (hj : s.journal = old :: rest)
    (h : 256 ≤ s.journal.length) :
    writeEvent q line time body s =
      { raiseGaps old.pend s with journal := rest ++ [⟨⟨line, time, qualityOf s.tb, body⟩, q⟩] } := by
  rw [writeEvent_of_pending line time body hq, makeRoom_of_full hj h]

end

/-- Settles O8, by the three cases of a write: an empty pending set, room in the journal, and a full journal. -/
theorem journalWritesEvict : Obligations.JournalWritesEvict := by
  unfold Obligations.JournalWritesEvict
  intro q line time body s t new
  refine ⟨writeEvent_of_isEmpty line time body, writeEvent_of_room line time body, ?full⟩
  case full =>
    intro old rest hq hj hlen
    have ht : t = { raiseGaps old.pend s with journal := rest ++ [new] } := writeEvent_of_full line time body hq hj hlen
    have hports : ∀ p, t.port p = (raiseGaps old.pend s).port p := fun p => by rw [ht]; rfl
    refine ⟨by rw [ht], by rw [ht]; rfl, fun p => ?_⟩
    rw [hports]
    exact ⟨port_raiseGaps_but_gap old.pend s p, port_raiseGaps_gap old.pend s p⟩

end Sys2Proof.Machine
end

