-- ==== Sys2Proof/Proofs/WhatStepsKeep.lean ====
section
/-! PROOF. What an operation inside a command keeps, and what each invariant sees of a state. -/

namespace Sys2Proof.Machine

/-! ### What an operation keeps -/

/-- The records of the Profile Store, the timeslots, the items in progress and the lines are in order (R2, R5, R7, R9, R11, R21, R28, R29). -/
def RecordsOk (s : State) : Prop := StoreOk s ∧ TimeslotsOk s ∧ ItemsOk s ∧ RangesOk s

/-- A line's feed circuit was last sent the mode the line's derivation gives (R36). -/
def Follows (s : State) (l : LineNo) : Prop := (s.line l).sentMode = s.derivedMode l

/-- Every port's attachment, mask and buffers are as before; its gap count apart. -/
def PortsKept (s t : State) : Prop := BuffersKept s t ∧ AttachmentsKept s t

/-- What an operation inside a command keeps, where the feed mode of the line `x` is still to be recomputed: the ports but for their gap
counts, and what every step keeps, the feed mode of each line by itself. -/
structure Keeps (x : Option LineNo) (s t : State) : Prop where
  /-- the ports -/
  ports : PortsKept s t
  /-- the journal -/
  journal : JournalOk s → JournalOk t
  /-- the records -/
  records : RecordsOk s → RecordsOk t
  /-- the feed modes -/
  feeds : ∀ m, x ≠ some m → Follows s m → Follows t m
  /-- the Tone Pool -/
  pool : PoolAgrees s → PoolAgrees t

/-- What a whole command keeps. -/
structure Upholds (s t : State) : Prop where
  /-- the journal -/
  journal : JournalOk s → JournalOk t
  /-- the records -/
  records : RecordsOk s → RecordsOk t
  /-- the feed modes -/
  feeds : FeedsFollow s → FeedsFollow t
  /-- the Tone Pool -/
  pool : PoolAgrees s → PoolAgrees t

section
variable {x : Option LineNo} {s t u : State}

theorem PortsKept.refl (s : State) : PortsKept s s := ⟨fun _ => ⟨rfl, rfl⟩, fun _ => ⟨rfl, rfl, rfl, rfl, rfl⟩⟩

theorem PortsKept.trans (h : PortsKept s t) (k : PortsKept t u) : PortsKept s u := by
  refine ⟨fun q => ?_, fun q => ?_⟩
  · obtain ⟨h1, h2⟩ := h.1 q
    obtain ⟨k1, k2⟩ := k.1 q
    exact ⟨k1.trans h1, k2.trans h2⟩
  · obtain ⟨h1, h2, h3, h4, h5⟩ := h.2 q
    obtain ⟨k1, k2, k3, k4, k5⟩ := k.2 q
    exact ⟨k1.trans h1, k2.trans h2, k3.trans h3, k4.trans h4, k5.trans h5⟩

/-- Ports that are as before are kept. -/
theorem PortsKept.of_eq (h : ∀ q, t.port q = s.port q) : PortsKept s t := by
  refine ⟨fun q => ?_, fun q => ?_⟩ <;> rw [h q]
  · exact ⟨rfl, rfl⟩
  · exact ⟨rfl, rfl, rfl, rfl, rfl⟩

theorem Keeps.refl (x : Option LineNo) (s : State) : Keeps x s s := ⟨PortsKept.refl s, id, id, fun _ _ => id, id⟩

theorem Keeps.trans (h : Keeps x s t) (k : Keeps x t u) : Keeps x s u :=
  ⟨h.ports.trans k.ports, k.journal ∘ h.journal, k.records ∘ h.records, fun m hm => k.feeds m hm ∘ h.feeds m hm, k.pool ∘ h.pool⟩

/-- What follows every feed mode follows all but one. -/
theorem Keeps.but (x : Option LineNo) (h : Keeps none s t) : Keeps x s t :=
  ⟨h.ports, h.journal, h.records, fun m _ => h.feeds m nofun, h.pool⟩

theorem Keeps.upholds (h : Keeps none s t) : Upholds s t := ⟨h.journal, h.records, fun f m => h.feeds m nofun (f m), h.pool⟩

theorem Upholds.refl (s : State) : Upholds s s := ⟨id, id, id, id⟩

theorem Upholds.trans (h : Upholds s t) (k : Upholds t u) : Upholds s u :=
  ⟨k.journal ∘ h.journal, k.records ∘ h.records, k.feeds ∘ h.feeds, k.pool ∘ h.pool⟩

end

/-! ### What each invariant sees of a state -/

section
variable {s t : State}

theorem attached_congr {p : Port} (h : (t.port p).state = (s.port p).state) : t.attached p = s.attached p := by
  simp only [State.attached, h]

/-- JournalOk sees the journal, and of each port its state and its gap count. -/
theorem JournalOk.congr (hj : t.journal = s.journal) (hp : ∀ p, (t.port p).state = (s.port p).state ∧ (t.port p).gap = (s.port p).gap)
    (h : JournalOk s) : JournalOk t := by
  obtain ⟨hlen, hpend, hgap⟩ := h
  refine ⟨hj ▸ hlen, fun e he => ?_, fun q => (hp q).2 ▸ hgap q⟩
  obtain ⟨hne, ha, hb, ht⟩ := hpend e (hj ▸ he)
  refine ⟨hne, ?_, ?_, ?_⟩ <;> rw [attached_congr (hp _).1] <;> assumption

/-- The records that RecordsOk sees, the line records apart. -/
theorem RecordsOk.of_lines (hs : t.store = s.store) (h0 : t.scan.item0 = s.scan.item0) (h1 : t.scan.item1 = s.scan.item1)
    (hx : t.test.shadows = s.test.shadows) (hslot : ∀ l, (t.line l).timeslot = (s.line l).timeslot)
    (hline : ∀ l, lineInRange (t.line l)) (h : RecordsOk s) : RecordsOk t := by
  obtain ⟨hstore, hslots, hitems, -, hshadow⟩ := h
  refine ⟨?_, fun l m hlm e => ?_, ?_, hline, ?_⟩
  · unfold StoreOk; rw [hs]; exact hstore
  · rw [hslot, hslot] at e; rw [hslot]; exact hslots l m hlm e
  · unfold ItemsOk; rw [h0, h1]; exact hitems
  · rw [hx]; exact hshadow

theorem RecordsOk.line (h : RecordsOk s) (l : LineNo) : lineInRange (s.line l) := h.2.2.2.1 l

theorem RecordsOk.profile (h : RecordsOk s) (l : LineNo) : profileGood (s.effective l) = true := h.1.1 _

/-- PoolAgrees sees the Tone Pool and the detector statuses. -/
theorem PoolAgrees.congr (hd : ∀ d, (t.det d).line = (s.det d).line ∧ (t.det d).locked = (s.det d).locked)
    (hq : t.pool.waitQueue = s.pool.waitQueue) (hl : ∀ l, (t.line l).detStatus = (s.line l).detStatus) (h : PoolAgrees s) :
    PoolAgrees t := by
  unfold PoolAgrees
  simp only [fun d => (hd d).1, fun d => (hd d).2, hq, hl]
  exact h

end

/-! ### The feed mode of a line -/

/-- What the feed mode of a line sees of its record is as before, and so is the mode last sent (R35, R36). -/
def SameFeed (r r' : Line) : Prop :=
  r'.sentMode = r.sentMode ∧ (r'.state = .held ↔ r.state = .held) ∧
    (r'.state = .ringing ∧ r'.ringPhase = some .ring ↔ r.state = .ringing ∧ r.ringPhase = some .ring) ∧
    r'.testFeed = r.testFeed ∧ (r'.faults.foreignVoltage.state = .present ↔ r.faults.foreignVoltage.state = .present)

theorem SameFeed.refl (r : Line) : SameFeed r r := ⟨rfl, Iff.rfl, Iff.rfl, rfl, Iff.rfl⟩

section
variable {s t : State} {l : LineNo}

/-- The derived feed mode sees, of the rest of the state, the auto block option and the kind and origin of the item on the line (R35). -/
theorem derivedMode_congr (h : SameFeed (s.line l) (t.line l)) (ha : (t.effective l).autoBlock = (s.effective l).autoBlock)
    (hi : (t.itemOn l).map (fun i => (i.kind, i.origin)) = (s.itemOn l).map (fun i => (i.kind, i.origin))) :
    t.derivedMode l = s.derivedMode l := by
  obtain ⟨-, hheld, hring, htest, hfault⟩ := h
  have hm : t.heldMode l = s.heldMode l ∧ t.plainMode l = s.plainMode l := by
    unfold State.heldMode State.plainMode
    rw [htest]
    simp only [hring]
    revert hi
    rcases t.itemOn l with _ | ⟨_, k, _ | n⟩ <;> rcases s.itemOn l with _ | ⟨_, k', _ | n'⟩ <;> simp +contextual
  refine if_congr hheld hm.1 (if_congr ?_ rfl hm.2)
  simp only [isolated_iff, hfault, ha]

theorem itemOn_congr (h : t.bankItem (bankOf l) = s.bankItem (bankOf l)) : t.itemOn l = s.itemOn l := by
  simp only [State.itemOn, h]

theorem effective_congr (h : t.store = s.store) (l : LineNo) : t.effective l = s.effective l := by
  simp only [State.effective, State.effectiveNo, h]

theorem bankItem_congr (h : t.scan = s.scan) (b : Bank) : t.bankItem b = s.bankItem b := by
  cases b <;> simp only [State.bankItem, h]

theorem follows_congr (h : SameFeed (s.line l) (t.line l)) (hs : t.store = s.store)
    (hi : (t.itemOn l).map (fun i => (i.kind, i.origin)) = (s.itemOn l).map (fun i => (i.kind, i.origin))) (k : Follows s l) :
    Follows t l := by
  unfold Follows
  rw [derivedMode_congr h (by rw [effective_congr hs]) hi, h.1]
  exact k

end

/-! ### Elementary updates -/

section
variable {x : Option LineNo} {s t : State}

/-- An update of components that no kept property sees. -/
theorem Keeps.apart (hp : ∀ p, t.port p = s.port p) (hj : t.journal = s.journal) (hl : t.lines = s.lines) (hs : t.store = s.store)
    (h0 : t.scan.item0 = s.scan.item0) (h1 : t.scan.item1 = s.scan.item1) (hx : t.test.shadows = s.test.shadows)
    (hd : ∀ d, (t.det d).line = (s.det d).line ∧ (t.det d).locked = (s.det d).locked) (hq : t.pool.waitQueue = s.pool.waitQueue) :
    Keeps x s t where
  ports := PortsKept.of_eq hp
  journal := JournalOk.congr hj fun p => by rw [hp p]; exact ⟨rfl, rfl⟩
  records h := RecordsOk.of_lines hs h0 h1 hx (fun l => by rw [State.line_congr hl])
    (fun l => by rw [State.line_congr hl]; exact h.line l) h
  feeds m _ := by
    have hi : t.itemOn m = s.itemOn m := itemOn_congr (by cases bankOf m <;> simp only [State.bankItem, h0, h1])
    exact follows_congr (by rw [State.line_congr hl]; exact SameFeed.refl _) hs (by rw [hi])
  pool := PoolAgrees.congr hd hq fun l => by rw [State.line_congr hl]

/-- A line's record is replaced: its detector status and timeslot as before, and its feed mode too, unless it is still to be recomputed. -/
theorem Keeps.setLine {l : LineNo} {r : Line} (hfeed : x = some l ∨ SameFeed (s.line l) r) (hdet : r.detStatus = (s.line l).detStatus)
    (hslot : r.timeslot = (s.line l).timeslot) (hrange : RecordsOk s → lineInRange r) : Keeps x s (s.setLine l r) where
  ports := PortsKept.of_eq fun p => by simp
  journal := JournalOk.congr rfl fun p => by simp
  records h := by
    refine RecordsOk.of_lines (s := s) rfl rfl rfl rfl (fun m => ?_) (fun m => ?_) h <;> by_cases hm : m = l
    · subst hm; simpa using hslot
    · simp [hm]
    · subst hm; simpa using hrange h
    · simpa [hm] using h.line m
  feeds m hx := by
    have hi : (s.setLine l r).itemOn m = s.itemOn m := itemOn_congr (by simp)
    refine follows_congr ?_ rfl (by rw [hi])
    by_cases hm : m = l
    · subst hm
      rw [State.line_setLine_self]
      exact hfeed.resolve_left hx
    · simp [hm, SameFeed.refl]
  pool := PoolAgrees.congr (fun d => by simp) rfl fun m => by
    by_cases hm : m = l
    · subst hm; simpa using hdet
    · simp [hm]

theorem Keeps.modLine {l : LineNo} {f : Line → Line} (hfeed : x = some l ∨ SameFeed (s.line l) (f (s.line l)))
    (hdet : (f (s.line l)).detStatus = (s.line l).detStatus) (hslot : (f (s.line l)).timeslot = (s.line l).timeslot)
    (hrange : RecordsOk s → lineInRange (f (s.line l))) : Keeps x s (s.modLine l f) := Keeps.setLine hfeed hdet hslot hrange

end
end Sys2Proof.Machine
end

