-- ==== Sys2Proof/Proofs/KeptByEvents.lean ====
section
/-! PROOF. Events and recomputed feed modes keep what every step keeps. -/

namespace Sys2Proof.Machine

/-! ### Events -/

section
variable {x : Option LineNo} {s : State}

theorem pendAttached_linePorts (s : State) (l : LineNo) : pendAttached s (s.linePorts l) := by
  simp +contextual [pendAttached, State.linePorts]

theorem pendAttached_holdPorts (s : State) (l : LineNo) : pendAttached s (s.holdPorts l) := by
  simp +contextual [pendAttached, State.holdPorts, State.linePorts]

theorem pendAttached_attachedPorts (s : State) : pendAttached s s.attachedPorts := by
  simp [pendAttached, State.attachedPorts]

theorem pendAttached_attachedControllers (s : State) : pendAttached s s.attachedControllers := by
  simp [pendAttached, State.attachedControllers]

theorem pendAttached_without {q : PortSet} (p : Port) (h : pendAttached s q) : pendAttached s (q.without p) := by
  obtain ⟨ha, hb, ht⟩ := h
  cases p
  · exact ⟨nofun, hb, ht⟩
  · exact ⟨ha, nofun, ht⟩
  · exact ⟨ha, hb, nofun⟩

theorem pendAttached_only {p : Port} (h : s.attached p = true) : pendAttached s (onlyPort p) := by
  cases p <;> simp [pendAttached, onlyPort, h]

/-- The journal after room was made for one more entry: shorter than its capacity, and in order still (R191). -/
theorem makeRoom_journalOk (h : JournalOk s) : JournalOk (makeRoom s) ∧ (makeRoom s).journal.length < 256 := by
  obtain ⟨hlen, hpend, hgap⟩ := h
  by_cases hfull : s.journal.length < 256
  · rw [makeRoom_of_room hfull]
    exact ⟨⟨hlen, hpend, hgap⟩, hfull⟩
  · obtain ⟨old, rest, hj⟩ := List.exists_cons_of_length_pos (Nat.lt_of_lt_of_le (by decide) (Nat.le_of_not_lt hfull))
    rw [makeRoom_of_full hj (Nat.le_of_not_lt hfull)]
    have hrest : rest.length < 256 := by rw [hj, List.length_cons] at hlen; omega
    refine ⟨⟨Nat.le_of_lt hrest, fun e he => ?_, fun q => ?_⟩, hrest⟩
    · obtain ⟨hne, hatt⟩ := hpend e (hj ▸ List.mem_cons_of_mem _ he)
      refine ⟨hne, ?_⟩
      change pendAttached (raiseGaps old.pend s) e.pend
      simpa [pendAttached] using hatt
    · change ((raiseGaps old.pend s).port q).gap ≤ 65535
      rw [port_raiseGaps_gap]
      have := hgap q
      split <;> omega

theorem writeEvent_journalOk {q : PortSet} (line : Option LineNo) (time : Time) (body : EventBody) (hq : pendAttached s q)
    (h : JournalOk s) : JournalOk (writeEvent q line time body s) := by
  by_cases he : q.isEmpty = true
  · rwa [writeEvent_of_isEmpty line time body he]
  · obtain ⟨⟨-, hpend, hgap⟩, hroom⟩ := makeRoom_journalOk h
    have heq := writeEvent_of_pending (s := s) line time body (by simpa using he)
    refine ⟨?_, fun e hmem => ?_, fun p => ?_⟩
    · rw [heq]; simpa using hroom
    · rw [heq] at hmem
      simp only [List.mem_append, List.mem_singleton] at hmem
      rcases hmem with hmem | rfl
      · simpa [pendAttached] using hpend e hmem
      · exact ⟨by simpa using he, by simpa [pendAttached] using hq⟩
    · rw [heq]; exact hgap p

theorem portsKept_writeEvent (q : PortSet) (line : Option LineNo) (time : Time) (body : EventBody) (s : State) :
    PortsKept s (writeEvent q line time body s) :=
  ⟨fun p => by simp, fun p => by simp [AttachmentKept]⟩

theorem keeps_writeEvent {q : PortSet} (line : Option LineNo) (time : Time) (body : EventBody) (hq : pendAttached s q) :
    Keeps x s (writeEvent q line time body s) :=
  have rest : Keeps x s { writeEvent q line time body s with
      journal := s.journal, portA := s.portA, portB := s.portB, portT := s.portT } :=
    Keeps.apart (fun p => by cases p <;> rfl) rfl (by simp) (by simp) (by simp) (by simp) (by simp)
      (fun d => by simp [State.det]) (by simp)
  { ports := portsKept_writeEvent q line time body s
    journal := writeEvent_journalOk line time body hq
    records := rest.records
    feeds := rest.feeds
    pool := rest.pool }

theorem keeps_lineEvent (l : LineNo) (time : Time) (body : EventBody) : Keeps x s (lineEvent l time body s) :=
  keeps_writeEvent _ _ _ (pendAttached_linePorts s l)

theorem keeps_deviceEvent (time : Time) (body : EventBody) : Keeps x s (deviceEvent time body s) :=
  keeps_writeEvent _ _ _ (pendAttached_attachedPorts s)

end

/-! ### Feed modes -/

section
variable {s t : State}

theorem noteMode_same (r : Line) : noteMode r.sentMode r = r := by simp [noteMode]

theorem sendCommand_line (l : LineNo) (m : FeedMode) (o : SourceOrder) (s : State) (k : LineNo) :
    (sendCommand l m o s).line k = s.line k := State.line_congr (sendCommand_lines l m o s) k

/-- A recomputation leaves the derived mode in the line's record (R36). -/
theorem recomputeFeedWith_line_self (o : SourceOrder) (l : LineNo) (s : State) :
    (recomputeFeedWith o l s).line l = noteMode (s.derivedMode l) (s.line l) := by
  unfold recomputeFeedWith
  dsimp only
  split
  next h => rw [h.1, noteMode_same]
  next => rw [sendCommand_line, State.line_modLine_self]

theorem recomputeFeedWith_line_ne (o : SourceOrder) {l m : LineNo} (h : m ≠ l) (s : State) :
    (recomputeFeedWith o l s).line m = s.line m := by
  unfold recomputeFeedWith
  dsimp only
  split
  next => rfl
  next => rw [sendCommand_line, State.line_modLine_ne _ _ h]

theorem recomputeFeed_line_self (l : LineNo) (s : State) :
    (recomputeFeed l s).line l = noteMode (s.derivedMode l) (s.line l) := recomputeFeedWith_line_self _ _ _

theorem recomputeFeed_line_ne {l m : LineNo} (h : m ≠ l) (s : State) : (recomputeFeed l s).line m = s.line m :=
  recomputeFeedWith_line_ne _ h _

/-- A recomputation does not change what the lines' modes are derived from. -/
@[simp] theorem derivedMode_recomputeFeedWith (o : SourceOrder) (l : LineNo) (s : State) (m : LineNo) :
    (recomputeFeedWith o l s).derivedMode m = s.derivedMode m := by
  have hi : (recomputeFeedWith o l s).itemOn m = s.itemOn m := itemOn_congr (bankItem_congr (recomputeFeedWith_scan o l s) _)
  by_cases h : m = l
  · subst h
    have hl := recomputeFeedWith_line_self o m s
    refine derivedMode_eq ?_ ?_ ?_ ?_ (recomputeFeedWith_store o m s) hi <;> rw [hl] <;> rfl
  · have hl := recomputeFeedWith_line_ne o h s
    refine derivedMode_eq ?_ ?_ ?_ ?_ (recomputeFeedWith_store o l s) hi <;> rw [hl]

@[simp] theorem derivedMode_recomputeFeed (l : LineNo) (s : State) (m : LineNo) :
    (recomputeFeed l s).derivedMode m = s.derivedMode m := derivedMode_recomputeFeedWith _ _ _ _

/-- A recomputation gives the line its feed mode, and leaves the others theirs (R36). -/
theorem Keeps.recomputeWith (o : SourceOrder) {l : LineNo} (h : Keeps (some l) s t) : Keeps none s (recomputeFeedWith o l t) := by
  have hset : Keeps (some l) s (t.modLine l (noteMode (t.derivedMode l))) :=
    h.trans (Keeps.modLine (.inl rfl) rfl rfl fun hr => hr.line l)
  have hline : (recomputeFeedWith o l t).lines = (t.modLine l (noteMode (t.derivedMode l))).lines :=
    Vector.ext fun i hi => by
      change (recomputeFeedWith o l t).line ⟨i, hi⟩ = State.line _ ⟨i, hi⟩
      by_cases hl : (⟨i, hi⟩ : LineNo) = l
      · rw [hl, recomputeFeedWith_line_self, State.line_modLine_self]
      · rw [recomputeFeedWith_line_ne o hl, State.line_modLine_ne _ _ hl]
  have hall : Keeps (some l) s (recomputeFeedWith o l t) :=
    hset.trans (Keeps.apart (fun p => by cases p <;> simp [State.port]) (by simp) hline (by simp) (by simp) (by simp)
      (by simp) (fun d => by simp [State.det]) (by simp))
  refine ⟨hall.ports, hall.journal, hall.records, fun m _ hf => ?_, hall.pool⟩
  by_cases hm : m = l
  · subst hm
    rw [Follows, recomputeFeedWith_line_self, derivedMode_recomputeFeedWith]
    rfl
  · exact hall.feeds m (by simpa using Ne.symm hm) hf

theorem Keeps.recompute {l : LineNo} (h : Keeps (some l) s t) : Keeps none s (recomputeFeed l t) := h.recomputeWith .none

theorem keeps_recomputeFeed (l : LineNo) (s : State) : Keeps none s (recomputeFeed l s) := (Keeps.refl _ s).recompute

/-- A line's record is replaced, and then its feed mode recomputed. -/
theorem keeps_recompute_modLine {l : LineNo} {f : Line → Line} (hdet : (f (s.line l)).detStatus = (s.line l).detStatus)
    (hslot : (f (s.line l)).timeslot = (s.line l).timeslot) (hrange : RecordsOk s → lineInRange (f (s.line l))) :
    Keeps none s (recomputeFeed l (s.modLine l f)) := (Keeps.modLine (.inl rfl) hdet hslot hrange).recompute

/-- The measurement in progress and the recovery-discard flag are in no range and no feed mode. -/
theorem keeps_beginMeasuring (l : LineNo) (t : Time) (m : FeedMode) (b : Bool) (s : State) :
    Keeps none s (s.modLine l (beginMeasuring t m b)) :=
  Keeps.modLine (.inr (SameFeed.refl _)) rfl rfl fun h => h.line l

theorem keeps_rebeginSlot (l : LineNo) (s : State) : Keeps none s (rebeginSlot l s) := by
  unfold rebeginSlot
  split
  · split
    · exact keeps_beginMeasuring l _ _ _ s
    · exact Keeps.refl _ s
  · exact Keeps.refl _ s

end
end Sys2Proof.Machine
end

