-- ==== Sys2Proof/Proofs/KeptByThePool.lean ====
section
/-! PROOF. The operations of the Tone Pool keep its detectors, the lines' statuses and the Wait Queue in agreement. -/

namespace Sys2Proof.Machine

/-! ### Detectors and the Wait Queue -/

/-- The first six agreements of the Tone Pool (R97, R108): all but that no detector is free while a line waits. -/
def PoolMatches (s : State) : Prop :=
  (∀ d l, (s.det d).line = some l ↔ heldDet (s.line l).detStatus = some d) ∧
    (∀ d l, (s.line l).detStatus = .locked d → (s.det d).locked = true) ∧
    (∀ d l, (s.line l).detStatus = .assigned d → (s.det d).locked = false) ∧
    (∀ d, (s.det d).line = none → (s.det d).locked = false) ∧
    s.pool.waitQueue.Nodup ∧ (∀ l, l ∈ s.pool.waitQueue ↔ (s.line l).detStatus = .waiting)

theorem poolAgrees_iff {s : State} :
    PoolAgrees s ↔ PoolMatches s ∧ (s.pool.waitQueue ≠ [] → ∀ d, (s.det d).line ≠ none) := by
  simp only [PoolAgrees, PoolMatches, and_assoc]

/-- One detector, one line's detector status and the Wait Queue replaced. -/
def exchange (d : DetNo) (r : Detector) (l : LineNo) (st : DetStatus) (q : List LineNo) (s : State) : State :=
  ((s.setDet d r).setStatus l st).setQueue q

section
variable {s : State} {d : DetNo} {r : Detector} {l : LineNo} {st : DetStatus} {q : List LineNo}

theorem exchange_det_self : (exchange d r l st q s).det d = r := State.det_setDet_self s d r

theorem exchange_det_ne {e : DetNo} (h : e ≠ d) : (exchange d r l st q s).det e = s.det e := State.det_setDet_ne s r h

theorem exchange_status_self : ((exchange d r l st q s).line l).detStatus = st :=
  congrArg Line.detStatus (State.setStatus_line_self (s.setDet d r) l st)

theorem exchange_status_ne {m : LineNo} (h : m ≠ l) : ((exchange d r l st q s).line m).detStatus = (s.line m).detStatus :=
  congrArg Line.detStatus (State.setStatus_line_ne (s.setDet d r) st h)

/-- A detector and a line that hold each other or nothing are given to each other, or freed together, with their locks and the queue agreeing. -/
theorem poolMatches_exchange (hd : (s.det d).line = none ∨ (s.det d).line = some l)
    (hl : heldDet (s.line l).detStatus = none ∨ heldDet (s.line l).detStatus = some d)
    (hpair : r.line = some l ∧ heldDet st = some d ∨ r.line = none ∧ heldDet st = none)
    (hlock : st = .locked d → r.locked = true) (hfree : st ≠ .locked d → r.locked = false)
    (hnodup : q.Nodup) (hq : ∀ m, m ∈ q ↔ m = l ∧ st = .waiting ∨ m ≠ l ∧ m ∈ s.pool.waitQueue) (h : PoolMatches s) :
    PoolMatches (exchange d r l st q s) := by
  obtain ⟨hiff, hlocked, hassigned, hunlocked, -, hwait⟩ := h
  have held_ne : ∀ m, m ≠ l → heldDet (s.line m).detStatus ≠ some d := by
    intro m hm hh
    rw [← hiff] at hh
    rcases hd with hd | hd <;> rw [hd] at hh
    · exact absurd hh nofun
    · exact hm (Option.some.inj hh).symm
  have line_ne : ∀ e, e ≠ d → (s.det e).line ≠ some l := by
    intro e he hh
    rw [hiff] at hh
    rcases hl with hl | hl <;> rw [hl] at hh
    · exact absurd hh nofun
    · exact he (Option.some.inj hh).symm
  have held_cases : ∀ e m, heldDet ((exchange d r l st q s).line m).detStatus = some e → e = d ∧ m = l ∨ e ≠ d ∧ m ≠ l := by
    intro e m hs
    by_cases hm : m = l
    · rw [hm, exchange_status_self] at hs
      rcases hpair with ⟨-, h2⟩ | ⟨-, h2⟩ <;> rw [h2] at hs
      · exact .inl ⟨(Option.some.inj hs).symm, hm⟩
      · exact absurd hs nofun
    · rw [exchange_status_ne hm] at hs
      exact .inr ⟨fun he => held_ne m hm (he ▸ hs), hm⟩
  refine ⟨fun e m => ?_, fun e m => ?_, fun e m => ?_, fun e => ?_, hnodup, fun m => ?_⟩
  · by_cases he : e = d <;> by_cases hm : m = l
    · subst he hm
      rw [exchange_det_self, exchange_status_self]
      rcases hpair with ⟨h1, h2⟩ | ⟨h1, h2⟩ <;> simp [h1, h2]
    · subst he
      rw [exchange_det_self, exchange_status_ne hm]
      rcases hpair with ⟨h1, -⟩ | ⟨h1, -⟩ <;> simp [h1, held_ne m hm, Ne.symm hm]
    · subst hm
      rw [exchange_det_ne he, exchange_status_self]
      rcases hpair with ⟨-, h2⟩ | ⟨-, h2⟩ <;> simp [h2, line_ne e he, Ne.symm he]
    · rw [exchange_det_ne he, exchange_status_ne hm]
      exact hiff e m
  · intro hs
    rcases held_cases e m (congrArg heldDet hs) with ⟨rfl, rfl⟩ | ⟨he, hm⟩
    · rw [exchange_det_self]
      exact hlock (exchange_status_self.symm.trans hs)
    · rw [exchange_det_ne he]
      exact hlocked e m ((exchange_status_ne hm).symm.trans hs)
  · intro hs
    rcases held_cases e m (congrArg heldDet hs) with ⟨rfl, rfl⟩ | ⟨he, hm⟩
    · rw [exchange_det_self]
      refine hfree ?_
      rw [← exchange_status_self (s := s) (d := e) (r := r) (l := m) (st := st) (q := q), hs]
      nofun
    · rw [exchange_det_ne he]
      exact hassigned e m ((exchange_status_ne hm).symm.trans hs)
  · by_cases he : e = d
    · subst he
      rw [exchange_det_self]
      intro hr
      refine hfree ?_
      rintro rfl
      rcases hpair with ⟨h1, -⟩ | ⟨-, h2⟩
      · rw [hr] at h1; exact absurd h1 nofun
      · exact absurd h2 nofun
    · rw [exchange_det_ne he]
      exact hunlocked e
  · change m ∈ q ↔ _
    rw [hq]
    by_cases hm : m = l
    · subst hm
      simp [exchange_status_self]
    · rw [exchange_status_ne hm]
      simp [hm, hwait]

end

/-! ### The operations on the Tone Pool -/

section
variable {s t : State}

/-- An operation that changes, of what is kept, the Tone Pool and the detector statuses only. -/
theorem keeps_of_statuses {x : Option LineNo} (hlines : ∀ m, { t.line m with detStatus := (s.line m).detStatus } = s.line m) (hp : ∀ p, t.port p = s.port p)
    (hj : t.journal = s.journal) (hs : t.store = s.store) (hc : t.scan = s.scan) (hx : t.test = s.test)
    (hpool : PoolAgrees s → PoolAgrees t) : Keeps x s t where
  ports := PortsKept.of_eq hp
  journal := JournalOk.congr hj fun p => by rw [hp p]; exact ⟨rfl, rfl⟩
  records h := by
    refine RecordsOk.of_lines hs (by rw [hc]) (by rw [hc]) (by rw [hx]) (fun m => ?_) (fun m => ?_) h
    · rw [← hlines m]
    · have := h.line m
      rw [← hlines m] at this
      exact this
  feeds m _ := by
    have hi : t.itemOn m = s.itemOn m := itemOn_congr (bankItem_congr hc _)
    refine follows_congr ?_ hs (by rw [hi])
    rw [← hlines m]
    exact SameFeed.refl _
  pool := hpool

/-- What is left of every line but two different ones is left of every line. -/
theorem all_of_others (h : ∀ l, OtherLinesButDetector l s t) (m : LineNo) : { t.line m with detStatus := (s.line m).detStatus } = s.line m :=
  h (m + 1) m (by revert m; decide)

/-- A matching pool with a free detector that is handed on to the head of its queue, if any, agrees. -/
theorem poolAgrees_handOn {d : DetNo} (h : PoolMatches s) (hd : (s.det d).line = none)
    (hbusy : s.pool.waitQueue ≠ [] → ∀ e, e ≠ d → (s.det e).line ≠ none) : PoolAgrees (handOn d s) := by
  rw [poolAgrees_iff]
  unfold handOn
  split
  next hq => exact ⟨h, fun hne => absurd hq hne⟩
  next w rest hq =>
    obtain ⟨-, -, -, -, hnodup, hwait⟩ := id h
    have hw : (s.line w).detStatus = .waiting := (hwait w).mp (hq ▸ List.mem_cons_self)
    rw [hq, List.nodup_cons] at hnodup
    have hgive : assignDet d w false (s.setQueue rest) = exchange d (freshDetector w false s.now) w (.assigned d) rest s := rfl
    rw [hgive]
    refine ⟨poolMatches_exchange (.inl hd) (.inl (by rw [hw]; rfl)) (.inl ⟨rfl, rfl⟩) nofun (fun _ => rfl) hnodup.2 (fun m => ?_) h,
      fun _ e => ?_⟩
    · rw [hq]
      by_cases hm : m = w
      · simp [hm, hnodup.1]
      · simp [hm]
    · by_cases he : e = d
      · rw [he, exchange_det_self]
        nofun
      · rw [exchange_det_ne he]
        exact hbusy (by rw [hq]; nofun) e he

/-- A release of the detector a line holds keeps the pool in agreement (R110). -/
theorem keeps_releaseDet {d : DetNo} {l : LineNo} (h : heldDet (s.line l).detStatus = some d) : Keeps none s (releaseDet d l s) := by
  refine keeps_of_statuses (all_of_others fun k => others_releaseDet k l d s) (fun p => by cases p <;> simp [State.port]) (by simp) (by simp)
    (by simp) (by simp) fun hp => ?_
  obtain ⟨hm, hbusy⟩ := poolAgrees_iff.mp hp
  obtain ⟨hiff, -, -, -, hnodup, hwait⟩ := id hm
  have hl : (s.det d).line = some l := (hiff d l).mpr h
  have hnw : (s.line l).detStatus ≠ .waiting := fun e => by rw [e] at h; exact absurd h nofun
  refine poolAgrees_handOn (s := exchange d freedDetector l .none s.pool.waitQueue s)
    (poolMatches_exchange (.inr hl) (.inr h) (.inr ⟨rfl, rfl⟩) nofun (fun _ => rfl) hnodup (fun m => ?_) hm)
    (by rw [exchange_det_self]; rfl) fun hne e he => ?_
  · by_cases hml : m = l
    · simp [hml, hwait, hnw]
    · simp [hml]
  · rw [exchange_det_ne he]
    exact hbusy hne e

/-- A line that holds no detector joins or leaves the Wait Queue. -/
theorem poolMatches_requeue {l : LineNo} {st : DetStatus} {q : List LineNo} (hl : heldDet (s.line l).detStatus = none)
    (hst : heldDet st = none) (hnodup : q.Nodup) (hq : ∀ m, m ∈ q ↔ m = l ∧ st = .waiting ∨ m ≠ l ∧ m ∈ s.pool.waitQueue)
    (h : PoolMatches s) : PoolMatches ((s.setQueue q).setStatus l st) := by
  obtain ⟨hiff, hlocked, hassigned, hunlocked, -, hwait⟩ := h
  have held_line : ∀ m d, heldDet (((s.setQueue q).setStatus l st).line m).detStatus = some d →
      (((s.setQueue q).setStatus l st).line m).detStatus = (s.line m).detStatus := by
    intro m d hs
    by_cases hm : m = l
    · rw [hm, State.setStatus_line_self] at hs
      exact absurd (hst.symm.trans hs) nofun
    · rw [State.setStatus_line_ne _ _ hm]
      rfl
  refine ⟨fun d m => ?_, fun d m hs => ?_, fun d m hs => ?_, hunlocked, hnodup, fun m => ?_⟩
  · refine (hiff d m).trans ⟨fun hs => ?_, fun hs => held_line m d hs ▸ hs⟩
    by_cases hm : m = l
    · rw [hm] at hs; exact absurd (hl.symm.trans hs) nofun
    · rw [State.setStatus_line_ne _ _ hm]; exact hs
  · exact hlocked d m (held_line m d (congrArg heldDet hs) ▸ hs)
  · exact hassigned d m (held_line m d (congrArg heldDet hs) ▸ hs)
  · refine (hq m).trans ?_
    by_cases hm : m = l
    · simp [hm]
    · rw [State.setStatus_line_ne _ _ hm]
      simpa [hm] using hwait m

theorem keeps_leaveQueue {l : LineNo} (h : (s.line l).detStatus = .waiting) : Keeps none s (leaveQueue l s) := by
  refine keeps_of_statuses (all_of_others fun k => others_leaveQueue k l s) (fun p => by cases p <;> rfl) rfl rfl rfl rfl fun hp => ?_
  obtain ⟨hm, hbusy⟩ := poolAgrees_iff.mp hp
  obtain ⟨-, -, -, -, hnodup, -⟩ := id hm
  refine poolAgrees_iff.mpr ⟨poolMatches_requeue (by rw [h]; rfl) rfl (hnodup.filter _) (fun m => ?_) hm, fun hne => hbusy fun he => hne ?_⟩
  · simp [and_comm]
  · change s.pool.waitQueue.filter _ = []
    rw [he]
    rfl

/-- A release cause keeps the pool in agreement, whatever the line's status (R111). -/
theorem keeps_releaseUnlocked (l : LineNo) (s : State) : Keeps none s (releaseUnlocked l s) := by
  unfold releaseUnlocked
  split
  next d h => exact keeps_releaseDet (by rw [h]; rfl)
  next h => exact keeps_leaveQueue h
  next => exact Keeps.refl _ s
  next => exact Keeps.refl _ s

theorem keeps_releaseAny (l : LineNo) (s : State) : Keeps none s (releaseAny l s) := by
  unfold releaseAny
  split
  next d h => exact keeps_releaseDet (by rw [h]; rfl)
  next d h => exact keeps_releaseDet (by rw [h]; rfl)
  next h => exact keeps_leaveQueue h
  next => exact Keeps.refl _ s

theorem freeDet_spec {d : DetNo} (h : s.freeDet = some d) : (s.det d).line = none := by
  have := List.find?_some (p := fun d => (s.det d).line.isNone) h
  simpa using this

theorem no_freeDet_spec (h : s.freeDet = none) (d : DetNo) : (s.det d).line ≠ none := by
  have := List.find?_eq_none.mp h d (List.mem_finRange d)
  simpa using this

/-- A free detector is given to a line that holds none and does not wait; nothing waits then (R108, R116). -/
theorem keeps_assignDet {d : DetNo} {l : LineNo} {lock : Bool} (hd : (s.det d).line = none) (hl : (s.line l).detStatus = .none) :
    Keeps none s (assignDet d l lock s) := by
  refine keeps_of_statuses (all_of_others fun k => others_assignDet k l d lock s) (fun p => by cases p <;> rfl) rfl rfl rfl rfl fun hp => ?_
  obtain ⟨hm, hbusy⟩ := poolAgrees_iff.mp hp
  have hempty : s.pool.waitQueue = [] := by
    by_contra hne
    exact hbusy hne d hd
  have hgive : assignDet d l lock s =
      exchange d (freshDetector l lock s.now) l (if lock then .locked d else .assigned d) s.pool.waitQueue s := rfl
  rw [hgive]
  refine poolAgrees_iff.mpr ⟨poolMatches_exchange (.inl hd) (.inl (by rw [hl]; rfl)) (.inl ⟨rfl, ?_⟩) ?_ ?_ ?_ ?_ hm, fun hne => absurd hempty hne⟩
  · cases lock <;> rfl
  · cases lock <;> simp [freshDetector]
  · cases lock <;> simp [freshDetector]
  · rw [hempty]; exact List.nodup_nil
  · cases lock <;> simp [hempty]

theorem keeps_requestDet {l : LineNo} (h : (s.line l).detStatus = .none) : Keeps none s (requestDet l s) := by
  rcases requestDet_cases l s with ⟨d, hd, heq⟩ | ⟨hnone, heq⟩ <;> rw [heq]
  · exact keeps_assignDet (freeDet_spec hd) h
  · refine keeps_of_statuses (all_of_others fun k => others_setStatus k l .waiting _) (fun p => by cases p <;> rfl) rfl rfl rfl rfl fun hp => ?_
    obtain ⟨hm, -⟩ := poolAgrees_iff.mp hp
    obtain ⟨-, -, -, -, hnodup, hwait⟩ := id hm
    have hnot : l ∉ s.pool.waitQueue := by rw [hwait, h]; nofun
    refine poolAgrees_iff.mpr ⟨poolMatches_requeue (by rw [h]; rfl) rfl ?_ (fun m => ?_) hm, fun _ => no_freeDet_spec hnone⟩
    · exact by simpa using List.Nodup.concat hnot hnodup
    · by_cases hml : m = l
      · simp [hml]
      · simp [hml]

/-- A victim leaves its line, which joins the tail of the queue, and is handed on to the head (R113). -/
theorem keeps_evictDet {d : DetNo} {v : LineNo} (hd : (s.det d).line = some v) (hq : s.pool.waitQueue ≠ []) :
    Keeps none s (evictDet d v s) := by
  have hothers : ∀ k, OtherLinesButDetector k s (evictDet d v s) := fun k =>
    others_trans (others_trans (others_setStatus k v .waiting (s.setDet d freedDetector)) (others_lines rfl)) (others_handOn k d _)
  refine keeps_of_statuses (all_of_others hothers) (fun p => by cases p <;> simp [evictDet, State.port]) (by simp [evictDet])
    (by simp [evictDet]) (by simp [evictDet]) (by simp [evictDet]) fun hp => ?_
  obtain ⟨hm, hbusy⟩ := poolAgrees_iff.mp hp
  obtain ⟨hiff, -, -, -, hnodup, hwait⟩ := id hm
  have hv : heldDet (s.line v).detStatus = some d := (hiff d v).mp hd
  have hnot : v ∉ s.pool.waitQueue := by
    rw [hwait]
    intro hs
    rw [hs] at hv
    exact absurd hv nofun
  refine poolAgrees_handOn (s := exchange d freedDetector v .waiting (s.pool.waitQueue ++ [v]) s)
    (poolMatches_exchange (.inr hd) (.inr hv) (.inr ⟨rfl, rfl⟩) nofun (fun _ => rfl) ?_ (fun m => ?_) hm)
    (by rw [exchange_det_self]; rfl) fun _ e he => ?_
  · exact by simpa using List.Nodup.concat hnot hnodup
  · by_cases hmv : m = v <;> simp [hmv]
  · rw [exchange_det_ne he]
    exact hbusy hq e

/-- The lock of a detector and of the line that holds it change together (R116, R118). -/
theorem keeps_relock {d : DetNo} {l : LineNo} {r : Detector} {st : DetStatus} (h : heldDet (s.line l).detStatus = some d)
    (hst : heldDet st = some d) (hr : r.line = (s.det d).line) (hlock : r.locked = decide (st = .locked d)) :
    Keeps none s ((s.setDet d r).setStatus l st) := by
  refine keeps_of_statuses (all_of_others fun k => others_setStatus k l st (s.setDet d r)) (fun p => by cases p <;> rfl) rfl rfl rfl rfl
    fun hp => ?_
  obtain ⟨hm, hbusy⟩ := poolAgrees_iff.mp hp
  obtain ⟨hiff, -, -, -, hnodup, hwait⟩ := id hm
  have hl : (s.det d).line = some l := (hiff d l).mpr h
  have hnw : (s.line l).detStatus ≠ .waiting := fun e => by rw [e] at h; exact absurd h nofun
  have hnw' : st ≠ .waiting := fun e => by rw [e] at hst; exact absurd hst nofun
  have heq : (s.setDet d r).setStatus l st = exchange d r l st s.pool.waitQueue s := rfl
  rw [heq]
  refine poolAgrees_iff.mpr ⟨poolMatches_exchange (.inr hl) (.inr h) (.inl ⟨hr.trans hl, hst⟩) (by simp [hlock]) (by simp [hlock]) hnodup
    (fun m => ?_) hm, fun hne e => ?_⟩
  · by_cases hml : m = l
    · simp [hml, hwait, hnw, hnw']
    · simp [hml]
  · by_cases he : e = d
    · rw [he, exchange_det_self, hr, hl]
      nofun
    · rw [exchange_det_ne he]
      exact hbusy hne e

/-- Detectors that keep their lines and their locks. -/
theorem keeps_detectors {x : Option LineNo} {p : TonePool} (hd : ∀ d : DetNo, (p.detectors[d]).line = (s.det d).line ∧ (p.detectors[d]).locked = (s.det d).locked)
    (hq : p.waitQueue = s.pool.waitQueue) : Keeps x s { s with pool := p } :=
  Keeps.apart (fun p => by cases p <;> rfl) rfl rfl rfl rfl rfl rfl hd hq

theorem keeps_setDet {x : Option LineNo} {d : DetNo} {r : Detector} (hl : r.line = (s.det d).line) (hk : r.locked = (s.det d).locked) :
    Keeps x s (s.setDet d r) := by
  refine keeps_detectors (fun e => ?_) rfl
  change ((s.setDet d r).det e).line = _ ∧ ((s.setDet d r).det e).locked = _
  by_cases he : e = d
  · rw [he, State.det_setDet_self]
    exact ⟨hl, hk⟩
  · rw [State.det_setDet_ne _ _ he]
    exact ⟨rfl, rfl⟩

theorem keeps_mapDets {x : Option LineNo} (f : Detector → Detector) (hl : ∀ r, (f r).line = r.line) (hk : ∀ r, (f r).locked = r.locked)
    (p : TonePool) (hd : p.detectors = s.pool.detectors.map f) (hq : p.waitQueue = s.pool.waitQueue) : Keeps x s { s with pool := p } :=
  keeps_detectors (fun d => by
    rw [hd, Fin.getElem_fin, Vector.getElem_map]
    exact ⟨hl _, hk _⟩) hq

theorem takeSample_line (k : UnitKind) (law : Law) (slot : Option Timeslot) (t : Time) (r : Detector) :
    (takeSample k law slot t r).line = r.line ∧ (takeSample k law slot t r).locked = r.locked := by
  unfold takeSample
  split <;> exact ⟨rfl, rfl⟩

/-- The sample a detector takes of a time unit, if it has a line (R98). -/
theorem keeps_sampleAll (k : UnitKind) (s : State) : Keeps none s (sampleAll k s) := by
  refine keeps_mapDets _ (fun r => ?_) (fun r => ?_) _ rfl rfl
  · split
    next h => exact (takeSample_line ..).1
    next => rfl
  · split
    next h => exact (takeSample_line ..).2
    next => rfl

theorem keeps_clearUsedBits (s : State) : Keeps none s (clearUsedBits s) :=
  keeps_mapDets _ (fun r => by split <;> rfl) (fun r => by split <;> rfl) _ rfl rfl

theorem victim_spec {d : DetNo} {v : LineNo} (h : s.victim = some (d, v)) : (s.det d).line = some v := by
  unfold State.victim at h
  split at h
  next e he =>
    simp only [Option.map_eq_some_iff, Prod.mk.injEq] at h
    obtain ⟨w, hw, rfl, rfl⟩ := h
    exact hw
  next => exact absurd h nofun

theorem keeps_reviewPool (s : State) : Keeps none s (reviewPool s) := by
  unfold reviewPool
  split
  next => exact Keeps.refl _ s
  next hq =>
    split
    next d v hv => exact keeps_evictDet (victim_spec hv) hq
    next => exact keeps_clearUsedBits s

end
end Sys2Proof.Machine
end

