-- ==== Sys2Proof/Proofs/KeptByTheHook.lean ====
section
/-! PROOF. The operations of the Digit Assembler and the Line Supervisor keep what every step keeps. -/

namespace Sys2Proof.Machine

/-! ### Operations on one line -/

/-- An operation on a line that keeps what every step keeps, and the line's state. -/
def Notes (l : LineNo) (s t : State) : Prop := Keeps none s t ∧ (t.line l).state = (s.line l).state

/-- The line is neither HELD nor RINGING, so that its feed mode does not see which state it is in. -/
def Quiet (l : LineNo) (s : State) : Prop := (s.line l).state ≠ .held ∧ (s.line l).state ≠ .ringing

/-- An operation of the hook on a quiet line: it keeps what every step keeps, and leaves the line quiet. -/
def Serves (l : LineNo) (s t : State) : Prop := Quiet l s → Keeps none s t ∧ Quiet l t

section
variable {l : LineNo} {s t u : State}

theorem Notes.refl (l : LineNo) (s : State) : Notes l s s := ⟨Keeps.refl _ s, rfl⟩

theorem Notes.trans (h : Notes l s t) (k : Notes l t u) : Notes l s u := ⟨h.1.trans k.1, k.2.trans h.2⟩

theorem Notes.keeps (h : Notes l s t) : Keeps none s t := h.1

theorem Notes.serves (h : Notes l s t) : Serves l s t := fun hq => ⟨h.1, by rw [Quiet, h.2]; exact hq⟩

theorem Serves.refl (l : LineNo) (s : State) : Serves l s s := (Notes.refl l s).serves

theorem Serves.trans (h : Serves l s t) (k : Serves l t u) : Serves l s u := fun hq =>
  have ⟨h1, hq1⟩ := h hq
  have ⟨h2, hq2⟩ := k hq1
  ⟨h1.trans h2, hq2⟩

/-- The fields of a record that an operation of the hook leaves: those that the feed mode, the Tone Pool and the timeslots see, the state and
the ring phase apart. -/
def wiring (r : Line) : FeedMode × Option TestFeed × FaultEntry × DetStatus × Option Timeslot :=
  (r.sentMode, r.testFeed, r.faults.foreignVoltage, r.detStatus, r.timeslot)

/-- A record is replaced by one with the same wiring, state and ring phase. -/
theorem notes_setLine {r : Line} (hstate : r.state = (s.line l).state) (hphase : r.ringPhase = (s.line l).ringPhase)
    (hwire : wiring r = wiring (s.line l)) (hrange : RecordsOk s → lineInRange r) : Notes l s (s.setLine l r) := by
  simp only [wiring, Prod.mk.injEq] at hwire
  obtain ⟨hsent, htest, hfault, hdet, hslot⟩ := hwire
  exact ⟨Keeps.setLine (.inr ⟨hsent, by rw [hstate], by rw [hstate, hphase], htest, by rw [hfault]⟩) hdet hslot hrange,
    by rw [State.line_setLine_self, hstate]⟩

/-- A quiet line's record is replaced by one of a quiet line with the same wiring. -/
theorem serves_setLine {r : Line} (hheld : r.state ≠ .held) (hring : r.state ≠ .ringing) (hwire : wiring r = wiring (s.line l))
    (hrange : RecordsOk s → lineInRange r) : Serves l s (s.setLine l r) := by
  simp only [wiring, Prod.mk.injEq] at hwire
  obtain ⟨hsent, htest, hfault, hdet, hslot⟩ := hwire
  rintro ⟨hq1, hq2⟩
  refine ⟨Keeps.setLine (.inr ⟨hsent, by simp [hheld, hq1], by simp [hring, hq2], htest, by rw [hfault]⟩) hdet hslot hrange, ?_⟩
  rw [Quiet, State.line_setLine_self]
  exact ⟨hheld, hring⟩

theorem notes_lineEvent (l m : LineNo) (time : Time) (body : EventBody) (s : State) : Notes l s (lineEvent m time body s) :=
  ⟨keeps_lineEvent m time body, by rw [State.line_congr (lineEvent_lines ..)]⟩

/-- An event of the line after an operation on it. -/
theorem Notes.event {time : Time} {body : EventBody} (h : Notes l s t) : Notes l s (lineEvent l time body t) :=
  h.trans (notes_lineEvent l l time body t)

theorem Serves.event {time : Time} {body : EventBody} (h : Serves l s t) : Serves l s (lineEvent l time body t) :=
  h.trans (notes_lineEvent l l time body t).serves

/-! ### Digits -/

theorem notes_recordDigit (l : LineNo) (c : DigitCode) (m : DigitMethod) (t : Time) (s : State) : Notes l s (recordDigit l c m t s) := by
  unfold recordDigit
  dsimp only
  split
  next hroom =>
    refine Notes.event (notes_setLine rfl rfl rfl fun h => ?_)
    have := h.line l
    simp only [Config.dialRecordMax] at hroom
    grind [lineInRange]
  next =>
    split
    next => exact notes_lineEvent l l _ _ s
    next => exact Notes.event (Notes.event (notes_setLine rfl rfl rfl fun h => h.line l))

theorem notes_completeDigit (l : LineNo) (s : State) : Notes l s (completeDigit l s) := by
  refine Notes.trans ?_ (notes_recordDigit l _ _ _ _)
  refine notes_setLine rfl rfl rfl fun h => ?_
  have := h.line l
  grind [lineInRange]

theorem notes_takeInterdigit (l : LineNo) (s : State) : Notes l s (takeInterdigit l s) := by
  unfold takeInterdigit
  split
  next => exact notes_setLine rfl rfl rfl fun h => h.line l
  next => exact notes_completeDigit l s

theorem notes_noticeBreak (l : LineNo) (t : Time) (s : State) : Notes l s (noticeBreak l t s) := by
  unfold noticeBreak
  split
  next =>
    split
    next => exact Notes.refl l s
    next => exact notes_takeInterdigit l s
  next => exact Notes.refl l s

theorem notes_takePulse (l : LineNo) (b m : Time) (s : State) : Notes l s (takePulse l b m s) := by
  unfold takePulse
  dsimp only
  split
  next => exact notes_setLine rfl rfl rfl fun h => h.line l
  next =>
    split
    next =>
      refine notes_setLine rfl rfl rfl fun h => ?_
      have := h.line l
      grind [lineInRange, armInterdigit]
    next =>
      split
      next =>
        refine notes_setLine rfl rfl rfl fun h => ?_
        have := h.line l
        grind [lineInRange, armInterdigit]
      next =>
        refine Notes.event (notes_setLine rfl rfl rfl fun h => ?_)
        have := h.line l
        grind [lineInRange, armInterdigit]

theorem notes_abandonDigit (l : LineNo) (s : State) : Notes l s (s.modLine l abandonDigit) := by
  refine notes_setLine rfl rfl rfl fun h => ?_
  have := h.line l
  grind [lineInRange, abandonDigit]

theorem notes_toneDigit (l : LineNo) (c : DigitCode) (t : Time) (s : State) : Notes l s (toneDigit l c t s) := by
  unfold toneDigit
  split
  next =>
    refine Notes.trans ?_ (notes_recordDigit l _ _ _ _)
    exact notes_setLine rfl rfl rfl fun h => h.line l
  next => exact notes_lineEvent l l _ _ s
  all_goals exact Notes.refl l s

theorem faultsInRange_setEntry {f : FaultSet} {e : FaultEntry} (k : FaultKind) (h : faultsInRange f) (he : e.count ≤ 15) :
    faultsInRange (f.setEntry k e) := by
  obtain ⟨hdec, hcount⟩ := h
  refine ⟨by cases k <;> exact hdec, fun j => ?_⟩
  have := hcount j
  cases k <;> cases j <;> assumption

theorem lineInRange_faults {r : Line} {f : FaultSet} (h : lineInRange r) (hf : faultsInRange f) : lineInRange { r with faults := f } := by
  obtain ⟨hrec, hbase, -, hrest⟩ := h
  exact ⟨hrec, hbase, hf, hrest⟩

theorem lineInRange.faults {r : Line} (h : lineInRange r) : faultsInRange r.faults := h.2.2.1

theorem notes_raisePermanentLoop (l : LineNo) (t : Time) (s : State) : Notes l s (raisePermanentLoop l t s) := by
  have hset : Notes l s (s.modLine l fun r => { r with faults := { r.faults with permanentLoop := presentEntry } }) :=
    notes_setLine rfl rfl rfl fun h =>
      lineInRange_faults (h.line l) (faultsInRange_setEntry .permanentLoop (h.line l).faults (by decide))
  unfold raisePermanentLoop
  dsimp only
  split
  next => exact hset
  next => exact hset.event

theorem notes_clearPermanentLoop (l : LineNo) (s : State) : Notes l s (clearPermanentLoop l s) := by
  have hset : Notes l s (s.modLine l fun r => { r with faults := { r.faults with permanentLoop := clearEntry } }) :=
    notes_setLine rfl rfl rfl fun h =>
      lineInRange_faults (h.line l) (faultsInRange_setEntry .permanentLoop (h.line l).faults (by decide))
  unfold clearPermanentLoop
  dsimp only
  split
  next => exact hset.event
  next => exact hset

theorem notes_clearOpenPair (l : LineNo) (s : State) : Notes l s (clearOpenPair l s) := by
  have hset : Notes l s (s.modLine l fun r => { r with faults := { r.faults with openPair := clearEntry } }) :=
    notes_setLine rfl rfl rfl fun h =>
      lineInRange_faults (h.line l) (faultsInRange_setEntry .openPair (h.line l).faults (by decide))
  unfold clearOpenPair
  dsimp only
  split
  next => exact hset.event
  next => exact hset

theorem notes_clearDial (l : LineNo) (s : State) : Notes l s (clearDial l s) := by
  refine notes_setLine rfl rfl rfl fun h => ?_
  have := h.line l
  grind [lineInRange]

/-! ### Detectors -/

/-- What changes detector statuses only leaves every line's state. -/
theorem state_of_others {s t : State} (h : ∀ l, OtherLinesButDetector l s t) (m : LineNo) : (t.line m).state = (s.line m).state := by
  rw [← all_of_others h m]

theorem notes_releaseUnlocked (l m : LineNo) (s : State) : Notes l s (releaseUnlocked m s) :=
  ⟨keeps_releaseUnlocked m s, state_of_others (fun k => others_releaseUnlocked k m s) l⟩

theorem notes_requestDet {m : LineNo} (l : LineNo) {s : State} (h : (s.line m).detStatus = .none) : Notes l s (requestDet m s) :=
  ⟨keeps_requestDet h, state_of_others (fun k => others_requestDet k m s) l⟩

theorem notes_seizeDetector (l : LineNo) (t : Time) (s : State) : Notes l s (seizeDetector l t s) := by
  unfold seizeDetector
  dsimp only
  split
  next => exact Notes.refl l s
  next =>
    split
    next => exact notes_lineEvent l l _ _ s
    next h => exact notes_requestDet l h
    all_goals exact Notes.refl l s

/-! ### The hook -/

theorem serves_seize (l : LineNo) (t : Time) (s : State) : Serves l s (seize l t s) := by
  refine Serves.trans (Serves.trans (Serves.event ?_) (notes_seizeDetector l t _).serves) (notes_clearOpenPair l _).serves
  refine serves_setLine nofun nofun rfl fun h => ?_
  have := h.line l
  grind [lineInRange, seizedFields, clearPulses]

theorem serves_hangUp (l : LineNo) (t : Time) (w : HangupBy) (s : State) : Serves l s (hangUp l t w s) := by
  refine Serves.trans (Serves.trans (Serves.event ?_) (notes_releaseUnlocked l l _).serves) (notes_clearPermanentLoop l _).serves
  refine serves_setLine nofun nofun rfl fun h => ?_
  have := h.line l
  grind [lineInRange, hungUpFields, endDialling, clearPulses]

theorem serves_openBreak (l : LineNo) (t : Time) (s : State) : Serves l s (openBreak l t s) := by
  have expiry : ∀ v, Serves l s v → Serves l s (if expiryDue v.now (v.line l).hangupExpiry then hangUp l t .expiry v else v) := by
    intro v h
    split
    · exact h.trans (serves_hangUp l t .expiry v)
    · exact h
  have notice : ∀ v, Serves l s v → Serves l s (if (v.line l).state = .dialling then noticeBreak l t v else v) := by
    intro v h
    split
    · exact h.trans (notes_noticeBreak l t v).serves
    · exact h
  exact expiry _ (notice _ (Notes.serves (notes_setLine rfl rfl rfl fun h => h.line l)))

theorem serves_makeDialling (l : LineNo) (b t : Time) (dur : Nat) (s : State) : Serves l s (makeDialling l b t dur s) := by
  unfold makeDialling
  dsimp only
  split
  next => exact Serves.refl l s
  next => exact (notes_takePulse l b t s).serves
  next => exact (notes_abandonDigit l s).event.serves
  next =>
    split
    next => exact (notes_abandonDigit l s).event.event.serves
    next => exact (notes_abandonDigit l s).event.serves
  next => exact (serves_hangUp l b .make s).trans (serves_seize l t _)

theorem serves_makeTalk (l : LineNo) (b t : Time) (dur : Nat) (s : State) : Serves l s (makeTalk l b t dur s) := by
  unfold makeTalk
  split
  next => exact Serves.refl l s
  next => exact Serves.refl l s
  next => exact Serves.refl l s
  next => exact (notes_lineEvent l l _ _ s).serves
  next => exact (serves_hangUp l b .make s).trans (serves_seize l t _)

theorem serves_makeBreak (l : LineNo) (b t : Time) (s : State) : Serves l s (makeBreak l b t s) := by
  have hset : Serves l s (s.modLine l fun r => { r with breakStart := none, hangupExpiry := none }) :=
    Notes.serves (notes_setLine rfl rfl rfl fun h => h.line l)
  unfold makeBreak
  dsimp only
  split
  next => exact hset.trans (serves_makeDialling l b t _ _)
  next => exact hset.trans (serves_makeTalk l b t _ _)

theorem serves_confirmRun (l : LineNo) (d : LoopDir) (t : Time) (s : State) : Serves l s (confirmRun l d t s) := by
  have hset : Serves l s (s.modLine l fun r => { r with loop := condOf d, run := none }) := by
    refine Notes.serves (notes_setLine rfl rfl rfl fun h => ?_)
    have := h.line l
    grind [lineInRange]
  unfold confirmRun
  dsimp only
  split
  next => exact hset.trans (serves_seize l t _)
  next => exact hset
  next =>
    split
    next => exact hset.trans (serves_makeBreak l _ t _)
    next => exact hset
  next =>
    split
    next => exact hset.trans (serves_makeBreak l _ t _)
    next => exact hset
  next => exact hset.trans (serves_openBreak l t _)
  next => exact hset.trans (serves_openBreak l t _)
  all_goals exact hset

/-- A profile within the ranges of R7 has debounce counts and fault counts up to 15. -/
theorem counts_of_good {p : Profile} (h : profileGood p = true) :
    p.debounce ≤ 15 ∧ p.tripDebounce ≤ 15 ∧ p.confirm ≤ 15 ∧ p.clear ≤ 15 := by
  simp only [profileGood, Bool.and_eq_true, decide_eq_true_eq] at h
  have hc := h.1
  have bound : ∀ x, clampNat 1 15 x ≤ 15 := fun x => by unfold clampNat; omega
  have h1 : (clampProfile p).debounce ≤ 15 := bound _
  have h2 : (clampProfile p).tripDebounce ≤ 15 := bound _
  have h3 : (clampProfile p).confirm ≤ 15 := bound _
  have h4 : (clampProfile p).clear ≤ 15 := bound _
  rw [hc] at h1 h2 h3 h4
  exact ⟨h1, h2, h3, h4⟩

theorem serves_applyClass (l : LineNo) (c : MeasClass) (t : Time) (s : State) : Serves l s (applyClass l c t s) := by
  have drop : Serves l s (s.setLine l { s.line l with run := none }) := by
    refine Notes.serves (notes_setLine rfl rfl rfl fun h => ?_)
    have := h.line l
    grind [lineInRange]
  unfold applyClass
  dsimp only
  split
  next => exact drop
  next d _ =>
    split
    next => exact drop
    next =>
      split
      next => exact serves_confirmRun l _ _ s
      next hcount =>
        refine Notes.serves (notes_setLine rfl rfl rfl fun h => ?_)
        have := h.line l
        have := (counts_of_good (h.profile l)).1
        grind [lineInRange]

theorem serves_debounce (l : LineNo) (c : MeasClass) (t : Time) (s : State) : Serves l s (debounce l c t s) := by
  unfold debounce
  split
  next => exact (serves_confirmRun l _ _ s).trans (serves_applyClass l c t _)
  next => exact serves_applyClass l c t s

end
end Sys2Proof.Machine
end

