-- ==== Sys2Proof/Proofs/KeptByRinging.lean ====
section
/-! PROOF. Acquisition, ringing and the block reasons keep what every step keeps. -/

namespace Sys2Proof.Machine

/-! ### Acquisition -/

section
variable {l : LineNo} {s : State}

theorem serves_setLine_clearPermanentLoop {t : State} (h : Serves l s t) : Serves l s (clearPermanentLoop l t) :=
  h.trans (notes_clearPermanentLoop l t).serves

/-- A line in ACQUIRE settles: whatever its run and its acquire count, both are gone (R61). -/
theorem serves_settle {r : Line} (q : Run) (hwire : wiring r = wiring (s.line l))
    (hrange : RecordsOk s → lineInRange { r with run := none, acquireCount := 0 }) : Serves l s (settle l q (s.setLine l r)) := by
  have hset : Serves l s (lineEvent l q.start (.initial (settledOutcome q.dir)) ((s.setLine l r).modLine l fun r =>
      { r with state := settledState q.dir, loop := condOf q.dir, run := none, acquireCount := 0 })) := by
    refine Serves.event ?_
    rw [State.modLine, State.setLine_setLine, State.line_setLine_self]
    exact serves_setLine (by cases q.dir <;> nofun) (by cases q.dir <;> nofun) hwire hrange
  unfold settle
  dsimp only
  split
  next => exact serves_setLine_clearPermanentLoop hset
  next => exact hset

theorem serves_settleUnstable {r : Line} (t : Time) (hwire : wiring r = wiring (s.line l))
    (hrange : RecordsOk s → lineInRange { r with run := none, acquireCount := 0 }) : Serves l s (settleUnstable l t (s.setLine l r)) := by
  refine Serves.event ?_
  rw [State.modLine, State.setLine_setLine, State.line_setLine_self]
  exact serves_setLine nofun nofun hwire hrange

/-- The table of R60 touches the run and the loop condition of a record, and leaves a run that is not complete within the debounce count. -/
theorem acquireTable_spec (n : Nat) (c : MeasClass) (t : Time) (r : Line) :
    (∃ lc run, (acquireTable n c t r).1 = { r with loop := lc, run := run }) ∧
      ((acquireTable n c t r).2 = none → ∀ q, (acquireTable n c t r).1.run = some q → q.count ≤ n ∨ q.count ≤ 1) := by
  unfold acquireTable
  split
  next => exact ⟨⟨_, _, rfl⟩, fun _ q h => absurd h nofun⟩
  next d _ =>
    dsimp only
    split
    next =>
      split
      next => exact ⟨⟨_, _, rfl⟩, fun _ q h => .inr (by rw [← Option.some.inj h]; exact Nat.zero_le _)⟩
      next hn =>
        refine ⟨⟨_, _, rfl⟩, fun _ q h => .inl ?_⟩
        rw [← Option.some.inj h]
        omega
    next =>
      split
      next =>
        refine ⟨⟨_, _, rfl⟩, fun hdone q h => .inl ?_⟩
        rw [← Option.some.inj h]
        by_contra hlt
        rw [if_pos (by omega)] at hdone
        exact absurd hdone nofun
      next =>
        split
        next => exact ⟨⟨_, _, rfl⟩, fun _ q h => .inr (by rw [← Option.some.inj h]; exact Nat.zero_le _)⟩
        next => exact ⟨⟨_, _, rfl⟩, fun _ q h => .inr (by rw [← Option.some.inj h])⟩

theorem serves_acquireStep {r : Line} (c : MeasClass) (t : Time) (hstate : r.state = .acquire) (hwire : wiring r = wiring (s.line l))
    (hrange : RecordsOk s → lineInRange { r with run := none, acquireCount := 0 }) : Serves l s (acquireStep l c t (s.setLine l r)) := by
  obtain ⟨⟨lc, run, hr⟩, hrun⟩ := acquireTable_spec (s.effective l).debounce c t r
  have hloose : RecordsOk s → lineInRange { r with loop := lc, run := none, acquireCount := 0 } := hrange
  unfold acquireStep
  simp only [effective_setLine, State.line_setLine_self, setLine_setLine]
  rw [hr] at hrun ⊢
  split
  next => exact serves_settle _ hwire hloose
  next hnone =>
    split
    next => exact serves_settleUnstable t hwire hloose
    next hcount =>
      refine serves_setLine (by simp [hstate]) (by simp [hstate]) hwire fun h => ?_
      have := hloose h
      have := hrun hnone
      have := (counts_of_good (h.profile l)).1
      simp only [Config.acquireMax] at hcount
      grind [lineInRange]

theorem serves_acquire (l : LineNo) (c : MeasClass) (t : Time) (s : State) (hstate : (s.line l).state = .acquire) :
    Serves l s (acquire l c t s) := by
  have hrange : RecordsOk s → lineInRange { s.line l with run := none, acquireCount := 0 } := fun h => by
    have := h.line l
    grind [lineInRange]
  unfold acquire
  dsimp only
  split
  next =>
    split
    next =>
      rw [State.modLine, State.modLine, State.setLine_setLine, State.line_setLine_self]
      exact serves_acquireStep c t hstate rfl hrange
    next =>
      refine Serves.trans ?_ (serves_applyClass l c t _)
      exact serves_settle (r := { s.line l with acquireCount := (s.line l).acquireCount + 1 }) _ rfl hrange
  next => exact serves_acquireStep c t hstate rfl hrange

end

/-! ### Ringing -/

section
variable {l : LineNo} {s : State}

theorem keeps_startRinging (l : LineNo) (s : State) : Keeps none s (startRinging l s) := by
  refine keeps_recompute_modLine rfl rfl fun h => ?_
  have := h.line l
  grind [lineInRange, ringFields]

theorem lineInRange_clearRinging {r : Line} (h : lineInRange r) : lineInRange (clearRinging r) := by
  grind [lineInRange, clearRinging, discardRingMeasuring]

theorem keeps_stopRinging (l : LineNo) (s : State) : Keeps none s (stopRinging l s) :=
  keeps_recompute_modLine rfl rfl fun h =>
    have hclear := lineInRange_clearRinging (h.line l)
    hclear

theorem keeps_answer (l : LineNo) (ph : RingPhase) (t : Time) (s : State) : Keeps none s (answer l ph t s) := by
  refine Keeps.trans (keeps_lineEvent l t (.ringTrip ph)) (keeps_recompute_modLine rfl rfl fun h => ?_)
  have hclear := lineInRange_clearRinging (h.line l)
  exact hclear

theorem quiet_answer (l : LineNo) (ph : RingPhase) (t : Time) (s : State) : Quiet l (answer l ph t s) := by
  rw [Quiet, answer, recomputeFeed_line_self, State.line_modLine_self]
  exact ⟨nofun, nofun⟩

theorem keeps_answerStep (l : LineNo) (ph : RingPhase) (c : MeasClass) (t : Time) (s : State) : Keeps none s (answerStep l ph c t s) := by
  have drop : Keeps none s (s.setLine l { s.line l with run := none }) := by
    refine Notes.keeps (notes_setLine rfl rfl rfl fun h => ?_)
    have := h.line l
    grind [lineInRange]
  unfold answerStep
  dsimp only
  split
  next =>
    split
    next => exact keeps_answer l ph _ s
    next hcount =>
      refine Notes.keeps (notes_setLine rfl rfl rfl fun h => ?_)
      have := h.line l
      have := counts_of_good (h.profile l)
      cases ph <;> simp only [answerCount] at hcount <;> grind [lineInRange]
  next => exact drop
  next => exact drop

theorem keeps_answerRun (l : LineNo) (ph : RingPhase) (c : MeasClass) (t : Time) (s : State) : Keeps none s (answerRun l ph c t s) := by
  unfold answerRun
  split
  next =>
    split
    next => exact keeps_answer l _ _ s
    next => exact (keeps_answer l _ _ s).trans (serves_applyClass l c t _ (quiet_answer l _ _ s)).1
  next => exact keeps_answerStep l ph c t s

theorem keeps_ringMeasurement (l : LineNo) (f : FeedMode) (c : MeasClass) (t : Time) (s : State) :
    Keeps none s (ringMeasurement l f c t s) := by
  unfold ringMeasurement
  split
  next => exact keeps_answerRun l _ c t s
  next => exact keeps_answerRun l _ c t s
  next => exact Keeps.refl _ s

theorem keeps_superviseMeasurement (l : LineNo) (f : FeedMode) (c : MeasClass) (t : Time) (s : State) :
    Keeps none s (superviseMeasurement l f c t s) := by
  have quiet : ∀ st, (s.line l).state = st → st ≠ .held → st ≠ .ringing → Quiet l s := fun st h h1 h2 => by rw [Quiet, h]; exact ⟨h1, h2⟩
  unfold superviseMeasurement
  split
  next => exact keeps_ringMeasurement l f c t s
  next h => exact (serves_acquire l c t s h (quiet _ h nofun nofun)).1
  next h => exact (serves_debounce l c t s (quiet _ h nofun nofun)).1
  next h => exact (serves_debounce l c t s (quiet _ h nofun nofun)).1
  next h => exact (serves_debounce l c t s (quiet _ h nofun nofun)).1
  next h => exact (serves_debounce l c t s (quiet _ h nofun nofun)).1
  next => exact Keeps.refl _ s

/-! ### Reasons and faults -/

theorem keeps_enterBlocked (l : LineNo) (s : State) : Keeps none s (enterBlocked l s) := by
  have quiet : ∀ st, (s.line l).state = st → st ≠ .held → st ≠ .ringing → Quiet l s := fun st h h1 h2 => by rw [Quiet, h]; exact ⟨h1, h2⟩
  have call : Serves l s (releaseUnlocked l (s.modLine l fun r =>
      blockedFields (endDialling { r with breakStart := none, hangupExpiry := none }))) := by
    refine Serves.trans ?_ (notes_releaseUnlocked l l _).serves
    refine serves_setLine nofun nofun rfl fun h => ?_
    have := h.line l
    grind [lineInRange, blockedFields, endDialling, clearPulses]
  have still : Serves l s (s.modLine l blockedFields) := by
    refine serves_setLine nofun nofun rfl fun h => ?_
    have := h.line l
    grind [lineInRange, blockedFields]
  unfold enterBlocked
  split
  next h =>
    refine And.left (serves_setLine (l := l) nofun nofun rfl (fun h => ?_) (quiet _ h nofun nofun))
    have := h.line l
    grind [lineInRange, blockedFields]
  next h => exact (call (quiet _ h nofun nofun)).1
  next h => exact (call (quiet _ h nofun nofun)).1
  next =>
    refine keeps_recompute_modLine rfl rfl fun h => ?_
    have := lineInRange_clearRinging (h.line l)
    grind [lineInRange, blockedFields]
  next h => exact (still (quiet _ h nofun nofun)).1
  next h => exact (still (quiet _ h nofun nofun)).1
  next => exact Keeps.refl _ s

theorem serves_acquireFields (l : LineNo) (s : State) : Serves l s (s.modLine l acquireFields) := by
  refine serves_setLine nofun nofun rfl fun h => ?_
  have := h.line l
  grind [lineInRange, acquireFields]

theorem keeps_followReasons (l : LineNo) (a b : Reasons) (s : State) : Keeps none s (followReasons l a b s) := by
  unfold followReasons
  split
  next => exact Keeps.refl _ s
  next =>
    split
    next => exact keeps_enterBlocked l s
    next =>
      split
      next h =>
        simp only [Bool.and_eq_true, decide_eq_true_eq] at h
        exact (serves_acquireFields l s (by rw [Quiet, h.2]; exact ⟨nofun, nofun⟩)).1
      next => exact Keeps.refl _ s

theorem keeps_setReasons (l : LineNo) (q : Reasons) (s : State) : Keeps none s (setReasons l q s) := by
  rcases setReasons_cases l q s with ⟨-, heq⟩ | ⟨-, heq⟩ <;> rw [heq]
  · exact Keeps.refl _ s
  · refine Keeps.trans (Keeps.trans ?_ (keeps_writeEvent _ _ _ ?_)) (keeps_followReasons l _ _ _)
    · exact Notes.keeps (notes_setLine rfl rfl rfl fun h => h.line l)
    · rw [← linePorts_setLine s l l _ rfl]
      exact pendAttached_linePorts _ l

theorem keeps_recomputeReason (l : LineNo) (s : State) : Keeps none s (recomputeReason l s) := keeps_setReasons l _ s

end
end Sys2Proof.Machine
end

