-- ==== Sys2Proof/Proofs/KeptByMeasurements.lean ====
section
/-! PROOF. The counting of fault observations and the evaluation of a LOOP measurement keep what every step keeps. -/

namespace Sys2Proof.Machine

/-! ### Counting observations -/

section
variable {l : LineNo} {s t : State}

/-- The feed mode of the one line left out follows too. -/
theorem Keeps.close (h : Keeps (some l) s t) (hf : Follows s l → Follows t l) : Keeps none s t := by
  refine ⟨h.ports, h.journal, h.records, fun m _ => ?_, h.pool⟩
  by_cases hm : m = l
  · exact hm ▸ hf
  · exact h.feeds m (by simpa using Ne.symm hm)

/-- The count of a counted entry stays within the confirm and the clear count (R150). -/
theorem countObservation_count {e : FaultEntry} {c k : Nat} (v : Verdict) (time : Time) (he : e.count ≤ 15) (hc : c ≤ 15) (hk : k ≤ 15) :
    (countObservation e v c k time).1.count ≤ 15 := by
  unfold countObservation
  split
  all_goals try split
  all_goals simp only [presentEntry, clearEntry]
  all_goals omega

/-- Counting one observation changes the line's Fault Set, and reports. -/
theorem countOne_line (l : LineNo) (time : Time) (o : FaultKind × Verdict) (s : State) :
    (countOne l time o s).line l = { s.line l with
      faults := (s.line l).faults.setEntry o.1
        (countObservation ((s.line l).faults.entry o.1) o.2 (s.effective l).confirm (s.effective l).clear time).1 } := by
  unfold countOne
  dsimp only
  split <;> simp

theorem keeps_countOne (l : LineNo) (time : Time) (o : FaultKind × Verdict) (s : State) : Keeps (some l) s (countOne l time o s) := by
  have hset : Keeps (some l) s (s.modLine l fun r => { r with
      faults := r.faults.setEntry o.1
        (countObservation ((s.line l).faults.entry o.1) o.2 (s.effective l).confirm (s.effective l).clear time).1 }) := by
    refine Keeps.modLine (.inl rfl) rfl rfl fun h => lineInRange_faults (h.line l) (faultsInRange_setEntry _ (h.line l).faults ?_)
    obtain ⟨-, -, hc, hk⟩ := counts_of_good (h.profile l)
    exact countObservation_count _ _ ((h.line l).faults.2 _) hc hk
  unfold countOne
  dsimp only
  split
  next => exact hset.trans (keeps_lineEvent ..)
  next => exact hset.trans (keeps_lineEvent ..)
  next => exact hset

/-- The observations of a group counted one after the other. -/
def countAll (l : LineNo) (time : Time) (os : List (FaultKind × Verdict)) (s : State) : State :=
  os.foldl (fun s o => countOne l time o s) s

theorem keeps_countAll (l : LineNo) (time : Time) (os : List (FaultKind × Verdict)) (s : State) :
    Keeps (some l) s (countAll l time os s) := by
  induction os generalizing s with
  | nil => exact Keeps.refl _ s
  | cons o os ih => exact (keeps_countOne l time o s).trans (ih _)

@[simp] theorem countAll_store (l : LineNo) (time : Time) (os : List (FaultKind × Verdict)) (s : State) :
    (countAll l time os s).store = s.store := by
  induction os generalizing s with
  | nil => rfl
  | cons o os ih => exact (ih _).trans (countOne_store ..)

@[simp] theorem countAll_scan (l : LineNo) (time : Time) (os : List (FaultKind × Verdict)) (s : State) :
    (countAll l time os s).scan = s.scan := by
  induction os generalizing s with
  | nil => rfl
  | cons o os ih => exact (ih _).trans (countOne_scan ..)

/-- A group changes the line's Fault Set and no other field of its record. -/
theorem countAll_line (l : LineNo) (time : Time) (os : List (FaultKind × Verdict)) (s : State) :
    (countAll l time os s).line l = { s.line l with faults := ((countAll l time os s).line l).faults } := by
  induction os generalizing s with
  | nil => rfl
  | cons o os ih =>
    refine (ih (countOne l time o s)).trans ?_
    rw [countOne_line]
    rfl

theorem keeps_countGroup (l : LineNo) (time : Time) (os : List (FaultKind × Verdict)) (s : State) :
    Keeps none s (countGroup l time os s) := by
  have hall : Keeps (some l) s (countAll l time os s) := keeps_countAll l time os s
  have hreason : ∀ b : Prop, [Decidable b] → Keeps none (countAll l time os s)
      (if b then countAll l time os s else recomputeReason l (countAll l time os s)) := fun b _ => by
    split
    · exact Keeps.refl _ _
    · exact keeps_recomputeReason l _
  unfold countGroup
  split
  next => exact Keeps.refl _ s
  next =>
    dsimp only
    split
    next hforeign =>
      refine Keeps.trans (hall.close fun hf => ?_) (hreason _)
      refine follows_congr ?_ (countAll_store ..) (by rw [itemOn_congr (bankItem_congr (countAll_scan ..) _)]) hf
      rw [decide_eq_decide] at hforeign
      have hline := countAll_line l time os s
      refine ⟨?_, ?_, ?_, ?_, hforeign.symm⟩ <;> rw [hline]
    next => exact (hall.trans ((hreason _).but _)).recompute

/-! ### Completed measurements -/

theorem nextBaseline_le (b : Nat) (im : Int) (k : Nat) : nextBaseline b im k ≤ 4095 := by
  unfold nextBaseline clampInt
  omega

theorem keeps_learn (l : LineNo) (ovr : Bool) (im : Int) (s : State) : Keeps none s (learn l ovr im s) := by
  unfold learn
  split
  next =>
    refine Notes.keeps (notes_setLine rfl rfl rfl fun h => ?_)
    have := h.line l
    have := nextBaseline_le (s.line l).baseline im (s.effective l).shift
    grind [lineInRange]
  next => exact Keeps.refl _ s

theorem notes_decimation {n : Nat} (h : n ≤ 7) (l : LineNo) (s : State) :
    Notes l s (s.modLine l fun r => { r with faults := { r.faults with decimation := n } }) :=
  notes_setLine rfl rfl rfl fun hr => lineInRange_faults (hr.line l) ⟨h, (hr.line l).faults.2⟩

theorem keeps_decimate (l : LineNo) (ovr : Bool) (im il : Int) (time : Time) (s : State) :
    Keeps none s (decimate l ovr im il time s) := by
  unfold decimate
  dsimp only
  split
  next => exact (notes_decimation (by decide) l s).keeps.trans (keeps_countGroup ..)
  next hn =>
    refine Notes.keeps (notes_setLine rfl rfl rfl fun h => ?_)
    have hf := (h.line l).faults
    have hdec : (s.line l).faults.decimation + 1 ≤ 7 := by have := hf.1; omega
    exact lineInRange_faults (h.line l) ⟨hdec, hf.2⟩

theorem keeps_evaluateValid (l : LineNo) (m : LoopSlot) (ovr : Bool) (im il : Int) (s : State) :
    Keeps none s (evaluateValid l m ovr im il s) := by
  have hlearn := (keeps_superviseMeasurement l m.feed (classOf (s.effective l) m.feed (s.line l).lastMc) m.stamp s).trans
    (keeps_learn l ovr im _)
  unfold evaluateValid
  dsimp only
  split
  next => exact hlearn
  next => exact hlearn.trans (keeps_decimate ..)

theorem currentCode_range (x : Int) : -8192 ≤ currentCode x ∧ currentCode x ≤ 8191 := by
  unfold currentCode clampInt
  omega

theorem keeps_evaluate (l : LineNo) (m : LoopSlot) {it ir : Int} (s : State) (ht : -8192 ≤ it ∧ it ≤ 8191) (hr : -8192 ≤ ir ∧ ir ≤ 8191) :
    Keeps none s (evaluate l m it ir s) := by
  have hset : Keeps none s (s.modLine l (storeLast (isOverrange it ir) (metallic it ir) (longitudinal it ir))) := by
    refine Notes.keeps (notes_setLine rfl rfl rfl fun h => ?_)
    have := h.line l
    have hmc : compensated (isOverrange it ir) (metallic it ir) (s.line l).baseline ≤ 8191 := by
      unfold compensated metallic
      split <;> omega
    grind [lineInRange, storeLast, metallic, longitudinal]
  unfold evaluate
  dsimp only
  split
  next => exact hset
  next => exact hset.trans (keeps_evaluateValid ..)

end
end Sys2Proof.Machine
end

