-- ==== Sys2Proof/Proofs/KeptByTheUnits.lean ====
section
/-! PROOF. Expiries, the Sweep Unit, the Battery Monitor and the Time Base keep what every step keeps. -/

namespace Sys2Proof.Machine

/-! ### Expiries -/

section
variable {s : State}

theorem keeps_raisePermanentLoop (l : LineNo) (t : Time) (s : State) : Keeps none s (raisePermanentLoop l t s) :=
  (notes_raisePermanentLoop l t s).keeps

theorem keeps_dialTimeout {l : LineNo} (e : Time) (h : (s.line l).state = .dialling) :
    Keeps none s (raisePermanentLoop l e (releaseUnlocked l (lineEvent l e .dialTimeout
      (s.modLine l fun r => { r with state := .talk, firstDigitExpiry := none })))) := by
  have hset : Serves l s (s.modLine l fun r => { r with state := .talk, firstDigitExpiry := none }) :=
    serves_setLine nofun nofun rfl fun hr => hr.line l
  have hq : Quiet l s := by rw [Quiet, h]; exact ⟨nofun, nofun⟩
  exact (hset.event hq).1.trans ((keeps_releaseUnlocked l _).trans (keeps_raisePermanentLoop l e _))

theorem keeps_endDial {l : LineNo} (h : (s.line l).state = .dialling) : Keeps none s (endDial l s) := by
  have hq : Quiet l s := by rw [Quiet, h]; exact ⟨nofun, nofun⟩
  have hdigit : Serves l s (endDialDigit l s) := by
    unfold endDialDigit
    split
    next => exact (notes_completeDigit l s).serves
    next => exact Serves.refl l s
  have hend : Serves l s ((endDialDigit l s).modLine l endDialling) := by
    refine hdigit.trans (Notes.serves (notes_setLine rfl rfl rfl fun hr => ?_))
    have := hr.line l
    grind [lineInRange, endDialling, clearPulses]
  have htalk : Serves l s (endDial l s) :=
    (hend.trans (notes_releaseUnlocked l l _).serves).trans (serves_setLine nofun nofun rfl fun hr => hr.line l)
  exact (htalk hq).1

theorem keeps_changePhase (l : LineNo) (e : Time) (p : Profile) (s : State) :
    Keeps none s (recomputeFeed l (s.modLine l (changePhase e p))) := by
  have hfields : ∀ r : Line, (changePhase e p r).detStatus = r.detStatus ∧ (changePhase e p r).timeslot = r.timeslot := fun r => by
    unfold changePhase
    split <;> exact ⟨rfl, rfl⟩
  refine keeps_recompute_modLine (hfields _).1 (hfields _).2 fun h => ?_
  have := h.line l
  unfold changePhase
  split <;> grind [lineInRange]

theorem keeps_holdInterdigit (l : LineNo) (b : Bool) (s : State) : Keeps none s (s.modLine l fun r => { r with interdigitHeld := b }) :=
  Notes.keeps (notes_setLine rfl rfl rfl fun h => h.line l)

/-! ### The Sweep Unit -/

/-- The Sweep Unit is in no kept property. -/
theorem keeps_sweep {x : Option LineNo} (w : SweepUnit) : Keeps x s { s with sweep := w } :=
  Keeps.apart (fun p => by cases p <;> rfl) rfl rfl rfl rfl rfl rfl (fun _ => ⟨rfl, rfl⟩) rfl

theorem keeps_withdrawOffer (s : State) : Keeps none s (withdrawOffer s) := keeps_sweep _

theorem keeps_endTurn (n : SweepNo) (s : State) : Keeps none s (endTurn n s) := keeps_sweep _

theorem keeps_endTurnOf (n : SweepNo) (s : State) : Keeps none s (endTurnOf n s) := by
  unfold endTurnOf
  split
  next => exact keeps_endTurn n s
  next => exact Keeps.refl _ s

theorem keeps_setSw (n : SweepNo) (w : Sweep) (s : State) : Keeps none s (s.setSw n w) := keeps_sweep _

theorem keeps_useVisit (n : SweepNo) (s : State) : Keeps none s (useVisit n s) := by
  unfold useVisit
  dsimp only
  split
  next => exact (keeps_sweep _).trans (keeps_endTurn n _)
  next => exact keeps_sweep _

theorem keeps_skipVisit (n : SweepNo) (s : State) : Keeps none s (skipVisit n s) := (keeps_setSw n _ s).trans (keeps_useVisit n _)

theorem keeps_issueVisit (n : SweepNo) (s : State) : Keeps none s (issueVisit n s) :=
  ((keeps_withdrawOffer s).trans (keeps_setSw n _ _)).trans (keeps_useVisit n _)

theorem keeps_endPass (n : SweepNo) (s : State) : Keeps none s (endPass n s) :=
  (keeps_writeEvent _ _ _ (pendAttached_attachedControllers s)).trans (keeps_setSw n _ _)

theorem keeps_requestOffer (fuel : Nat) (begun ended : List SweepNo) (s : State) : Keeps none s (requestOffer fuel begun ended s) :=
  requestOffer_keeps (P := Keeps none s) (fun _ _ h _ => h.trans (keeps_sweep _)) (fun n _ h _ => h.trans (keeps_skipVisit n _))
    (fun n _ h _ => h.trans (keeps_endPass n _)) (fun _ _ _ _ h _ => h.trans (keeps_sweep _)) fuel begun ended s (Keeps.refl _ s)

theorem keeps_scan {c : Scan} (h0 : c.item0 = s.scan.item0) (h1 : c.item1 = s.scan.item1) : Keeps none s { s with scan := c } :=
  Keeps.apart (fun p => by cases p <;> rfl) rfl rfl rfl h0 h1 rfl (fun _ => ⟨rfl, rfl⟩) rfl

theorem keeps_askOffer (s : State) : Keeps none s (askOffer s) := by
  unfold askOffer
  dsimp only
  split
  next => exact keeps_requestOffer ..
  next => exact (keeps_requestOffer ..).trans (keeps_scan rfl rfl)

theorem keeps_wantOffer (s : State) : Keeps none s (wantOffer s) := by
  unfold wantOffer
  split
  next => exact Keeps.refl _ s
  next =>
    split
    next => exact Keeps.refl _ s
    next => exact keeps_askOffer s

theorem keeps_stopSweep (n : SweepNo) (s : State) : Keeps none s (stopSweep n s) := by
  have hstop : Keeps none s (endTurnOf n (s.setSw n { s.sw n with state := .idle })) := (keeps_setSw n _ s).trans (keeps_endTurnOf n _)
  unfold stopSweep
  split
  next => exact Keeps.refl _ s
  next =>
    dsimp only
    split
    next => exact hstop.trans ((keeps_withdrawOffer _).trans (keeps_askOffer _))
    next => exact hstop

theorem keeps_pauseSweep (n : SweepNo) (s : State) : Keeps none s (pauseSweep n s) := by
  have hpause : Keeps none s (endTurnOf n (s.setSw n { s.sw n with state := .paused })) := (keeps_setSw n _ s).trans (keeps_endTurnOf n _)
  unfold pauseSweep
  split
  next =>
    dsimp only
    split
    next => exact hpause.trans (keeps_withdrawOffer _)
    next => exact hpause
  next => exact Keeps.refl _ s

theorem keeps_resumeSweep (n : SweepNo) (s : State) : Keeps none s (resumeSweep n s) := by
  unfold resumeSweep
  split
  next => exact keeps_setSw n _ s
  next => exact Keeps.refl _ s

/-- What each operation of a list keeps, all of them keep, one after the other. -/
theorem keeps_foldl {α : Type} {f : State → α → State} (hf : ∀ s a, Keeps none s (f s a)) (as : List α) (s : State) :
    Keeps none s (as.foldl f s) := by
  induction as generalizing s with
  | nil => exact Keeps.refl _ s
  | cons a as ih => exact (hf s a).trans (ih _)

theorem keeps_forLines {f : LineNo → State → State} (hf : ∀ l s, Keeps none s (f l s)) (ls : List LineNo) (s : State) :
    Keeps none s (forLines ls f s) := keeps_foldl (fun s l => hf l s) ls s

theorem keeps_sweepsFollow (f : FeedState) (s : State) : Keeps none s (sweepsFollow f s) := by
  unfold sweepsFollow
  split
  next => exact keeps_foldl (fun s n => keeps_resumeSweep n s) _ s
  next => exact keeps_foldl (fun s n => keeps_pauseSweep n s) _ s

/-! ### The battery -/

theorem keeps_battery (b : Battery) (s : State) : Keeps none s { s with bat := b } :=
  Keeps.apart (fun p => by cases p <;> rfl) rfl rfl rfl rfl rfl rfl (fun _ => ⟨rfl, rfl⟩) rfl

theorem serves_dropService (l : LineNo) (s : State) : Serves l s (dropService l s) := by
  refine Serves.trans ?_ (notes_releaseUnlocked l l _).serves
  refine serves_setLine nofun nofun rfl fun h => ?_
  have := h.line l
  grind [lineInRange, acquireFields, endDialling, clearPulses]

/-- A RINGING line gives up its ringing and its loop; its feed mode is still to be recomputed. -/
theorem keeps_dropRinging (l : LineNo) (s : State) : Keeps (some l) s (dropService l (s.modLine l clearRinging)) := by
  refine Keeps.trans (t := (s.modLine l clearRinging).modLine l fun r => acquireFields (endDialling r)) ?_ ((keeps_releaseUnlocked l _).but _)
  rw [State.modLine, State.modLine, State.setLine_setLine, State.line_setLine_self]
  refine Keeps.setLine (.inl rfl) rfl rfl fun h => ?_
  have := lineInRange_clearRinging (h.line l)
  grind [lineInRange, acquireFields, endDialling, clearPulses]

theorem keeps_loseLine (l : LineNo) (s : State) : Keeps none s (loseLine l s) := by
  have quiet : ∀ st, (s.line l).state = st → st ≠ .held → st ≠ .ringing → Quiet l s := fun st h h1 h2 => by rw [Quiet, h]; exact ⟨h1, h2⟩
  unfold loseLine
  split
  next h => exact (serves_dropService l s (quiet _ h nofun nofun)).1
  next h => exact (serves_dropService l s (quiet _ h nofun nofun)).1
  next h => exact (serves_dropService l s (quiet _ h nofun nofun)).1
  next => exact (keeps_dropRinging l s).recompute
  next h => exact (serves_acquireFields l s (quiet _ h nofun nofun)).1
  next => exact Keeps.refl _ s
  next => exact Keeps.refl _ s

theorem keeps_restartLine (l : LineNo) (s : State) : Keeps none s (restartLine l s) := by
  unfold restartLine
  split
  next h => exact (serves_acquireFields l s (by rw [Quiet, h]; exact ⟨nofun, nofun⟩)).1
  next => exact Keeps.refl _ s

theorem keeps_feedLines (a b : FeedState) (s : State) : Keeps none s (feedLines a b s) := by
  unfold feedLines
  split
  next => exact keeps_forLines keeps_loseLine _ s
  next =>
    split
    next => exact keeps_forLines keeps_restartLine _ s
    next => exact Keeps.refl _ s

theorem keeps_changeFeed (c : FeedChange) (s : State) : Keeps none s (changeFeed c s) :=
  (((keeps_battery _ s).trans (keeps_deviceEvent ..)).trans (keeps_sweepsFollow ..)).trans (keeps_feedLines ..)

theorem keeps_takeBatterySample (v : Nat) (s : State) : Keeps none s (takeBatterySample v s) :=
  (keeps_scan (c := { s.scan with sampled := true }) rfl rfl).trans (keeps_battery _ _)

/-! ### The Time Base -/

theorem keeps_setTb (tb : TimeBase) (s : State) : Keeps none s (s.setTb tb) :=
  Keeps.apart (fun p => by cases p <;> rfl) rfl rfl rfl rfl rfl rfl (fun _ => ⟨rfl, rfl⟩) rfl

theorem keeps_countReview (s : State) : Keeps none s { s with pool := countReview s.pool } := by
  have h : (countReview s.pool).detectors = s.pool.detectors ∧ (countReview s.pool).waitQueue = s.pool.waitQueue := by
    unfold countReview
    split <;> exact ⟨rfl, rfl⟩
  exact keeps_detectors (fun d => by rw [h.1]; exact ⟨rfl, rfl⟩) h.2

theorem keeps_emitUnit (k : UnitKind) (s : State) : Keeps none s (emitUnit k s) :=
  ((keeps_setTb { s.tb with counter := timeAfter s.tb.counter 1, u := 0 } s).trans (keeps_countReview _)).trans (keeps_sampleAll k _)

theorem keeps_advance (c : Nat) (s : State) : Keeps none s (advance c s) := keeps_setTb _ s

theorem keeps_applyTbEvent (e : TbEvent) (s : State) : Keeps none s (applyTbEvent e s) := by
  cases e with
  | flywheel => exact (keeps_setTb _ s).trans (keeps_emitUnit ..)
  | loss => exact (keeps_setTb _ s).trans (keeps_deviceEvent ..)
  | free => exact (keeps_setTb _ s).trans (keeps_emitUnit ..)
  | relockExpiry => exact keeps_setTb _ s

theorem keeps_elapseWith (fuel c : Nat) (s : State) : Keeps none s (elapseWith fuel c s) := by
  induction fuel generalizing c s with
  | zero => exact keeps_advance c s
  | succ fuel ih =>
    unfold elapseWith
    split
    next => exact ((keeps_advance _ s).trans (keeps_applyTbEvent ..)).trans (ih ..)
    next => exact keeps_advance c s

theorem keeps_elapse (c : Nat) (s : State) : Keeps none s (elapse c s) := keeps_elapseWith ..

theorem keeps_runTo (e : TbEvent) (d : Nat) (s : State) : Keeps none s (runTo e d s) := by
  unfold runTo
  split
  next => exact keeps_applyTbEvent e s
  next => exact ((keeps_elapse ..).trans (keeps_advance ..)).trans (keeps_applyTbEvent ..)

theorem keeps_freeSync (s : State) : Keeps none s (freeSync s) := by
  unfold freeSync
  split
  next => exact keeps_setTb _ s
  next =>
    split
    next =>
      dsimp only
      split
      next => exact (keeps_setTb _ s).trans ((keeps_setTb _ _).trans (keeps_deviceEvent ..))
      next => exact keeps_setTb _ s
    next => exact Keeps.refl _ s

theorem keeps_judgeSync (frame : Vector Byte 128) (s : State) : Keeps none s (judgeSync frame s) := by
  unfold judgeSync
  split
  next =>
    split
    next => exact ((keeps_setTb _ s).trans (keeps_emitUnit ..)).trans (keeps_setTb ..)
    next => exact Keeps.refl _ s
  next => exact keeps_freeSync s

end
end Sys2Proof.Machine
end

