-- ==== Sys2Proof/Proofs/KeptByTheScan.lean ====
section
/-! PROOF. Items in progress and slots keep what every step keeps. -/

namespace Sys2Proof.Machine

/-! ### Items in progress -/

section
variable {s t : State}

/-- The items in progress, bank by bank. -/
theorem itemsOk_iff :
    ItemsOk s ↔ (∀ b i, s.bankItem b = some i → bankOf i.line = b ∧ i.last ≤ 39) ∧
      ∀ b c i j, b ≠ c → s.bankItem b = some i → s.bankItem c = some j → ¬ (needsSource i.kind = true ∧ needsSource j.kind = true) := by
  constructor
  · rintro ⟨h0, h1, hsource⟩
    refine ⟨fun b i hb => ?_, fun b c i j hbc hb hc => ?_⟩
    · cases b
      · exact h0 i hb
      · exact h1 i hb
    · cases b <;> cases c
      · exact absurd rfl hbc
      · exact hsource i j hb hc
      · exact fun h => hsource j i hc hb h.symm
      · exact absurd rfl hbc
  · rintro ⟨hbank, hsource⟩
    exact ⟨hbank .zero, hbank .one, fun i j => hsource .zero .one i j nofun⟩

/-- A bank's item in progress is replaced: the feed modes and the order of the items are to be shown. -/
theorem Keeps.setBankItem {x : Option LineNo} {b : Bank} {i : Option Item}
    (hfeeds : ∀ m, x ≠ some m →
      ((s.setBankItem b i).itemOn m).map (fun j => (j.kind, j.origin)) = (s.itemOn m).map (fun j => (j.kind, j.origin)))
    (hitems : ItemsOk s → ItemsOk (s.setBankItem b i)) : Keeps x s (s.setBankItem b i) where
  ports := PortsKept.of_eq fun p => by simp
  journal := JournalOk.congr (by simp) fun p => by simp
  records := by
    rintro ⟨hstore, hslots, hi, hlines, hshadows⟩
    refine ⟨?_, ?_, hitems hi, ?_, ?_⟩
    · unfold StoreOk; rw [State.setBankItem_store]; exact hstore
    · unfold TimeslotsOk; simp only [line_setBankItem]; exact hslots
    · simpa using hlines
    · rw [State.setBankItem_test]; exact hshadows
  feeds m hm := follows_congr (by rw [line_setBankItem]; exact SameFeed.refl _) (by simp) (hfeeds m hm)
  pool := PoolAgrees.congr (fun d => by simp) (by simp) fun l => by simp

/-- A slot is judged for the item in progress on a bank: its marks change, and nothing that a feed mode or a bank sees. -/
theorem keeps_markItem {x : Option LineNo} {b : Bank} {i j : Item} (h : s.bankItem b = some i) (hline : j.line = i.line) (hkind : j.kind = i.kind)
    (horigin : j.origin = i.origin) (hlast : j.last = i.last) : Keeps x s (s.setBankItem b (some j)) := by
  refine Keeps.setBankItem (fun m _ => ?_) fun hi => ?_
  · unfold State.itemOn
    by_cases hb : bankOf m = b
    · rw [hb, State.bankItem_setBankItem_self, h]
      by_cases hm : i.line = m <;> simp [Option.filter_some, hline, hkind, horigin, hm]
    · rw [State.bankItem_setBankItem_ne s _ hb]
  · rw [itemsOk_iff] at hi ⊢
    obtain ⟨hbank, hsource⟩ := hi
    have old : ∀ c k, (s.setBankItem b (some j)).bankItem c = some k →
        ∃ k', s.bankItem c = some k' ∧ k.line = k'.line ∧ k.last = k'.last ∧ k.kind = k'.kind := by
      intro c k hk
      by_cases hc : c = b
      · subst hc
        rw [State.bankItem_setBankItem_self] at hk
        cases hk
        exact ⟨i, h, hline, hlast, hkind⟩
      · rw [State.bankItem_setBankItem_ne s _ hc] at hk
        exact ⟨k, hk, rfl, rfl, rfl⟩
    refine ⟨fun c k hk => ?_, fun c d k k' hcd hk hk' => ?_⟩
    · obtain ⟨o, ho, h1, h2, -⟩ := old c k hk
      rw [h1, h2]
      exact hbank c o ho
    · obtain ⟨o, ho, -, -, h1⟩ := old c k hk
      obtain ⟨o', ho', -, -, h2⟩ := old d k' hk'
      rw [h1, h2]
      exact hsource c d o o' hcd ho ho'

theorem keeps_seeBank (b : Bank) (s : State) : Keeps none s (seeBank b s) := by
  unfold seeBank
  split
  next i h => exact keeps_markItem h rfl rfl rfl rfl
  next => exact Keeps.refl _ s

/-- An item leaves its bank; the feed mode of its line is still to be recomputed. -/
theorem keeps_freeBank {b : Bank} {i : Item} (h : s.bankItem b = some i) : Keeps (some i.line) s (s.setBankItem b none) := by
  refine Keeps.setBankItem (fun m hm => ?_) fun hi => ?_
  · unfold State.itemOn
    by_cases hb : bankOf m = b
    · have hne : i.line ≠ m := by simpa using hm
      rw [hb, State.bankItem_setBankItem_self, h]
      simp [hne]
    · rw [State.bankItem_setBankItem_ne s _ hb]
  · rw [itemsOk_iff] at hi ⊢
    obtain ⟨hbank, hsource⟩ := hi
    have old : ∀ c k, (s.setBankItem b none).bankItem c = some k → s.bankItem c = some k := by
      intro c k hk
      by_cases hc : c = b
      · rw [hc, State.bankItem_setBankItem_self] at hk
        exact absurd hk nofun
      · rwa [State.bankItem_setBankItem_ne s _ hc] at hk
    exact ⟨fun c k hk => hbank c k (old c k hk), fun c d k k' hcd hk hk' => hsource c d k k' hcd (old c k hk) (old d k' hk')⟩

/-- What an item needs to issue at a slot (R29). -/
theorem canIssue_iff {l : LineNo} {k : ItemKind} {slot : Nat} :
    s.canIssue l k slot = true ↔ s.bankItem (bankOf l) = none ∧
      (needsSource k = true → ∀ b i, s.bankItem b = some i → needsSource i.kind = false) ∧ slot + itemSlots k ≤ 40 := by
  have hfree : s.sourceFree = true ↔ ∀ b i, s.bankItem b = some i → needsSource i.kind = false := by
    simp only [State.sourceFree, Bool.not_eq_true', Bool.or_eq_false_iff, Option.any_eq_false]
    constructor
    · rintro ⟨h0, h1⟩ b i hb
      cases b
      · exact h0 i hb
      · exact h1 i hb
    · exact fun h => ⟨h .zero, h .one⟩
  have hfits : decide (slot + itemSlots k ≤ Config.roundSlots) = true ↔ slot + itemSlots k ≤ 40 := decide_eq_true_iff
  rw [← hfree, ← hfits]
  cases hk : needsSource k <;> simp [State.canIssue, and_assoc, hk]

/-- An item that can issue comes to be in progress on its line, whose feed mode is still to be recomputed (R31). -/
theorem keeps_occupyBank {l : LineNo} {k : ItemKind} {slot : Nat} (o : Origin) (h : s.canIssue l k slot = true) :
    Keeps (some l) s (s.setBankItem (bankOf l) (some ⟨l, k, o, slot + itemSlots k - 1, false, false, false, false⟩)) := by
  obtain ⟨hfree, hsource, hfits⟩ := canIssue_iff.mp h
  refine Keeps.setBankItem (fun m hm => ?_) fun hi => ?_
  · unfold State.itemOn
    by_cases hb : bankOf m = bankOf l
    · have hne : l ≠ m := by simpa using hm
      rw [hb, State.bankItem_setBankItem_self, hfree]
      simp [hne]
    · rw [State.bankItem_setBankItem_ne s _ hb]
  · rw [itemsOk_iff] at hi ⊢
    obtain ⟨hbank, hold⟩ := hi
    refine ⟨fun c j hj => ?_, fun c d j j' hcd hj hj' => ?_⟩
    · by_cases hc : c = bankOf l
      · subst hc
        rw [State.bankItem_setBankItem_self] at hj
        cases hj
        exact ⟨rfl, by dsimp only; omega⟩
      · rw [State.bankItem_setBankItem_ne s _ hc] at hj
        exact hbank c j hj
    · by_cases hc : c = bankOf l <;> by_cases hd : d = bankOf l
      · exact absurd (hc.trans hd.symm) hcd
      · rw [hc, State.bankItem_setBankItem_self] at hj
        rw [State.bankItem_setBankItem_ne s _ hd] at hj'
        cases hj
        rintro ⟨h1, h2⟩
        rw [hsource h1 d j' hj'] at h2
        exact absurd h2 nofun
      · rw [hd, State.bankItem_setBankItem_self] at hj'
        rw [State.bankItem_setBankItem_ne s _ hc] at hj
        cases hj'
        rintro ⟨h1, h2⟩
        rw [hsource h2 c j hj] at h1
        exact absurd h1 nofun
      · rw [State.bankItem_setBankItem_ne s _ hc] at hj
        rw [State.bankItem_setBankItem_ne s _ hd] at hj'
        exact hold c d j j' hcd hj hj'

theorem keeps_issueItem {l : LineNo} {k : ItemKind} {slot : Nat} (o : Origin) (h : s.canIssue l k slot = true) :
    Keeps none s (issueItem l k o slot s) := ((keeps_occupyBank o h).recomputeWith _).trans (keeps_seeBank _ _)

/-- The Test Queue is in no kept property. -/
theorem keeps_testQueue (q : List TestItem) (s : State) : Keeps none s { s with test := { s.test with queue := q } } :=
  Keeps.apart (fun p => by cases p <;> rfl) rfl rfl rfl rfl rfl rfl (fun _ => ⟨rfl, rfl⟩) rfl

theorem keeps_takeTestItem (rest : List TestItem) (s : State) : Keeps none s (takeTestItem rest s) :=
  (keeps_testQueue rest s).trans (keeps_scan rfl rfl)

theorem keeps_issueLoop (slot fuel : Nat) (s : State) : Keeps none s (issueLoop slot fuel s) := by
  induction fuel generalizing s with
  | zero => exact Keeps.refl _ s
  | succ fuel ih =>
    unfold issueLoop
    split
    next =>
      split
      next => exact Keeps.refl _ s
      next i rest _ =>
        split
        next h => exact ((keeps_takeTestItem rest s).trans (keeps_issueItem (s := takeTestItem rest s) _ h)).trans (ih _)
        next => exact Keeps.refl _ s
    next =>
      dsimp only
      split
      next => exact keeps_wantOffer s
      next o _ =>
        split
        next h => exact (((keeps_wantOffer s).trans (keeps_issueItem _ h)).trans (keeps_issueVisit ..)).trans (ih _)
        next => exact keeps_wantOffer s

/-! ### Slots -/

theorem keeps_startLoop (k : Nat) (l : LineNo) (s : State) : Keeps none s (startLoop k l s) := by
  rcases startLoop_cases k l s with h | ⟨-, h⟩ <;> rw [h]
  · exact Keeps.refl _ s
  · exact keeps_beginMeasuring ..

theorem keeps_fixTestPart (k : Nat) (s : State) : Keeps none s (fixTestPart k s) := by
  unfold fixTestPart
  split
  next => exact keeps_scan rfl rfl
  next => exact Keeps.refl _ s

theorem keeps_startSlot (k : Nat) (s : State) : Keeps none s (startSlot k s) := by
  unfold startSlot
  split
  next => exact keeps_forLines (keeps_startLoop k) _ s
  next => exact (((keeps_seeBank ..).trans (keeps_seeBank ..)).trans (keeps_fixTestPart ..)).trans (keeps_issueLoop ..)

theorem keeps_remakeSlot (l : LineNo) (s : State) : Keeps none s (remakeSlot l s) := by
  rcases remakeSlot_cases l s with h | ⟨k, -, -, -, -, h⟩ | ⟨k, i, -, -, hi, h⟩ <;> rw [h]
  · exact Keeps.refl _ s
  · exact keeps_startLoop k l s
  · exact keeps_markItem (Option.filter_eq_some_iff.mp hi).1 rfl rfl rfl rfl

theorem keeps_handOnItem (i : Item) (time : Time) (r1 r2 : Int) (s : State) : Keeps none s (handOnItem i time r1 r2 s) := by
  unfold handOnItem
  split
  next => exact keeps_writeEvent _ _ _ ⟨nofun, nofun, id⟩
  next n _ =>
    refine Keeps.trans ?_ (keeps_setSw n _ _)
    split
    next => exact Keeps.refl _ s
    next => exact keeps_countGroup ..

theorem keeps_completeItem {b : Bank} {i : Item} (r1 r2 : Int) (h : s.bankItem b = some i) : Keeps none s (completeItem b i r1 r2 s) := by
  have hflag : Keeps (some i.line) (s.setBankItem b none) ((s.setBankItem b none).modLine i.line (flagItem i)) :=
    Keeps.modLine (.inl rfl) rfl rfl fun hr => hr.line i.line
  exact (((keeps_freeBank h).trans hflag).recomputeWith _).trans (keeps_handOnItem ..)

end
end Sys2Proof.Machine
end

