-- ==== Sys2Proof/Proofs/KeptByTheTables.lean ====
section
/-! PROOF. Locks, timeslots, the Profile Store and test access keep what every step keeps. -/

namespace Sys2Proof.Machine

section
variable {s t : State}

/-! ### Tone blocks, the law and locks -/

theorem keeps_takeBlockEnd (d : DetNo) (l : LineNo) (b : EndedBlock) (e : Energies) (s : State) :
    Keeps none s (takeBlockEnd d l b e s) := by
  have hend : Keeps none s (s.setDet d (endTaken (s.det d))) := keeps_setDet rfl rfl
  have hdecide : ∀ (u : State) (x : Decision), Keeps none u (u.setDet d (decidedDetector e x (u.det d))) := fun u x => keeps_setDet rfl rfl
  unfold takeBlockEnd
  dsimp only
  split
  next => exact hend
  next =>
    refine hend.trans ?_
    unfold takeDecidedBlock
    dsimp only
    split
    next => exact (hdecide _ _).trans (notes_toneDigit ..).keeps
    next => exact hdecide _ _

theorem keeps_setLaw (law : Law) (s : State) : Keeps none s (setLaw law s) := by
  unfold setLaw
  split
  next => exact Keeps.refl _ s
  next =>
    refine keeps_mapDets markAssigned (fun r => ?_) (fun r => ?_) _ rfl rfl <;> unfold markAssigned <;> split <;> rfl

theorem keeps_lockFree (l : LineNo) (s : State) (h : heldDet (s.line l).detStatus = none) : Keeps none s (lockFree l s).state := by
  unfold lockFree
  split
  next d hd =>
    dsimp only
    split
    next hw =>
      refine (keeps_leaveQueue hw).trans (keeps_assignDet ?_ ?_)
      · exact freeDet_spec hd
      · exact congrArg Line.detStatus (State.setStatus_line_self ..)
    next hw =>
      refine keeps_assignDet (freeDet_spec hd) ?_
      revert h hw
      cases (s.line l).detStatus <;> simp [heldDet]
  next => exact Keeps.refl _ s

theorem keeps_lockAssigned {d : DetNo} {l : LineNo} (h : (s.line l).detStatus = .assigned d) : Keeps none s (lockAssigned d l s) :=
  keeps_relock (by rw [h]; rfl) rfl rfl (by simp)

theorem keeps_lockRule (l : LineNo) (s : State) : Keeps none s (lockRule l s).state := by
  unfold lockRule
  split
  next => exact Keeps.refl _ s
  next =>
    split
    next => exact Keeps.refl _ s
    next =>
      split
      next => exact Keeps.refl _ s
      next d h =>
        split
        next => exact Keeps.refl _ s
        next => exact keeps_lockAssigned h
      next h =>
        split
        next => exact Keeps.refl _ s
        next => exact keeps_lockFree l s (by rw [h]; rfl)
      next h =>
        split
        next => exact Keeps.refl _ s
        next => exact keeps_lockFree l s (by rw [h]; rfl)

theorem keeps_unlockRule (l : LineNo) (s : State) : Keeps none s (unlockRule l s).state := by
  unfold unlockRule
  split
  next d h =>
    dsimp only [accept]
    split
    next => exact keeps_relock (by rw [h]; rfl) rfl rfl (by simp)
    next => exact keeps_releaseDet (by rw [h]; rfl)
  all_goals exact Keeps.refl _ s

/-! ### Subscription and timeslot -/

theorem keeps_subscribe (l : LineNo) (q : Subscription) (s : State) : Keeps none s (s.modLine l fun r => { r with subscription := q }) :=
  Notes.keeps (notes_setLine rfl rfl rfl fun h => h.line l)

/-- A line's timeslot is replaced by NONE, or by one that no other line holds (R5). -/
theorem keeps_setTimeslot {l : LineNo} {x : Option Timeslot} (h : ∀ m, m ≠ l → (s.line m).timeslot = x → x = none) :
    Keeps none s (s.setTimeslot l x) where
  ports := PortsKept.of_eq fun p => by simp
  journal := JournalOk.congr rfl fun p => by simp
  records := by
    rintro ⟨hstore, hslots, hitems, hlines, hshadows⟩
    have hself : (s.setTimeslot l x).line l = { s.line l with timeslot := x } := State.line_modLine_self ..
    have hother : ∀ m, m ≠ l → (s.setTimeslot l x).line m = s.line m := fun m hm => State.line_modLine_ne s _ hm
    refine ⟨hstore, fun a b hab e => ?_, hitems, fun a => ?_, hshadows⟩
    · by_cases ha : a = l
      · subst ha
        rw [hself, hother b (Ne.symm hab)] at e
        rw [hself]
        exact h b (Ne.symm hab) e.symm
      · by_cases hb : b = l
        · subst hb
          rw [hself, hother a ha] at e
          rw [hother a ha, e]
          exact h a ha e
        · rw [hother a ha, hother b hb] at e
          rw [hother a ha]
          exact hslots a b hab e
    · by_cases ha : a = l
      · subst ha
        rw [hself]
        exact hlines a
      · rw [hother a ha]
        exact hlines a
  feeds m _ := by
    have hi : (s.setTimeslot l x).itemOn m = s.itemOn m := itemOn_congr (by simp)
    refine follows_congr ?_ rfl (by rw [hi])
    by_cases hm : m = l
    · subst hm
      rw [State.setTimeslot, State.line_modLine_self]
      exact SameFeed.refl _
    · rw [State.setTimeslot, State.line_modLine_ne s _ hm]
      exact SameFeed.refl _
  pool := PoolAgrees.congr (fun d => by simp) rfl fun m => by
    by_cases hm : m = l
    · subst hm
      rw [State.setTimeslot, State.line_modLine_self]
    · rw [State.setTimeslot, State.line_modLine_ne s _ hm]

theorem keeps_retune (l : LineNo) (s : State) : Keeps none s (retune l s) := by
  unfold retune
  split
  next => exact keeps_setDet rfl rfl
  next => exact Keeps.refl _ s

theorem keeps_timeslotRule (l : LineNo) (b : Byte) (s : State) : Keeps none s (timeslotRule l b s).state := by
  unfold timeslotRule
  split
  next => exact Keeps.refl _ s
  next => exact (keeps_releaseAny l s).trans (keeps_setTimeslot fun _ _ _ => rfl)
  next x _ =>
    split
    next => exact Keeps.refl _ s
    next htaken =>
      have hfree : Keeps none s (s.setTimeslot l (some x)) :=
        keeps_setTimeslot fun m hm hx => absurd ((slotTaken_iff s l x).mpr ⟨m, hm, hx⟩) htaken
      dsimp only [accept, takeSlot]
      split
      next => exact hfree
      next =>
        split
        next => exact Keeps.refl _ s
        next => exact hfree.trans (keeps_retune ..)

/-! ### The Profile Store -/

theorem follows_recomputeFeed (l : LineNo) (s : State) : Follows (recomputeFeed l s) l := by
  rw [Follows, recomputeFeed_line_self, derivedMode_recomputeFeed]
  rfl

theorem keeps_recomputeAutoBlock (a b : State) (l : LineNo) (s : State) : Keeps none s (recomputeAutoBlock a b l s) := by
  unfold recomputeAutoBlock
  split
  next => exact Keeps.refl _ s
  next => exact (keeps_recomputeReason l s).trans (keeps_recomputeFeed l _)

/-- What an operation on one line of a list brings about and those on the others keep holds after all of them. -/
theorem forLines_establishes {P : State → Prop} {f : LineNo → State → State} {m : LineNo} {ls : List LineNo} (hm : m ∈ ls)
    (hself : ∀ s, P (f m s)) (hkeep : ∀ l s, P s → P (f l s)) (s : State) : P (forLines ls f s) := by
  have hrest : ∀ ls s, P s → P (forLines ls f s) := by
    intro ls
    induction ls with
    | nil => exact fun _ h => h
    | cons l ls ih => exact fun s h => ih _ (hkeep l s h)
  induction ls generalizing s with
  | nil => exact absurd hm nofun
  | cons l ls ih =>
    rcases List.mem_cons.mp hm with rfl | hm
    · exact hrest ls _ (hself s)
    · exact ih hm _

/-- The Profile Store is replaced by one in order; a line whose auto block option changes has its feed mode recomputed (R18, R36). -/
theorem keeps_writeStore (w : Port) (i : StoreItem) {x : Store} (hstore : RecordsOk s → StoreOk { s with store := x }) :
    Keeps none s (writeStore w i x s) := by
  have hevent : Keeps none { s with store := x } (deviceEvent s.now (.profileChanged w i) { s with store := x }) := keeps_deviceEvent ..
  have hlines := hevent.trans (keeps_forLines (fun l u => keeps_recomputeAutoBlock s { s with store := x } l u) allLines _)
  refine ⟨?_, hlines.journal ∘ ?_, fun h => hlines.records ⟨hstore h, h.2⟩, fun m _ hf => ?_, hlines.pool ∘ id⟩
  · exact (PortsKept.of_eq fun p => by cases p <;> rfl).trans hlines.ports
  · exact JournalOk.congr rfl fun p => by cases p <;> exact ⟨rfl, rfl⟩
  · by_cases ha : (s.effective m).autoBlock = (({ s with store := x } : State).effective m).autoBlock
    · refine hlines.feeds m nofun ?_
      exact hf.trans (derivedMode_congr (s := s) (t := { s with store := x }) (SameFeed.refl _) ha.symm rfl).symm
    · refine forLines_establishes (P := fun u => Follows u m) (List.mem_finRange m) (fun u => ?_) (fun l u => ?_) _
      · rw [recomputeAutoBlock, if_neg ha]
        exact follows_recomputeFeed m _
      · exact (keeps_recomputeAutoBlock _ _ l u).feeds m nofun

/-! ### Test access -/

@[simp] theorem shadows_setShadow_self (s : State) (n : ShadowNo) (v : Option Shadow) : (s.setShadow n v).test.shadows[n] = v := by
  simp [State.setShadow]

@[simp] theorem shadows_setShadow_ne (s : State) {n k : ShadowNo} (v : Option Shadow) (h : k ≠ n) :
    (s.setShadow n v).test.shadows[k] = s.test.shadows[k] := by
  have : n.val ≠ k.val := fun e => h (Fin.ext e.symm)
  simp [State.setShadow, Vector.getElem_set_ne, this]

/-- A shadow slot is freed, or takes a copy within the ranges of R2. -/
theorem keeps_setShadow {x : Option LineNo} (n : ShadowNo) {v : Option Shadow} (hv : RecordsOk s → ∀ sh, v = some sh → shadowInRange sh) :
    Keeps x s (s.setShadow n v) where
  ports := PortsKept.of_eq fun p => by simp
  journal := JournalOk.congr rfl fun p => by simp
  records h := by
    refine ⟨h.1, h.2.1, h.2.2.1, h.2.2.2.1, fun k sh hk => ?_⟩
    by_cases hkn : k = n
    · subst hkn
      exact hv h sh ((shadows_setShadow_self s k v).symm.trans hk)
    · exact h.2.2.2.2 k sh ((shadows_setShadow_ne s v hkn).symm.trans hk)
  feeds m _ := follows_congr (SameFeed.refl _) rfl rfl
  pool := PoolAgrees.congr (fun _ => ⟨rfl, rfl⟩) rfl fun _ => rfl

theorem shadowInRange_shadowOf {r : Line} (l : LineNo) (h : lineInRange r) : shadowInRange (shadowOf l r) := ⟨h.1, h.2.1, h.2.2.1⟩

theorem keeps_takeHold (l : LineNo) (n : ShadowNo) (force : Bool) (s : State) : Keeps none s (takeHold l n force s) := by
  have hshadow : Keeps none s (s.setShadow n (some (shadowOf l (s.line l)))) :=
    keeps_setShadow n fun h sh hsh => by cases hsh; exact shadowInRange_shadowOf l (h.line l)
  have hheld : ∀ u : State, Keeps none u (recomputeFeed l (u.modLine l (heldFields n))) := fun u => by
    refine keeps_recompute_modLine rfl rfl fun h => ?_
    have := h.line l
    grind [lineInRange, heldFields, discardMeasuring, endDialling, clearPulses]
  exact ((hshadow.trans (keeps_releaseAny l _)).trans (hheld _)).trans (keeps_writeEvent _ _ _ (pendAttached_holdPorts _ l))

theorem keeps_dropItems {x : Option LineNo} (l : LineNo) (s : State) : Keeps x s (dropItems l s) :=
  Keeps.apart (fun p => by cases p <;> rfl) rfl rfl rfl rfl rfl rfl (fun _ => ⟨rfl, rfl⟩) rfl

theorem shadowInRange_shadowFor (l : LineNo) (h : RecordsOk s) : shadowInRange (s.shadowFor l) := by
  unfold State.shadowFor
  split
  next n _ =>
    rcases hn : s.test.shadows[n] with _ | sh
    · exact shadowInRange_shadowOf l (h.line l)
    · exact h.2.2.2.2 n sh hn
  next => exact shadowInRange_shadowOf l (h.line l)

theorem faultsInRange_reset : faultsInRange resetFaultSet := ⟨by decide, fun k => by cases k <;> decide⟩

/-- What RELEASE writes back is within the ranges of R2 (R166). -/
theorem lineInRange_writeBack {r : Line} {sh : Shadow} (m : ReleaseMode) (h : lineInRange r) (hs : shadowInRange sh) :
    lineInRange (writeBack m sh r) := by
  obtain ⟨hrec, hbase, hfaults⟩ := hs
  cases m
  · exact ⟨hrec, hbase, hfaults, h.2.2.2⟩
  · exact ⟨Nat.zero_le _, Nat.zero_le _, faultsInRange_reset, h.2.2.2⟩

/-- A line's items are dropped, its slot is freed and its record written back; its feed mode is still to be recomputed (R166). -/
theorem keeps_writeBack (l : LineNo) (m : ReleaseMode) (s : State) :
    Keeps (some l) s ((freeSlotOf l (dropItems l s)).modLine l (writeBack m (s.shadowFor l))) := by
  have hwrite : Keeps (some l) s (s.modLine l (writeBack m (s.shadowFor l))) :=
    Keeps.modLine (.inl rfl) (by cases m <;> rfl) (by cases m <;> rfl)
      fun h => lineInRange_writeBack m (h.line l) (shadowInRange_shadowFor l h)
  have hslot : (dropItems l s).line l = s.line l := rfl
  unfold freeSlotOf
  rw [hslot]
  split
  next n _ => exact (hwrite.trans (keeps_dropItems l _)).trans (keeps_setShadow n fun _ _ h => absurd h nofun)
  next => exact hwrite.trans (keeps_dropItems l _)

theorem keeps_releaseLine (l : LineNo) (m : ReleaseMode) (why : ReleaseReason) (s : State) : Keeps none s (releaseLine l m why s) := by
  have hfields : ∀ (u : State) (q : Reasons) (d : LineState × LoopCond), Keeps (some l) u (u.modLine l (releasedFields q d)) := fun u q d => by
    refine Keeps.modLine (.inl rfl) rfl rfl fun h => ?_
    have := h.line l
    grind [lineInRange, releasedFields, endDialling, clearPulses]
  have hrelease : ∀ q d, Keeps none s (recomputeFeed l
      (((freeSlotOf l (dropItems l s)).modLine l (writeBack m (s.shadowFor l))).modLine l (releasedFields q d))) :=
    fun q d => ((keeps_writeBack l m s).trans (hfields _ q d)).recompute
  unfold releaseLine
  dsimp only
  split
  next => exact (hrelease _ _).trans (keeps_writeEvent _ _ _ (pendAttached_holdPorts _ l))
  next => exact ((hrelease _ _).trans (keeps_writeEvent _ _ _ (pendAttached_holdPorts _ l))).trans (keeps_lineEvent ..)

theorem keeps_loseTestPort (s : State) : Keeps none s (loseTestPort s) := by
  have hempty : Keeps none s (emptyQueue s) := (keeps_testQueue [] s).trans (keeps_scan rfl rfl)
  refine hempty.trans (keeps_forLines (fun l u => ?_) _ _)
  split
  next => exact keeps_releaseLine l _ _ u
  next => exact Keeps.refl _ u

end
end Sys2Proof.Machine
end

