-- ==== Sys2Proof/Proofs/KeptByRequests.lean ====
section
/-! PROOF. Ports and requests uphold what every step keeps. -/

namespace Sys2Proof.Machine

section
variable {s t : State}

/-! ### Ports and the journal -/

/-- An update of the ports and the journal alone. -/
theorem Upholds.of_ports (h : portsOf s t = s) (hj : JournalOk s → JournalOk t) : Upholds s t := by
  have hrest : Keeps none s (portsOf s t) := by rw [h]; exact Keeps.refl _ s
  exact ⟨hj, hrest.records, fun f m => hrest.feeds m nofun (f m), hrest.pool⟩

/-- A port's record is replaced, its state as before and its gap count in range. -/
theorem upholds_setPort {p : Port} {r : PortRec} (hstate : r.state = (s.port p).state) (hgap : (s.port p).gap ≤ 65535 → r.gap ≤ 65535) :
    Upholds s (s.setPort p r) := by
  refine Upholds.of_ports (by cases p <;> rfl) ?_
  rintro ⟨hlen, hpend, hgaps⟩
  have hatt : ∀ q, (s.setPort p r).attached q = s.attached q := fun q => attached_congr (by
    by_cases hq : q = p
    · subst hq; simp [hstate]
    · simp [hq])
  refine ⟨by simpa using hlen, fun e he => ?_, fun q => ?_⟩
  · simpa [pendAttached, hatt] using hpend e (by simpa using he)
  · by_cases hq : q = p
    · subst hq; simpa using hgap (hgaps q)
    · simpa [hq] using hgaps q

theorem upholds_recordOut (p : Port) (n : Nat) (s : State) : Upholds s (recordOut p n s) := upholds_setPort rfl id

theorem upholds_respond (p : Port) (code : Byte) (st : Status) (payload : List Byte) (s : State) :
    Upholds s (respond p code st payload s) := upholds_setPort rfl id

/-- A port's record is replaced and the port leaves every pending set (R186, R188, R189). -/
theorem dropPort_journalOk {p : Port} {r : PortRec} (hgap : (s.port p).gap ≤ 65535 → r.gap ≤ 65535) (h : JournalOk s) :
    JournalOk (dropPort p (s.setPort p r)) := by
  obtain ⟨hlen, hpend, hgaps⟩ := h
  have hother : ∀ q, q ≠ p → s.attached q = true → (dropPort p (s.setPort p r)).attached q = true := fun q hq hs =>
    (attached_congr (s := s) (by cases p <;> cases q <;> first | rfl | exact absurd rfl hq)).trans hs
  refine ⟨?_, fun e he => ?_, fun q => ?_⟩
  · refine (List.length_filter_le _ _).trans ?_
    simpa using hlen
  · refine ⟨(dropPort_mem p _ he).2, ?_⟩
    simp only [dropPort, State.setPort_journal, List.mem_filter, List.mem_map] at he
    obtain ⟨⟨x, hx, rfl⟩, -⟩ := he
    obtain ⟨-, ha, hb, ht⟩ := hpend x hx
    cases p
    · exact ⟨nofun, fun h => hother .b nofun (hb h), fun h => hother .t nofun (ht h)⟩
    · exact ⟨fun h => hother .a nofun (ha h), nofun, fun h => hother .t nofun (ht h)⟩
    · exact ⟨fun h => hother .a nofun (ha h), fun h => hother .b nofun (hb h), nofun⟩
  · have hport : (dropPort p (s.setPort p r)).port q = (s.setPort p r).port q := by cases q <;> rfl
    rw [hport]
    by_cases hq : q = p
    · subst hq; simpa using hgap (hgaps q)
    · simpa [hq] using hgaps q

theorem upholds_dropPort {p : Port} {r : PortRec} (hgap : (s.port p).gap ≤ 65535 → r.gap ≤ 65535) :
    Upholds s (dropPort p (s.setPort p r)) := by
  have hrest : portsOf s (dropPort p (s.setPort p r)) = portsOf s (s.setPort p r) := rfl
  have hport : portsOf s (s.setPort p r) = s := by cases p <;> rfl
  exact Upholds.of_ports (hrest.trans hport) (dropPort_journalOk hgap)

theorem upholds_leavePort (p : Port) (x : PortState) (why : LapseCause) (s : State) : Upholds s (leavePort p x why s) := by
  have hdrop : Upholds s (dropPort p (s.setPort p { s.port p with state := x, expiry := none })) := upholds_dropPort id
  refine hdrop.trans (Keeps.upholds ?_)
  exact keeps_writeEvent none _ (.portLapsed p why) (pendAttached_without p (pendAttached_attachedPorts _))

theorem upholds_takeAttach (p : Port) (n : Nat) (mask : BitVec 6) (s : State) : Upholds s (takeAttach p n mask s) := by
  have hdrop : Upholds s (dropPort p (s.setPort p (attachedRec s.now n mask (s.port p)))) := upholds_dropPort fun _ => Nat.zero_le _
  refine hdrop.trans (Keeps.upholds ?_)
  exact keeps_writeEvent none _ (.portAttached p _) (pendAttached_without p (pendAttached_attachedControllers _))

/-- Entries taken by a port leave a shorter journal, of entries that some attached port has still to read (R192). -/
theorem takeEntries_spec (p : Port) (n : Nat) (es : List Entry) :
    (takeEntries p n es).length ≤ es.length ∧
      ∀ e ∈ takeEntries p n es, ∃ e' ∈ es, e = e' ∨ e.pend = e'.pend.without p ∧ e.pend.isEmpty = false := by
  induction es generalizing n with
  | nil => cases n <;> exact ⟨Nat.le_refl _, fun e he => absurd he nofun⟩
  | cons x es ih =>
    have more : ∀ m, ∀ e ∈ takeEntries p m es, ∃ e' ∈ x :: es, e = e' ∨ e.pend = e'.pend.without p ∧ e.pend.isEmpty = false :=
      fun m e he => (ih m).2 e he |>.imp fun e' h => ⟨List.mem_cons_of_mem _ h.1, h.2⟩
    cases n with
    | zero => exact ⟨Nat.le_refl _, fun e he => ⟨e, he, .inl rfl⟩⟩
    | succ n =>
      unfold takeEntries
      split
      next =>
        dsimp only
        split
        next => exact ⟨Nat.le_succ_of_le (ih n).1, more n⟩
        next hne =>
          refine ⟨Nat.succ_le_succ (ih n).1, fun e he => ?_⟩
          rcases List.mem_cons.mp he with rfl | he
          · exact ⟨x, List.mem_cons_self, .inr ⟨rfl, by simpa using hne⟩⟩
          · exact more n e he
      next =>
        refine ⟨Nat.succ_le_succ (ih (n + 1)).1, fun e he => ?_⟩
        rcases List.mem_cons.mp he with rfl | he
        · exact ⟨e, List.mem_cons_self, .inl rfl⟩
        · exact more (n + 1) e he

theorem upholds_readEvents (p : Port) (n : Nat) (s : State) : Upholds s (readEvents p n s).state := by
  have hgap : Upholds s (s.setPort p { s.port p with gap := 0 }) := upholds_setPort rfl fun _ => Nat.zero_le _
  refine hgap.trans (Upholds.of_ports (by cases p <;> rfl) ?_)
  rintro ⟨hlen, hpend, hgaps⟩
  have hj : (s.setPort p { s.port p with gap := 0 }).journal = s.journal := by simp
  rw [hj] at hlen hpend
  obtain ⟨hshort, hsub⟩ := takeEntries_spec p (n - (gapRecord p s).length) s.journal
  refine ⟨hshort.trans hlen, fun e he => ?_, hgaps⟩
  obtain ⟨e', he', rfl | ⟨hwithout, hne⟩⟩ := hsub e he
  · exact hpend e he'
  · refine ⟨hne, ?_⟩
    rw [hwithout]
    exact pendAttached_without p (hpend e' he').2

theorem keeps_takeover {p q : Port} (hq : s.attached q = true) : Keeps none s (takeover p q s) := by
  have hmove : ∀ ls, Keeps none s (forLines ls (fun l s => s.modLine l fun r => { r with subscription := onlySubscription q }) s) :=
    fun ls => keeps_forLines (fun l u => keeps_subscribe l _ u) ls s
  unfold takeover
  dsimp only
  split
  next => exact hmove _
  next =>
    refine (hmove _).trans (keeps_writeEvent _ _ _ (pendAttached_only ?_))
    exact (attached_congr ((hmove _).ports.2 q).1).trans hq

theorem keeps_takeoverStep (p : Port) (s : State) : Keeps none s (takeoverStep p s) := by
  unfold takeoverStep
  split
  next =>
    split
    next hq => exact keeps_takeover hq
    next => exact Keeps.refl _ s
  next => exact Keeps.refl _ s

theorem keeps_lapseTest (p : Port) (s : State) : Keeps none s (lapseTest p s) := by
  cases p with
  | a => exact Keeps.refl _ s
  | b => exact Keeps.refl _ s
  | t => exact (keeps_loseTestPort s).trans (keeps_forLines keeps_remakeSlot _ _)

theorem keeps_leaveTest (p : Port) (s : State) : Keeps none s (leaveTest p s) := by
  cases p with
  | a => exact Keeps.refl _ s
  | b => exact Keeps.refl _ s
  | t => exact keeps_loseTestPort s

/-! ### Requests -/

/-- A request upholds what its rule upholds (R184, R185). -/
theorem upholds_serve {p : Port} {code : Byte} {len : Nat} {a : Access} {tail : List Byte} {body : List Byte → State → Reply}
    (hbody : ∀ pl u, Upholds u (body pl u).state) (h : serve p code len a tail body s = .next t) : Upholds s t := by
  have hjudge : ∀ u, Upholds u (judge p code len a tail body u).state := by
    intro u
    unfold judge
    split
    next => exact Upholds.refl u
    next =>
      split
      next => exact Upholds.refl u
      next =>
        split
        next => exact Upholds.refl u
        next => exact hbody _ u
  cases h
  exact ((upholds_recordOut ..).trans (hjudge _)).trans (upholds_respond ..)

theorem upholds_withLine {b : Byte} {f : LineNo → Reply} (hf : ∀ l, Upholds s (f l).state) : Upholds s (withLine b s f).state := by
  unfold withLine
  split
  next => exact hf _
  next => exact Upholds.refl s

theorem upholds_keepaliveRule (p : Port) (b : Byte) (s : State) : Upholds s (keepaliveRule p b s).state := by
  unfold keepaliveRule
  split
  next => exact Upholds.refl s
  next =>
    split
    next => exact upholds_setPort rfl id
    next => exact Upholds.refl s

theorem upholds_attachRule (p : Port) (n : Nat) (b : Byte) (s : State) : Upholds s (attachRule p n b s).state := by
  unfold attachRule
  split
  next => exact Upholds.refl s
  next => exact upholds_takeAttach ..

theorem upholds_readEventsRule (p : Port) (b : Byte) (s : State) : Upholds s (readEventsRule p b s).state := by
  unfold readEventsRule
  split
  next => exact Upholds.refl s
  next => exact upholds_readEvents ..

theorem upholds_alertMaskRule (p : Port) (b : Byte) (s : State) : Upholds s (alertMaskRule p b s).state := by
  unfold alertMaskRule
  split
  next => exact Upholds.refl s
  next => exact upholds_setPort rfl id

theorem clampNat_clampNat {a b : Nat} (h : a ≤ b) (x : Nat) : clampNat a b (clampNat a b x) = clampNat a b x := by
  unfold clampNat
  omega

/-- A profile clamped to the ranges of R7 is clamped no further. -/
theorem clampProfile_clampProfile (p : Profile) : clampProfile (clampProfile p) = clampProfile p := by
  simp [clampProfile, clampNat_clampNat]

theorem profileGood_clampProfile {p : Profile} (h : profileOrdered (clampProfile p) = true) : profileGood (clampProfile p) = true := by
  simp [profileGood, clampProfile_clampProfile, h]

theorem keeps_writeProfileRule (p : Port) (pl : List Byte) (s : State) : Keeps none s (writeProfileRule p pl s).state := by
  unfold writeProfileRule
  split
  next n sent _ _ =>
    dsimp only
    split
    next hord =>
      refine keeps_writeStore _ _ fun h => ⟨fun k => ?_, h.1.2⟩
      by_cases hk : k = n
      · subst hk
        simpa using profileGood_clampProfile hord
      · have : n.val ≠ k.val := fun e => hk (Fin.ext e.symm)
        simpa [Vector.getElem_set_ne, this] using h.1.1 k
    next => exact Keeps.refl _ s
  next => exact Keeps.refl _ s

theorem rangeOf_ordered {pl : List Byte} {i : Fin 8} {r : RangeEntry} (h : rangeOf pl = some (i, r)) : r.first ≤ r.last := by
  unfold rangeOf at h
  split at h
  next =>
    split at h
    next hab =>
      cases h
      exact hab
    next => exact absurd h nofun
  next => exact absurd h nofun

theorem keeps_writeRangeRule (p : Port) (pl : List Byte) (s : State) : Keeps none s (writeRangeRule p pl s).state := by
  unfold writeRangeRule
  split
  next i r hr =>
    refine keeps_writeStore _ _ fun h => ⟨h.1.1, fun k => ?_⟩
    by_cases hk : k = i
    · subst hk
      simpa using rangeOf_ordered hr
    · have : i.val ≠ k.val := fun e => hk (Fin.ext e.symm)
      simpa [Vector.getElem_set_ne, this] using h.1.2 k
  next => exact Keeps.refl _ s

theorem keeps_writeOverrideRule (p : Port) (l : LineNo) (b : Byte) (s : State) : Keeps none s (writeOverrideRule p l b s).state := by
  unfold writeOverrideRule
  split
  next => exact keeps_writeStore _ _ fun h => h.1
  next => exact Keeps.refl _ s

theorem keeps_feedLimitsRule (a b : Nat) (s : State) : Keeps none s (feedLimitsRule a b s).state := by
  unfold feedLimitsRule
  dsimp only
  split
  next => exact keeps_battery _ s
  next => exact Keeps.refl _ s

theorem keeps_lawRule (b : Byte) (s : State) : Keeps none s (lawRule b s).state := by
  unfold lawRule
  split
  next => exact Keeps.refl _ s
  next => exact keeps_setLaw _ s

theorem keeps_subscriptionRule (l : LineNo) (b : Byte) (s : State) : Keeps none s (subscriptionRule l b s).state := by
  unfold subscriptionRule
  split
  next => exact Keeps.refl _ s
  next => exact keeps_subscribe ..

theorem keeps_ringRule (l : LineNo) (s : State) : Keeps none s (ringRule l s).state := by
  unfold ringRule
  split
  next => exact Keeps.refl _ s
  next =>
    split
    next => exact Keeps.refl _ s
    next => exact keeps_startRinging l s

theorem keeps_ringStopRule (l : LineNo) (s : State) : Keeps none s (ringStopRule l s).state := by
  unfold ringStopRule
  split
  next => exact keeps_stopRinging l s
  next => exact Keeps.refl _ s

theorem keeps_endDialRule (l : LineNo) (s : State) : Keeps none s (endDialRule l s).state := by
  unfold endDialRule
  split
  next h => exact keeps_endDial h
  next => exact Keeps.refl _ s

theorem keeps_clearDialRule (l : LineNo) (s : State) : Keeps none s (clearDialRule l s).state := by
  unfold clearDialRule
  split
  next => exact Keeps.refl _ s
  next => exact (notes_clearDial l s).keeps

theorem keeps_writeSweepRule (pl : List Byte) (s : State) : Keeps none s (writeSweepRule pl s).state := by
  unfold writeSweepRule
  split
  next =>
    split
    next => exact Keeps.refl _ s
    next =>
      split
      next => exact Keeps.refl _ s
      next => exact keeps_setSw _ _ s
  next => exact Keeps.refl _ s

theorem keeps_startSweepRule (a b : Byte) (s : State) : Keeps none s (startSweepRule a b s).state := by
  unfold startSweepRule
  split
  next =>
    split
    next => exact Keeps.refl _ s
    next => exact keeps_setSw _ _ s
  next => exact Keeps.refl _ s

theorem keeps_stopSweepRule (b : Byte) (s : State) : Keeps none s (stopSweepRule b s).state := by
  unfold stopSweepRule
  split
  next => exact keeps_stopSweep _ s
  next => exact Keeps.refl _ s

theorem keeps_holdRule (l : LineNo) (b : Byte) (s : State) : Keeps none s (holdRule l b s).state := by
  unfold holdRule
  split
  next => exact Keeps.refl _ s
  next =>
    split
    next => exact Keeps.refl _ s
    next =>
      split
      next => exact Keeps.refl _ s
      next =>
        split
        next => exact Keeps.refl _ s
        next => exact keeps_takeHold ..

theorem keeps_releaseRule (l : LineNo) (b : Byte) (s : State) : Keeps none s (releaseRule l b s).state := by
  unfold releaseRule
  split
  next => exact Keeps.refl _ s
  next =>
    split
    next => exact keeps_releaseLine ..
    next => exact Keeps.refl _ s

theorem keeps_testFeedRule (l : LineNo) (a b : Byte) (s : State) : Keeps none s (testFeedRule l a b s).state := by
  unfold testFeedRule
  split
  next => exact Keeps.refl _ s
  next =>
    split
    next => exact keeps_recompute_modLine rfl rfl fun h => h.line l
    next => exact Keeps.refl _ s

theorem keeps_measureRule (l : LineNo) (b : Byte) (s : State) : Keeps none s (measureRule l b s).state := by
  unfold measureRule
  split
  next => exact Keeps.refl _ s
  next =>
    split
    next =>
      split
      next => exact Keeps.refl _ s
      next => exact keeps_testQueue _ s
    next => exact Keeps.refl _ s

theorem readProfileRule_state (b : Byte) (s : State) : (readProfileRule b s).state = s := by
  unfold readProfileRule
  split <;> rfl

end
end Sys2Proof.Machine
end

