-- ==== Sys2Proof/Proofs/StepsKeep.lean ====
section
/-! PROOF. Every command upholds the invariants: O57 to O60. -/

namespace Sys2Proof.Machine

/-! ### The reset state -/

theorem line_reset (l : LineNo) : State.reset.line l = resetLine := by
  simp [State.line, State.reset]

theorem det_reset (d : DetNo) : State.reset.det d = resetDetector := by
  simp [State.det, State.reset, resetPool]

theorem profile_reset (n : ProfileNo) : State.reset.store.profiles[n] = resetProfile := by
  simp [State.reset, resetStore]

theorem range_reset (i : Fin 8) : State.reset.store.ranges[i] = ⟨0, 63, 0, false⟩ := by
  simp [State.reset, resetStore]

theorem shadow_reset (n : ShadowNo) : State.reset.test.shadows[n] = none := by
  simp [State.reset, resetTestUnit]

theorem journalOk_reset : JournalOk State.reset := ⟨Nat.zero_le _, fun _ he => absurd he nofun, fun q => by cases q <;> exact Nat.zero_le _⟩

theorem recordsOk_reset : RecordsOk State.reset := by
  have hitems : ItemsOk State.reset := by
    have h0 : State.reset.scan.item0 = none := rfl
    have h1 : State.reset.scan.item1 = none := rfl
    rw [ItemsOk, h0, h1]
    exact ⟨fun _ h => absurd h nofun, fun _ h => absurd h nofun, fun _ _ h => absurd h nofun⟩
  refine ⟨⟨fun n => ?_, fun i => ?_⟩, fun l m _ _ => ?_, hitems, fun l => ?_, fun n sh h => ?_⟩
  · rw [profile_reset]; decide
  · rw [range_reset]; decide
  · rw [line_reset]; rfl
  · rw [line_reset]
    exact ⟨Nat.zero_le _, Nat.zero_le _, faultsInRange_reset, Nat.zero_le _, Nat.zero_le _, nofun, by decide, by decide, by decide, by decide,
      Nat.zero_le _⟩
  · rw [shadow_reset] at h
    exact absurd h nofun

theorem derivedMode_reset (l : LineNo) : State.reset.derivedMode l = .normal := by
  have hitem : State.reset.itemOn l = none := by
    unfold State.itemOn
    cases bankOf l <;> rfl
  have hisolated : State.reset.isolated l = false := by
    rw [State.isolated, line_reset]
    rfl
  rw [State.derivedMode, State.plainMode, hisolated, hitem, line_reset]
  rfl

theorem feedsFollow_reset : FeedsFollow State.reset := fun l => by rw [derivedMode_reset, line_reset]; rfl

theorem poolAgrees_reset : PoolAgrees State.reset := by
  unfold PoolAgrees
  simp only [det_reset, line_reset]
  exact ⟨fun d l => ⟨nofun, nofun⟩, nofun, nofun, fun _ _ => rfl, List.nodup_nil, fun l => ⟨nofun, nofun⟩, fun h => absurd rfl h⟩

/-- The queue of waiting commands is in no invariant. -/
theorem keeps_pending (q : List Instr) (s : State) : Keeps none s { s with pending := q } :=
  Keeps.apart (fun p => by cases p <;> rfl) rfl rfl rfl rfl rfl rfl (fun _ => ⟨rfl, rfl⟩) rfl

theorem upholds_reset (s : State) (q : List Instr) : Upholds s { State.reset with pending := q } :=
  have h := (keeps_pending q State.reset).upholds
  ⟨fun _ => h.journal journalOk_reset, fun _ => h.records recordsOk_reset, fun _ => h.feeds feedsFollow_reset,
    fun _ => h.pool poolAgrees_reset⟩

/-! ### Every command -/

section
variable {s t : State}

theorem upholds_unknownCode {p : Port} {code : Byte} {tail : List Byte} (h : execUnknownCodeRequest p code tail s = .next t) : Upholds s t := by
  unfold execUnknownCodeRequest at h
  split at h <;> cases h
  · exact Upholds.refl s
  · exact (upholds_recordOut ..).trans (upholds_respond ..)

theorem upholds_roundStart {v : Nat} (h : execRoundStart v s = .next t) : Upholds s t := by
  have hfresh : Keeps none s (withdrawOffer { s with scan := freshRound s.scan }) := (keeps_scan (c := freshRound s.scan) rfl rfl).trans (keeps_withdrawOffer _)
  unfold execRoundStart at h
  split at h
  next => cases h; exact (keeps_takeBatterySample v s).upholds
  next =>
    split at h <;> cases h
    · exact (hfresh.trans (keeps_takeBatterySample v _)).upholds
    · exact Upholds.refl s

theorem upholds_feedStateChange (h : execFeedStateChange s = .next t) : Upholds s t := by
  unfold execFeedStateChange at h
  split at h <;> cases h
  · exact (keeps_changeFeed _ s).upholds
  · exact Upholds.refl s

theorem upholds_slotStart (h : execSlotStart s = .next t) : Upholds s t := by
  unfold execSlotStart at h
  split at h <;> cases h
  · exact ((keeps_scan (c := { s.scan with nextSlot := s.scan.nextSlot + 1 }) rfl rfl).trans (keeps_startSlot _ _)).upholds
  · exact Upholds.refl s

theorem upholds_loopMeasurement {l : LineNo} {it ir : Int} (h : execLoopMeasurement l it ir s = .next t) : Upholds s t := by
  unfold execLoopMeasurement at h
  split at h <;> cases h
  · exact (keeps_evaluate l _ s (currentCode_range it) (currentCode_range ir)).upholds
  · exact Upholds.refl s

theorem upholds_itemComplete {b : Bank} {r1 r2 : Int} (h : execItemComplete b r1 r2 s = .next t) : Upholds s t := by
  unfold execItemComplete at h
  split at h
  next hb =>
    split at h <;> cases h
    · exact (keeps_completeItem r1 r2 hb).upholds
    · exact Upholds.refl s
  next => cases h; exact Upholds.refl s

theorem upholds_endOfPass {n : SweepNo} (h : execEndOfPass n s = .next t) : Upholds s t := by
  unfold execEndOfPass at h
  split at h <;> cases h
  · exact (keeps_endPass n s).upholds
  · exact Upholds.refl s

theorem upholds_hangupExpiry {l : LineNo} (h : execHangupExpiry l s = .next t) : Upholds s t := by
  unfold execHangupExpiry at h
  split at h
  next =>
    split at h
    next hdue =>
      cases h
      refine (serves_hangUp l _ .expiry s ?_).1.upholds
      rcases hdue.2 with hs | hs <;> rw [Quiet, hs] <;> exact ⟨nofun, nofun⟩
    next => cases h; exact Upholds.refl s
  next => cases h; exact Upholds.refl s

theorem upholds_interdigitExpiry {l : LineNo} (h : execInterdigitExpiry l s = .next t) : Upholds s t := by
  unfold execInterdigitExpiry at h
  split at h
  next =>
    split at h
    next =>
      split at h <;> cases h
      · exact (keeps_holdInterdigit l true s).upholds
      · exact (notes_takeInterdigit l s).keeps.upholds
    next => cases h; exact Upholds.refl s
  next => cases h; exact Upholds.refl s

theorem upholds_interdigitHeldSettle {l : LineNo} (h : execInterdigitHeldSettle l s = .next t) : Upholds s t := by
  unfold execInterdigitHeldSettle at h
  split at h
  next =>
    split at h <;> cases h
    · exact (notes_takeInterdigit l s).keeps.upholds
    · exact Upholds.refl s
  next => cases h; exact Upholds.refl s

theorem upholds_firstDigitExpiry {l : LineNo} (h : execFirstDigitExpiry l s = .next t) : Upholds s t := by
  unfold execFirstDigitExpiry at h
  split at h
  next =>
    split at h
    next hdue => cases h; exact (keeps_dialTimeout _ hdue.2).upholds
    next => cases h; exact Upholds.refl s
  next => cases h; exact Upholds.refl s

theorem upholds_ringPhaseExpiry {l : LineNo} (h : execRingPhaseExpiry l s = .next t) : Upholds s t := by
  unfold execRingPhaseExpiry at h
  split at h
  next =>
    split at h <;> cases h
    · exact ((keeps_changePhase l _ _ s).trans (keeps_rebeginSlot l _)).upholds
    · exact Upholds.refl s
  next => cases h; exact Upholds.refl s

theorem upholds_ringLimitExpiry {l : LineNo} (h : execRingLimitExpiry l s = .next t) : Upholds s t := by
  unfold execRingLimitExpiry at h
  split at h
  next =>
    split at h <;> cases h
    · exact (((keeps_lineEvent l _ .ringTimeout).trans (keeps_stopRinging l _)).trans (keeps_rebeginSlot l _)).upholds
    · exact Upholds.refl s
  next => cases h; exact Upholds.refl s

theorem upholds_poolReview (h : execPoolReview s = .next t) : Upholds s t := by
  have hdue : Keeps none s { s with pool := { s.pool with reviewDue := false } } := keeps_detectors (fun _ => ⟨rfl, rfl⟩) rfl
  unfold execPoolReview at h
  split at h <;> cases h
  · exact (hdue.trans (keeps_reviewPool _)).upholds
  · exact Upholds.refl s

theorem upholds_toneBlockEnd {d : DetNo} {e : Energies} (h : execToneBlockEnd d e s = .next t) : Upholds s t := by
  unfold execToneBlockEnd at h
  split at h <;> cases h
  · exact (keeps_takeBlockEnd ..).upholds
  · exact Upholds.refl s

theorem upholds_windowExpiry {p : Port} (h : execWindowExpiry p s = .next t) : Upholds s t := by
  unfold execWindowExpiry at h
  split at h <;> cases h
  · exact (upholds_leavePort ..).trans ((keeps_takeoverStep p _).trans (keeps_lapseTest p _)).upholds
  · exact Upholds.refl s

theorem upholds_flywheelUnit (h : execFlywheelUnit s = .next t) : Upholds s t := by
  unfold execFlywheelUnit at h
  split at h <;> cases h
  · exact (keeps_runTo ..).upholds
  · exact Upholds.refl s

theorem upholds_lossOfLock (h : execLossOfLock s = .next t) : Upholds s t := by
  unfold execLossOfLock at h
  split at h <;> cases h
  · exact (keeps_runTo ..).upholds
  · exact Upholds.refl s

theorem upholds_freeUnit (h : execFreeUnit s = .next t) : Upholds s t := by
  unfold execFreeUnit at h
  split at h <;> cases h
  · exact (keeps_runTo ..).upholds
  · exact Upholds.refl s

theorem upholds_relockWindowExpiry (h : execRelockWindowExpiry s = .next t) : Upholds s t := by
  unfold execRelockWindowExpiry at h
  split at h <;> cases h
  · exact (keeps_runTo ..).upholds
  · exact Upholds.refl s

/-- Every command upholds what every step keeps. -/
theorem exec_upholds {i : Instr} (h : exec i s = .next t) : Upholds s t := by
  cases i with
  | reset => cases h; exact upholds_reset s s.pending
  | nop p tail => exact upholds_serve (fun _ u => Upholds.refl u) h
  | unknownCodeRequest p code tail => exact upholds_unknownCode h
  | attach p tail => exact upholds_serve (fun _ u => upholds_attachRule p _ _ u) h
  | detach p tail => exact upholds_serve (fun _ u => (upholds_leavePort p .detached .detach u).trans (keeps_leaveTest p _).upholds) h
  | keepalive p tail => exact upholds_serve (fun _ u => upholds_keepaliveRule p _ u) h
  | readEvents p tail => exact upholds_serve (fun _ u => upholds_readEventsRule p _ u) h
  | setAlertMask p tail => exact upholds_serve (fun _ u => upholds_alertMaskRule p _ u) h
  | readStatus p tail => exact upholds_serve (fun _ u => Upholds.refl u) h
  | writeProfile p tail => exact upholds_serve (fun pl u => (keeps_writeProfileRule p pl u).upholds) h
  | readProfile p tail => exact upholds_serve (fun _ u => by rw [readProfileRule_state]; exact Upholds.refl u) h
  | writeRange p tail => exact upholds_serve (fun pl u => (keeps_writeRangeRule p pl u).upholds) h
  | writeOverride p tail => exact upholds_serve (fun _ u => upholds_withLine fun l => (keeps_writeOverrideRule p l _ u).upholds) h
  | setSubscription p tail => exact upholds_serve (fun _ u => upholds_withLine fun l => (keeps_subscriptionRule l _ u).upholds) h
  | setTimeslot p tail => exact upholds_serve (fun _ u => upholds_withLine fun l => (keeps_timeslotRule l _ u).upholds) h
  | readLine p tail => exact upholds_serve (fun _ u => upholds_withLine fun _ => Upholds.refl u) h
  | setFeedLimits p tail => exact upholds_serve (fun _ u => (keeps_feedLimitsRule _ _ u).upholds) h
  | setLaw p tail => exact upholds_serve (fun _ u => (keeps_lawRule _ u).upholds) h
  | block p tail => exact upholds_serve (fun _ u => upholds_withLine fun l => (keeps_setReasons l _ u).upholds) h
  | unblock p tail => exact upholds_serve (fun _ u => upholds_withLine fun l => (keeps_setReasons l _ u).upholds) h
  | ring p tail => exact upholds_serve (fun _ u => upholds_withLine fun l => (keeps_ringRule l u).upholds) h
  | ringStop p tail => exact upholds_serve (fun _ u => upholds_withLine fun l => (keeps_ringStopRule l u).upholds) h
  | endDial p tail => exact upholds_serve (fun _ u => upholds_withLine fun l => (keeps_endDialRule l u).upholds) h
  | clearDial p tail => exact upholds_serve (fun _ u => upholds_withLine fun l => (keeps_clearDialRule l u).upholds) h
  | lockDetector p tail => exact upholds_serve (fun _ u => upholds_withLine fun l => (keeps_lockRule l u).upholds) h
  | unlockDetector p tail => exact upholds_serve (fun _ u => upholds_withLine fun l => (keeps_unlockRule l u).upholds) h
  | writeSweep p tail => exact upholds_serve (fun pl u => (keeps_writeSweepRule pl u).upholds) h
  | startSweep p tail => exact upholds_serve (fun _ u => (keeps_startSweepRule _ _ u).upholds) h
  | stopSweep p tail => exact upholds_serve (fun _ u => (keeps_stopSweepRule _ u).upholds) h
  | hold p tail => exact upholds_serve (fun _ u => upholds_withLine fun l => (keeps_holdRule l _ u).upholds) h
  | release p tail => exact upholds_serve (fun _ u => upholds_withLine fun l => (keeps_releaseRule l _ u).upholds) h
  | setTestFeed p tail => exact upholds_serve (fun _ u => upholds_withLine fun l => (keeps_testFeedRule l _ _ u).upholds) h
  | measure p tail => exact upholds_serve (fun _ u => upholds_withLine fun l => (keeps_measureRule l _ u).upholds) h
  | frameSync cycles frame => cases h; exact ((keeps_elapse cycles s).trans (keeps_judgeSync frame _)).upholds
  | flywheelUnit => exact upholds_flywheelUnit h
  | lossOfLock => exact upholds_lossOfLock h
  | freeUnit => exact upholds_freeUnit h
  | relockWindowExpiry => exact upholds_relockWindowExpiry h
  | roundStart v => exact upholds_roundStart h
  | feedStateChange => exact upholds_feedStateChange h
  | slotStart => exact upholds_slotStart h
  | loopMeasurement l it ir => exact upholds_loopMeasurement h
  | itemComplete b r1 r2 => exact upholds_itemComplete h
  | endOfPass n => exact upholds_endOfPass h
  | hangupExpiry l => exact upholds_hangupExpiry h
  | interdigitExpiry l => exact upholds_interdigitExpiry h
  | interdigitHeldSettle l => exact upholds_interdigitHeldSettle h
  | firstDigitExpiry l => exact upholds_firstDigitExpiry h
  | ringPhaseExpiry l => exact upholds_ringPhaseExpiry h
  | ringLimitExpiry l => exact upholds_ringLimitExpiry h
  | poolReview => exact upholds_poolReview h
  | toneBlockEnd d e => exact upholds_toneBlockEnd h
  | windowExpiry p => exact upholds_windowExpiry h

theorem step_upholds (h : step s = .next t) : Upholds s t := by
  unfold step at h
  split at h
  next => cases h; exact Upholds.refl s
  next rest _ => exact (keeps_pending rest s).upholds.trans (exec_upholds h)

end

/-- Settles O57, by `step_upholds`: each event is written for attached ports, and a port that leaves ATTACHED leaves every pending set. -/
theorem stepsKeepTheJournal : Obligations.StepsKeepTheJournal := fun _ _ hs h => (step_upholds h).journal hs

/-- Settles O58, by `step_upholds`: each operation on the records keeps them within their ranges. -/
theorem stepsKeepTheRecords : Obligations.StepsKeepTheRecords := fun _ _ hstore hslots hitems hranges h =>
  (step_upholds h).records ⟨hstore, hslots, hitems, hranges⟩

/-- Settles O59, by `step_upholds`: what changes a line's derived mode is followed by a recomputation of it. -/
theorem stepsKeepTheFeeds : Obligations.StepsKeepTheFeeds := fun _ _ hs h => (step_upholds h).feeds hs

/-- Settles O60, by `step_upholds`: detectors change hands with the statuses of their lines, and a freed one goes to the queue's head. -/
theorem stepsKeepThePool : Obligations.StepsKeepThePool := fun _ _ hs h => (step_upholds h).pool hs

end Sys2Proof.Machine
end

