-- ==== Sys2Proof/Proofs/Transactions.lean ====
section
/-! PROOF. Steps, encodings and the serving of requests: O1, O3 to O7, O16. -/

namespace Sys2Proof.Machine

/-! ### Steps and encodings -/

/-- Settles O1: `step` reads the queue's front and runs it on the queue's rest. -/
theorem stepTakesFront : Obligations.StepTakesFront := fun _ _ _ => rfl

/-- The bytes of a request of the table are its code and what follows it, and that code is read as the request (R185). -/
theorem row_encodes {i : Instr} {r : Row} (h : requestRow i = some r) :
    encodeRequest i = some (r.port, r.code :: r.tail) ∧ decodeCode r.port r.code r.tail = i := by
  cases i <;> cases h <;> exact ⟨rfl, rfl⟩

/-- A command that is written in bytes is in the request table, or carries its code itself (R185). -/
theorem row_of_encodes {i : Instr} {p : Port} {bytes : List Byte} (h : encodeRequest i = some (p, bytes)) :
    (∃ r, requestRow i = some r) ∨ ∃ code tail, i = .unknownCodeRequest p code tail ∧ bytes = code :: tail := by
  cases i with
  | unknownCodeRequest q code tail => cases h; exact .inr ⟨code, tail, rfl, rfl⟩
  | _ => cases h <;> exact .inl ⟨_, rfl⟩

/-- A code outside the table is read as an unknown one. -/
theorem decodeCode_unknown {code : Byte} (h : knownCode code = false) (p : Port) (tail : List Byte) :
    decodeCode p code tail = .unknownCodeRequest p code tail := by
  simp [knownCode, requestCodes] at h
  simp [decodeCode, h]

/-- Whatever a code is read as is written with that code. -/
theorem encodeRequest_decodeCode (p : Port) (code : Byte) (tail : List Byte) :
    encodeRequest (decodeCode p code tail) = some (p, code :: tail) := by
  cases h : knownCode code with
  | false => rw [decodeCode_unknown h]; rfl
  | true =>
    have hmem : code ∈ requestCodes := by simpa [knownCode] using h
    fin_cases hmem <;> rfl

/-- Settles O3: the code byte names the row, and each row's command writes its own code. -/
theorem requestsDecode : Obligations.RequestsDecode := by
  refine ⟨fun i p bytes hw h => ?_, fun i p bytes h => ?_⟩
  · rcases row_of_encodes h with ⟨r, hr⟩ | ⟨code, tail, rfl, rfl⟩
    · obtain ⟨henc, hdec⟩ := row_encodes hr
      rw [henc] at h
      cases h
      exact congrArg some hdec
    · exact congrArg some (decodeCode_unknown (by simpa [WellFormed] using hw) p tail)
  · cases bytes with
    | nil => exact absurd h nofun
    | cons code tail =>
      cases h
      exact encodeRequest_decodeCode p code tail

/-- Two bytes, most significant first, are read as the number they were written from (R196). -/
theorem byteOf_pair {x : Nat} (hx : x < 65536) : (byteOf (x / 256)).toNat * 256 + (byteOf x).toNat = x := by
  rw [byteOf_toNat, byteOf_toNat]
  omega

@[simp] theorem bytes2_length (n : Nat) : (bytes2 n).length = 2 := rfl

@[simp] theorem signed2_length (x : Int) : (signed2 x).length = 2 := rfl

@[simp] theorem bytes3_length (n : Nat) : (bytes3 n).length = 3 := rfl

theorem profileForm_length (p : Profile) : (profileForm p).length = 50 := by
  unfold profileForm
  simp only [List.length_append, bytes2_length, List.length_cons, List.length_nil]

/-- Settles O4: each field stands at its place of the form, in one byte or in two. -/
theorem profileFormsDecode : Obligations.ProfileFormsDecode := by
  intro p h
  refine ⟨profileForm_length p, ?_⟩
  simp only [numericFields, List.forall_mem_cons] at h
  obtain ⟨h0, h1, h2, h3, h4, h5, h6, h7, h8, h9, h10, h11, h14, h15, h16, h17, h18, h19, h20, h21, h22, h23, h24, -⟩ := h
  unfold profileForm bytes2 profileOf word2
  simp only [List.cons_append, List.nil_append, List.getD_cons_succ, List.getD_cons_zero, dialMethodOf_byteOf, yesOf_byteOf, byteOf_pair h0,
    byteOf_pair h1, byteOf_pair h2, byteOf_pair h3, byteOf_pair h4, byteOf_pair h5, byteOf_pair h6, byteOf_pair h7, byteOf_pair h8,
    byteOf_pair h9, byteOf_pair h10, byteOf_pair h11, byteOf_pair h14, byteOf_pair h15, byteOf_pair h16, byteOf_pair h17, byteOf_pair h18,
    byteOf_pair h19, byteOf_pair h20, byteOf_pair h21, byteOf_pair h22, byteOf_pair h23, byteOf_pair h24]

/-! ### Transactions -/

/-- A request of the table is served with its row's code, length and ports (R185). -/
theorem exec_of_row {i : Instr} {r : Row} (h : requestRow i = some r) :
    r.len ≤ 62 ∧ (openCode r.code = true → r.code = 0x00 ∨ r.code = 0x01 ∨ r.code = 0x06) ∧
      ∃ body, ∀ s, exec i s = serve r.port r.code r.len r.access r.tail body s := by
  have hopen : openCode r.code = true → r.code = 0x00 ∨ r.code = 0x01 ∨ r.code = 0x06 := by simp [openCode, or_assoc]
  refine ⟨?_, hopen, ?_⟩
  · cases i <;> cases h <;> simp
  · cases i <;> cases h <;> exact ⟨_, fun _ => rfl⟩

/-- A request that names a line checks its line byte before anything else (R1). -/
theorem exec_of_line_row {i : Instr} {r : Row} (h : requestRow i = some r)
    (hcode : r.code ∈ ([0x13, 0x14, 0x15, 0x16, 0x20, 0x21, 0x22, 0x23, 0x24, 0x25, 0x26, 0x27, 0x40, 0x41, 0x42, 0x43] : List Byte)) :
    ∃ f : List Byte → State → LineNo → Reply, ∀ s,
      exec i s = serve r.port r.code r.len r.access r.tail (fun pl s => withLine (arg pl 0) s (f pl s)) s := by
  cases i <;> cases h
  case writeOverride p tail => exact ⟨fun pl s l => writeOverrideRule p l (arg pl 1) s, fun _ => rfl⟩
  case setSubscription => exact ⟨fun pl s l => subscriptionRule l (arg pl 1) s, fun _ => rfl⟩
  case setTimeslot => exact ⟨fun pl s l => timeslotRule l (arg pl 1) s, fun _ => rfl⟩
  case readLine => exact ⟨fun _ s l => ⟨.ok, lineReport l s, s⟩, fun _ => rfl⟩
  case block => exact ⟨fun _ s l => accept (setReasons l { (s.line l).reasons with controller := true } s), fun _ => rfl⟩
  case unblock => exact ⟨fun _ s l => accept (setReasons l { (s.line l).reasons with controller := false } s), fun _ => rfl⟩
  case ring => exact ⟨fun _ s l => ringRule l s, fun _ => rfl⟩
  case ringStop => exact ⟨fun _ s l => ringStopRule l s, fun _ => rfl⟩
  case endDial => exact ⟨fun _ s l => endDialRule l s, fun _ => rfl⟩
  case clearDial => exact ⟨fun _ s l => clearDialRule l s, fun _ => rfl⟩
  case lockDetector => exact ⟨fun _ s l => lockRule l s, fun _ => rfl⟩
  case unlockDetector => exact ⟨fun _ s l => unlockRule l s, fun _ => rfl⟩
  case hold => exact ⟨fun pl s l => holdRule l (arg pl 1) s, fun _ => rfl⟩
  case release => exact ⟨fun pl s l => releaseRule l (arg pl 1) s, fun _ => rfl⟩
  case setTestFeed => exact ⟨fun pl s l => testFeedRule l (arg pl 1) (arg pl 2) s, fun _ => rfl⟩
  case measure => exact ⟨fun pl s l => measureRule l (arg pl 1) s, fun _ => rfl⟩
  all_goals exact absurd hcode (by simp)

/-- A request that its judgement refuses, in the state its data out was recorded in, is answered so and has no effect (R185). -/
theorem serve_deny {p : Port} {code : Byte} {len : Nat} {a : Access} {tail : List Byte} {body : List Byte → State → Reply} {s : State}
    {st : Status} (h : ∀ u : State, u.attached p = s.attached p → judge p code len a tail body u = deny st u) :
    serve p code len a tail body s = .next (answered p code st [] (tail.length + 1) s) := by
  unfold serve
  rw [h _ (attached_recordOut _ _ _ _)]
  rfl

/-- Settles O5: the judgement of R185, step by step. -/
theorem malformedRequestsAreRefused : Obligations.MalformedRequestsAreRefused := by
  refine ⟨fun p code tail s h => ?_, fun i r s hr => ?_⟩
  · change execUnknownCodeRequest p code tail s = _
    rw [execUnknownCodeRequest, h]
    rfl
  · obtain ⟨h62, hopen, body, hexec⟩ := exec_of_row hr
    refine ⟨fun hbad => ?_, fun hgood hperm => ?_, fun hgood hperm hatt h0 h1 h6 => ?_⟩ <;> rw [hexec] <;> refine serve_deny fun u hu => ?_ <;>
      unfold judge
    · rw [framePayload_none h62 hbad]
    · obtain ⟨pl, hpl, -⟩ := framePayload_some h62 hgood
      rw [hpl]
      exact if_pos hperm
    · obtain ⟨pl, hpl, -⟩ := framePayload_some h62 hgood
      have hclosed : openCode r.code = false := by
        by_contra hc
        rcases hopen (by simpa using hc) with h | h | h
        · exact h0 h
        · exact h1 h
        · exact h6 h
      rw [hpl]
      simp [hperm, hu, hatt, hclosed]

/-- Settles O16: the line byte is the first thing a request that names a line looks at. -/
theorem badLinesAreRefused : Obligations.BadLinesAreRefused := by
  intro i r b rest fill s hr hcode htail hlen hb hadm
  obtain ⟨h62, -, -⟩ := exec_of_row hr
  obtain ⟨f, hexec⟩ := exec_of_line_row hr hcode
  rw [hexec, htail]
  refine serve_deny fun u hu => ?_
  unfold judge
  rw [framePayload_frameTail (b :: rest) fill hlen h62]
  simp [hadm.1, hu, hadm.2, withLine_bad hb]

/-- The bytes of data out: those of the response while it lasts and the 64th is not passed, then 0x00 (R184). -/
theorem shiftOut_get (response : List Byte) {n k : Nat} (h : k < n) :
    (shiftOut response n)[k]? = some (if k < 64 then response.getD k 0 else 0) := by
  have htake : (response.take 64).getD k 0 = if k < 64 then response.getD k 0 else 0 := by
    simp only [List.getD_eq_getElem?_getD, List.getElem?_take]
    split <;> rfl
  simp only [shiftOut, padTo, Config.transactionMax, List.getElem?_map, List.getElem?_range h, Option.map_some, htake]

/-- Settles O6: the port's buffer and its data out are replaced, and nothing else. -/
theorem transactionsExchangeBuffers : Obligations.TransactionsExchangeBuffers := by
  intro p code st payload n s t
  have hself : t.port p = { s.port p with
      dataOut := shiftOut (s.port p).response n, response := statusByte st :: code :: byteOf payload.length :: payload } := by
    simp [t, answered]
  refine ⟨by rw [hself], by rw [hself]; simp [shiftOut, padTo], fun k hk => by rw [hself]; exact shiftOut_get _ hk, by rw [hself],
    fun q hq => by simp [t, answered, hq], ?_, ?_⟩
  · cases p <;> rfl
  · cases p <;> rfl

/-! ### Reads -/

/-- A request that its rule answers without an effect. -/
theorem serve_report {p : Port} {code : Byte} {len : Nat} {a : Access} {payload fill report : List Byte} {body : List Byte → State → Reply}
    {s : State} {st : Status} (hlen : payload.length = len) (h62 : len ≤ 62) (hp : permitted p a = true)
    (ha : s.attached p = true ∨ openCode code = true)
    (hbody : body payload (recordOut p (frameBytes payload fill) s) = ⟨st, report, recordOut p (frameBytes payload fill) s⟩) :
    serve p code len a (frameTail payload fill) body s = .next (answered p code st report (frameBytes payload fill) s) := by
  rw [serve_rule payload fill body hlen h62 hp ha, hbody]
  rfl

/-- Settles O7: the reports have their lengths, and their rules leave the state as it is. -/
theorem readsChangeNothing : Obligations.ReadsChangeNothing := by
  refine ⟨fun p n l s => ⟨by simp [statusReport], profileForm_length _, by simp [lineReport, faultKinds]⟩, fun p fill s => ⟨?_, ?_, fun b hatt => ⟨?_, ?_, ?_, ?_⟩⟩⟩
  · exact serve_report rfl (by decide) rfl (.inr rfl) rfl
  · refine serve_report rfl (by decide) rfl (.inr rfl) ?_
    rw [statusReport_recordOut]
  · rintro n rfl
    refine serve_report rfl (by decide) rfl (.inl hatt) ?_
    simp [readProfileRule, profileNoOf_byteOf]
  · intro hb
    refine serve_report rfl (by decide) rfl (.inl hatt) ?_
    simp [readProfileRule, profileNoOf_none b hb, deny]
  · rintro l rfl
    refine serve_report rfl (by decide) rfl (.inl hatt) ?_
    simp only [arg_cons_zero, withLine_line, lineReport_recordOut]
  · intro hb
    refine serve_report rfl (by decide) rfl (.inl hatt) ?_
    simp only [arg_cons_zero, withLine_bad hb, deny]

end Sys2Proof.Machine
end

