-- ==== Sys2Proof/Proofs/EveryCommand.lean ====
section
/-! PROOF. Reset, and the queue of waiting commands through every command: O56, O2. -/

namespace Sys2Proof.Machine

/-! ### Reset -/

theorem effectiveNo_reset (l : LineNo) : State.reset.effectiveNo l = 0 := by
  have hover : State.reset.store.overrides[l] = none := by simp [State.reset, resetStore]
  have hnone : State.reset.store.ranges.toList.find? (fun r => covers r l) = none := by
    rw [List.find?_eq_none]
    intro r hr
    have : r = ⟨0, 63, 0, false⟩ := by
      simp only [State.reset, resetStore, Vector.toList_replicate] at hr
      exact (List.mem_replicate.mp hr).2
    simp [this, covers]
  rw [State.effectiveNo, hover]
  dsimp only
  rw [hnone]

theorem resetLink_get (k : Fin 32) : resetLink[k.val]? = some ⟨k, .normal, .none⟩ := by simp [resetLink]

/-- The queue of waiting commands is in no derived mode. -/
theorem derivedMode_pending (q : List Instr) (s : State) (l : LineNo) : ({ s with pending := q } : State).derivedMode l = s.derivedMode l :=
  derivedMode_congr (s := s) (SameFeed.refl _) rfl rfl

/-- Settles O56, by the fields of the reset state and the invariants there. -/
theorem resetLeavesTheResetValues : Obligations.ResetLeavesTheResetValues := by
  intro s
  have hkept := (keeps_pending s.pending State.reset).upholds
  obtain ⟨hstore, hslots, hitems, hranges⟩ := hkept.records recordsOk_reset
  refine ⟨{ State.reset with pending := s.pending }, rfl, rfl, line_reset, profile_reset, range_reset, fun l => ?_, det_reset, rfl, rfl,
    fun n => ?_, rfl, shadow_reset, rfl, rfl, rfl, rfl, fun p => ?_, ?_, resetLink_get, rfl, fun l => ⟨effectiveNo_reset l, ?_⟩,
    hkept.journal journalOk_reset, hstore, hslots, hitems, hranges, hkept.feeds feedsFollow_reset, hkept.pool poolAgrees_reset⟩
  · simp [State.reset, resetStore]
  · simp [State.sw, State.reset, resetSweepUnit, resetSweep]
  · cases p <;> rfl
  · simp [State.reset, resetLink]
  · rw [derivedMode_pending, derivedMode_reset]

/-! ### The queue of waiting commands -/

section
variable (s : State)

/-- What each operation of a list leaves in the queue, all of them leave. -/
theorem foldl_pending {α : Type} {f : State → α → State} (hf : ∀ s a, (f s a).pending = s.pending) (as : List α) :
    (as.foldl f s).pending = s.pending := by
  induction as generalizing s with
  | nil => rfl
  | cons a as ih => exact (ih _).trans (hf s a)

theorem forLines_pending {f : LineNo → State → State} (hf : ∀ l s, (f l s).pending = s.pending) (ls : List LineNo) :
    (forLines ls f s).pending = s.pending := foldl_pending s (fun s l => hf l s) ls

@[simp] theorem countAll_pending (l : LineNo) (time : Time) (os : List (FaultKind × Verdict)) :
    (countAll l time os s).pending = s.pending := foldl_pending s (fun _ _ => countOne_pending ..) os

@[simp] theorem countGroup_pending (l : LineNo) (time : Time) (os : List (FaultKind × Verdict)) :
    (countGroup l time os s).pending = s.pending := by
  have hall : (os.foldl (fun s o => countOne l time o s) s).pending = s.pending := countAll_pending s l time os
  unfold countGroup
  dsimp only
  split_ifs <;> simp [hall]

@[simp] theorem decimate_pending (l : LineNo) (ovr : Bool) (im il : Int) (t : Time) : (decimate l ovr im il t s).pending = s.pending := by
  unfold decimate
  dsimp only
  split <;> simp

@[simp] theorem evaluate_pending (l : LineNo) (m : LoopSlot) (it ir : Int) : (evaluate l m it ir s).pending = s.pending := by
  unfold evaluate evaluateValid
  dsimp only
  split_ifs <;> simp

@[simp] theorem requestOffer_pending (fuel : Nat) (begun ended : List SweepNo) :
    (requestOffer fuel begun ended s).pending = s.pending :=
  requestOffer_keeps (P := fun u => u.pending = s.pending) (fun _ _ h _ => h) (fun n u h _ => (skipVisit_pending n u).trans h)
    (fun n u h _ => (endPass_pending n u).trans h) (fun _ _ _ _ h _ => h) fuel begun ended s rfl

@[simp] theorem askOffer_pending : (askOffer s).pending = s.pending := by
  unfold askOffer
  dsimp only
  split <;> simp

@[simp] theorem wantOffer_pending : (wantOffer s).pending = s.pending := by
  unfold wantOffer
  split
  · rfl
  · split <;> simp

@[simp] theorem stopSweep_pending (n : SweepNo) : (stopSweep n s).pending = s.pending := by
  unfold stopSweep
  dsimp only
  split_ifs <;> simp

@[simp] theorem sweepsFollow_pending (f : FeedState) : (sweepsFollow f s).pending = s.pending := by
  unfold sweepsFollow
  split
  · exact foldl_pending s (fun s n => resumeSweep_pending n s) _
  · exact foldl_pending s (fun s n => pauseSweep_pending n s) _

@[simp] theorem dropService_pending (l : LineNo) : (dropService l s).pending = s.pending := by simp [dropService]

@[simp] theorem loseLine_pending (l : LineNo) : (loseLine l s).pending = s.pending := by
  unfold loseLine
  split <;> simp

@[simp] theorem restartLine_pending (l : LineNo) : (restartLine l s).pending = s.pending := by
  unfold restartLine
  split <;> simp

@[simp] theorem feedLines_pending (a b : FeedState) : (feedLines a b s).pending = s.pending := by
  unfold feedLines
  split_ifs
  · exact forLines_pending s (fun l u => loseLine_pending u l) _
  · exact forLines_pending s (fun l u => restartLine_pending u l) _
  · rfl

@[simp] theorem changeFeed_pending (c : FeedChange) : (changeFeed c s).pending = s.pending := by simp [changeFeed]

@[simp] theorem emitUnit_pending (k : UnitKind) : (emitUnit k s).pending = s.pending := rfl

@[simp] theorem advance_pending (c : Nat) : (advance c s).pending = s.pending := rfl

@[simp] theorem applyTbEvent_pending (e : TbEvent) : (applyTbEvent e s).pending = s.pending := by
  cases e with
  | flywheel => rfl
  | loss => simp [applyTbEvent, loseLock]
  | free => rfl
  | relockExpiry => rfl

@[simp] theorem elapseWith_pending (fuel c : Nat) : (elapseWith fuel c s).pending = s.pending := by
  induction fuel generalizing c s with
  | zero => rfl
  | succ fuel ih =>
    unfold elapseWith
    split <;> simp [ih]

@[simp] theorem elapse_pending (c : Nat) : (elapse c s).pending = s.pending := elapseWith_pending ..

@[simp] theorem runTo_pending (e : TbEvent) (d : Nat) : (runTo e d s).pending = s.pending := by
  unfold runTo
  split <;> simp

@[simp] theorem judgeSync_pending (frame : Vector Byte 128) : (judgeSync frame s).pending = s.pending := by
  unfold judgeSync freeSync relock goodSync
  dsimp only
  split
  · split <;> simp
  · split_ifs <;> simp

@[simp] theorem seeBank_pending (b : Bank) : (seeBank b s).pending = s.pending := by
  unfold seeBank
  split <;> simp

@[simp] theorem issueItem_pending (l : LineNo) (k : ItemKind) (o : Origin) (slot : Nat) : (issueItem l k o slot s).pending = s.pending := by
  simp [issueItem]

@[simp] theorem takeTestItem_pending (rest : List TestItem) : (takeTestItem rest s).pending = s.pending := rfl

@[simp] theorem issueOffer_pending (o : Offer) (slot : Nat) : (issueOffer o slot s).pending = s.pending := by simp [issueOffer]

@[simp] theorem issueLoop_pending (slot fuel : Nat) : (issueLoop slot fuel s).pending = s.pending := by
  induction fuel generalizing s with
  | zero => rfl
  | succ fuel ih =>
    unfold issueLoop
    dsimp only
    split
    · split
      · rfl
      · split <;> simp [ih]
    · split
      · simp
      · split <;> simp [ih]

@[simp] theorem startLoop_pending (k : Nat) (l : LineNo) : (startLoop k l s).pending = s.pending := by
  unfold startLoop
  split <;> simp

@[simp] theorem fixTestPart_pending (k : Nat) : (fixTestPart k s).pending = s.pending := by
  unfold fixTestPart
  split <;> rfl

@[simp] theorem startSlot_pending (k : Nat) : (startSlot k s).pending = s.pending := by
  unfold startSlot
  split
  · exact forLines_pending s (fun l u => startLoop_pending u k l) _
  · simp

@[simp] theorem remakeSlot_pending (l : LineNo) : (remakeSlot l s).pending = s.pending := by
  have h := congrArg State.pending (remakeSlot_frame l s)
  exact h

@[simp] theorem completeItem_pending (b : Bank) (i : Item) (r1 r2 : Int) : (completeItem b i r1 r2 s).pending = s.pending := by
  unfold completeItem handOnItem
  split
  · simp
  · split <;> simp

@[simp] theorem reviewPool_pending : (reviewPool s).pending = s.pending := by
  unfold reviewPool
  split
  · rfl
  · split
    · simp [evictDet]
    · rfl

@[simp] theorem takeBlockEnd_pending (d : DetNo) (l : LineNo) (b : EndedBlock) (e : Energies) : (takeBlockEnd d l b e s).pending = s.pending := by
  unfold takeBlockEnd takeDecidedBlock
  dsimp only
  split
  · rfl
  · split <;> simp

@[simp] theorem writeStore_pending (w : Port) (i : StoreItem) (x : Store) : (writeStore w i x s).pending = s.pending := by
  have hline : ∀ l u, (recomputeAutoBlock s { s with store := x } l u).pending = u.pending := fun l u => by
    unfold recomputeAutoBlock
    split <;> simp
  exact (forLines_pending _ hline _).trans (deviceEvent_pending ..)

@[simp] theorem loseTestPort_pending : (loseTestPort s).pending = s.pending := by
  have hline : ∀ l (u : State), (if (u.line l).state = .held then releaseLine l .restore .lapse u else u).pending = u.pending := fun l u => by
    split <;> simp
  exact (forLines_pending _ hline _).trans rfl

@[simp] theorem leaveTest_pending (p : Port) : (leaveTest p s).pending = s.pending := by
  cases p <;> simp [leaveTest]

@[simp] theorem takeover_pending (p q : Port) : (takeover p q s).pending = s.pending := by
  have hmove : ∀ ls, (forLines ls (fun l s => s.modLine l fun r => { r with subscription := onlySubscription q }) s).pending = s.pending :=
    fun ls => forLines_pending s (fun l u => State.modLine_pending u l _) ls
  unfold takeover
  dsimp only
  split <;> simp [hmove]

@[simp] theorem lapsePort_pending (p : Port) : (lapsePort p s).pending = s.pending := by
  have htake : ∀ u : State, (takeoverStep p u).pending = u.pending := fun u => by
    unfold takeoverStep
    split
    · split <;> simp
    · rfl
  have htest : ∀ u : State, (lapseTest p u).pending = u.pending := fun u => by
    cases p with
    | a => rfl
    | b => rfl
    | t => exact (forLines_pending _ (fun l v => remakeSlot_pending v l) _).trans (loseTestPort_pending u)
  exact (htest _).trans ((htake _).trans (leavePort_pending ..))

/-! ### Every command runs -/

/-- A command's outcome is a next state with the queue as it was. -/
def Runs (x : Host.Outcome State Fault Refusal) (s : State) : Prop := ∃ t, x = .next t ∧ t.pending = s.pending

variable {s}

theorem runs_next {t : State} (h : t.pending = s.pending) : Runs (.next t) s := ⟨t, rfl, h⟩

theorem runs_ite {b : Prop} [Decidable b] {x y : Host.Outcome State Fault Refusal} (hx : Runs x s) (hy : Runs y s) :
    Runs (if b then x else y) s := by
  split
  · exact hx
  · exact hy

theorem runs_serve {p : Port} {code : Byte} {len : Nat} {a : Access} {tail : List Byte} {body : List Byte → State → Reply}
    (hbody : ∀ pl u, (body pl u).state.pending = u.pending) : Runs (serve p code len a tail body s) s := by
  have hjudge : ∀ u, (judge p code len a tail body u).state.pending = u.pending := by
    intro u
    unfold judge
    split
    · rfl
    · split_ifs
      · rfl
      · rfl
      · exact hbody _ u
  exact ⟨_, rfl, (respond_pending ..).trans ((hjudge _).trans (recordOut_pending ..))⟩

theorem withLine_pending {b : Byte} {f : LineNo → Reply} (hf : ∀ l, (f l).state.pending = s.pending) :
    (withLine b s f).state.pending = s.pending := by
  unfold withLine
  split
  · exact hf _
  · rfl

end

section
variable {s : State}

theorem attachRule_pending (p : Port) (n : Nat) (b : Byte) (s : State) : (attachRule p n b s).state.pending = s.pending := by
  unfold attachRule takeAttach
  split <;> simp

theorem keepaliveRule_pending (p : Port) (b : Byte) (s : State) : (keepaliveRule p b s).state.pending = s.pending := by
  unfold keepaliveRule
  split
  · rfl
  · split <;> simp

theorem readEventsRule_pending (p : Port) (b : Byte) (s : State) : (readEventsRule p b s).state.pending = s.pending := by
  unfold readEventsRule readEvents
  split <;> simp

theorem alertMaskRule_pending (p : Port) (b : Byte) (s : State) : (alertMaskRule p b s).state.pending = s.pending := by
  unfold alertMaskRule
  split <;> simp

theorem writeProfileRule_pending (p : Port) (pl : List Byte) (s : State) : (writeProfileRule p pl s).state.pending = s.pending := by
  unfold writeProfileRule
  dsimp only
  split
  · split <;> simp
  · rfl

theorem writeRangeRule_pending (p : Port) (pl : List Byte) (s : State) : (writeRangeRule p pl s).state.pending = s.pending := by
  unfold writeRangeRule
  split <;> simp

theorem writeOverrideRule_pending (p : Port) (l : LineNo) (b : Byte) (s : State) : (writeOverrideRule p l b s).state.pending = s.pending := by
  unfold writeOverrideRule
  split <;> simp

theorem subscriptionRule_pending (l : LineNo) (b : Byte) (s : State) : (subscriptionRule l b s).state.pending = s.pending := by
  unfold subscriptionRule
  split <;> simp

theorem timeslotRule_pending (l : LineNo) (b : Byte) (s : State) : (timeslotRule l b s).state.pending = s.pending := by
  unfold timeslotRule takeSlot
  split
  · rfl
  · simp
  · split
    · rfl
    · dsimp only [accept_state]
      split
      · rfl
      · split <;> simp

theorem feedLimitsRule_pending (a b : Nat) (s : State) : (feedLimitsRule a b s).state.pending = s.pending := by
  unfold feedLimitsRule
  dsimp only
  split <;> rfl

theorem lawRule_pending (b : Byte) (s : State) : (lawRule b s).state.pending = s.pending := by
  unfold lawRule
  split <;> simp

theorem ringRule_pending (l : LineNo) (s : State) : (ringRule l s).state.pending = s.pending := by
  unfold ringRule
  split_ifs <;> simp

theorem ringStopRule_pending (l : LineNo) (s : State) : (ringStopRule l s).state.pending = s.pending := by
  unfold ringStopRule
  split <;> simp

theorem endDialRule_pending (l : LineNo) (s : State) : (endDialRule l s).state.pending = s.pending := by
  unfold endDialRule
  split <;> simp

theorem clearDialRule_pending (l : LineNo) (s : State) : (clearDialRule l s).state.pending = s.pending := by
  unfold clearDialRule
  split <;> simp

theorem lockFree_pending (l : LineNo) (s : State) : (lockFree l s).state.pending = s.pending := by
  unfold lockFree
  split
  · dsimp only
    split <;> simp
  · rfl

theorem lockRule_pending (l : LineNo) (s : State) : (lockRule l s).state.pending = s.pending := by
  unfold lockRule
  split
  · rfl
  · split
    · rfl
    · split
      · rfl
      · split <;> rfl
      · split
        · rfl
        · exact lockFree_pending l s
      · split
        · rfl
        · exact lockFree_pending l s

theorem unlockRule_pending (l : LineNo) (s : State) : (unlockRule l s).state.pending = s.pending := by
  unfold unlockRule
  split
  · dsimp only [accept_state]
    split
    · rfl
    · simp
  all_goals rfl

theorem writeSweepRule_pending (pl : List Byte) (s : State) : (writeSweepRule pl s).state.pending = s.pending := by
  unfold writeSweepRule
  split
  · split
    · rfl
    · split <;> rfl
  · rfl

theorem startSweepRule_pending (a b : Byte) (s : State) : (startSweepRule a b s).state.pending = s.pending := by
  unfold startSweepRule
  split
  · split <;> rfl
  · rfl

theorem stopSweepRule_pending (b : Byte) (s : State) : (stopSweepRule b s).state.pending = s.pending := by
  unfold stopSweepRule
  split <;> simp

theorem holdRule_pending (l : LineNo) (b : Byte) (s : State) : (holdRule l b s).state.pending = s.pending := by
  unfold holdRule
  split
  · rfl
  · split
    · rfl
    · split
      · rfl
      · split <;> simp

theorem releaseRule_pending (l : LineNo) (b : Byte) (s : State) : (releaseRule l b s).state.pending = s.pending := by
  unfold releaseRule
  split
  · rfl
  · split <;> simp

theorem testFeedRule_pending (l : LineNo) (a b : Byte) (s : State) : (testFeedRule l a b s).state.pending = s.pending := by
  unfold testFeedRule
  split
  · rfl
  · split <;> simp

theorem measureRule_pending (l : LineNo) (b : Byte) (s : State) : (measureRule l b s).state.pending = s.pending := by
  unfold measureRule
  split
  · rfl
  · split_ifs <;> rfl

/-- Settles O2: each arm answers `.next`, and no operation touches the queue. -/
theorem everyCommandRuns : Obligations.EveryCommandRuns := by
  intro c s
  change Runs (exec c s) s
  have here : Runs (.next s) s := runs_next rfl
  cases c with
  | reset => exact runs_next rfl
  | nop p tail => exact runs_serve fun _ _ => rfl
  | unknownCodeRequest p code tail => exact runs_ite here (runs_next (by simp))
  | attach p tail => exact runs_serve fun _ u => attachRule_pending p _ _ u
  | detach p tail => exact runs_serve fun _ u => by simp
  | keepalive p tail => exact runs_serve fun _ u => keepaliveRule_pending p _ u
  | readEvents p tail => exact runs_serve fun _ u => readEventsRule_pending p _ u
  | setAlertMask p tail => exact runs_serve fun _ u => alertMaskRule_pending p _ u
  | readStatus p tail => exact runs_serve fun _ _ => rfl
  | writeProfile p tail => exact runs_serve fun pl u => writeProfileRule_pending p pl u
  | readProfile p tail => exact runs_serve fun _ u => by rw [readProfileRule_state]
  | writeRange p tail => exact runs_serve fun pl u => writeRangeRule_pending p pl u
  | writeOverride p tail => exact runs_serve fun _ u => withLine_pending fun l => writeOverrideRule_pending p l _ u
  | setSubscription p tail => exact runs_serve fun _ u => withLine_pending fun l => subscriptionRule_pending l _ u
  | setTimeslot p tail => exact runs_serve fun _ u => withLine_pending fun l => timeslotRule_pending l _ u
  | readLine p tail => exact runs_serve fun _ _ => withLine_pending fun _ => rfl
  | setFeedLimits p tail => exact runs_serve fun _ u => feedLimitsRule_pending _ _ u
  | setLaw p tail => exact runs_serve fun _ u => lawRule_pending _ u
  | block p tail => exact runs_serve fun _ u => withLine_pending fun l => setReasons_pending l _ u
  | unblock p tail => exact runs_serve fun _ u => withLine_pending fun l => setReasons_pending l _ u
  | ring p tail => exact runs_serve fun _ u => withLine_pending fun l => ringRule_pending l u
  | ringStop p tail => exact runs_serve fun _ u => withLine_pending fun l => ringStopRule_pending l u
  | endDial p tail => exact runs_serve fun _ u => withLine_pending fun l => endDialRule_pending l u
  | clearDial p tail => exact runs_serve fun _ u => withLine_pending fun l => clearDialRule_pending l u
  | lockDetector p tail => exact runs_serve fun _ u => withLine_pending fun l => lockRule_pending l u
  | unlockDetector p tail => exact runs_serve fun _ u => withLine_pending fun l => unlockRule_pending l u
  | writeSweep p tail => exact runs_serve fun pl u => writeSweepRule_pending pl u
  | startSweep p tail => exact runs_serve fun _ u => startSweepRule_pending _ _ u
  | stopSweep p tail => exact runs_serve fun _ u => stopSweepRule_pending _ u
  | hold p tail => exact runs_serve fun _ u => withLine_pending fun l => holdRule_pending l _ u
  | release p tail => exact runs_serve fun _ u => withLine_pending fun l => releaseRule_pending l _ u
  | setTestFeed p tail => exact runs_serve fun _ u => withLine_pending fun l => testFeedRule_pending l _ _ u
  | measure p tail => exact runs_serve fun _ u => withLine_pending fun l => measureRule_pending l _ u
  | frameSync cycles frame => exact runs_next (by simp)
  | flywheelUnit => exact runs_ite (runs_next (by simp)) here
  | lossOfLock => exact runs_ite (runs_next (by simp)) here
  | freeUnit => exact runs_ite (runs_next (by simp)) here
  | relockWindowExpiry => exact runs_ite (runs_next (by simp)) here
  | roundStart v => exact runs_ite (runs_next rfl) (runs_ite (runs_next rfl) here)
  | feedStateChange =>
    change Runs (execFeedStateChange s) s
    unfold execFeedStateChange
    split
    · exact runs_next (by simp)
    · exact here
  | slotStart => exact runs_ite (runs_next (by simp)) here
  | loopMeasurement l it ir =>
    change Runs (execLoopMeasurement l it ir s) s
    unfold execLoopMeasurement
    split
    · exact runs_next (by simp)
    · exact here
  | itemComplete b r1 r2 =>
    change Runs (execItemComplete b r1 r2 s) s
    unfold execItemComplete
    split
    · exact runs_ite (runs_next (by simp)) here
    · exact here
  | endOfPass n => exact runs_ite (runs_next (by simp)) here
  | hangupExpiry l =>
    change Runs (execHangupExpiry l s) s
    unfold execHangupExpiry
    split
    · exact runs_ite (runs_next (by simp)) here
    · exact here
  | interdigitExpiry l =>
    change Runs (execInterdigitExpiry l s) s
    unfold execInterdigitExpiry
    split
    · exact runs_ite (runs_ite (runs_next (by simp)) (runs_next (by simp))) here
    · exact here
  | interdigitHeldSettle l =>
    change Runs (execInterdigitHeldSettle l s) s
    unfold execInterdigitHeldSettle
    split
    · exact runs_ite (runs_next (by simp)) here
    · exact here
  | firstDigitExpiry l =>
    change Runs (execFirstDigitExpiry l s) s
    unfold execFirstDigitExpiry
    split
    · exact runs_ite (runs_next (by simp)) here
    · exact here
  | ringPhaseExpiry l =>
    change Runs (execRingPhaseExpiry l s) s
    unfold execRingPhaseExpiry
    split
    · exact runs_ite (runs_next (by simp)) here
    · exact here
  | ringLimitExpiry l =>
    change Runs (execRingLimitExpiry l s) s
    unfold execRingLimitExpiry
    split
    · exact runs_ite (runs_next (by simp)) here
    · exact here
  | poolReview => exact runs_ite (runs_next (by simp)) here
  | toneBlockEnd d e =>
    change Runs (execToneBlockEnd d e s) s
    unfold execToneBlockEnd
    split
    · exact runs_next (by simp)
    · exact here
  | windowExpiry p => exact runs_ite (runs_next (by simp)) here

end
end Sys2Proof.Machine
end

