-- ==== Sys2Proof/Proofs/SettingRequests.lean ====
section
/-! PROOF. Requests that replace a setting: the phase and the mask of a port, profiles, ranges, overrides, subscription, law, limits, timeslot. -/

namespace Sys2Proof.Machine

/-! ### What a request that its rule takes leaves -/

/-- A request is answered with what its rule answers, and leaves the rule's effect on the state before the transaction, when that effect
commutes with the recording of data out. -/
theorem serve_effect {p : Port} {code : Byte} {len : Nat} {a : Access} {payload fill report : List Byte} {body : List Byte → State → Reply}
    {s u : State} {st : Status} (hlen : payload.length = len) (h62 : len ≤ 62) (hp : permitted p a = true)
    (ha : s.attached p = true ∨ openCode code = true)
    (hbody : body payload (recordOut p (frameBytes payload fill) s) = ⟨st, report, recordOut p (frameBytes payload fill) u⟩) :
    serve p code len a (frameTail payload fill) body s = .next (answered p code st report (frameBytes payload fill) u) := by
  rw [serve_rule payload fill body hlen h62 hp ha, hbody]
  rfl

/-- A request on a line is answered by its rule for that line (R1). -/
theorem serve_line {p : Port} {code : Byte} {len : Nat} {a : Access} (l : LineNo) {rest fill report : List Byte}
    {rule : List Byte → State → LineNo → Reply} {s u : State} {st : Status} (hlen : rest.length + 1 = len) (h62 : len ≤ 62)
    (hadm : Admits p a s)
    (hrule : rule (byteOf l.val :: rest) (recordOut p (frameBytes (byteOf l.val :: rest) fill) s) l =
      ⟨st, report, recordOut p (frameBytes (byteOf l.val :: rest) fill) u⟩) :
    serve p code len a (frameTail (byteOf l.val :: rest) fill) (fun pl s => withLine (arg pl 0) s (rule pl s)) s =
      .next (answered p code st report (frameBytes (byteOf l.val :: rest) fill) u) := by
  refine serve_effect hlen h62 hadm.1 (.inl hadm.2) ?_
  simp only [arg_cons_zero, withLine_line, hrule]

/-- A change of the port's own record, its buffers apart, commutes with the recording of data out. -/
theorem setPort_recordOut (p : Port) (n : Nat) (s : State) (f : PortRec → PortRec)
    (h : ∀ r d, f { r with dataOut := d } = { f r with dataOut := d }) (hr : ∀ r, (f r).response = r.response) :
    (recordOut p n s).setPort p (f ((recordOut p n s).port p)) = recordOut p n (s.setPort p (f (s.port p))) := by
  rw [port_recordOut_self, h]
  cases p <;> simp only [recordOut, State.setPort, State.port, hr]

/-! ### KEEPALIVE and the alert mask -/

/-- Settles O12, by the phase byte. -/
theorem keepaliveAlternates : Obligations.KeepaliveAlternates := by
  intro p b fill s hatt n c flipped
  have yes : ∀ x : Bool, b.toNat = yesCode x → yesOf b = some x := by
    intro x hx
    rw [← yesOf_byteOf x, ← hx]
    simp [byteOf]
  refine ⟨fun hb => serve_effect rfl (by decide) rfl (.inl hatt) ?_, fun hb => serve_effect rfl (by decide) rfl (.inl hatt) ?_,
    fun hb => serve_effect rfl (by decide) rfl (.inl hatt) ?_⟩
  · simp [keepaliveRule, yesOf_none b hb, deny]
  · have h := setPort_recordOut p n s (keptAlive s.now) (fun _ _ => rfl) (fun _ => rfl)
    simp only [keepaliveRule, arg_cons_zero, yes _ hb, port_recordOut_self, if_true, now_recordOut]
    rw [port_recordOut_self] at h
    rw [h]
    rfl
  · simp [keepaliveRule, yes _ hb, flipped, phasePayload]

/-- A mask byte with bit 6 or 7 is no mask (R186, R194). -/
theorem maskOf_none {b : Byte} (h : 63 < b.toNat) : maskOf b = none := if_neg (by omega)

/-- A mask byte of the six classes (R186, R194). -/
theorem maskOf_some {b : Byte} (h : b.toNat ≤ 63) : maskOf b = some (b.setWidth 6) := if_pos (by omega)

/-- Settles O14: the mask is stored, and ALERT is read from the gap and the pending entries. -/
theorem alertFollowsTheMask : Obligations.AlertFollowsTheMask := by
  refine ⟨fun p b fill s hatt => ⟨fun hb => serve_effect rfl (by decide) rfl (.inl hatt) ?_,
    fun hb => serve_effect rfl (by decide) rfl (.inl hatt) ?_⟩, fun p s => ?_⟩
  · simp [alertMaskRule, maskOf_none hb, deny]
  · simp only [alertMaskRule, arg_cons_zero, maskOf_some hb, accept]
    rw [setPort_recordOut p _ s (fun r => { r with alertMask := b.setWidth 6 }) (fun _ _ => rfl) (fun _ => rfl)]
  · simp [State.alert, State.attached, State.pendingFor, alertClass]

/-! ### Profiles -/

/-- A pair of the same key stands at the same place of two lists with the same keys, none twice. -/
theorem mem_zip_of_keys {xs ys : List (Nat × Nat)} {i a b : Nat} (hk : xs.map Prod.fst = ys.map Prod.fst) (hn : (xs.map Prod.fst).Nodup)
    (hx : (i, a) ∈ xs) (hy : (i, b) ∈ ys) : ((i, a), (i, b)) ∈ xs.zip ys := by
  induction xs generalizing ys with
  | nil => exact absurd hx nofun
  | cons x xs ih =>
    cases ys with
    | nil => exact absurd hy nofun
    | cons y ys =>
      simp only [List.map_cons, List.cons.injEq, List.nodup_cons, List.mem_map, not_exists, not_and] at hk hn
      have hys : ∀ z ∈ ys, z.1 ≠ x.1 := by
        intro z hz hzx
        have : z.1 ∈ xs.map Prod.fst := hk.2 ▸ List.mem_map_of_mem hz
        obtain ⟨w, hw, hwz⟩ := List.mem_map.1 this
        exact hn.1 w hw (hwz.trans hzx)
      rcases List.mem_cons.1 hx with rfl | hx'
      · rcases List.mem_cons.1 hy with rfl | hy'
        · exact List.mem_cons_self
        · exact absurd rfl (hys (i, b) hy')
      · rcases List.mem_cons.1 hy with rfl | hy'
        · exact absurd hk.1.symm (hn.1 (i, a) hx')
        · exact List.mem_cons_of_mem _ (ih hk.2 hn.2 hx' hy')

/-- The bits that a fold over pairs in ascending order sets: those of the pairs that differ. -/
theorem testBit_marks (xs : List ((Nat × Nat) × (Nat × Nat))) {n k : Nat} (hn : n < 2 ^ k) (hk : ∀ x ∈ xs, k ≤ x.1.1)
    (hs : xs.Pairwise (fun x y => x.1.1 < y.1.1)) (i : Nat) :
    (xs.foldl (fun n x => if x.1.2 = x.2.2 then n else n + 2 ^ x.1.1) n).testBit i =
      (n.testBit i || xs.any (fun x => decide (x.1.1 = i) && decide (x.1.2 ≠ x.2.2))) := by
  induction xs generalizing n k with
  | nil => simp
  | cons x xs ih =>
    obtain ⟨hx, hxs⟩ := List.pairwise_cons.1 hs
    have hkx : k ≤ x.1.1 := hk x List.mem_cons_self
    have hnx : n < 2 ^ x.1.1 := lt_of_lt_of_le hn (Nat.pow_le_pow_right (by decide) hkx)
    have hlt : ∀ y ∈ xs, x.1.1 + 1 ≤ y.1.1 := hx
    rw [List.foldl_cons, List.any_cons]
    split
    · rename_i heq
      rw [ih (lt_of_lt_of_le hnx (Nat.pow_le_pow_right (by decide) (Nat.le_succ _))) hlt hxs]
      simp [heq]
    · rename_i hne
      rw [ih (k := x.1.1 + 1) (by rw [Nat.pow_succ]; omega) hlt hxs, Nat.add_comm]
      have hadd := Nat.two_pow_add_eq_or_of_lt hnx 1
      rw [Nat.mul_one] at hadd
      simp [hadd, hne, Nat.testBit_two_pow, Bool.or_assoc, Bool.or_left_comm]

/-- The bit of a numeric field in the clamped-field map (R8). -/
theorem clampedMap_testBit {sent stored : Profile} {i a b : Nat} (ha : (i, a) ∈ numericFields sent) (hb : (i, b) ∈ numericFields stored) :
    (clampedMap sent stored).testBit i = true ↔ b ≠ a := by
  let pairs := (numericFields sent).zip (numericFields stored)
  have hsorted : pairs.Pairwise (fun x y => x.1.1 < y.1.1) := by simp [pairs, numericFields]
  have hkeys : (pairs.map (fun x => x.1.1)).Nodup := by simp [pairs, numericFields]
  have hmem : ((i, a), (i, b)) ∈ pairs := mem_zip_of_keys rfl (by simp [numericFields]) ha hb
  unfold clampedMap
  rw [testBit_marks _ (k := 0) (by decide) (fun _ _ => Nat.zero_le _) hsorted]
  simp only [Nat.zero_testBit, Bool.false_or, List.any_eq_true, Bool.and_eq_true, decide_eq_true_eq]
  constructor
  · rintro ⟨x, hx, hxi, hne⟩
    obtain rfl := List.inj_on_of_nodup_map hkeys hx hmem hxi
    exact fun h => hne h.symm
  · exact fun hne => ⟨_, hmem, rfl, fun h => hne h.symm⟩

/-- A profile form with a byte outside its enumeration is no profile (R8). -/
theorem profileOf_none {form : List Byte}
    (h : 2 < (form.getD 24 0).toNat ∨ 1 < (form.getD 25 0).toNat ∨ 1 < (form.getD 48 0).toNat ∨ 1 < (form.getD 49 0).toNat) :
    profileOf form = none := by
  have dial : ∀ b : Byte, 2 < b.toNat → dialMethodOf b = none := by decide
  unfold profileOf
  rcases h with h | h | h | h
  · rw [dial _ h]
  · rw [yesOf_none _ h]
    cases dialMethodOf (form.getD 24 0) <;> rfl
  · rw [yesOf_none _ h]
    cases dialMethodOf (form.getD 24 0) <;> cases yesOf (form.getD 25 0) <;> rfl
  · rw [yesOf_none _ h]
    cases dialMethodOf (form.getD 24 0) <;> cases yesOf (form.getD 25 0) <;> cases yesOf (form.getD 48 0) <;> rfl

/-- Settles O19: each numeric field has its own bit of the map, and the rule clamps before it checks the ordering. -/
theorem profileWritesClampThenOrder : Obligations.ProfileWritesClampThenOrder := by
  refine ⟨fun sent i a b ha hb => clampedMap_testBit ha hb, fun p b form fill s hadm hlen => ?_⟩
  have h51 : (b :: form).length = 51 := by simp [hlen]
  refine ⟨fun hb => serve_effect h51 (by decide) hadm.1 (.inl hadm.2) ?_, fun hform => serve_effect h51 (by decide) hadm.1 (.inl hadm.2) ?_,
    fun k sent hk hsent => ⟨fun hord => serve_effect h51 (by decide) hadm.1 (.inl hadm.2) ?_,
      fun hord => serve_effect h51 (by decide) hadm.1 (.inl hadm.2) ?_⟩⟩
  · simp only [writeProfileRule, arg_cons_zero, profileNoOf_none b hb]
  · simp only [writeProfileRule, List.drop_succ_cons, List.drop_zero, profileOf_none hform]
    split
    · contradiction
    · rfl
  · simp [writeProfileRule, hk, profileNoOf_byteOf, hsent, hord]
  · simp [writeProfileRule, hk, profileNoOf_byteOf, hsent, hord]

/-! ### Ranges and overrides -/

/-- What a range entry is read from (R11). -/
theorem rangeOf_some {i a b n e : Byte} {x : Fin 8 × RangeEntry} (h : rangeOf [i, a, b, n, e] = some x) :
    i.toNat ≤ 7 ∧ a.toNat ≤ 63 ∧ b.toNat ≤ 63 ∧ a.toNat ≤ b.toNat ∧ n.toNat ≤ 7 ∧ e.toNat ≤ 1 := by
  unfold rangeOf at h
  simp only [arg_cons_zero, arg_cons_succ] at h
  split at h
  · rename_i hi ha hb hn he
    have hlast : e.toNat ≤ 1 := by
      by_contra hc
      rw [yesOf_none e (by omega)] at he
      exact absurd he nofun
    simp only [rangeNoOf, lineNoOf, profileNoOf, Option.dite_none_right_eq_some, Option.some.injEq] at hi ha hb hn
    obtain ⟨hi, rfl⟩ := hi
    obtain ⟨ha, rfl⟩ := ha
    obtain ⟨hb, rfl⟩ := hb
    obtain ⟨hn, rfl⟩ := hn
    split at h
    · rename_i hle
      rw [Fin.mk_le_mk] at hle
      omega
    · exact absurd h nofun
  · exact absurd h nofun

/-- Settles O20: the bytes are read back, and a write of the store is answered OK. -/
theorem rangeAndOverrideWrites : Obligations.RangeAndOverrideWrites := by
  refine ⟨fun p i a b n e fill s hadm => ⟨fun hbad => serve_effect rfl (by decide) hadm.1 (.inl hadm.2) ?_,
    fun j first last m yes hi ha hb hn he hle => serve_effect rfl (by decide) hadm.1 (.inl hadm.2) ?_⟩,
    fun p l v fill s hadm => ⟨fun n hv => serve_line l rfl (by decide) hadm ?_, fun hv => serve_line l rfl (by decide) hadm ?_,
      fun hlow hhigh => serve_line l rfl (by decide) hadm ?_⟩⟩
  · have hnone : rangeOf [i, a, b, n, e] = none := by
      cases hx : rangeOf [i, a, b, n, e] with
      | none => rfl
      | some x =>
        have := rangeOf_some hx
        omega
    simp only [writeRangeRule, hnone, deny]
  · have hsome : rangeOf [i, a, b, n, e] = some (j, ⟨first, last, m, yes⟩) := by
      simp only [rangeOf, arg_cons_zero, arg_cons_succ, hi, ha, hb, hn, he, rangeNoOf_byteOf, lineNoOf_byteOf, profileNoOf_byteOf,
        yesOf_byteOf, if_pos hle]
    simp only [writeRangeRule, hsome, accept, recordOut_store, writeStore_recordOut]
  · simp [writeOverrideRule, overrideOf, hv, profileNoOf_byteOf, accept]
  · simp [writeOverrideRule, overrideOf, profileNoOf_none v (by omega), hv, accept]
  · simp [writeOverrideRule, overrideOf, profileNoOf_none v hlow, Nat.ne_of_lt hhigh, deny]

/-! ### Settings -/

/-- Settles O21: each byte is read back, and its rule replaces the one setting. -/
theorem settingsAreReplaced : Obligations.SettingsAreReplaced := by
  refine ⟨fun p l b fill s hadm => ⟨fun q hb => serve_line l rfl (by decide) hadm ?_, fun hb => serve_line l rfl (by decide) hadm ?_⟩,
    fun p b fill s hadm => ⟨fun law hb => ⟨fun hsame => serve_effect rfl (by decide) hadm.1 (.inl hadm.2) ?_,
      fun hother => serve_effect rfl (by decide) hadm.1 (.inl hadm.2) ?_⟩, fun hb => serve_effect rfl (by decide) hadm.1 (.inl hadm.2) ?_⟩,
    fun p lost low fill s hadm => ⟨fun hle => serve_effect rfl (by decide) hadm.1 (.inl hadm.2) ?_,
      fun hlt => serve_effect rfl (by decide) hadm.1 (.inl hadm.2) ?_⟩⟩
  · simp [subscriptionRule, hb, subscriptionOf_byteOf, accept, State.modLine]
  · have hnone : ∀ b : Byte, 3 < b.toNat → subscriptionOf b = none := by decide
    simp [subscriptionRule, hnone b hb, deny]
  · have hlaw : lawOf b = some law := by cases law <;> simp [lawOf, hb]
    simp [lawRule, hlaw, setLaw, hsame, accept]
  · have hlaw : lawOf b = some law := by cases law <;> simp [lawOf, hb]
    simp only [lawRule, arg_cons_zero, hlaw, setLaw, recordOut_pool, if_neg hother, accept, putPool_recordOut]
    rfl
  · have hnone : ∀ b : Byte, 1 < b.toNat → lawOf b = none := by decide
    simp [lawRule, hnone b hb, deny]
  · refine (if_pos hle : feedLimitsRule lost.toNat low.toNat _ = _).trans ?_
    rw [recordOut_bat, putBat_recordOut]
    rfl
  · exact if_neg (Nat.not_le.2 hlt)

/-- Settles O22, by the timeslot byte and the slot the line holds. -/
theorem timeslotsAreTaken : Obligations.TimeslotsAreTaken := by
  intro p l b fill s hadm c k put
  refine ⟨fun hlow hhigh => serve_line l rfl (by decide) hadm ?_, fun hb => serve_line l rfl (by decide) hadm ?_, fun x hb =>
    ⟨fun htaken => serve_line l rfl (by decide) hadm ?_, fun hfree => ?_⟩⟩
  · simp [timeslotRule, timeslotOf, Nat.not_lt.2 hlow, Nat.ne_of_lt hhigh, deny]
  · simp [timeslotRule, timeslotOf, hb, accept, State.setTimeslot, State.modLine]
  · have ht : (recordOut p k s).slotTaken l x = true := by simpa [slotTaken_iff] using htaken
    simp only [timeslotRule, arg_cons_zero, arg_cons_succ, hb, timeslotOf_byteOf]
    subst hb
    exact if_pos ht
  · have ht : ¬ (recordOut p k s).slotTaken l x = true := by simpa [slotTaken_iff] using hfree
    have hrule : ∀ u, takeSlot l x (recordOut p k s) = recordOut p k u →
        exec c s = .next (answered p 0x15 .ok [] k u) := by
      intro u hu
      refine serve_line l rfl (by decide) hadm ?_
      simp only [timeslotRule, arg_cons_zero, arg_cons_succ, hb, timeslotOf_byteOf]
      subst hb
      exact (if_neg ht).trans (congrArg accept hu)
    refine ⟨fun hown => hrule _ ?_, fun hnone => hrule _ ?_, fun y hy hyx => ⟨fun hdet => hrule _ ?_, fun d hdet => hrule _ ?_⟩⟩
    · simp [takeSlot, hown]
    · simp [takeSlot, hnone, put, State.setTimeslot, State.modLine]
    · simp [takeSlot, hy, hyx, retune, hdet, put, State.setTimeslot, State.modLine]
    · simp [takeSlot, hy, hyx, retune, hdet, put, State.setTimeslot, State.modLine, retuned]

end Sys2Proof.Machine
end

