-- ==== Sys2Proof/Proofs/ReasonChanges.lean ====
section
/-! PROOF. A change of the block reason set, and BLOCK and UNBLOCK. -/

namespace Sys2Proof.Machine

/-! ### Reasons -/

theorem Reasons.none_iff (q : Reasons) : q.none = true ↔ q = ⟨false, false⟩ := by
  rcases q with ⟨_ | _, _ | _⟩ <;> simp [Reasons.none]

theorem Reasons.none_false_iff (q : Reasons) : q.none = false ↔ q ≠ ⟨false, false⟩ := by
  rw [← Bool.not_eq_true, Reasons.none_iff]

/-- What the change of a reason set does beside the record and the event: a call's unlocked detector is released, a ringing line's feed mode
is recomputed (R79). -/
def afterReasons (l : LineNo) (q : Reasons) (r : Line) (u : State) : State :=
  if breaksCall q r = true then releaseUnlocked l u
  else if r.reasons = ⟨false, false⟩ ∧ q ≠ ⟨false, false⟩ ∧ r.state = .ringing then recomputeFeed l u
  else u

/-- A change of the reason set to another one (R78 to R82). -/
theorem setReasons_eq (l : LineNo) (q : Reasons) (s : State) (h : q ≠ (s.line l).reasons) :
    setReasons l q s = afterReasons l q (s.line l)
      (writeEvent (s.linePorts l) (some l) s.now (.blockChanged q) (s.setLine l (reasonsTaken q (s.line l)))) := by
  rcases setReasons_cases l q s with ⟨heq, -⟩ | ⟨-, heq⟩
  · exact absurd heq h
  · rw [heq]
    unfold followReasons
    by_cases hold : (s.line l).reasons = ⟨false, false⟩
    · have hnew : q ≠ ⟨false, false⟩ := fun hq => h (hq.trans hold.symm)
      cases hst : (s.line l).state <;>
        simp [hold, hnew, hst, reasonsTaken, breaksCall, afterReasons, (Reasons.none_iff _).2, (Reasons.none_false_iff _).2, enterBlocked,
          State.modLine] <;> rfl
    · have hold' := (Reasons.none_false_iff _).2 hold
      by_cases hnew : q = ⟨false, false⟩
      · cases hst : (s.line l).state <;>
          simp [hold, hold', hnew, hst, reasonsTaken, breaksCall, afterReasons, (Reasons.none_iff ⟨false, false⟩).2, State.modLine] <;> rfl
      · cases hst : (s.line l).state <;>
          simp [hold, hold', hnew, hst, reasonsTaken, breaksCall, afterReasons, (Reasons.none_false_iff _).2]

/-- Settles O25, by the change of the reason set in each state. -/
theorem blockingIsCommanded : Obligations.BlockingIsCommanded := by
  intro p l fill s hadm c un k r told more less
  have hblock : ∀ u, setReasons l more s = u → exec c s = .next (answered p 0x20 .ok [] k u) := by
    rintro u rfl
    refine serve_line l rfl (by decide) hadm ?_
    simp [accept, more, r]
  have hunblock : ∀ u, setReasons l less s = u → exec un s = .next (answered p 0x21 .ok [] k u) := by
    rintro u rfl
    refine serve_line l rfl (by decide) hadm ?_
    simp [accept, less, r]
  have hsame : ∀ q : Reasons, q = r.reasons → setReasons l q s = s := by
    rintro q rfl
    simp [setReasons, r]
  have hold : ∀ a b, r.reasons.controller = a → r.reasons.fault = b → r.reasons = ⟨a, b⟩ := by
    rintro a b rfl rfl
    rfl
  refine ⟨fun hc => hblock _ (hsame _ ?_), fun hc => ?_, fun hc => hunblock _ (hsame _ ?_), fun hc => ?_⟩
  · simp only [more, ← hc]
  · have hne : more ≠ r.reasons := fun h => by simpa [more, hc] using congrArg Reasons.controller h
    have hmore : more ≠ ⟨false, false⟩ := fun h => by simpa [more] using congrArg Reasons.controller h
    refine ⟨fun h => hblock _ ?_, fun hf => ?_⟩
    · have hkeep : r.reasons ≠ ⟨false, false⟩ ∨ r.state = .held := by
        rcases h with h | h
        · exact .inr h
        · exact .inl fun h' => by simpa [h] using congrArg Reasons.fault h'
      rw [setReasons_eq l _ s hne]
      rcases hkeep with hkeep | hkeep <;> simp [reasonsTaken, breaksCall, afterReasons, hkeep, hmore, told, r]
    · have hempty : r.reasons = ⟨false, false⟩ := hold _ _ hc hf
      refine ⟨fun hst => hblock _ ?_, fun hst => hblock _ ?_, fun hst => hblock _ ?_, fun hst => hblock _ ?_⟩ <;>
        rw [setReasons_eq l _ s hne]
      · simp [reasonsTaken, breaksCall, afterReasons, hempty, hmore, hst, told, r]
      · rcases hst with hst | hst <;> simp [reasonsTaken, breaksCall, afterReasons, hempty, hmore, hst, told, r]
      · rcases hst with hst | hst <;>
          simp [reasonsTaken, reasonsTaken.callEnded, breaksCall, afterReasons, hempty, hmore, hst, told, r]
      · simp [reasonsTaken, breaksCall, afterReasons, hempty, hmore, hst, told, r]
  · simp only [less, ← hc]
  · have hne : less ≠ r.reasons := fun h => by simpa [less, hc] using congrArg Reasons.controller h
    have hfull : r.reasons ≠ ⟨false, false⟩ := fun h => by simpa [hc] using congrArg Reasons.controller h
    refine ⟨fun hst hf => hunblock _ ?_, fun h => hunblock _ ?_⟩ <;> rw [setReasons_eq l _ s hne]
    · have hless : less = ⟨false, false⟩ := by simp only [less, hf]
      simp [reasonsTaken, breaksCall, afterReasons, hfull, hless, hst, told, r]
    · have hkeep : r.state ≠ .blocked ∨ less ≠ ⟨false, false⟩ := h.imp id fun hf h' => by
        simpa [less, hf] using congrArg Reasons.fault h'
      rcases hkeep with hkeep | hkeep <;> simp [reasonsTaken, breaksCall, afterReasons, hfull, hkeep, told, r]

end Sys2Proof.Machine
end

