-- ==== Sys2Proof/Proofs/PoolCommutes.lean ====
section
/-! PROOF. Updates in either order: releases of detectors stand apart from line records and from the journal. -/

namespace Sys2Proof.Machine

/-! ### Updates in either order -/

section

variable (s : State) (l m : LineNo) (d : DetNo) (x : Detector) (ls : List LineNo)

theorem setDet_modLine (f : Line → Line) : (s.setDet d x).modLine l f = (s.modLine l f).setDet d x := rfl

theorem setQueue_setDet : (s.setQueue ls).setDet d x = (s.setDet d x).setQueue ls := rfl

/-- Writes of different lines may be put in either order. -/
theorem setLine_comm {l m : LineNo} (h : l ≠ m) (r q : Line) : (s.setLine l r).setLine m q = (s.setLine m q).setLine l r := by
  have hv : l.val ≠ m.val := Fin.val_ne_of_ne h
  unfold State.setLine
  congr 1
  exact Vector.set_comm _ _ hv

/-- The second of two changes of a line's detector status is what counts. -/
theorem setStatus_setStatus (a b : DetStatus) : (s.setStatus l a).setStatus l b = s.setStatus l b := by
  simp [State.setStatus, State.modLine]

/-- The second of two writes of a detector is what counts. -/
@[simp] theorem setDet_setDet (y : Detector) : (s.setDet d x).setDet d y = s.setDet d y := by
  simp [State.setDet]

end

/-! ### The pool apart from the line records -/

/-- A change of a line's record that neither reads nor writes its detector status. -/
def SparesStatus (f : Line → Line) : Prop := ∀ r d, f { r with detStatus := d } = { f r with detStatus := d }

section

variable {f : Line → Line} (hf : SparesStatus f) (s : State) (l m : LineNo)

include hf

theorem SparesStatus.detStatus (r : Line) : (f r).detStatus = r.detStatus := by
  have h := congrArg Line.detStatus (hf r r.detStatus)
  exact h

theorem detStatus_modLine : ((s.modLine l f).line m).detStatus = (s.line m).detStatus := by
  by_cases h : m = l
  · subst h
    simp [State.modLine, hf.detStatus]
  · simp [State.modLine, h]

theorem setStatus_modLine (d : DetStatus) : (s.modLine l f).setStatus m d = (s.setStatus m d).modLine l f := by
  by_cases h : m = l
  · subst h
    simp [State.setStatus, State.modLine, hf _ d]
  · have h' : l ≠ m := fun e => h e.symm
    simp only [State.setStatus, State.modLine, State.line_setLine_ne _ _ h, State.line_setLine_ne _ _ h']
    exact setLine_comm s h' _ _

theorem assignDet_modLine (d : DetNo) (b : Bool) : assignDet d m b (s.modLine l f) = (assignDet d m b s).modLine l f :=
  setStatus_modLine hf (s.setDet d (freshDetector m b s.now)) l m _

theorem handOn_modLine (d : DetNo) : handOn d (s.modLine l f) = (handOn d s).modLine l f := by
  unfold handOn
  simp only [State.modLine_pool]
  split
  · rfl
  · rename_i w rest _
    exact assignDet_modLine hf (s.setQueue rest) l w d false

theorem releaseDet_modLine (d : DetNo) : releaseDet d m (s.modLine l f) = (releaseDet d m s).modLine l f := by
  unfold releaseDet
  rw [← handOn_modLine hf, ← setStatus_modLine hf]
  rfl

theorem leaveQueue_modLine : leaveQueue m (s.modLine l f) = (leaveQueue m s).modLine l f :=
  setStatus_modLine hf (s.setQueue (s.pool.waitQueue.filter (fun x => decide (x ≠ m)))) l m .none

theorem releaseUnlocked_modLine : releaseUnlocked m (s.modLine l f) = (releaseUnlocked m s).modLine l f := by
  unfold releaseUnlocked
  rw [detStatus_modLine hf]
  split
  · exact releaseDet_modLine hf s l m _
  · exact leaveQueue_modLine hf s l m
  · rfl
  · rfl

end

/-! ### The pool apart from the journal -/

section

variable (s : State) (q : PortSet) (o : Option LineNo) (t : Time) (b : EventBody) (l : LineNo) (d : DetNo)

theorem setStatus_writeEvent (x : DetStatus) : (writeEvent q o t b s).setStatus l x = writeEvent q o t b (s.setStatus l x) :=
  writeEvent_modLine s q o t b l _

theorem assignDet_writeEvent (k : Bool) : assignDet d l k (writeEvent q o t b s) = writeEvent q o t b (assignDet d l k s) := by
  simp [assignDet, setStatus_writeEvent]

theorem handOn_writeEvent : handOn d (writeEvent q o t b s) = writeEvent q o t b (handOn d s) := by
  unfold handOn
  rw [writeEvent_pool]
  split
  · rfl
  · rw [writeEvent_setQueue, assignDet_writeEvent]

theorem releaseDet_writeEvent : releaseDet d l (writeEvent q o t b s) = writeEvent q o t b (releaseDet d l s) := by
  simp [releaseDet, setStatus_writeEvent, handOn_writeEvent]

theorem leaveQueue_writeEvent : leaveQueue l (writeEvent q o t b s) = writeEvent q o t b (leaveQueue l s) := by
  simp [leaveQueue, setStatus_writeEvent]

theorem releaseUnlocked_writeEvent : releaseUnlocked l (writeEvent q o t b s) = writeEvent q o t b (releaseUnlocked l s) := by
  unfold releaseUnlocked
  simp only [line_writeEvent]
  split
  · exact releaseDet_writeEvent s q o t b l _
  · exact leaveQueue_writeEvent s q o t b l
  · rfl
  · rfl

end

/-! ### What a release leaves of the lines -/

/-- A release changes no more of any line than its detector status (R110). -/
theorem releaseUnlocked_line (l m : LineNo) (s : State) :
    (releaseUnlocked l s).line m = { s.line m with detStatus := ((releaseUnlocked l s).line m).detStatus } := by
  have h := all_of_others (fun k => others_releaseUnlocked k l s) m
  rw [← h]

theorem releaseAny_line (l m : LineNo) (s : State) :
    (releaseAny l s).line m = { s.line m with detStatus := ((releaseAny l s).line m).detStatus } := by
  have h := all_of_others (fun k => others_releaseAny k l s) m
  rw [← h]

end Sys2Proof.Machine
end

