-- ==== Sys2Proof/Proofs/RingingAndLocks.lean ====
section
/-! PROOF. RING, RING_STOP, the Dial Record, LOCK_DETECTOR and UNLOCK_DETECTOR. -/

namespace Sys2Proof.Machine

/-! ### Ringing and the Dial Record -/

/-- Settles O26, by the state of the line and of the battery. -/
theorem ringingIsCommanded : Obligations.RingingIsCommanded := by
  intro p l fill s hadm c stop k r
  refine ⟨fun hst => serve_line l rfl (by decide) hadm ?_, fun hst hfeed => serve_line l rfl (by decide) hadm ?_,
    fun hst hfeed => serve_line l rfl (by decide) hadm ?_, fun hst => serve_line l rfl (by decide) hadm ?_,
    fun hst => serve_line l rfl (by decide) hadm ?_⟩
  · simp [ringRule, hst, r, deny]
  · simp [ringRule, hst, r, hfeed, deny]
  · have hms : ∀ x, msUnits x = x * 8 := fun _ => rfl
    have hsec : ∀ x, sUnits x = x * 8000 := fun _ => rfl
    simp [ringRule, hst, r, hfeed, accept, startRinging, ringFields, State.modLine, hms, hsec]
  · simp [ringStopRule, hst, r, deny]
  · simp [ringStopRule, hst, r, accept, stopRinging, unanswered, clearRinging, discardRingMeasuring, State.modLine]

/-- Settles O28, by the room in the Dial Record. -/
theorem digitsAreRecorded : Obligations.DigitsAreRecorded := by
  intro l code m onset s r t event
  refine ⟨fun hroom => ?_, fun hfull hov => ?_, fun hfull hov => ?_⟩
  · have h : (s.line l).dialRecord.length < Config.dialRecordMax := hroom
    simp only [t, recordDigit, if_pos h, lineEvent, linePorts_setLine, event, r]
  · have h : ¬ (s.line l).dialRecord.length < Config.dialRecordMax := Nat.not_lt.2 hfull
    have hov' : (s.line l).overflow = true := hov
    simp only [t, recordDigit, if_neg h, if_pos hov', lineEvent, event]
  · have h : ¬ (s.line l).dialRecord.length < Config.dialRecordMax := Nat.not_lt.2 hfull
    have hov' : ¬ (s.line l).overflow = true := by simpa using hov
    simp only [t, recordDigit, if_neg h, if_neg hov', lineEvent, linePorts_writeEvent, linePorts_setLine, event, r]

/-! ### Locking -/

/-- Settles O29, by the checks in their order. -/
theorem locksAreTaken : Obligations.LocksAreTaken := by
  intro p l fill s hadm c k r locked
  refine ⟨fun h => serve_line l rfl (by decide) hadm ?_, fun hslot hheld => ⟨fun d hd => serve_line l rfl (by decide) hadm ?_,
    fun hd hmax => serve_line l rfl (by decide) hadm ?_, fun d hd hmax => serve_line l rfl (by decide) hadm ?_, fun hd hmax =>
    ⟨fun hfull => serve_line l rfl (by decide) hadm ?_, fun d hfree hlow => serve_line l rfl (by decide) hadm ?_⟩⟩⟩
  · rcases h with h | h <;> simp [lockRule, h, r, deny]
  · simp [lockRule, hslot, hheld, hd, r, detPayload]
  · have hcount : Config.lockMax ≤ s.lockedCount := hmax
    cases hds : r.detStatus <;> simp_all [lockRule, r, deny]
  · have hcount : ¬ Config.lockMax ≤ s.lockedCount := Nat.not_le.2 hmax
    simp [lockRule, hslot, hheld, hd, hcount, r, detPayload, lockAssigned, State.setStatus]
    rfl
  · have hcount : ¬ Config.lockMax ≤ s.lockedCount := Nat.not_le.2 hmax
    have hnone := freeDet_none s hfull
    rcases hd with hd | hd <;> simp [lockRule, hslot, hheld, hd, hcount, r, lockFree, hnone, deny]
  · have hcount : ¬ Config.lockMax ≤ s.lockedCount := Nat.not_le.2 hmax
    have hsome := freeDet_some s d hfree hlow
    have htake : ∀ u : State, u = s ∨ u = leaveQueue l s → assignDet d l true u =
        ((s.setLine l { r with detStatus := .locked d }).setQueue u.pool.waitQueue).setDet d (freshDetector l true s.now) := by
      rintro u (rfl | rfl)
      · rfl
      · exact setStatus_setStatus (((s.setQueue (leaveQueue l s).pool.waitQueue).setDet d (freshDetector l true s.now))) l .none (.locked d)
    rcases hd with hd | hd
    · have h := htake s (.inl rfl)
      simp only [lockRule, line_recordOut, hslot, hheld, r, hd, lockedCount_recordOut, hcount, lockFree, freeDet_recordOut, hsome, detPayload,
        if_false, assignDet_recordOut, reduceCtorEq, h]
    · have h := htake (leaveQueue l s) (.inr rfl)
      simp only [lockRule, line_recordOut, hslot, hheld, r, hd, lockedCount_recordOut, hcount, lockFree, freeDet_recordOut, hsome, detPayload,
        if_false, if_true, assignDet_recordOut, leaveQueue_recordOut, h]
      rfl

/-- Settles O30, by the detector status and the state of the line. -/
theorem unlocksAreTaken : Obligations.UnlocksAreTaken := by
  intro p l fill s hadm c k r
  refine ⟨fun h => serve_line l rfl (by decide) hadm ?_, fun d hd => ⟨fun hst => serve_line l rfl (by decide) hadm ?_,
    fun hst => serve_line l rfl (by decide) hadm ?_⟩⟩
  · cases hds : r.detStatus <;> simp_all [unlockRule, r, deny]
  · have hkept : unlockKept d l s =
        (s.setLine l { r with detStatus := .assigned d }).setDet d { s.det d with locked := false, used := true } := rfl
    rw [← hkept]
    simp [unlockRule, hd, hst, r, accept, unlockKept]
  · simp [unlockRule, hd, hst, r, accept]

/-! ### The end of dialling -/

/-- What a digit delivered for recording does to the line's record (R91). -/
def recorded (c : DigitCode) (m : DigitMethod) (r : Line) : Line :=
  if r.dialRecord.length < 24 then { r with dialRecord := r.dialRecord ++ [⟨c, m⟩] }
  else if r.overflow = true then r else { r with overflow := true }

/-- The events of a digit delivered for recording (R91). -/
def tellDigit (l : LineNo) (c : DigitCode) (m : DigitMethod) (t : Time) (q : PortSet) (r : Line) (s : State) : State :=
  if r.dialRecord.length < 24 then writeEvent q (some l) t (.digit c m (some r.dialRecord.length)) s
  else if r.overflow = true then writeEvent q (some l) t (.digit c m none) s
  else writeEvent q (some l) t (.dialError .recordFull) (writeEvent q (some l) t (.digit c m none) s)

theorem recordDigit_eq (l : LineNo) (c : DigitCode) (m : DigitMethod) (t : Time) (s : State) :
    recordDigit l c m t s = tellDigit l c m t (s.linePorts l) (s.line l) (s.setLine l (recorded c m (s.line l))) := by
  obtain ⟨hroom, hover, hfull⟩ := digitsAreRecorded l c m t s
  unfold tellDigit recorded
  by_cases h : (s.line l).dialRecord.length < 24
  · rw [hroom h, if_pos h, if_pos h]
  · by_cases ho : (s.line l).overflow = true
    · rw [hover (Nat.not_lt.1 h) ho, if_neg h, if_neg h, if_pos ho, if_pos ho, setLine_line]
    · rw [hfull (Nat.not_lt.1 h) (by simpa using ho), if_neg h, if_neg h, if_neg ho, if_neg ho]

end Sys2Proof.Machine
end

