-- ==== Sys2Proof/Proofs/EndOfDialling.lean ====
section
/-! PROOF. What an answered request leaves; END_DIAL and CLEAR_DIAL. -/

namespace Sys2Proof.Machine

/-! ### What an answered request leaves -/

section

variable {p : Port} {code : Byte} {st : Status} {report : List Byte} {n : Nat} {s t u : State}

@[simp] theorem answered_lines : (answered p code st report n s).lines = s.lines := by simp [answered]
@[simp] theorem answered_store : (answered p code st report n s).store = s.store := by simp [answered]
@[simp] theorem answered_pool : (answered p code st report n s).pool = s.pool := by simp [answered]
@[simp] theorem answered_scan : (answered p code st report n s).scan = s.scan := by simp [answered]
@[simp] theorem answered_sweep : (answered p code st report n s).sweep = s.sweep := by simp [answered]
@[simp] theorem answered_test : (answered p code st report n s).test = s.test := by simp [answered]
@[simp] theorem answered_tb : (answered p code st report n s).tb = s.tb := by simp [answered]
@[simp] theorem answered_bat : (answered p code st report n s).bat = s.bat := by simp [answered]
@[simp] theorem answered_journal : (answered p code st report n s).journal = s.journal := by simp [answered]
@[simp] theorem answered_link0 : (answered p code st report n s).link0 = s.link0 := by simp [answered]
@[simp] theorem answered_link1 : (answered p code st report n s).link1 = s.link1 := by simp [answered]
@[simp] theorem answered_pending : (answered p code st report n s).pending = s.pending := by simp [answered]
@[simp] theorem line_answered (l : LineNo) : (answered p code st report n s).line l = s.line l := by simp [answered]
@[simp] theorem sw_answered (m : SweepNo) : (answered p code st report n s).sw m = s.sw m := by simp [answered]
@[simp] theorem gap_answered (q : Port) : ((answered p code st report n s).port q).gap = (s.port q).gap := by simp [answered]
@[simp] theorem derivedMode_answered (l : LineNo) : (answered p code st report n s).derivedMode l = s.derivedMode l :=
  derivedMode_eq (by simp) (by simp) (by simp) (by simp) (by simp) (itemOn_congr (by cases bankOf l <;> simp [State.bankItem]))

/-- The ports' buffers and attachments after a request whose rule leaves them alone. -/
theorem replies_answered (h : BuffersKept s u) : Replies p code st report n s (answered p code st report n u) := by
  refine ⟨by simp [answered], ?_, fun q hq => ?_⟩
  · simpa [answered] using congrArg (shiftOut · n) (h p).1
  · simpa [answered, hq] using h q

theorem attachmentKept_answered (q : Port) : AttachmentKept (s.port q) ((answered p code st report n s).port q) := by
  by_cases h : q = p
  · subst h
    simp [answered, AttachmentKept]
  · simp [answered, AttachmentKept, h]

theorem AttachmentsKept.trans (h : AttachmentsKept s t) (k : AttachmentsKept t u) : AttachmentsKept s u := by
  intro q
  obtain ⟨h1, h2, h3, h4, h5⟩ := h q
  obtain ⟨k1, k2, k3, k4, k5⟩ := k q
  exact ⟨k1.trans h1, k2.trans h2, k3.trans h3, k4.trans h4, k5.trans h5⟩

theorem AttachmentsKept.answered (h : AttachmentsKept s u) : AttachmentsKept s (answered p code st report n u) :=
  h.trans fun q => attachmentKept_answered q

end

/-! ### The journal and the gap counts of two states -/

section

variable {s t u v : State}

theorem JournalAs.refl (s : State) : JournalAs s s := ⟨rfl, fun _ => rfl⟩

theorem JournalAs.trans (h : JournalAs s t) (k : JournalAs t u) : JournalAs s u :=
  ⟨k.1.trans h.1, fun q => (k.2 q).trans (h.2 q)⟩

theorem JournalAs.symm (h : JournalAs s t) : JournalAs t s := ⟨h.1.symm, fun q => (h.2 q).symm⟩

/-- States with the same journal and ports. -/
theorem JournalAs.of_ports (hj : t.journal = s.journal) (hp : ∀ q, t.port q = s.port q) : JournalAs s t :=
  ⟨hj, fun q => by rw [hp q]⟩

theorem JournalAs.answered {p : Port} {code : Byte} {st : Status} {report : List Byte} {n : Nat} (h : JournalAs s t) :
    JournalAs s (answered p code st report n t) := h.trans ⟨by simp, fun q => by simp⟩

/-- The same event written in states whose journals and gap counts agree leaves them in agreement. -/
theorem JournalAs.writeEvent (h : JournalAs s t) (htb : t.tb = s.tb) (q : PortSet) (o : Option LineNo) (τ : Time) (b : EventBody) :
    JournalAs (writeEvent q o τ b s) (writeEvent q o τ b t) := by
  obtain ⟨hj, hg⟩ := h
  cases hq : q.isEmpty with
  | true =>
    rw [writeEvent_of_isEmpty o τ b hq, writeEvent_of_isEmpty o τ b hq]
    exact ⟨hj, hg⟩
  | false =>
    by_cases hroom : s.journal.length < 256
    · rw [writeEvent_of_room o τ b hq hroom, writeEvent_of_room o τ b hq (by rwa [hj]), hj, htb]
      exact ⟨rfl, hg⟩
    · cases hs : s.journal with
      | nil => exact absurd (by simp [hs]) hroom
      | cons old rest =>
        have hfull := Nat.not_lt.1 hroom
        rw [writeEvent_of_full o τ b hq hs hfull, writeEvent_of_full o τ b hq (hj.trans hs) (by rwa [hj]), htb]
        refine ⟨rfl, fun p => ?_⟩
        have hgap : ((raiseGaps old.pend t).port p).gap = ((raiseGaps old.pend s).port p).gap := by
          rw [port_raiseGaps_gap, port_raiseGaps_gap, hg p]
        exact hgap

end

/-! ### Feed commands and digits apart from the journal -/

section

variable (s : State) (q : PortSet) (o : Option LineNo) (t : Time) (b : EventBody) (l : LineNo)

@[simp] theorem derivedMode_writeEvent (m : LineNo) : (writeEvent q o t b s).derivedMode m = s.derivedMode m :=
  derivedMode_eq (by simp) (by simp) (by simp) (by simp) (by simp) (itemOn_congr (by simp))

/-- A release takes no part in the recording of a digit (R91, R110). -/
theorem releaseUnlocked_recordDigit (c : DigitCode) (m : DigitMethod) :
    releaseUnlocked l (recordDigit l c m t s) = recordDigit l c m t (releaseUnlocked l s) := by
  have hl := releaseUnlocked_line l l s
  have hports : (releaseUnlocked l s).linePorts l = s.linePorts l := by
    rw [State.linePorts, hl]
    simp [State.linePorts, State.attached]
  have hset : ∀ f : Line → Line, SparesStatus f → (releaseUnlocked l s).setLine l (f ((releaseUnlocked l s).line l)) =
      releaseUnlocked l (s.setLine l (f (s.line l))) := fun f hf => (releaseUnlocked_modLine hf s l l).symm
  have hspare : SparesStatus (recorded c m) := by
    intro r d
    unfold recorded
    dsimp only
    split
    · rfl
    · split <;> rfl
  rw [recordDigit_eq, recordDigit_eq, hset _ hspare, hports]
  have hrec : (releaseUnlocked l s).line l = { s.line l with detStatus := ((releaseUnlocked l s).line l).detStatus } := hl
  rw [hrec]
  unfold tellDigit
  dsimp only
  split
  · exact releaseUnlocked_writeEvent _ _ _ _ _ _
  · split
    · exact releaseUnlocked_writeEvent _ _ _ _ _ _
    · rw [releaseUnlocked_writeEvent, releaseUnlocked_writeEvent]

end

/-- A change of a line's record that neither reads nor writes its Dial Record, and keeps its subscription, takes no part in the recording of a
digit. -/
theorem recordDigit_modLine {f : Line → Line} {c : DigitCode} {m : DigitMethod} (hr : ∀ r, (f r).dialRecord = r.dialRecord)
    (ho : ∀ r, (f r).overflow = r.overflow) (hs : ∀ r, (f r).subscription = r.subscription)
    (hf : ∀ r, recorded c m (f r) = f (recorded c m r)) (l : LineNo) (t : Time) (s : State) :
    recordDigit l c m t (s.modLine l f) = (recordDigit l c m t s).modLine l f := by
  have hports : (s.modLine l f).linePorts l = s.linePorts l := linePorts_setLine s l l _ (hs _)
  have hline : (s.modLine l f).line l = f (s.line l) := State.line_modLine_self s l f
  have hset : (s.modLine l f).setLine l (f (recorded c m (s.line l))) = (s.setLine l (recorded c m (s.line l))).modLine l f := by
    simp [State.modLine]
  rw [recordDigit_eq, recordDigit_eq, hports, hline, hf, hset]
  unfold tellDigit
  rw [hr, ho]
  split
  · exact (writeEvent_modLine _ _ _ _ _ _ _).symm
  · split
    · exact (writeEvent_modLine _ _ _ _ _ _ _).symm
    · rw [writeEvent_modLine, writeEvent_modLine]

/-- The pulse state at its start, the discard flag apart (R89). -/
def pulsesDone (r : Line) : Line :=
  { r with pulseCounter := 0, digitOnset := none, lastMakeStart := none, interdigitExpiry := none, interdigitHeld := false }

theorem completeDigit_eq (l : LineNo) (s : State) :
    completeDigit l s =
      (recordDigit l (pulseCode (s.line l).pulseCounter) .pulse ((s.line l).digitOnset.getD s.now) s).modLine l pulsesDone := by
  refine recordDigit_modLine (f := pulsesDone) (fun _ => rfl) (fun _ => rfl) (fun _ => rfl) (fun r => ?_) l _ s
  unfold recorded pulsesDone
  dsimp only
  split
  · rfl
  · split <;> rfl

/-! ### The end of dialling -/

/-- The digit in progress that END_DIAL records (R94). -/
def dialled (l : LineNo) (s : State) : State :=
  if 0 < (s.line l).pulseCounter ∧ (s.line l).pulseDiscard = false
  then recordDigit l (pulseCode (s.line l).pulseCounter) .pulse ((s.line l).digitOnset.getD s.now) s else s

/-- The record of a line after END_DIAL (R94). -/
def talking (r : Line) : Line := { endDialling r with state := .talk }

theorem endDial_eq (l : LineNo) (s : State) : endDial l s = (releaseUnlocked l (dialled l s)).modLine l talking := by
  have hspare : SparesStatus endDialling := fun _ _ => rfl
  have hdone : SparesStatus pulsesDone := fun _ _ => rfl
  unfold endDial endDialDigit dialled
  rw [releaseUnlocked_modLine hspare]
  split
  · rw [completeDigit_eq, releaseUnlocked_modLine hdone]
    simp only [State.modLine, State.line_setLine_self, setLine_setLine]
    rfl
  · simp only [State.modLine, State.line_setLine_self, setLine_setLine]
    rfl

@[simp] theorem endDial_recordOut (l : LineNo) (p : Port) (n : Nat) (s : State) :
    endDial l (recordOut p n s) = recordOut p n (endDial l s) := by
  unfold endDial endDialDigit
  simp only [line_recordOut]
  split <;> simp

theorem line_recordDigit (l : LineNo) (c : DigitCode) (m : DigitMethod) (t : Time) (s : State) (x : LineNo) :
    (recordDigit l c m t s).line x = (s.setLine l (recorded c m (s.line l))).line x := by
  rw [recordDigit_eq]
  unfold tellDigit
  split
  · simp
  · split <;> simp

theorem recorded_detStatus (c : DigitCode) (m : DigitMethod) (r : Line) : (recorded c m r).detStatus = r.detStatus := by
  unfold recorded
  split
  · rfl
  · split <;> rfl

/-- A digit recorded changes no detector status (R91). -/
theorem detStatus_recordDigit (l : LineNo) (c : DigitCode) (m : DigitMethod) (t : Time) (s : State) (x : LineNo) :
    ((recordDigit l c m t s).line x).detStatus = (s.line x).detStatus := by
  rw [line_recordDigit]
  by_cases h : x = l
  · subst h
    rw [State.line_setLine_self, recorded_detStatus]
  · rw [State.line_setLine_ne _ _ h]

theorem detStatus_dialled (l : LineNo) (s : State) (x : LineNo) : ((dialled l s).line x).detStatus = (s.line x).detStatus := by
  unfold dialled
  split
  · exact detStatus_recordDigit _ _ _ _ _ _
  · rfl

/-- A release after the digit in progress is the release before it, as far as the pool goes (R94, R110). -/
theorem releaseUnlocked_dialled (l : LineNo) (s : State) :
    (releaseUnlocked l (dialled l s)).pool = (releaseUnlocked l s).pool ∧
      ∀ x, ((releaseUnlocked l (dialled l s)).line x).detStatus = ((releaseUnlocked l s).line x).detStatus := by
  unfold dialled
  split
  · rw [releaseUnlocked_recordDigit]
    exact ⟨by simp, fun x => detStatus_recordDigit _ _ _ _ _ _⟩
  · exact ⟨rfl, fun _ => rfl⟩

/-- Settles O27: END_DIAL is a digit recorded, a release, and a new record. -/
theorem diallingIsCommanded : Obligations.DiallingIsCommanded := by
  intro p l fill s hadm c clear k r
  refine ⟨fun hst => serve_line l rfl (by decide) hadm ?_, fun hst => ?_, fun hst => serve_line l rfl (by decide) hadm ?_,
    fun hst => serve_line l rfl (by decide) hadm ?_⟩
  · simp [endDialRule, hst, r, deny]
  · intro u
    have hexec : exec c s = .next (answered p 0x24 .ok [] k (endDial l s)) := by
      refine serve_line l rfl (by decide) hadm ?_
      simp [endDialRule, hst, r, accept]
    have hkeeps := keeps_endDial hst
    have hu : dialled l s = u := rfl
    have hspare : SparesStatus talking := fun _ _ => rfl
    have hend : endDial l s = (releaseUnlocked l u).modLine l talking := endDial_eq l s
    obtain ⟨hpool, hstatus⟩ := releaseUnlocked_dialled l s
    have hothers : OtherLinesButDetector l s u := by
      rw [← hu, dialled]
      split
      · exact others_recordDigit l _ _ _ s
      · exact others_refl l s
    refine ⟨_, hexec, replies_answered hkeeps.ports.1, ?_, ?_, fun m => ?_, ?_, ?_, hkeeps.ports.2.answered, ?_⟩
    · have hdet : r.detStatus = (u.line l).detStatus := (detStatus_dialled l s l).symm
      rw [line_answered, hend, State.line_modLine_self, releaseUnlocked_line, hdet]
      rfl
    · refine others_trans hothers (others_trans (others_releaseUnlocked l l u) ?_)
      exact others_trans (others_modLine l talking _) (others_lines (by rw [answered_lines, hend]))
    · rw [line_answered, hend, detStatus_modLine hspare]
      exact hstatus m
    · rw [answered_pool, hend, State.modLine_pool]
      exact hpool
    · exact JournalAs.answered (JournalAs.of_ports (by simp [hend]) fun q => by simp [hend])
    · simp [poolOf, linesOf, portsOf]
  · simp [clearDialRule, hst, r, deny]
  · simp [clearDialRule, hst, r, accept, clearDial, State.modLine]

end Sys2Proof.Machine
end

