-- ==== Sys2Proof/Proofs/SweepAndTestRequests.lean ====
section
/-! PROOF. Releases, WRITE_SWEEP, SET_TEST_FEED and MEASURE. -/

namespace Sys2Proof.Machine

/-- Settles O31: a release hands the detector on, and each release cause looks at the line's detector status. -/
theorem releasedDetectorsGoToTheQueue : Obligations.ReleasedDetectorsGoToTheQueue := by
  refine ⟨fun d l s => ⟨fun hq => ?_, fun w rest hq => ?_⟩, fun l s => ⟨fun h => ?_, fun h => ?_, fun d h => ?_, fun d h => ?_⟩⟩
  · have hq' : ((s.setDet d freedDetector).setStatus l .none).pool.waitQueue = [] := hq
    unfold releaseDet handOn
    rw [hq']
    rfl
  · have hq' : ((s.setDet d freedDetector).setStatus l .none).pool.waitQueue = w :: rest := hq
    unfold releaseDet handOn
    rw [hq']
    rfl
  · simp only [releaseUnlocked, releaseAny, h]
    exact ⟨rfl, rfl⟩
  · simp only [releaseUnlocked, releaseAny, h, and_self]
  · simp only [releaseUnlocked, releaseAny, h, and_self]
  · simp only [releaseUnlocked, releaseAny, h, and_self]

/-! ### Sweeps -/

/-- Settles O32, by the checks of WRITE_SWEEP in their order. -/
theorem sweepsAreWritten : Obligations.SweepsAreWritten := by
  intro p n k f ct st rp bl fill s hadm c b bad
  have hsweep : ∀ n : Byte, 3 < n.toNat ∧ sweepNoOf n = none ∨ n.toNat ≤ 3 ∧ ∃ x, sweepNoOf n = some x := by decide
  have hkind : ∀ k : Byte, (k.toNat = 0 ∨ 3 < k.toNat) ∧ sweepKindOf k = none ∨
      ¬ (k.toNat = 0 ∨ 3 < k.toNat) ∧ (sweepKindOf k).isSome := by decide
  have hstep : ∀ k : Byte, 2 < k.toNat ∧ sweepStepOf k = none ∨ k.toNat ≤ 2 ∧ (sweepStepOf k).isSome := by decide
  have hrept : ∀ k : Byte, 1 < k.toNat ∧ sweepRepeatOf k = none ∨ k.toNat ≤ 1 ∧ (sweepRepeatOf k).isSome := by decide
  have hline : ∀ k : Byte, 63 < k.toNat → lineNoOf k = none := by decide
  refine ⟨fun hbad => serve_effect rfl (by decide) hadm.1 (.inl hadm.2) ?_, fun hgood hf => serve_effect rfl (by decide) hadm.1 (.inl hadm.2) ?_,
    fun m kind first step rept hn hk hf hst hrp => ?_⟩
  · simp only [writeSweepRule, arg_cons_zero, arg_cons_succ]
    split
    · rename_i x y z w hx hy hz hw
      exfalso
      have h1 := hsweep n
      have h2 := hkind k
      have h3 := hstep st
      have h4 := hrept rp
      simp only [hx, hy, hz, hw, reduceCtorEq, and_false, false_or] at h1 h2 h3 h4
      omega
    · rfl
  · simp only [bad, not_or, Nat.not_lt] at hgood
    obtain ⟨h1, h2, h3, h4, h5⟩ := hgood
    obtain ⟨-, x, hx⟩ := (hsweep n).resolve_left (by omega)
    obtain ⟨y, hy⟩ := Option.isSome_iff_exists.1 ((hkind k).resolve_left (by omega)).2
    obtain ⟨z, hz⟩ := Option.isSome_iff_exists.1 ((hstep st).resolve_left (by omega)).2
    obtain ⟨w, hw⟩ := Option.isSome_iff_exists.1 ((hrept rp).resolve_left (by omega)).2
    simp only [writeSweepRule, arg_cons_zero, arg_cons_succ, hx, hy, hz, hw, hline f hf, denySweep]
    rfl
  · intro w count block
    have hm : sweepNoOf n = some m := by subst hn; revert m; decide
    have hkk : sweepKindOf k = some kind := by subst hk; exact sweepKindOf_byteOf kind
    have hff : lineNoOf f = some first := by subst hf; exact lineNoOf_byteOf first
    have hss : sweepStepOf st = some step := by subst hst; cases step <;> rfl
    have hrr : sweepRepeatOf rp = some rept := by subst hrp; cases rept <;> rfl
    refine ⟨fun hbusy => serve_effect rfl (by decide) hadm.1 (.inl hadm.2) ?_,
      fun hidle hitems => serve_effect rfl (by decide) hadm.1 (.inl hadm.2) ?_⟩
    · have hb : sweepBusy (s.sw m) = true := by simpa [sweepBusy] using hbusy
      simp only [writeSweepRule, arg_cons_zero, arg_cons_succ, hm, hkk, hff, hss, hrr, sw_recordOut, hb, if_true, denySweep]
      rfl
    · have hb : sweepBusy (s.sw m) = false := by
        have h1 : (s.sw m).state = .idle := hidle
        have h2 : (s.sw m).items = 0 := hitems
        simp [sweepBusy, h1, h2]
      simp only [writeSweepRule, arg_cons_zero, arg_cons_succ, hm, hkk, hff, hss, hrr, sw_recordOut, hb, takeSweep, setSw_recordOut]
      rw [hidle, hitems]
      rfl

/-! ### Test feed and measurements of a HELD line -/

/-- A flags byte of SET_TEST_FEED by its two bits (R163). -/
theorem flags_bits {flags : Byte} (h : flags.toNat ≤ 3) :
    (flags.toNat = 0 ∧ flags.getLsbD 0 = false ∧ flags.getLsbD 1 = false) ∨ ((flags.toNat = 1 ∨ flags.toNat = 3) ∧ flags.getLsbD 0 = true) ∨
      (flags.toNat = 2 ∧ flags.getLsbD 0 = false ∧ flags.getLsbD 1 = true) := by
  revert flags
  decide

/-- A selector and flags that name no test feed mode (R163). -/
theorem testFeedOf_none {sel flags : Byte} (hflags : flags.toNat ≤ 3) (h : 2 < sel.toNat ∨ (sel.toNat = 2 ∧ flags.toNat = 0)) :
    testFeedOf sel flags = none := by
  unfold testFeedOf
  split
  · omega
  · omega
  · rename_i hsel
    rcases flags_bits hflags with ⟨-, h0, h1⟩ | ⟨h0, -⟩ | ⟨h0, -⟩
    · rw [h0, h1]
      rfl
    · omega
    · omega
  · rfl

/-- The test feed mode a selector and flags name (R163). -/
theorem testFeedOf_some {sel flags : Byte} {mode : TestFeed} (hflags : flags.toNat ≤ 3)
    (h : (sel.toNat = 0 ∧ mode = .normal) ∨ (sel.toNat = 1 ∧ mode = .highZ) ∨
      (sel.toNat = 2 ∧ (flags.toNat = 1 ∨ flags.toNat = 3) ∧ mode = .diagUp) ∨ (sel.toNat = 2 ∧ flags.toNat = 2 ∧ mode = .diagDown)) :
    testFeedOf sel flags = some mode := by
  unfold testFeedOf
  rcases h with ⟨hs, rfl⟩ | ⟨hs, rfl⟩ | ⟨hs, hf, rfl⟩ | ⟨hs, hf, rfl⟩ <;> rw [hs]
  · rfl
  · rfl
  · rcases flags_bits hflags with ⟨h0, -⟩ | ⟨-, h0⟩ | ⟨h0, -⟩
    · omega
    · exact if_pos h0
    · omega
  · rcases flags_bits hflags with ⟨h0, -⟩ | ⟨h0, -⟩ | ⟨-, h0, h1⟩
    · omega
    · omega
    · rw [h0, h1]
      rfl

/-- Settles O37, by the bytes and the state of the line. -/
theorem heldLinesAreTested : Obligations.HeldLinesAreTested := by
  refine ⟨fun p l sel flags fill s hadm hflags => ⟨fun hbad => serve_line l rfl (by decide) hadm ?_,
    fun mode hmode => ⟨fun hst => serve_line l rfl (by decide) hadm ?_, fun hst => serve_line l rfl (by decide) hadm ?_⟩⟩,
    fun p l b fill s hadm => ⟨fun hb => serve_line l rfl (by decide) hadm ?_, fun kind hb =>
      ⟨fun hst => serve_line l rfl (by decide) hadm ?_, fun hst => ⟨fun hfull => serve_line l rfl (by decide) hadm ?_,
        fun hroom => serve_line l rfl (by decide) hadm ?_⟩⟩⟩⟩
  · have hnone : testFeedOf sel flags = none := testFeedOf_none hflags hbad
    simp [testFeedRule, hnone, deny]
  · have hsome : testFeedOf sel flags = some mode := testFeedOf_some hflags hmode
    simp [testFeedRule, hsome, hst, deny]
  · have hsome : testFeedOf sel flags = some mode := testFeedOf_some hflags hmode
    simp [testFeedRule, hsome, hst, accept, State.modLine]
  · simp [measureRule, itemKindOf_none b hb, deny]
  · simp [measureRule, hb, itemKindOf_byteOf, hst, deny]
  · have h : Config.testQueueMax ≤ s.test.queue.length := hfull
    simp [measureRule, hb, itemKindOf_byteOf, hst, h, deny]
  · have h : ¬ Config.testQueueMax ≤ s.test.queue.length := Nat.not_le.2 hroom
    simp only [measureRule, arg_cons_zero, arg_cons_succ, hb, itemKindOf_byteOf, line_recordOut, hst, if_true, recordOut_test, if_neg h, putTest_recordOut]

end Sys2Proof.Machine
end

