-- ==== Sys2Proof/Proofs/PortAttachment.lean ====
section
/-! PROOF. ATTACH, DETACH of a controller, READ_EVENTS, and the window expiry of a controller. -/

namespace Sys2Proof.Machine

/-! ### Events and a port that is pending nowhere -/

section

variable {s : State} {p : Port} (q : PortSet) (o : Option LineNo) (t : Time) (b : EventBody)

/-- No entry of the journal is pending for the port. -/
def Absent (p : Port) (s : State) : Prop := ∀ e ∈ s.journal, e.pend.has p = false

/-- An event raises the gap count of no port that is pending nowhere (R191). -/
theorem port_writeEvent_absent (h : Absent p s) : (writeEvent q o t b s).port p = s.port p := by
  cases hq : q.isEmpty with
  | true => rw [writeEvent_of_isEmpty o t b hq]
  | false =>
    by_cases hroom : s.journal.length < 256
    · rw [writeEvent_of_room o t b hq hroom]
      rfl
    · cases hs : s.journal with
      | nil => exact absurd (by simp [hs]) hroom
      | cons old rest =>
        rw [writeEvent_of_full o t b hq hs (Nat.not_lt.1 hroom)]
        have hold : old.pend.has p = false := h old (by simp [hs])
        cases p <;> simp only [PortSet.has] at hold <;> simp [State.port, raiseGaps, hold]

/-- An event for other ports keeps the port out of every pending set. -/
theorem Absent.writeEvent (h : Absent p s) (hq : q.has p = false) : Absent p (writeEvent q o t b s) := by
  intro e he
  cases hqe : q.isEmpty with
  | true =>
    rw [writeEvent_of_isEmpty o t b hqe] at he
    exact h e he
  | false =>
    have hsplit : ∀ es : List Entry, (∀ x ∈ es, x ∈ s.journal) →
        e ∈ es ++ [⟨⟨o, t, qualityOf s.tb, b⟩, q⟩] → e.pend.has p = false := by
      intro es hes hmem
      rcases List.mem_append.1 hmem with hmem | hmem
      · exact h e (hes e hmem)
      · rw [List.mem_singleton.1 hmem]
        exact hq
    by_cases hroom : s.journal.length < 256
    · rw [writeEvent_of_room o t b hqe hroom] at he
      exact hsplit _ (fun _ => id) he
    · cases hs : s.journal with
      | nil => exact absurd (by simp [hs]) hroom
      | cons old rest =>
        rw [writeEvent_of_full o t b hqe hs (Nat.not_lt.1 hroom)] at he
        exact hsplit rest (fun x hx => hs ▸ List.mem_cons_of_mem old hx) he

end

theorem absent_dropPort (p : Port) (s : State) : Absent p (dropPort p s) := fun _ he => (dropPort_mem p s he).1

theorem PortSet.without_has (q : PortSet) (p : Port) : (q.without p).has p = false := by cases p <;> rfl

/-- A port's change of state changes the other ports' attachment in nothing. -/
theorem attachedPorts_without (p : Port) (r : PortRec) (s : State) :
    (dropPort p (s.setPort p r)).attachedPorts.without p = s.attachedPorts.without p := by
  cases p <;> rfl

theorem attachedControllers_without (p : Port) (r : PortRec) (s : State) :
    (dropPort p (s.setPort p r)).attachedControllers.without p = s.attachedControllers.without p := by
  cases p <;> rfl

@[simp] theorem dropPort_recordOut (p q : Port) (n : Nat) (s : State) : dropPort p (recordOut q n s) = recordOut q n (dropPort p s) := by
  unfold dropPort
  rw [recordOut_journal]
  exact putJournal_recordOut q n s _

/-! ### DETACH and ATTACH -/

/-- A port's leaving: its record, and PORT_LAPSED to the others (R188, R189). -/
theorem leavePort_eq (p : Port) (x : PortState) (why : LapseCause) (s : State) :
    leavePort p x why s = writeEvent (s.attachedPorts.without p) none s.now (.portLapsed p why)
      (dropPort p (s.setPort p { s.port p with state := x, expiry := none })) := by
  unfold leavePort State.otherPorts
  dsimp only
  rw [attachedPorts_without]

theorem leavePort_recordOut (p : Port) (x : PortState) (why : LapseCause) (n : Nat) (s : State) :
    leavePort p x why (recordOut p n s) = recordOut p n (leavePort p x why s) := by
  rw [leavePort_eq, leavePort_eq, setPort_recordOut p n s (fun r => { r with state := x, expiry := none }) (fun _ _ => rfl) (fun _ => rfl),
    dropPort_recordOut, writeEvent_recordOut, attachedPorts_recordOut, now_recordOut]

section

variable (p : Port) (x : PortState) (why : LapseCause) (s : State)

theorem port_leavePort_self : (leavePort p x why s).port p = { s.port p with state := x, expiry := none } := by
  rw [leavePort_eq, port_writeEvent_absent _ _ _ _ (absent_dropPort _ _)]
  simp

theorem leavePort_absent : Absent p (leavePort p x why s) := by
  rw [leavePort_eq]
  exact (absent_dropPort _ _).writeEvent _ _ _ _ (PortSet.without_has _ _)

theorem attachmentKept_leavePort {q : Port} (h : q ≠ p) : AttachmentKept (s.port q) ((leavePort p x why s).port q) := by
  rw [leavePort_eq]
  simp [AttachmentKept, h]

theorem journalAs_leavePort :
    JournalAs (writeEvent (s.attachedPorts.without p) none s.now (.portLapsed p why) (dropPort p s)) (leavePort p x why s) := by
  rw [leavePort_eq]
  refine JournalAs.writeEvent ⟨by simp [dropPort], fun q => ?_⟩ (by simp) _ _ _ _
  by_cases h : q = p
  · subst h
    simp
  · simp [h]

theorem portsOf_leavePort : portsOf s (leavePort p x why s) = s := by
  rw [leavePort_eq]
  simp [portsOf]

theorem buffersKept_leavePort : BuffersKept s (leavePort p x why s) := by
  intro q
  by_cases h : q = p
  · subst h
    rw [port_leavePort_self]
    exact ⟨rfl, rfl⟩
  · rw [leavePort_eq]
    simp [h]

end

/-- A transaction changes no more of its own port than the buffers. -/
theorem port_answered_self (p : Port) (code : Byte) (st : Status) (report : List Byte) (n : Nat) (s : State) (a b : List Byte) :
    { (answered p code st report n s).port p with response := a, dataOut := b } = { s.port p with response := a, dataOut := b } := by
  simp [answered]

theorem portsOf_answered (p : Port) (code : Byte) (st : Status) (report : List Byte) (n : Nat) (s t : State) :
    portsOf s (answered p code st report n t) = portsOf s t := by
  cases p <;> rfl

/-- Settles O10: the port leaves, and its own record is kept but for state and expiry. -/
theorem detachLeavesLinesAlone : Obligations.DetachLeavesLinesAlone := by
  intro p fill s hp hatt
  have hexec : exec (.detach p (frameTail [] fill)) s =
      .next (answered p 0x02 .ok [] (frameBytes [] fill) (leavePort p .detached .detach s)) := by
    refine serve_effect rfl (by decide) rfl (.inl hatt) ?_
    have hrule : ∀ u, leaveTest p u = u := by
      intro u
      cases p
      · rfl
      · rfl
      · exact absurd hp nofun
    rw [hrule, leavePort_recordOut]
    rfl
  refine ⟨_, hexec, replies_answered (buffersKept_leavePort _ _ _ _), ?_, ?_, (journalAs_leavePort _ _ _ _).answered, fun q hq => ?_, ?_⟩
  · rw [port_answered_self, port_leavePort_self]
  · rw [answered_journal]
    exact leavePort_absent _ _ _ _
  · have h := attachmentKept_leavePort p .detached .detach s hq
    simpa [answered, hq] using h
  · rw [portsOf_answered, portsOf_leavePort]

/-- An ATTACH taken: the port's new record, and PORT_ATTACHED to the other controllers (R186). -/
theorem takeAttach_eq (p : Port) (w : Nat) (mask : BitVec 6) (s : State) :
    takeAttach p w mask s = writeEvent (s.attachedControllers.without p) none s.now (.portAttached p (s.port p).state)
      (dropPort p (s.setPort p (attachedRec s.now w mask (s.port p)))) := by
  unfold takeAttach State.otherControllers
  dsimp only
  rw [attachedControllers_without]

theorem takeAttach_recordOut (p : Port) (w : Nat) (mask : BitVec 6) (n : Nat) (s : State) :
    takeAttach p w mask (recordOut p n s) = recordOut p n (takeAttach p w mask s) := by
  rw [takeAttach_eq, takeAttach_eq, now_recordOut, setPort_recordOut p n s (attachedRec s.now w mask) (fun _ _ => rfl) (fun _ => rfl),
    dropPort_recordOut, writeEvent_recordOut, attachedControllers_recordOut, port_recordOut_self]

theorem port_takeAttach_self (p : Port) (w : Nat) (mask : BitVec 6) (s : State) :
    (takeAttach p w mask s).port p = attachedRec s.now w mask (s.port p) := by
  rw [takeAttach_eq, port_writeEvent_absent _ _ _ _ (absent_dropPort _ _)]
  simp

/-- Settles O9: the port's record is set anew, and the other controllers are told. -/
theorem attachStartsAfresh : Obligations.AttachStartsAfresh := by
  intro p hi lo mask fill s
  refine ⟨fun hmask => serve_effect rfl (by decide) rfl (.inr rfl) ?_, fun hmask => ?_⟩
  · simp [attachRule, maskOf_none hmask, deny]
  · intro window
    have hexec : exec (.attach p (frameTail [hi, lo, mask] fill)) s = .next (answered p 0x01 .ok (bytes2 window)
        (frameBytes [hi, lo, mask] fill) (takeAttach p window (mask.setWidth 6) s)) := by
      refine serve_effect rfl (by decide) rfl (.inr rfl) ?_
      have hword : word2 [hi, lo, mask] 0 = hi.toNat * 256 + lo.toNat := rfl
      simp only [attachRule, arg_cons_succ, arg_cons_zero, maskOf_some hmask, takeAttach_recordOut, hword, window]
    have hself := port_takeAttach_self p window (mask.setWidth 6) s
    have hport : ∀ {α : Type} (f : PortRec → α), (∀ r a b, f { r with response := a, dataOut := b } = f r) →
        f ((answered p 0x01 .ok (bytes2 window) (frameBytes [hi, lo, mask] fill) (takeAttach p window (mask.setWidth 6) s)).port p) =
          f (attachedRec s.now window (mask.setWidth 6) (s.port p)) := by
      intro α f hf
      have h := port_answered_self p 0x01 .ok (bytes2 window) (frameBytes [hi, lo, mask] fill) (takeAttach p window (mask.setWidth 6) s) [] []
      rw [← hf _ [] [], h, hf, hself]
    have hbuffers : BuffersKept s (takeAttach p window (mask.setWidth 6) s) := by
      intro q
      by_cases h : q = p
      · subst h
        rw [hself]
        exact ⟨rfl, rfl⟩
      · rw [takeAttach_eq]
        simp [h]
    refine ⟨_, hexec, replies_answered hbuffers, hport PortRec.state fun _ _ _ => rfl, hport PortRec.window fun _ _ _ => rfl, ?_,
      hport PortRec.gap fun _ _ _ => rfl, hport PortRec.phase fun _ _ _ => rfl, hport PortRec.expiry fun _ _ _ => rfl, ?_, ?_,
      fun q hq => ?_, ?_⟩
    · have hm := hport PortRec.alertMask fun _ _ _ => rfl
      rw [hm]
      simp [attachedRec]
      omega
    · rw [answered_journal, takeAttach_eq]
      exact (absent_dropPort _ _).writeEvent _ _ _ _ (PortSet.without_has _ _)
    · refine JournalAs.answered ?_
      rw [takeAttach_eq]
      refine JournalAs.writeEvent ⟨by simp [dropPort], fun q => ?_⟩ (by simp) _ _ _ _
      by_cases h : q = p
      · subst h
        simp [attachedRec]
      · simp [h]
    · have hkept : AttachmentKept (s.port q) ((takeAttach p window (mask.setWidth 6) s).port q) := by
        rw [takeAttach_eq]
        simp [AttachmentKept, hq]
      simpa [answered, hq] using hkept
    · rw [portsOf_answered, takeAttach_eq]
      simp [portsOf]

/-! ### READ_EVENTS -/

/-- The entries READ_EVENTS leaves pending for another port are those that were, with their events (R192). -/
theorem takeEntries_others {p q : Port} (h : q ≠ p) (n : Nat) (es : List Entry) :
    ((takeEntries p n es).filter (fun e => e.pend.has q)).map (fun e => e.event) = (es.filter (fun e => e.pend.has q)).map (fun e => e.event) := by
  have hwithout : ∀ x : PortSet, (x.without p).has q = x.has q := by
    intro x
    cases p <;> cases q <;> first | rfl | exact absurd rfl h
  have hempty : ∀ x : PortSet, x.isEmpty = true → x.has q = false := by
    rintro ⟨_ | _, _ | _, _ | _⟩ hx <;> first | cases q <;> rfl | exact absurd hx nofun
  induction es generalizing n with
  | nil => cases n <;> rfl
  | cons e es ih =>
    cases n with
    | zero => rfl
    | succ n =>
      unfold takeEntries
      split
      · dsimp only
        split
        · rename_i hgone
          have hq : e.pend.has q = false := by rw [← hwithout, hempty _ hgone]
          simp [ih, hq]
        · by_cases hq : e.pend.has q = true <;> simp [ih, hwithout, hq]
      · by_cases hq : e.pend.has q = true <;> simp [ih, hq]

/-- No entry is left without a port (R192). -/
theorem takeEntries_pend (p : Port) (n : Nat) (es : List Entry) (h : ∀ e ∈ es, e.pend.isEmpty = false) :
    ∀ e ∈ takeEntries p n es, e.pend.isEmpty = false := by
  intro e he
  obtain ⟨e', he', heq | ⟨-, hne⟩⟩ := (takeEntries_spec p n es).2 e he
  · rw [heq]
    exact h e' he'
  · exact hne

/-- Settles O13: the GAP record, the entries taken, and the entries left. -/
theorem readEventsDeliversOldest : Obligations.ReadEventsDeliversOldest := by
  intro p b fill s hatt
  refine ⟨fun hb => serve_effect rfl (by decide) rfl (.inl hatt) ?_, fun hlow hhigh => ?_⟩
  · rw [readEventsRule, arg_cons_zero, if_pos hb]
    rfl
  · intro gap first k taken
    have hfirst : gapRecord p s = first := rfl
    have hk : b.toNat - first.length = k := by
      by_cases h : 0 < gap <;> simp [first, k, h]
    let u : State := { s.setPort p { s.port p with gap := 0 } with journal := takeEntries p k s.journal }
    have hexec : exec (.readEvents p (frameTail [b] fill)) s = .next (answered p 0x04 .ok
        ((first ++ taken.map (fun e => eventBytes e.event)).flatten) (frameBytes [b] fill) u) := by
      refine serve_effect rfl (by decide) rfl (.inl hatt) ?_
      have hgapr : gapRecord p (recordOut p (frameBytes [b] fill) s) = first := by simp [gapRecord, first, gap]
      have hpend : (recordOut p (frameBytes [b] fill) s).pendingFor p = s.pendingFor p := by simp [State.pendingFor]
      rw [readEventsRule, arg_cons_zero, if_neg (by omega), readEvents]
      dsimp only
      rw [hgapr, hpend, hk, recordOut_journal,
        setPort_recordOut p (frameBytes [b] fill) s (fun r => { r with gap := 0 }) (fun _ _ => rfl) (fun _ => rfl), putJournal_recordOut]
    have hself : u.port p = { s.port p with gap := 0 } := by cases p <;> rfl
    have hother : ∀ q, q ≠ p → u.port q = s.port q := fun q hq => State.port_setPort_ne s _ hq
    have hbuffers : BuffersKept s u := by
      intro q
      by_cases h : q = p
      · subst h
        rw [hself]
        exact ⟨rfl, rfl⟩
      · rw [hother q h]
        exact ⟨rfl, rfl⟩
    have hattach : AttachmentsKept s u := by
      intro q
      by_cases h : q = p
      · subst h
        rw [hself]
        exact ⟨rfl, rfl, rfl, rfl, rfl⟩
      · rw [hother q h]
        exact ⟨rfl, rfl, rfl, rfl, rfl⟩
    refine ⟨_, hexec, replies_answered hbuffers, ?_, fun q hq => ?_, ?_, fun q hq => ?_, fun hne => ?_, hattach.answered, ?_⟩
    · rw [gap_answered, hself]
    · rw [gap_answered, hother q hq]
    · rw [State.pendingFor, answered_journal]
      exact takeEntries_pending p k s.journal
    · rw [State.pendingFor, answered_journal]
      exact takeEntries_others hq k s.journal
    · rw [answered_journal]
      exact takeEntries_pend p k s.journal hne
    · rw [portsOf_answered]
      cases p <;> rfl

/-! ### The window expiry of a controller port -/

/-- The same change made to each line of a list, none twice. -/
theorem line_forLines_modLine {ls : List LineNo} (h : ls.Nodup) (f : Line → Line) (s : State) (m : LineNo) :
    (forLines ls (fun l u => u.modLine l f) s).line m = if m ∈ ls then f (s.line m) else s.line m := by
  unfold forLines
  induction ls generalizing s with
  | nil => simp
  | cons l ls ih =>
    obtain ⟨hl, hls⟩ := List.nodup_cons.1 h
    rw [List.foldl_cons, ih hls]
    by_cases hm : m = l
    · subst hm
      simp [hl]
    · simp [hm]

/-- A change made to the lines of a list changes nothing but the lines. -/
theorem forLines_modLine_rest (ls : List LineNo) (f : Line → Line) (s : State) :
    { forLines ls (fun l u => u.modLine l f) s with lines := s.lines } = s := by
  unfold forLines
  induction ls generalizing s with
  | nil => rfl
  | cons l ls ih => exact congrArg (fun u : State => { u with lines := s.lines }) (ih (s.modLine l f))

/-- A takeover by an attached fellow: the lines with the lapsed port alone and takeover move to it (R188 step 4). -/
theorem line_takeover (p q : Port) (s : State) (l : LineNo) :
    (takeover p q s).line l =
      if (s.line l).subscription = onlySubscription p ∧ (s.effective l).takeover = true then { s.line l with subscription := onlySubscription q }
      else s.line l := by
  have hnodup : (s.movingLines p).Nodup := (List.nodup_finRange 64).filter _
  have hlines : (takeover p q s).line l =
      (forLines (s.movingLines p) (fun l u => u.modLine l (fun r => { r with subscription := onlySubscription q })) s).line l := by
    unfold takeover
    dsimp only
    split
    · rfl
    · rw [line_writeEvent]
  rw [hlines, line_forLines_modLine hnodup]
  simp [State.movingLines, allLines]

/-- A takeover changes the lines' subscriptions, and writes TAKEOVER when one or more moved. -/
theorem takeover_rest (p q : Port) (s : State) :
    { takeover p q s with lines := s.lines } =
      if (s.movingLines p).length = 0 then s else writeEvent (onlyPort q) none s.now (.takeover p (s.movingLines p).length) s := by
  have hrest := forLines_modLine_rest (s.movingLines p) (fun r => { r with subscription := onlySubscription q }) s
  unfold takeover
  dsimp only
  by_cases h : (s.movingLines p).length = 0
  · have hempty : (s.movingLines p).isEmpty = true := by simpa using h
    rw [if_pos h, if_pos hempty]
    exact hrest
  · have hempty : ¬ (s.movingLines p).isEmpty = true := by simpa using h
    rw [if_neg h, if_neg hempty]
    have happart := writeEvent_apart (forLines (s.movingLines p) (fun l s => s.modLine l fun r => { r with subscription := onlySubscription q }) s)
      (onlyPort q) none s.now (.takeover p (s.movingLines p).length) (fun u => { u with lines := s.lines }) (fun _ _ _ _ _ => rfl)
      (fun _ => ⟨rfl, rfl, rfl, rfl, rfl⟩)
    exact happart.trans (congrArg _ hrest)

/-- Settles O15: the port leaves, and the lines of its own that have takeover move to its fellow. -/
theorem windowExpiryLapsesAndMovesLines : Obligations.WindowExpiryLapsesAndMovesLines := by
  intro p q s hq hatt hdue moves u n
  have hpq : q ≠ p := by
    rintro rfl
    cases q <;> exact absurd hq nofun
  let v := leavePort p .lapsed .lapse s
  let t := takeoverStep p v
  have hexec : exec (.windowExpiry p) s = .next t := by
    have hlapse : ∀ w, lapseTest p w = w := by
      intro w
      cases p
      · rfl
      · rfl
      · exact absurd hq nofun
    change execWindowExpiry p s = _
    rw [execWindowExpiry, if_pos ⟨hatt, hdue⟩, lapsePort, hlapse]
  have hvline : ∀ l, v.line l = s.line l := fun l => by simp [v, leavePort_eq]
  have hveff : ∀ l, v.effective l = s.effective l := fun l => by simp [v, leavePort_eq]
  have hvatt : v.attached q = s.attached q := by simp [v, leavePort_eq, State.attached, hpq]
  have hvnow : v.now = s.now := by simp [v, leavePort_eq]
  have hstep : t = if s.attached q = true then takeover p q v else v := by
    change takeoverStep p v = _
    rw [takeoverStep, hq, ← hvatt]
  have hlines : ∀ l, t.line l = if moves l = true then { s.line l with subscription := onlySubscription q } else s.line l := by
    intro l
    by_cases ha : s.attached q = true
    · rw [hstep, if_pos ha, line_takeover, hvline, hveff]
      simp [moves, ha]
    · rw [hstep, if_neg ha, hvline]
      simp [moves, ha]
  have hrest : { t with lines := v.lines } = if n = 0 then v else writeEvent (onlyPort q) none s.now (.takeover p n) v := by
    by_cases ha : s.attached q = true
    · have hmoving : v.movingLines p = allLines.filter moves := by
        simp only [State.movingLines, hvline, hveff]
        simp [moves, ha]
      have h := takeover_rest p q v
      rw [hmoving, hvnow] at h
      rw [hstep, if_pos ha]
      exact h
    · have hn : n = 0 := by simp [n, moves, ha]
      rw [hstep, if_neg ha, if_pos hn]
  have htports : ∀ x, t.port x = (if n = 0 then v else writeEvent (onlyPort q) none s.now (.takeover p n) v).port x := by
    intro x
    rw [← hrest]
    cases x <;> rfl
  have hself : t.port p = { s.port p with state := .lapsed, expiry := none } := by
    have hv : v.port p = { s.port p with state := .lapsed, expiry := none } := port_leavePort_self p .lapsed .lapse s
    rw [htports, ← hv]
    split
    · rfl
    · exact port_writeEvent_absent _ _ _ _ (leavePort_absent p .lapsed .lapse s)
  have hjournal : t.journal = (if n = 0 then v else writeEvent (onlyPort q) none s.now (.takeover p n) v).journal := by
    rw [← hrest]
  refine ⟨t, hexec, by rw [hself], ?_, ?_, hlines, fun x => ?_, fun x hx => ?_, ?_⟩
  · have habsent : Absent p v := leavePort_absent p .lapsed .lapse s
    rw [hjournal]
    split
    · exact habsent
    · refine habsent.writeEvent _ _ _ _ ?_
      cases p <;> cases q <;> first | rfl | exact absurd rfl hpq
  · have hv : JournalAs u v := journalAs_leavePort p .lapsed .lapse s
    refine JournalAs.trans ?_ ⟨hjournal, fun x => by rw [htports]⟩
    split
    · exact hv
    · exact hv.writeEvent (by simp [u, v, leavePort_eq]) _ _ _ _
  · have hv := buffersKept_leavePort p .lapsed .lapse s x
    rw [htports]
    split
    · exact hv
    · simpa using hv
  · have hv := attachmentKept_leavePort p .lapsed .lapse s hx
    rw [htports]
    split
    · exact hv
    · simpa [AttachmentKept] using hv
  · have hv : linesOf s v = s := by
      rw [linesOf, portsOf_leavePort]
    have h : linesOf s t = linesOf s { t with lines := v.lines } := rfl
    rw [h, hrest]
    split
    · exact hv
    · have hw : linesOf s (writeEvent (onlyPort q) none s.now (.takeover p n) v) = linesOf s v := by simp [linesOf, portsOf]
      exact hw.trans hv

end Sys2Proof.Machine
end

