-- ==== Sys2Proof/Proofs/EventsAndFeeds.lean ====
section
/-! PROOF. Several events written in a row, and the effect of a recomputation of the feed mode. -/

namespace Sys2Proof.Machine

/-! ### Several events -/

/-- An event to be written: its pending set, line, time and body. -/
structure Message where
  /-- the ports it is pending for -/
  pend : PortSet
  /-- its line, or the device -/
  line : Option LineNo
  /-- its condition time -/
  time : Time
  /-- its body -/
  body : EventBody

/-- The events of a list written in its order. -/
def tell (es : List Message) (s : State) : State := es.foldl (fun u e => writeEvent e.pend e.line e.time e.body u) s

section

variable (es : List Message) (s : State)

@[simp] theorem tell_nil : tell [] s = s := rfl

theorem tell_cons (e : Message) : tell (e :: es) s = tell es (writeEvent e.pend e.line e.time e.body s) := rfl

theorem tell_append (fs : List Message) : tell (es ++ fs) s = tell fs (tell es s) := List.foldl_append

/-- What a write of any event leaves, the writes of several leave. -/
theorem tell_reads {α : Type} (f : State → α) (h : ∀ q o t b u, f (writeEvent q o t b u) = f u) : f (tell es s) = f s := by
  induction es generalizing s with
  | nil => rfl
  | cons e es ih => rw [tell_cons, ih, h]

/-- What commutes with a write of any event commutes with the writes of several. -/
theorem tell_apart (f : State → State) (h : ∀ q o t b u, f (writeEvent q o t b u) = writeEvent q o t b (f u)) :
    f (tell es s) = tell es (f s) := by
  induction es generalizing s with
  | nil => rfl
  | cons e es ih => rw [tell_cons, ih, h, ← tell_cons]

@[simp] theorem tell_lines : (tell es s).lines = s.lines := tell_reads es s _ fun _ _ _ _ _ => by simp
@[simp] theorem tell_store : (tell es s).store = s.store := tell_reads es s _ fun _ _ _ _ _ => by simp
@[simp] theorem tell_pool : (tell es s).pool = s.pool := tell_reads es s _ fun _ _ _ _ _ => by simp
@[simp] theorem tell_scan : (tell es s).scan = s.scan := tell_reads es s _ fun _ _ _ _ _ => by simp
@[simp] theorem tell_sweep : (tell es s).sweep = s.sweep := tell_reads es s _ fun _ _ _ _ _ => by simp
@[simp] theorem tell_test : (tell es s).test = s.test := tell_reads es s _ fun _ _ _ _ _ => by simp
@[simp] theorem tell_tb : (tell es s).tb = s.tb := tell_reads es s _ fun _ _ _ _ _ => by simp
@[simp] theorem tell_bat : (tell es s).bat = s.bat := tell_reads es s _ fun _ _ _ _ _ => by simp
@[simp] theorem tell_link0 : (tell es s).link0 = s.link0 := tell_reads es s _ fun _ _ _ _ _ => by simp
@[simp] theorem tell_link1 : (tell es s).link1 = s.link1 := tell_reads es s _ fun _ _ _ _ _ => by simp
@[simp] theorem tell_pending : (tell es s).pending = s.pending := tell_reads es s _ fun _ _ _ _ _ => by simp
@[simp] theorem line_tell (l : LineNo) : (tell es s).line l = s.line l := State.line_congr (tell_lines es s) l
@[simp] theorem now_tell : (tell es s).now = s.now := congrArg TimeBase.counter (tell_tb es s)
@[simp] theorem effective_tell (l : LineNo) : (tell es s).effective l = s.effective l := effective_congr (tell_store es s) l
@[simp] theorem linePorts_tell (l : LineNo) : (tell es s).linePorts l = s.linePorts l :=
  tell_reads es s (fun u => u.linePorts l) fun _ _ _ _ _ => linePorts_writeEvent ..
@[simp] theorem derivedMode_tell (l : LineNo) : (tell es s).derivedMode l = s.derivedMode l :=
  tell_reads es s (fun u => u.derivedMode l) fun _ _ _ _ _ => derivedMode_writeEvent ..

theorem tell_modLine (l : LineNo) (f : Line → Line) : (tell es s).modLine l f = tell es (s.modLine l f) :=
  tell_apart es s (fun u => u.modLine l f) fun _ _ _ _ _ => writeEvent_modLine ..

theorem tell_setLine (l : LineNo) (r : Line) : (tell es s).setLine l r = tell es (s.setLine l r) :=
  tell_apart es s (fun u => u.setLine l r) fun _ _ _ _ _ => writeEvent_setLine ..

theorem releaseUnlocked_tell (l : LineNo) : releaseUnlocked l (tell es s) = tell es (releaseUnlocked l s) :=
  tell_apart es s _ fun _ _ _ _ _ => releaseUnlocked_writeEvent ..

end

theorem JournalAs.tell {s t : State} (h : JournalAs s t) (htb : t.tb = s.tb) (es : List Message) : JournalAs (tell es s) (tell es t) := by
  induction es generalizing s t with
  | nil => exact h
  | cons e es ih => exact ih (h.writeEvent htb ..) (by simp [htb])

/-! ### A recomputation of the feed mode -/

/-- The second of two recomputations does nothing (R36). -/
theorem recomputeFeed_idem (l : LineNo) (s : State) : recomputeFeed l (recomputeFeed l s) = recomputeFeed l s := by
  have h : (recomputeFeed l s).derivedMode l = ((recomputeFeed l s).line l).sentMode := by
    rw [derivedMode_recomputeFeed, recomputeFeed_sent]
  conv_lhs => rw [recomputeFeed, recomputeFeedWith]
  exact if_pos ⟨h, rfl⟩

/-- A command goes out on the link of the line's bank (R37). -/
theorem sendCommand_links (l : LineNo) (m : FeedMode) (x : SourceOrder) (s : State) :
    (sendCommand l m x s).link0 = (if l.val < 32 then s.link0 ++ [⟨positionOf l, m, x⟩] else s.link0) ∧
      (sendCommand l m x s).link1 = (if l.val < 32 then s.link1 else s.link1 ++ [⟨positionOf l, m, x⟩]) ∧
      { sendCommand l m x s with link0 := s.link0, link1 := s.link1 } = s := by
  unfold sendCommand bankOf
  split <;> rename_i h <;> split at h <;> rename_i hb
  · simp [hb]
  · exact absurd h nofun
  · exact absurd h nofun
  · simp [hb]

/-- A recomputation that sends nothing (R36). -/
theorem recomputeFeed_same {l : LineNo} {s : State} (h : s.derivedMode l = (s.line l).sentMode) : recomputeFeed l s = s := if_pos ⟨h, rfl⟩

/-- A recomputation that sends its command (R36, R37). -/
theorem recomputeFeedWith_sends {o : SourceOrder} {l : LineNo} {s : State} (h : s.derivedMode l ≠ (s.line l).sentMode ∨ o ≠ .none) :
    recomputeFeedWith o l s = sendCommand l (s.derivedMode l) o (s.modLine l (noteMode (s.derivedMode l))) := by
  unfold recomputeFeedWith
  dsimp only
  exact if_neg fun hc => h.elim (fun hm => hm hc.1) fun ho => ho hc.2

/-- A feed mode recomputed after changes that sent no command is sent once when it differs (R36, R37). -/
theorem feedSent_recompute {l : LineNo} {s v : State} (hsent : (v.line l).sentMode = (s.line l).sentMode) (h0 : v.link0 = s.link0)
    (h1 : v.link1 = s.link1) : FeedSent l s (recomputeFeed l v) := by
  refine ⟨by rw [recomputeFeed_sent, derivedMode_recomputeFeed], ?_⟩
  rw [derivedMode_recomputeFeed, ← hsent, ← h0, ← h1]
  by_cases h : v.derivedMode l = (v.line l).sentMode
  · rw [recomputeFeed_same h, if_pos h]
    simp
  · rw [recomputeFeed, recomputeFeedWith_sends (.inl h), if_neg h]
    obtain ⟨hl0, hl1, -⟩ := sendCommand_links l (v.derivedMode l) .none (v.modLine l (noteMode (v.derivedMode l)))
    exact ⟨hl0, hl1⟩

/-- A recomputation that sends: the record, the other lines, the links, and the rest (R36, R37, R25). -/
theorem recomputeFeedWith_effect {o : SourceOrder} {l : LineNo} {s : State} (h : s.derivedMode l ≠ (s.line l).sentMode ∨ o ≠ .none) :
    (recomputeFeedWith o l s).line l = noteMode (s.derivedMode l) (s.line l) ∧
      OtherLines l s (recomputeFeedWith o l s) ∧
      (recomputeFeedWith o l s).link0 = (if l.val < 32 then s.link0 ++ [⟨positionOf l, s.derivedMode l, o⟩] else s.link0) ∧
      (recomputeFeedWith o l s).link1 = (if l.val < 32 then s.link1 else s.link1 ++ [⟨positionOf l, s.derivedMode l, o⟩]) ∧
      { recomputeFeedWith o l s with lines := s.lines, link0 := s.link0, link1 := s.link1 } = s := by
  refine ⟨recomputeFeedWith_line_self _ _ _, fun m hm => recomputeFeedWith_line_ne _ hm _, ?_⟩
  rw [recomputeFeedWith_sends h]
  obtain ⟨h0, h1, hrest⟩ := sendCommand_links l (s.derivedMode l) o (s.modLine l (noteMode (s.derivedMode l)))
  exact ⟨h0, h1, congrArg (fun u : State => { u with lines := s.lines }) hrest⟩

end Sys2Proof.Machine
end

