-- ==== Sys2Proof/Proofs/FaultCounting.lean ====
section
/-! PROOF. The counting of fault observations and what a group does to the line. -/

namespace Sys2Proof.Machine

/-! ### Observations one after the other -/

/-- The observations of one verdict at the times of a list, with the reports they give. -/
def countRun (v : Verdict) (c k : Nat) (ts : List Time) (x : FaultEntry × List (Bool × Time)) : FaultEntry × List (Bool × Time) :=
  ts.foldl (fun x t => ((countObservation x.1 v c k t).1, x.2 ++ (countObservation x.1 v c k t).2.toList)) x

/-- A run of BAD observations that has begun: it reports with its `c`-th, and not before (R150). -/
theorem countRun_suspect {c k n : Nat} {ts : List Time} (first : Time) (rs : List (Bool × Time)) (hn : n + ts.length ≤ c) (h0 : n < c) :
    countRun .bad c k ts (⟨.suspect, n, some first⟩, rs) =
      if n + ts.length = c then (⟨.present, 0, none⟩, rs ++ [(true, first)]) else (⟨.suspect, n + ts.length, some first⟩, rs) := by
  induction ts generalizing n rs with
  | nil =>
    rw [if_neg (by simp; omega)]
    rfl
  | cons t ts ih =>
    rw [List.length_cons] at hn ⊢
    by_cases hlast : n + 1 = c
    · obtain rfl : ts = [] := List.length_eq_zero_iff.1 (by omega)
      simp [countRun, countObservation, hlast, presentEntry]
    · have hstep : countRun .bad c k (t :: ts) (⟨.suspect, n, some first⟩, rs) = countRun .bad c k ts (⟨.suspect, n + 1, some first⟩, rs) := by
        have hle : ¬ c ≤ n + 1 := by omega
        simp [countRun, countObservation, hle]
      rw [hstep, ih rs (by omega) (by omega)]
      simp only [Nat.add_assoc, Nat.add_comm 1]

/-- A run of GOOD observations that has begun: it reports with its `k`-th, and not before (R150). -/
theorem countRun_easing {c k n : Nat} {ts : List Time} (first : Time) (rs : List (Bool × Time)) (hn : n + ts.length ≤ k) (h0 : n < k) :
    countRun .good c k ts (⟨.easing, n, some first⟩, rs) =
      if n + ts.length = k then (⟨.clear, 0, none⟩, rs ++ [(false, first)]) else (⟨.easing, n + ts.length, some first⟩, rs) := by
  induction ts generalizing n rs with
  | nil =>
    rw [if_neg (by simp; omega)]
    rfl
  | cons t ts ih =>
    rw [List.length_cons] at hn ⊢
    by_cases hlast : n + 1 = k
    · obtain rfl : ts = [] := List.length_eq_zero_iff.1 (by omega)
      simp [countRun, countObservation, hlast, clearEntry]
    · have hstep : countRun .good c k (t :: ts) (⟨.easing, n, some first⟩, rs) = countRun .good c k ts (⟨.easing, n + 1, some first⟩, rs) := by
        have hle : ¬ k ≤ n + 1 := by omega
        simp [countRun, countObservation, hle]
      rw [hstep, ih rs (by omega) (by omega)]
      simp only [Nat.add_assoc, Nat.add_comm 1]

/-! ### A group of observations -/

section

variable (l : LineNo) (stamp : Time)

/-- The Fault Set after one observation (R150). -/
def observe (p : Profile) (f : FaultSet) (o : FaultKind × Verdict) : FaultSet :=
  f.setEntry o.1 (countObservation (f.entry o.1) o.2 p.confirm p.clear stamp).1

/-- The report of one observation, to the line's controllers (R150). -/
def reportOf (q : PortSet) (p : Profile) (f : FaultSet) (o : FaultKind × Verdict) : List Message :=
  match (countObservation (f.entry o.1) o.2 p.confirm p.clear stamp).2 with
  | some (true, first) => [⟨q, some l, first, .faultRaised o.1⟩]
  | some (false, first) => [⟨q, some l, first, .faultCleared o.1⟩]
  | none => []

/-- The reports of a group in its order (R151). -/
def reportsOf (q : PortSet) (p : Profile) : FaultSet → List (FaultKind × Verdict) → List Message
  | _, [] => []
  | f, o :: os => reportOf l stamp q p f o ++ reportsOf q p (observe stamp p f o) os

/-- The record of a line with another Fault Set. -/
def withFaults (f : FaultSet) (r : Line) : Line := { r with faults := f }

theorem countOne_eq (o : FaultKind × Verdict) (s : State) :
    countOne l stamp o s = tell (reportOf l stamp (s.linePorts l) (s.effective l) (s.line l).faults o)
      (s.modLine l (withFaults (observe stamp (s.effective l) (s.line l).faults o))) := by
  unfold countOne reportOf
  dsimp only
  have hports : (s.modLine l (withFaults (observe stamp (s.effective l) (s.line l).faults o))).linePorts l = s.linePorts l :=
    linePorts_setLine s l l _ rfl
  generalize (countObservation ((s.line l).faults.entry o.1) o.2 (s.effective l).confirm (s.effective l).clear stamp).2 = report
  obtain _ | ⟨_ | _, first⟩ := report
  · rfl
  · exact congrArg (fun q => writeEvent q (some l) first (.faultCleared o.1)
      (s.modLine l (withFaults (observe stamp (s.effective l) (s.line l).faults o)))) hports
  · exact congrArg (fun q => writeEvent q (some l) first (.faultRaised o.1)
      (s.modLine l (withFaults (observe stamp (s.effective l) (s.line l).faults o)))) hports

/-- A group counted: its reports, and one new Fault Set (R151). -/
theorem countAll_eq (os : List (FaultKind × Verdict)) (s : State) :
    countAll l stamp os s = tell (reportsOf l stamp (s.linePorts l) (s.effective l) (s.line l).faults os)
      (s.modLine l (withFaults (os.foldl (observe stamp (s.effective l)) (s.line l).faults))) := by
  induction os generalizing s with
  | nil =>
    refine (setLine_line s l).symm.trans ?_
    rfl
  | cons o os ih =>
    have hstep : countAll l stamp (o :: os) s = countAll l stamp os (countOne l stamp o s) := rfl
    have hports : (s.modLine l (withFaults (observe stamp (s.effective l) (s.line l).faults o))).linePorts l = s.linePorts l :=
      linePorts_setLine s l l _ rfl
    rw [hstep, ih, countOne_eq, tell_modLine, ← tell_append, linePorts_tell, hports, effective_tell, effective_modLine, line_tell,
      State.line_modLine_self]
    have htwice : ∀ f g, (s.modLine l (withFaults f)).modLine l (withFaults g) = s.modLine l (withFaults g) := fun f g => by
      simp [State.modLine, withFaults]
    rw [htwice]
    rfl

/-- One observation of a group: the Fault Set it leaves, and its report written (R150, R151). -/
def countReport (q : PortSet) (p : Profile) (x : FaultSet × State) (o : FaultKind × Verdict) : FaultSet × State :=
  (observe stamp p x.1 o, tell (reportOf l stamp q p x.1 o) x.2)

theorem foldl_countReport (q : PortSet) (p : Profile) (os : List (FaultKind × Verdict)) (f : FaultSet) (s : State) :
    os.foldl (countReport l stamp q p) (f, s) = (os.foldl (observe stamp p) f, tell (reportsOf l stamp q p f os) s) := by
  induction os generalizing f s with
  | nil => rfl
  | cons o os ih =>
    rw [List.foldl_cons, countReport, ih]
    simp only [reportsOf, tell_append, List.foldl_cons]

end

/-! ### The FAULT reason after a group -/

theorem reasonsTaken_same {q : Reasons} {r : Line} (h : q = r.reasons) : reasonsTaken q r = r := by
  subst h
  unfold reasonsTaken
  rw [if_neg (fun hc => hc.2 hc.1), if_neg (fun hc => hc.1 hc.2.1)]

theorem sparesStatus_reasonsTaken (q : Reasons) : SparesStatus (reasonsTaken q) := by
  intro r d
  unfold reasonsTaken
  dsimp only
  split
  · cases r.state <;> rfl
  · split <;> rfl

theorem reasonsTaken_sent (q : Reasons) (r : Line) :
    (reasonsTaken q r).sentMode = r.sentMode ∧ (reasonsTaken q r).recoveryDiscard = r.recoveryDiscard ∧
      (reasonsTaken q r).subscription = r.subscription := by
  unfold reasonsTaken
  dsimp only
  split
  · cases r.state <;> exact ⟨rfl, rfl, rfl⟩
  · split <;> exact ⟨rfl, rfl, rfl⟩

/-- The events of a change of the reason set to `q` (R78). -/
def reasonNotes (l : LineNo) (q : Reasons) (s : State) : List Message :=
  if q = (s.line l).reasons then [] else [⟨s.linePorts l, some l, s.now, .blockChanged q⟩]

/-- What a change of the reason set releases (R79). -/
def releasedBy (l : LineNo) (q : Reasons) (r : Line) (s : State) : State := if breaksCall q r = true then releaseUnlocked l s else s

/-- A change of the reason set, or none: its report, the record, the detector of a call that ends; and the feed mode of a line whose ringing
it ends (R78 to R82). -/
theorem setReasons_effect (l : LineNo) (q : Reasons) (s : State) :
    let v := tell (reasonNotes l q s) ((releasedBy l q (s.line l) s).modLine l (reasonsTaken q))
    setReasons l q s = v ∨ setReasons l q s = recomputeFeed l v := by
  intro v
  by_cases h : q = (s.line l).reasons
  · left
    have hcall : ¬ breaksCall q (s.line l) = true := by
      simp only [breaksCall, decide_eq_true_eq]
      exact fun hc => hc.2.1 (h.trans hc.1)
    have hsame : s.modLine l (reasonsTaken q) = s := by
      rw [State.modLine, reasonsTaken_same h, setLine_line]
    simp only [v, reasonNotes, releasedBy, if_pos h, if_neg hcall, tell_nil, hsame]
    exact if_pos h.symm
  · rw [setReasons_eq l q s h]
    simp only [v, reasonNotes, releasedBy, if_neg h, afterReasons]
    split
    · left
      rw [releaseUnlocked_writeEvent]
      exact congrArg (writeEvent _ _ _ _) (releaseUnlocked_modLine (sparesStatus_reasonsTaken q) s l l)
    · split
      · exact .inr rfl
      · exact .inl rfl

/-- The reason set after a group that leaves the Fault Set `f` (R151, R154). -/
def reasonsAfter (p : Profile) (f : FaultSet) (r : Line) : Reasons :=
  if standing r.faults = standing f then r.reasons else { r.reasons with fault := p.autoBlock && isolatingFault f }

theorem modLine_modLine (l : LineNo) (f g : Line → Line) (s : State) : (s.modLine l f).modLine l g = s.modLine l (fun r => g (f r)) := by
  simp [State.modLine]

theorem sparesStatus_withFaults (f : FaultSet) : SparesStatus (withFaults f) := fun _ _ => rfl

/-- A group counted on a line that is not HELD: its reports, the change of the reason set, the record, the detector of a call that ends, and
perhaps the feed mode (R151). -/
theorem countGroup_effect {l : LineNo} (stamp : Time) (os : List (FaultKind × Verdict)) {s : State} (hst : (s.line l).state ≠ .held)
    {f : FaultSet} (hf : os.foldl (observe stamp (s.effective l)) (s.line l).faults = f) {q : Reasons}
    (hq : reasonsAfter (s.effective l) f (s.line l) = q) :
    let v := tell (reportsOf l stamp (s.linePorts l) (s.effective l) (s.line l).faults os ++ reasonNotes l q s)
      ((releasedBy l q (s.line l) s).modLine l (fun r => reasonsTaken q (withFaults f r)))
    countGroup l stamp os s = v ∨ countGroup l stamp os s = recomputeFeed l v := by
  intro v
  let s1 := countAll l stamp os s
  have hs1 : s1 = tell (reportsOf l stamp (s.linePorts l) (s.effective l) (s.line l).faults os) (s.modLine l (withFaults f)) :=
    hf ▸ countAll_eq l stamp os s
  have hline : s1.line l = withFaults f (s.line l) := by rw [hs1, line_tell, State.line_modLine_self]
  have hset : setReasons l q s1 = v ∨ setReasons l q s1 = recomputeFeed l v := by
    have hnotes : reasonNotes l q s1 = reasonNotes l q s := by
      have hports : s1.linePorts l = s.linePorts l := by
        rw [hs1, linePorts_tell]
        exact linePorts_setLine s l l _ rfl
      have hnow : s1.now = s.now := by rw [hs1, now_tell, now_modLine]
      simp only [reasonNotes, hline, hports, hnow, withFaults]
    have hreleased : releasedBy l q (s1.line l) s1 =
        tell (reportsOf l stamp (s.linePorts l) (s.effective l) (s.line l).faults os) ((releasedBy l q (s.line l) s).modLine l (withFaults f)) := by
      have hcall : breaksCall q (withFaults f (s.line l)) = breaksCall q (s.line l) := rfl
      simp only [releasedBy, hline, hcall]
      split
      · rw [hs1, releaseUnlocked_tell, releaseUnlocked_modLine (sparesStatus_withFaults f)]
      · exact hs1
    have h := setReasons_effect l q s1
    simp only [hnotes, hreleased, tell_modLine, modLine_modLine, ← tell_append] at h
    exact h
  have hreason : (if standing (s.line l).faults = standing (s1.line l).faults then s1 else recomputeReason l s1) = setReasons l q s1 := by
    rw [hline]
    rw [← hq, reasonsAfter]
    split
    · rename_i h
      have h' : standing (s.line l).faults = standing f := h
      rw [if_pos h', setReasons, hline]
      exact (if_pos rfl).symm
    · rename_i h
      have h' : ¬ standing (s.line l).faults = standing f := h
      have heff : s1.effective l = s.effective l := by rw [hs1, effective_tell, effective_modLine]
      rw [if_neg h', recomputeReason, State.faultReason, hline, heff]
      rfl
  have hgroup : countGroup l stamp os s = setReasons l q s1 ∨ countGroup l stamp os s = recomputeFeed l (setReasons l q s1) := by
    have h : countGroup l stamp os s = if decide ((s.line l).faults.foreignVoltage.state = .present) =
        decide ((s1.line l).faults.foreignVoltage.state = .present)
        then (if standing (s.line l).faults = standing (s1.line l).faults then s1 else recomputeReason l s1)
        else recomputeFeed l (if standing (s.line l).faults = standing (s1.line l).faults then s1 else recomputeReason l s1) := if_neg hst
    rw [h, hreason]
    split
    · exact .inl rfl
    · exact .inr rfl
  rcases hgroup with hg | hg <;> rcases hset with hv | hv <;> rw [hg, hv]
  · exact .inl rfl
  · exact .inr rfl
  · exact .inr rfl
  · exact .inr (recomputeFeed_idem l v)

/-- A group changes the line's record, the Tone Pool, the journal and the links, and nothing else. -/
theorem countGroup_rest (l : LineNo) (stamp : Time) (os : List (FaultKind × Verdict)) (s : State) :
    feedOf s { countGroup l stamp os s with pool := s.pool } = s := by
  by_cases hst : (s.line l).state = .held
  · rw [countGroup, if_pos hst]
    rfl
  · have hreleased : ∀ q, feedOf s { releasedBy l q (s.line l) s with pool := s.pool } = s := by
      intro q
      unfold releasedBy
      split
      · simp [feedOf, linesOf, portsOf]
      · rfl
    rcases countGroup_effect stamp os hst rfl rfl with h | h <;> rw [h] <;>
      simpa [feedOf, linesOf, portsOf] using hreleased (reasonsAfter (s.effective l)
        (os.foldl (observe stamp (s.effective l)) (s.line l).faults) (s.line l))

/-- An isolating kind entered or left PRESENT and EASING exactly when the standing kinds changed (R151 step 2). -/
theorem standing_ne_iff (f g : FaultSet) :
    standing f ≠ standing g ↔
      ∃ k ∈ ([.groundTip, .groundRing, .short, .foreignVoltage] : List FaultKind), faultStands (f.entry k) ≠ faultStands (g.entry k) := by
  simp only [standing, ne_eq, Prod.mk.injEq, List.mem_cons, List.not_mem_nil, or_false, exists_eq_or_imp, exists_eq_left, FaultSet.entry]
  tauto

theorem isolatingFault_iff (f : FaultSet) :
    isolatingFault f = true ↔
      ∃ k ∈ ([.groundTip, .groundRing, .short, .foreignVoltage] : List FaultKind), faultStands (f.entry k) = true := by
  simp [isolatingFault, FaultSet.entry, or_assoc]

/-- The reason set after a group is the one the statement asks for (R154). -/
theorem reasonsAfter_unique {p : Profile} {f : FaultSet} {r : Line} {q : Reasons}
    (h : standing r.faults ≠ standing f → q.controller = r.reasons.controller ∧ (q.fault = true ↔ p.autoBlock = true ∧ isolatingFault f = true))
    (h' : standing r.faults = standing f → q = r.reasons) : reasonsAfter p f r = q := by
  unfold reasonsAfter
  split
  · rename_i hs
    exact (h' hs).symm
  · rename_i hs
    obtain ⟨hc, hf⟩ := h hs
    rcases q with ⟨qc, qf⟩
    have hqf : qf = (p.autoBlock && isolatingFault f) := by
      rw [Bool.eq_iff_iff, Bool.and_eq_true]
      exact hf
    rw [hqf]
    exact congrArg (Reasons.mk · _) hc.symm

/-- Settles O55: the run of observations, and the effect of a group. -/
theorem faultsNeedARun : Obligations.FaultsNeedARun := by
  refine ⟨fun c k times first hc hk => ?_, fun l stamp observed s => ?_⟩
  · intro run n
    have hbad : 1 < c → run .bad ⟨.clear, 0, none⟩ = countRun .bad c k times (⟨.suspect, 1, some first⟩, []) := by
      intro h
      have hstep : countObservation ⟨.clear, 0, none⟩ .bad c k first = (⟨.suspect, 1, some first⟩, none) := if_neg (by omega)
      simp only [run, List.foldl_cons, hstep]
      rfl
    have hgood : 1 < k → run .good ⟨.present, 0, none⟩ = countRun .good c k times (⟨.easing, 1, some first⟩, []) := by
      intro h
      have hstep : countObservation ⟨.present, 0, none⟩ .good c k first = (⟨.easing, 1, some first⟩, none) := if_neg (by omega)
      simp only [run, List.foldl_cons, hstep]
      rfl
    refine ⟨fun h => ?_, fun h => ?_, fun h => ?_, fun h => ?_, fun i start t => ⟨rfl, rfl⟩⟩
    · by_cases h1 : 1 < c
      · rw [hbad h1, countRun_suspect first [] (by omega) h1, if_pos (by omega)]
        rfl
      · obtain rfl : times = [] := List.length_eq_zero_iff.1 (by omega)
        have hstep : countObservation ⟨.clear, 0, none⟩ .bad c k first = (presentEntry, some (true, first)) := if_pos (by omega)
        simp only [run, List.foldl_cons, List.foldl_nil, hstep]
        rfl
    · rw [hbad (by omega), countRun_suspect first [] (by omega) (by omega), if_neg (by omega), Nat.add_comm]
    · by_cases h1 : 1 < k
      · rw [hgood h1, countRun_easing first [] (by omega) h1, if_pos (by omega)]
        rfl
      · obtain rfl : times = [] := List.length_eq_zero_iff.1 (by omega)
        have hstep : countObservation ⟨.present, 0, none⟩ .good c k first = (clearEntry, some (false, first)) := if_pos (by omega)
        simp only [run, List.foldl_cons, List.foldl_nil, hstep]
        rfl
    · rw [hgood (by omega), countRun_easing first [] (by omega) (by omega), if_neg (by omega), Nat.add_comm]
  · intro r p t done faults stands touched isolating
    refine ⟨fun hst => if_pos hst, fun hst q hq hsame => ?_⟩
    intro u
    have hdone : done = (observed.foldl (observe stamp p) r.faults, tell (reportsOf l stamp (s.linePorts l) p r.faults observed) s) := by
      rw [← foldl_countReport l stamp (s.linePorts l) p observed r.faults s]
      refine congrArg (fun F => observed.foldl F (r.faults, s)) (funext fun x => funext fun o => ?_)
      simp only [countReport, reportOf, observe]
      generalize countObservation (x.1.entry o.1) o.2 p.confirm p.clear stamp = counted
      obtain ⟨e, _ | ⟨_ | _, first⟩⟩ := counted <;> rfl
    have hfaults : faults = observed.foldl (observe stamp p) r.faults := congrArg Prod.fst hdone
    have hafter : reasonsAfter p faults r = q := by
      refine reasonsAfter_unique (fun h => ?_) fun h => hsame fun ht => (standing_ne_iff _ _).2 ht h
      rw [isolatingFault_iff]
      exact hq ((standing_ne_iff _ _).1 h)
    let g : Line → Line := fun x => reasonsTaken q (withFaults faults x)
    let notes := reportsOf l stamp (s.linePorts l) p r.faults observed ++ reasonNotes l q s
    let v := tell notes (u.modLine l g)
    have hg : SparesStatus g := fun x d => by
      change reasonsTaken q (withFaults faults { x with detStatus := d }) = _
      exact (congrArg (reasonsTaken q) (sparesStatus_withFaults faults x d)).trans (sparesStatus_reasonsTaken q (withFaults faults x) d)
    have heffect : t = v ∨ t = recomputeFeed l v := by
      exact countGroup_effect stamp observed hst hfaults.symm hafter
    have huline : ∀ m, u.line m = { s.line m with detStatus := (u.line m).detStatus } := by
      intro m
      simp only [u]
      split
      · exact releaseUnlocked_line l m s
      · rfl
    have hvline : v.line l = g { r with detStatus := (u.line l).detStatus } := by
      simp only [v, line_tell, State.line_modLine_self]
      exact congrArg g (huline l)
    have hvother : ∀ m, m ≠ l → v.line m = u.line m := fun m hm => by simp only [v, line_tell, State.line_modLine_ne _ _ hm]
    obtain ⟨hgsent, hgflag, -⟩ := reasonsTaken_sent q (withFaults faults { r with detStatus := (u.line l).detStatus })
    have hvsent : (v.line l).sentMode = r.sentMode := by rw [hvline]; exact hgsent
    have hvflag : (v.line l).recoveryDiscard = r.recoveryDiscard := by rw [hvline]; exact hgflag
    have htline : { t.line l with sentMode := r.sentMode, recoveryDiscard := r.recoveryDiscard } = v.line l := by
      rw [← hvsent, ← hvflag]
      rcases heffect with h | h <;> rw [h]
      exact recomputeFeed_line l v
    have htother : ∀ m, m ≠ l → t.line m = u.line m := by
      intro m hm
      rw [← hvother m hm]
      rcases heffect with h | h <;> rw [h]
      exact recomputeFeed_line_ne hm v
    have hkeeps : Keeps none s t := keeps_countGroup l stamp observed s
    refine ⟨?_, fun m => ?_, ?_, fun m hm => ?_, ?_, fun hsent => ?_, hkeeps.ports.1, hkeeps.ports.2, ?_⟩
    · refine (congrArg (fun x : Line => { x with detStatus := r.detStatus }) htline).trans ?_
      rw [hvline]
      exact (hg _ r.detStatus).symm
    · by_cases hm : m = l
      · subst hm
        have hdet := congrArg (fun x : Line => x.detStatus) htline
        refine hdet.trans ?_
        rw [line_tell, detStatus_modLine hg]
      · rw [htother m hm]
    · rcases heffect with h | h <;> rw [h] <;> simp [v]
    · rw [htother m hm, huline m]
    · have hnotes : (if q = r.reasons then done.2 else writeEvent (s.linePorts l) (some l) s.now (.blockChanged q) done.2) = tell notes s := by
        rw [hdone]
        simp only [notes, reasonNotes, tell_append]
        split <;> rfl
      have hu : JournalAs s (u.modLine l g) := by
        simp only [u]
        split
        · exact JournalAs.of_ports (by simp) fun x => by simp
        · exact JournalAs.of_ports (by simp) fun x => by simp
      have hv : JournalAs (tell notes s) v := hu.tell (by simp only [u]; split <;> simp) notes
      rw [hnotes]
      refine hv.trans ?_
      rcases heffect with h | h <;> rw [h]
      · exact JournalAs.refl v
      · exact JournalAs.of_ports (by simp) fun x => by simp
    · have hfollows : (t.line l).sentMode = t.derivedMode l := hkeeps.feeds l nofun hsent
      have hv0 : v.link0 = s.link0 ∧ v.link1 = s.link1 := by
        simp only [v, tell_link0, tell_link1, u]
        split <;> simp
      rcases heffect with h | h
      · have hmode : t.derivedMode l = r.sentMode := by rw [← hfollows, h, hvsent]
        refine ⟨⟨hfollows, ?_⟩, ?_⟩
        · rw [if_pos hmode, h, hv0.1, hv0.2]
          simp
        · rw [hmode, h, hvflag]
          simp
      · refine ⟨h ▸ feedSent_recompute hvsent hv0.1 hv0.2, ?_⟩
        rw [h, recomputeFeed_line_self, derivedMode_recomputeFeed, ← hvflag, ← hvsent]
        rfl
    · exact countGroup_rest l stamp observed s

end Sys2Proof.Machine
end

