-- ==== Sys2Proof/Proofs/FeedChanges.lean ====
section
/-! PROOF. What a counted group leaves alone, the end of an item's slots, and the feed commands a recomputation sends (R36, R37, R25, R32). -/

namespace Sys2Proof.Machine

/-! ### What a group leaves alone -/

section

variable (l : LineNo) (stamp : Time) (os : List (FaultKind × Verdict)) (s : State)

@[simp] theorem countGroup_store : (countGroup l stamp os s).store = s.store := by
  have h := congrArg State.store (countGroup_rest l stamp os s)
  exact h
@[simp] theorem countGroup_scan : (countGroup l stamp os s).scan = s.scan := by
  have h := congrArg State.scan (countGroup_rest l stamp os s)
  exact h
@[simp] theorem countGroup_sweep : (countGroup l stamp os s).sweep = s.sweep := by
  have h := congrArg State.sweep (countGroup_rest l stamp os s)
  exact h
@[simp] theorem countGroup_test : (countGroup l stamp os s).test = s.test := by
  have h := congrArg State.test (countGroup_rest l stamp os s)
  exact h
@[simp] theorem countGroup_tb : (countGroup l stamp os s).tb = s.tb := by
  have h := congrArg State.tb (countGroup_rest l stamp os s)
  exact h
@[simp] theorem countGroup_bat : (countGroup l stamp os s).bat = s.bat := by
  have h := congrArg State.bat (countGroup_rest l stamp os s)
  exact h
@[simp] theorem sw_countGroup (n : SweepNo) : (countGroup l stamp os s).sw n = s.sw n := by simp [State.sw]

@[simp] theorem derivedMode_setSw (n : SweepNo) (w : Sweep) (m : LineNo) : (s.setSw n w).derivedMode m = s.derivedMode m :=
  derivedMode_eq (by simp) (by simp) (by simp) (by simp) rfl (itemOn_congr (by simp))

end

/-- An observation of OPEN_PAIR changes no isolating kind, and so neither the reason set nor the feed mode (R154, R155). -/
theorem countGroup_openPair {l : LineNo} (stamp : Time) {os : List (FaultKind × Verdict)} (h : ∀ o ∈ os, o.1 = .openPair) (s : State) :
    (countGroup l stamp os s).derivedMode l = s.derivedMode l ∧ ((countGroup l stamp os s).line l).sentMode = (s.line l).sentMode ∧
      (countGroup l stamp os s).link0 = s.link0 ∧ (countGroup l stamp os s).link1 = s.link1 := by
  by_cases hst : (s.line l).state = .held
  · rw [countGroup, if_pos hst]
    exact ⟨rfl, rfl, rfl, rfl⟩
  · have hfaults : ∀ f, (os.foldl (observe stamp (s.effective l)) f).groundTip = f.groundTip ∧
        (os.foldl (observe stamp (s.effective l)) f).groundRing = f.groundRing ∧ (os.foldl (observe stamp (s.effective l)) f).short = f.short ∧
        (os.foldl (observe stamp (s.effective l)) f).foreignVoltage = f.foreignVoltage := by
      induction os with
      | nil => exact fun _ => ⟨rfl, rfl, rfl, rfl⟩
      | cons o os ih =>
        intro f
        have ho := h o List.mem_cons_self
        have hobserve : observe stamp (s.effective l) f o = { f with openPair := (observe stamp (s.effective l) f o).openPair } := by
          unfold observe
          rw [ho]
          rfl
        rw [List.foldl_cons]
        have hrest := ih (fun x hx => h x (List.mem_cons_of_mem o hx)) (observe stamp (s.effective l) f o)
        rw [hobserve] at hrest ⊢
        exact hrest
    obtain ⟨h1, h2, h3, h4⟩ := hfaults (s.line l).faults
    have hall : countGroup l stamp os s = countAll l stamp os s := by
      have hline : ((countAll l stamp os s).line l).faults = os.foldl (observe stamp (s.effective l)) (s.line l).faults := by
        rw [countAll_eq, line_tell, State.line_modLine_self]
        rfl
      have hstand : standing (s.line l).faults = standing ((countAll l stamp os s).line l).faults := by
        simp only [standing, hline, h1, h2, h3, h4]
      have hforeign : decide ((s.line l).faults.foreignVoltage.state = .present) =
          decide (((countAll l stamp os s).line l).faults.foreignVoltage.state = .present) := by rw [hline, h4]
      have hg : countGroup l stamp os s = if decide ((s.line l).faults.foreignVoltage.state = .present) =
          decide (((countAll l stamp os s).line l).faults.foreignVoltage.state = .present)
          then (if standing (s.line l).faults = standing ((countAll l stamp os s).line l).faults then countAll l stamp os s
            else recomputeReason l (countAll l stamp os s))
          else recomputeFeed l (if standing (s.line l).faults = standing ((countAll l stamp os s).line l).faults then countAll l stamp os s
            else recomputeReason l (countAll l stamp os s)) := if_neg hst
      rw [hg, if_pos hforeign, if_pos hstand]
    rw [hall, countAll_eq]
    refine ⟨?_, by simp [withFaults], by simp, by simp⟩
    rw [derivedMode_tell]
    have hitem : ∀ f : Line → Line, (s.modLine l f).itemOn l = s.itemOn l := fun f => itemOn_congr (by simp)
    refine derivedMode_congr ?_ (by simp) (by rw [hitem])
    simp only [SameFeed, State.line_modLine_self, withFaults, h4]
    tauto

/-! ### Feed changes -/

/-- An item that completes: what was in progress on its bank is gone, and the feed mode follows with the order for the source (R32, R37). -/
def itemEnded (b : Bank) (i : Item) (s : State) : State :=
  recomputeFeedWith (doneOrder i.kind) i.line ((s.setBankItem b none).modLine i.line (flagItem i))

theorem exec_itemComplete {b : Bank} {i : Item} {s : State} (r1 r2 : Int) (hi : s.bankItem b = some i) (hlast : i.last < s.scan.nextSlot) :
    exec (.itemComplete b r1 r2) s = .next (handOnItem i (s.slotTime i.last) r1 r2 (itemEnded b i s)) := by
  change execItemComplete b r1 r2 s = _
  rw [execItemComplete, hi]
  exact if_pos hlast

/-- Settles O24: a recomputation by whether it sends, and the one command of a DIAG item's end. -/
theorem feedChangesAreSent : Obligations.FeedChangesAreSent := by
  refine ⟨fun s l => ⟨fun h => recomputeFeed_same h, fun h => ?_⟩, fun src s l hsrc => ?_, fun b r1 r2 i s hi hbank hlast hkind => ?_⟩
  · obtain ⟨hline, hothers, h0, h1, hrest⟩ := recomputeFeedWith_effect (o := .none) (l := l) (s := s) (.inl h)
    refine ⟨hline.trans ?_, hothers, h0, h1, hrest⟩
    have hne : (s.line l).sentMode ≠ s.derivedMode l := fun hc => h hc.symm
    simp [noteMode, hne]
  · exact recomputeFeedWith_effect (.inr hsrc)
  · have hsource : doneOrder i.kind = .disconnect := by
      rcases hkind with h | h <;> simp [doneOrder, needsSource, h]
    let u := (s.setBankItem b none).modLine i.line (flagItem i)
    obtain ⟨hline, -, h0, h1, -⟩ := recomputeFeedWith_effect (o := .disconnect) (l := i.line) (s := u) (.inr nofun)
    have hended : itemEnded b i s = recomputeFeedWith .disconnect i.line u := by rw [itemEnded, hsource]
    have hmode : (itemEnded b i s).derivedMode i.line = u.derivedMode i.line := by rw [hended, derivedMode_recomputeFeedWith]
    have hsent : ((itemEnded b i s).line i.line).sentMode = u.derivedMode i.line := by rw [hended, hline]; rfl
    have hlinks : (itemEnded b i s).link0 = (if i.line.val < 32 then s.link0 ++ [⟨positionOf i.line, u.derivedMode i.line, .disconnect⟩] else s.link0) ∧
        (itemEnded b i s).link1 = (if i.line.val < 32 then s.link1 else s.link1 ++ [⟨positionOf i.line, u.derivedMode i.line, .disconnect⟩]) := by
      rw [hended, h0, h1]
      simp [u]
    have hhand : ∀ t, t = handOnItem i (s.slotTime i.last) r1 r2 (itemEnded b i s) →
        t.derivedMode i.line = u.derivedMode i.line ∧ (t.line i.line).sentMode = u.derivedMode i.line ∧
          t.link0 = (itemEnded b i s).link0 ∧ t.link1 = (itemEnded b i s).link1 := by
      rintro t rfl
      unfold handOnItem
      split
      · simp [hmode, hsent]
      · rename_i n _
        simp only [tallyItem, derivedMode_setSw, line_setSw, State.setSw_link0, State.setSw_link1]
        split
        · exact ⟨hmode, hsent, rfl, rfl⟩
        · have hobs : ∀ o ∈ sweepObservations ((itemEnded b i s).effective i.line) i.kind r1 r2, o.1 = .openPair := by
            rcases hkind with h | h <;> simp [sweepObservations, openPairObservation, h]
          obtain ⟨k1, k2, k3, k4⟩ := countGroup_openPair (s.slotTime i.last) hobs (itemEnded b i s)
          exact ⟨k1.trans hmode, k2.trans hsent, k3, k4⟩
    obtain ⟨k1, k2, k3, k4⟩ := hhand _ rfl
    refine ⟨_, exec_itemComplete r1 r2 hi hlast, k2.trans k1.symm, ?_, ?_⟩
    · rw [k3, k1, hlinks.1]
    · rw [k4, k1, hlinks.2]

end Sys2Proof.Machine
end

