-- ==== Sys2Proof/Proofs/RoundsAndSlots.lean ====
section
/-! PROOF. Operations taken line by line, LOOP slots (R20 to R26) and the round with its battery sample (R180, R181). -/

namespace Sys2Proof.Machine

/-! ### Operations taken line by line -/

/-- What every operation of a list of lines keeps, the list keeps. -/
theorem forLines_rel {R : State → State → Prop} (hrefl : ∀ s, R s s) (htrans : ∀ s t u, R s t → R t u → R s u)
    {f : LineNo → State → State} {ls : List LineNo} (h : ∀ l ∈ ls, ∀ s, R s (f l s)) (s : State) : R s (forLines ls f s) := by
  induction ls generalizing s with
  | nil => exact hrefl s
  | cons l ls ih => exact htrans _ _ _ (h l List.mem_cons_self s) (ih (fun m hm => h m (List.mem_cons_of_mem l hm)) (f l s))

/-- A line's turn in a list that names it once: the operations on the lines before it, its own, those on the lines after it. -/
theorem forLines_at {f : LineNo → State → State} {ls : List LineNo} (hls : ls.Nodup) {m : LineNo} (hm : m ∈ ls) (s : State) :
    ∃ before after, m ∉ before ∧ m ∉ after ∧ (∀ l ∈ before, l ∈ ls) ∧ (∀ l ∈ after, l ∈ ls) ∧
      forLines ls f s = forLines after f (f m (forLines before f s)) := by
  obtain ⟨before, after, rfl⟩ := List.append_of_mem hm
  rw [List.nodup_append] at hls
  obtain ⟨-, hafter, hne⟩ := hls
  rw [List.nodup_cons] at hafter
  refine ⟨before, after, fun h => hne m h m List.mem_cons_self rfl, hafter.1, fun l h => List.mem_append_left _ h,
    fun l h => List.mem_append_right _ (List.mem_cons_of_mem m h), ?_⟩
  unfold forLines
  rw [List.foldl_append, List.foldl_cons]

/-- A line that a list of operations does not name keeps its record, when each operation leaves the other lines' alone. -/
theorem line_forLines_ne {f : LineNo → State → State} {m : LineNo} (hf : ∀ l s, m ≠ l → (f l s).line m = s.line m) {ls : List LineNo}
    (hm : m ∉ ls) (s : State) : (forLines ls f s).line m = s.line m :=
  forLines_rel (R := fun s t => t.line m = s.line m) (fun _ => rfl) (fun _ _ _ h1 h2 => h2.trans h1)
    (fun l hl s => hf l s fun h => hm (h ▸ hl)) s

/-! ### LOOP slots -/

theorem mem_slotLines {slot : Nat} (h : slot < 32) (l : LineNo) : l ∈ slotLines slot ↔ l.val % 32 = slot := by
  have hl := l.isLt
  simp only [slotLines, if_pos h, List.mem_cons, List.not_mem_nil, or_false, Fin.ext_iff]
  omega

theorem slotLines_nodup (slot : Nat) : (slotLines slot).Nodup := by
  unfold slotLines
  split
  · simp only [List.nodup_cons, List.mem_cons, List.not_mem_nil, or_false, not_false_eq_true, List.nodup_nil, and_true, Fin.ext_iff]
    omega
  · exact List.nodup_nil

/-- The record of a line whose LOOP slot starts (R23 to R26). -/
def loopStarted (slot : Nat) (s : State) (l : LineNo) : Line :=
  if s.measured l then beginMeasuring (s.slotTime slot) (s.derivedMode l) (decide (s.bat.feed = .lost)) (s.line l) else s.line l

theorem line_startLoop_self (slot : Nat) (l : LineNo) (s : State) : (startLoop slot l s).line l = loopStarted slot s l := by
  unfold startLoop loopStarted
  split
  · exact State.line_modLine_self ..
  · rfl

theorem line_startLoop_ne (slot : Nat) {l m : LineNo} (s : State) (h : m ≠ l) : (startLoop slot l s).line m = s.line m := by
  rcases startLoop_cases slot l s with hs | ⟨-, hs⟩ <;> rw [hs]
  exact State.line_modLine_ne s _ h

theorem startLoop_rest (slot : Nat) (l : LineNo) (s : State) : { startLoop slot l s with lines := s.lines } = s := by
  rcases startLoop_cases slot l s with hs | ⟨-, hs⟩ <;> rw [hs]
  rfl

/-- A LOOP slot's start touches lines only. -/
theorem forLines_startLoop_rest (slot : Nat) (ls : List LineNo) (s : State) :
    { forLines ls (startLoop slot) s with lines := s.lines } = s :=
  forLines_rel (R := fun s t => { t with lines := s.lines } = s) (fun _ => rfl)
    (fun s t u h1 h2 => by
      have h := congrArg (fun x : State => { x with lines := s.lines }) h2
      exact h.trans h1)
    (fun l _ s => startLoop_rest slot l s) s

/-- What starting a line's LOOP slot depends on: its own record, and what is no line's. -/
theorem loopStarted_congr {slot : Nat} {s t : State} {l : LineNo} (hline : t.line l = s.line l) (hrest : { t with lines := s.lines } = s) :
    loopStarted slot t l = loopStarted slot s l := by
  have hscan : t.scan = s.scan := by
    have h := congrArg State.scan hrest
    exact h
  have hbat : t.bat = s.bat := by
    have h := congrArg State.bat hrest
    exact h
  have hstore : t.store = s.store := by
    have h := congrArg State.store hrest
    exact h
  have hmode : t.derivedMode l = s.derivedMode l :=
    derivedMode_congr (by rw [hline]; exact SameFeed.refl _) (congrArg Profile.autoBlock (effective_congr hstore l))
      (congrArg _ (itemOn_congr (by simp only [State.bankItem]; rw [hscan])))
  rw [loopStarted, loopStarted, State.measured, State.measured, State.slotTime, State.slotTime, hmode, hline, hscan, hbat]

/-- The start of a LOOP slot, line by line (R21, R23). -/
theorem line_startSlot {slot : Nat} (h : slot < 32) (s : State) (l : LineNo) :
    (startSlot slot s).line l = if l.val % 32 = slot then loopStarted slot s l else s.line l := by
  have hstart : startSlot slot s = forLines (slotLines slot) (startLoop slot) s := if_pos h
  have hother : ∀ m s, l ≠ m → (startLoop slot m s).line l = s.line l := fun m s hm => line_startLoop_ne slot s hm
  rw [hstart]
  by_cases hl : l ∈ slotLines slot
  · rw [if_pos ((mem_slotLines h l).1 hl)]
    obtain ⟨before, after, hbefore, hafter, -, -, heq⟩ := forLines_at (f := startLoop slot) (slotLines_nodup slot) hl s
    rw [heq, line_forLines_ne hother hafter, line_startLoop_self]
    exact loopStarted_congr (line_forLines_ne hother hbefore s) (forLines_startLoop_rest slot before s)
  · rw [if_neg fun hc => hl ((mem_slotLines h l).2 hc), line_forLines_ne hother hl]

/-- Settles O43: a slot that is due starts, line by line (`line_startSlot`). -/
theorem loopSlotsMeasure : Obligations.LoopSlotsMeasure := by
  intro s
  refine ⟨fun hdue => ?_, fun hdue hslot => ?_⟩
  · change execSlotStart s = _
    simp [execSlotStart, hdue]
  · let u : State := { s with scan := { s.scan with nextSlot := s.scan.nextSlot + 1 } }
    refine ⟨startSlot s.scan.nextSlot u, if_pos hdue, fun l => ?_, ?_⟩
    · rw [line_startSlot hslot]
      by_cases hl : l.val % 32 = s.scan.nextSlot
      · simp only [hl, if_true, true_and]
        have hmode : u.derivedMode l = s.derivedMode l := rfl
        have hmeasured : u.measured l = true ↔ (s.line l).state ≠ .held ∧ (s.derivedMode l = .normal ∨ s.derivedMode l = .ring) := by
          simp only [State.measured, hmode, Bool.and_eq_true, Bool.or_eq_true, decide_eq_true_eq]
          rfl
        unfold loopStarted
        by_cases hm : (s.line l).state ≠ .held ∧ (s.derivedMode l = .normal ∨ s.derivedMode l = .ring)
        · rw [if_pos (hmeasured.2 hm), if_pos hm, hmode]
          simp only [beginMeasuring, Bool.or_eq_true, decide_eq_true_eq]
          rfl
        · rw [if_neg (fun hc => hm (hmeasured.1 hc)), if_neg hm]
          rfl
      · rw [if_neg hl, if_neg fun hc => hl hc.1]
        rfl
    · have hstart : startSlot s.scan.nextSlot u = forLines (slotLines s.scan.nextSlot) (startLoop s.scan.nextSlot) u := if_pos hslot
      rw [hstart]
      exact forLines_startLoop_rest _ _ u

/-! ### Rounds and their battery sample -/

section

variable {v : Nat} {stamp : Time} {b : Battery}

/-- A sample that agrees with the feed state in force removes the run (R181). -/
theorem sampleBattery_agrees (h : batteryClass b.feed b.lostLimit b.lowLimit v = b.feed) : sampleBattery v stamp b = { b with run := none } :=
  if_pos h

/-- A sample of another class starts a run (R181). -/
theorem sampleBattery_starts (h : batteryClass b.feed b.lostLimit b.lowLimit v ≠ b.feed) (hrun : b.run = none) :
    sampleBattery v stamp b = { b with run := some ⟨1, stamp⟩ } := by
  rw [sampleBattery]
  simp only [if_neg h, hrun]

/-- A sample of another class extends the run, and its eighth leaves the change due (R181). -/
theorem sampleBattery_extends {r : ChangeRun} (h : batteryClass b.feed b.lostLimit b.lowLimit v ≠ b.feed) (hrun : b.run = some r) :
    sampleBattery v stamp b =
      if 8 ≤ r.count + 1 then { b with due := some ⟨batteryClass b.feed b.lostLimit b.lowLimit v, v, r.start⟩ }
      else { b with run := some ⟨r.count + 1, r.start⟩ } := by
  rw [sampleBattery]
  simp only [if_neg h, hrun]
  rfl

end

/-- The clauses of R181 for a state to which a round's sample is put. -/
theorem sample_clauses {α : Type} (put : Battery → α) {v : Nat} (stamp : Time) (b : Battery) :
    let cls := batteryClass b.feed b.lostLimit b.lowLimit v
    (cls = b.feed → put (sampleBattery v stamp b) = put { b with run := none }) ∧
      (cls ≠ b.feed →
        (b.run = none → put (sampleBattery v stamp b) = put { b with run := some ⟨1, stamp⟩ }) ∧
        ∀ r, b.run = some r →
          (r.count < 7 → put (sampleBattery v stamp b) = put { b with run := some ⟨r.count + 1, r.start⟩ }) ∧
          (7 ≤ r.count → put (sampleBattery v stamp b) = put { b with due := some ⟨cls, v, r.start⟩ })) := by
  intro cls
  refine ⟨fun h => congrArg put (sampleBattery_agrees h), fun h => ⟨fun hr => congrArg put (sampleBattery_starts h hr), fun r hr => ⟨fun hc => ?_, fun hc => ?_⟩⟩⟩
  · rw [sampleBattery_extends h hr, if_neg (by omega)]
  · rw [sampleBattery_extends h hr, if_pos (by omega)]

/-- Settles O41: the round that is due and the round of reset, then the sample by R181's clauses. -/
theorem roundsSampleTheBattery : Obligations.RoundsSampleTheBattery := by
  refine ⟨fun v s hv hslot htime h0 h1 => ?_, fun v s hv hslot hsampled => ?_, fun f lost low v h => ?_⟩
  · intro begins cls put
    have hcode : batteryCode v = v := Nat.min_eq_left hv
    have hexec : exec (.roundStart v) s = .next (put (sampleBattery v begins s.bat)) := by
      have hfirst : firstRoundDue s.scan = false := by simp [firstRoundDue, hslot]
      have hnext : nextRoundDue s.scan s.now = true := by
        simp only [nextRoundDue, h0, h1, Bool.and_eq_true, decide_eq_true_eq]
        exact ⟨⟨⟨hslot, htime⟩, rfl⟩, rfl⟩
      change execRoundStart v s = _
      rw [execRoundStart, hfirst, hnext]
      simp only [takeBatterySample, hcode]
      rfl
    rw [hexec]
    exact sample_clauses (fun b => (Host.Outcome.next (put b) : Host.Outcome State Fault Refusal)) begins s.bat
  · intro cls put
    have hcode : batteryCode v = v := Nat.min_eq_left hv
    have hfirst : firstRoundDue s.scan = true := by simp [firstRoundDue, hslot, hsampled]
    have hexec : exec (.roundStart v) s = .next (put (sampleBattery v s.scan.roundStart s.bat)) := by
      change execRoundStart v s = _
      rw [execRoundStart, hfirst]
      simp only [takeBatterySample, hcode]
      rfl
    refine ⟨?_, ?_⟩
    · change execSlotStart s = _
      simp [execSlotStart, State.slotDue, hfirst]
    · rw [hexec]
      exact sample_clauses (fun b => (Host.Outcome.next (put b) : Host.Outcome State Fault Refusal)) s.scan.roundStart s.bat
  · unfold batteryClass
    generalize hvolt : Config.codesPerVolt = volt
    generalize hhyst : Config.hysteresis = hyst
    obtain rfl : volt = 4 := hvolt.symm
    obtain rfl : hyst = 8 := hhyst.symm
    cases f <;> simp only [reduceCtorEq, ↓reduceIte] <;> split_ifs <;> simp <;> omega

end Sys2Proof.Machine
end

