-- ==== Sys2Proof/Proofs/ItemResults.lean ====
section
/-! PROOF. What the completion of an item does (R32, R33, R143, R165). -/

namespace Sys2Proof.Machine

/-! ### The end of an item -/

/-- A group never takes the recovery-discard flag away. -/
theorem flag_countGroup (l : LineNo) (stamp : Time) (os : List (FaultKind × Verdict)) {s : State} (h : (s.line l).recoveryDiscard = true) :
    ((countGroup l stamp os s).line l).recoveryDiscard = true := by
  by_cases hst : (s.line l).state = .held
  · rw [countGroup, if_pos hst]
    exact h
  · let q := reasonsAfter (s.effective l) (os.foldl (observe stamp (s.effective l)) (s.line l).faults) (s.line l)
    let g : Line → Line := fun r => reasonsTaken q (withFaults (os.foldl (observe stamp (s.effective l)) (s.line l).faults) r)
    have hreleased : ((releasedBy l q (s.line l) s).line l).recoveryDiscard = true := by
      unfold releasedBy
      split
      · rw [releaseUnlocked_line]
        exact h
      · exact h
    have hrecord : ((((releasedBy l q (s.line l) s).modLine l g)).line l).recoveryDiscard = true := by
      rw [State.line_modLine_self]
      exact (reasonsTaken_sent q _).2.1.trans hreleased
    rcases countGroup_effect stamp os hst (q := q) rfl rfl with hg | hg <;> rw [hg]
    · rw [line_tell]
      exact hrecord
    · rw [recomputeFeed_line_self]
      simp only [noteMode, line_tell, Bool.or_eq_true]
      exact .inl hrecord

section

variable (b : Bank) (i : Item) (s : State)

/-- The record of an item's line once the item ended (R25, R36). -/
theorem line_itemEnded_self :
    (itemEnded b i s).line i.line = noteMode ((itemEnded b i s).derivedMode i.line) (flagItem i (s.line i.line)) := by
  simp only [itemEnded, derivedMode_recomputeFeedWith, recomputeFeedWith_line_self, State.line_modLine_self, line_setBankItem]

theorem line_itemEnded_ne : OtherLines i.line s (itemEnded b i s) := fun m hm => by
  simp [itemEnded, recomputeFeedWith_line_ne _ hm, State.line_modLine_ne _ _ hm]

theorem itemEnded_rest :
    (itemEnded b i s).scan = (s.setBankItem b none).scan ∧ (itemEnded b i s).sweep = s.sweep ∧ (itemEnded b i s).store = s.store ∧
      (itemEnded b i s).pool = s.pool ∧ (itemEnded b i s).tb = s.tb ∧ (itemEnded b i s).bat = s.bat ∧ (itemEnded b i s).test = s.test ∧
      (itemEnded b i s).journal = s.journal ∧ ∀ q, (itemEnded b i s).port q = s.port q := by
  simp [itemEnded]

end

/-- Settles O44: the item's end, then what its result does: TEST_RESULT, or the group and the tally. -/
theorem itemsComplete : Obligations.ItemsComplete := by
  intro b r1 r2 i s hi hbank hlast stamp kept freed p seen moved v1 v2 judged observed order ended
  have hended : ended = itemEnded b i s := by
    have horder : order = doneOrder i.kind := by
      simp only [order, doneOrder, needsSource, Bool.or_eq_true, decide_eq_true_eq]
    have hseen : (s.setBankItem b none).setLine i.line seen = (s.setBankItem b none).modLine i.line (flagItem i) := by
      simp only [State.modLine, line_setBankItem]
      rfl
    simp only [ended, itemEnded, horder, hseen]
  have hexec := exec_itemComplete r1 r2 hi hlast
  have hflow := (keeps_completeItem r1 r2 hi).ports
  have hself := line_itemEnded_self b i s
  have hothers := line_itemEnded_ne b i s
  obtain ⟨hscan, hsweep, hstore, hpool, htb, hbat, htest, hjournal, hport⟩ := itemEnded_rest b i s
  have hsw : ∀ m, (itemEnded b i s).sw m = s.sw m := fun m => by simp only [State.sw, hsweep]
  have hmoved : ∀ t : State, t.derivedMode i.line = (itemEnded b i s).derivedMode i.line →
      (itemEnded b i s).line i.line = { seen with sentMode := t.derivedMode i.line, recoveryDiscard := seen.recoveryDiscard || moved t } := by
    intro t ht
    rw [hself, ← ht]
    rfl
  refine ⟨fun horigin => ?_, fun n horigin => ?_⟩
  · let t := handOnItem i (s.slotTime i.last) r1 r2 (itemEnded b i s)
    have ht : t = writeEvent ⟨false, false, s.attached .t⟩ (some i.line) stamp
        (.testResult (testReading i.kind (s.line i.line).baseline r1 r2) i.disturbed) (itemEnded b i s) := by
      have hattached : (itemEnded b i s).attached .t = s.attached .t := by simp only [State.attached, hport]
      have hbase : ((itemEnded b i s).line i.line).baseline = (s.line i.line).baseline := by rw [hself]; rfl
      simp only [t, handOnItem, horigin, hattached, hbase]
      rfl
    have hmode : t.derivedMode i.line = (itemEnded b i s).derivedMode i.line := by rw [ht, derivedMode_writeEvent]
    refine ⟨t, hexec, by rw [ht]; simpa using hscan, by rw [ht]; simpa using hsweep, ?_, fun m hm => ?_, ?_, hflow.1, hflow.2, ?_⟩
    · rw [ht, line_writeEvent, ← ht]
      exact hmoved t hmode
    · rw [ht, line_writeEvent]
      exact hothers m hm
    · rw [ht]
      exact JournalAs.writeEvent (JournalAs.of_ports hjournal hport) htb _ _ _ _
    · rw [ht]
      exact ⟨by simpa using hstore, by simpa using hpool, by simpa using htb, by simpa using hbat, by simpa using htest⟩
  · intro tallied
    have hobserved : observed = sweepObservations p i.kind r1 r2 := by
      have hforeign : [(FaultKind.foreignVoltage, judged (decide (4 * p.foreign ≤ v1.natAbs ∨ 4 * p.foreign ≤ v2.natAbs)))] =
          foreignObservation p (voltageCode r1) (voltageCode r2) := by
        simp only [foreignObservation, Bool.decide_or]
        rfl
      simp only [observed]
      cases i.kind
      case foreign => exact hforeign
      all_goals rfl
    have heff : (itemEnded b i s).effective i.line = p := effective_congr hstore _
    let t := handOnItem i (s.slotTime i.last) r1 r2 (itemEnded b i s)
    let counted := if i.disturbed then itemEnded b i s else countGroup i.line stamp observed (itemEnded b i s)
    have hcounted : counted.scan = (itemEnded b i s).scan ∧ counted.sweep = (itemEnded b i s).sweep := by
      simp only [counted]
      split
      · exact ⟨rfl, rfl⟩
      · exact ⟨by simp, by simp⟩
    have ht : t = counted.setSw n tallied := by
      have hn : counted.sw n = s.sw n := (congrArg (fun w => w.sweeps[n]) hcounted.2).trans (hsw n)
      simp only [t, handOnItem, horigin, tallyItem, heff, ← hobserved]
      change counted.setSw n { counted.sw n with measured := (counted.sw n).measured + 1, items := (counted.sw n).items - 1 } = _
      rw [hn]
    have htline : ∀ m, t.line m = counted.line m := fun m => by rw [ht, line_setSw]
    refine ⟨fun hintact => ?_, t, hexec, ?_, ?_, fun m hm => ?_, ?_, ?_, ?_, fun htransient => ?_, fun m hm => ?_, fun hdisturbed => ?_⟩
    · rw [hexec, hended]
      refine congrArg Host.Outcome.next (ht.trans ?_)
      simp only [counted, hintact, Bool.false_eq_true, if_false]
    · rw [ht]
      exact (by simp : (counted.setSw n tallied).scan = counted.scan).trans (hcounted.1.trans hscan)
    · rw [ht, State.sw_setSw_self]
    · rw [ht, State.sw_setSw_ne _ _ hm]
      exact (congrArg (fun w => w.sweeps[m]) hcounted.2).trans (hsw m)
    · rw [ht]
      have hkept : (counted.setSw n tallied).sweep.holder = counted.sweep.holder := rfl
      rw [hkept, hcounted.2, hsweep]
    · rw [ht]
      have hkept : (counted.setSw n tallied).sweep.offer = counted.sweep.offer := rfl
      rw [hkept, hcounted.2, hsweep]
    · have hfollows : Follows (itemEnded b i s) i.line := by
        unfold Follows
        rw [hself]
        rfl
      exact (keeps_handOnItem i (s.slotTime i.last) r1 r2 (itemEnded b i s)).feeds i.line nofun hfollows
    · have hflag : ((itemEnded b i s).line i.line).recoveryDiscard = true := by
        rw [hself]
        simp [noteMode, flagItem, htransient]
      rw [htline]
      simp only [counted]
      split
      · exact hflag
      · exact flag_countGroup _ _ _ hflag
    · have hcount : OtherLinesButDetector i.line (itemEnded b i s) counted := by
        simp only [counted]
        split
        · exact others_refl _ _
        · exact others_countGroup _ _ _ _
      have h := hcount m hm
      rw [hothers m hm] at h
      rw [htline]
      exact h
    · have hcount : counted = itemEnded b i s := if_pos hdisturbed
      rw [hcount] at ht
      have hmode : t.derivedMode i.line = (itemEnded b i s).derivedMode i.line := by rw [ht, derivedMode_setSw]
      refine ⟨?_, fun m hm => ?_, ?_, ?_⟩
      · rw [htline, hcount]
        exact hmoved t hmode
      · rw [htline, hcount]
        exact hothers m hm
      · rw [ht]
        exact hjournal
      · rw [ht]
        exact ⟨hstore, hpool, htb, hbat, htest⟩

end Sys2Proof.Machine
end

