-- ==== Sys2Proof/Proofs/ExpiriesTaken.lean ====
section
/-! PROOF. Hang-up and dial timeout, the interdigit expiry and the ring expiries (R73, R74, R87 to R89, R93, R124, R125). -/

namespace Sys2Proof.Machine

/-! ### Ports under events -/

theorem portsKept_tell (es : List Message) (s : State) : PortsKept s (tell es s) := by
  have hreads : ∀ {α : Type} (f : PortRec → α), (∀ q o t b u p, f ((writeEvent q o t b u).port p) = f (u.port p)) →
      ∀ p, f ((tell es s).port p) = f (s.port p) := fun f hf p => tell_reads es s (fun u => f (u.port p)) fun q o t b u => hf q o t b u p
  refine ⟨fun p => ⟨hreads PortRec.response ?_ p, hreads PortRec.dataOut ?_ p⟩, fun p => ⟨hreads PortRec.state ?_ p, hreads PortRec.window ?_ p,
    hreads PortRec.expiry ?_ p, hreads PortRec.phase ?_ p, hreads PortRec.alertMask ?_ p⟩⟩ <;> simp

theorem portsKept_releaseUnlocked (l : LineNo) (s : State) : PortsKept s (releaseUnlocked l s) := (keeps_releaseUnlocked l s).ports

/-! ### A call that ends with a report -/

/-- A line's record changed, its unlocked detector released and events written: what is as before, and what is as the release leaves it. -/
theorem released_rest {g : Line → Line} (hg : SparesStatus g) (l : LineNo) (es : List Message) (s : State) :
    let t := tell es ((releaseUnlocked l s).modLine l g)
    t.pool = (releaseUnlocked l s).pool ∧ (∀ m, (t.line m).detStatus = ((releaseUnlocked l s).line m).detStatus) ∧
      OtherLinesButDetector l s t ∧ BuffersKept s t ∧ AttachmentsKept s t ∧ poolOf s t = s := by
  intro t
  have hports : PortsKept s t :=
    (portsKept_releaseUnlocked l s).trans ((PortsKept.of_eq fun q => by simp).trans (portsKept_tell es _))
  refine ⟨by simp [t], fun m => ?_, fun m hm => ?_, hports.1, hports.2, by simp [t, poolOf, linesOf, portsOf]⟩
  · rw [line_tell]
    exact detStatus_modLine hg _ l m
  · rw [line_tell, State.line_modLine_ne _ _ hm]
    exact others_releaseUnlocked l l s m hm

/-- The record such a change leaves, the detector status apart. -/
theorem released_line {g : Line → Line} (hg : SparesStatus g) (l : LineNo) (es : List Message) (s : State) :
    { (tell es ((releaseUnlocked l s).modLine l g)).line l with detStatus := (s.line l).detStatus } = g (s.line l) := by
  rw [line_tell, State.line_modLine_self, releaseUnlocked_line, hg]
  exact congrArg (fun d => { g (s.line l) with detStatus := d }) (hg.detStatus (s.line l)).symm

/-- What such a change writes. -/
theorem released_journal (g : Line → Line) (l : LineNo) (es : List Message) (s : State) :
    JournalAs (tell es s) (tell es ((releaseUnlocked l s).modLine l g)) :=
  (JournalAs.of_ports (by simp) fun q => by simp).tell (by simp) es

/-! ### PERMANENT_LOOP -/

/-- A Fault Set with another entry for PERMANENT_LOOP. -/
def withPermanentLoop (e : FaultEntry) (r : Line) : Line := { r with faults := { r.faults with permanentLoop := e } }

/-- The report of PERMANENT_LOOP's end, where it stood (R153). -/
def permanentLoopEnds (l : LineNo) (s : State) : List Message :=
  if (s.line l).faults.permanentLoop.state = .present then [⟨s.linePorts l, some l, s.now, .faultCleared .permanentLoop⟩] else []

theorem clearPermanentLoop_eq (l : LineNo) (s : State) :
    clearPermanentLoop l s = tell (permanentLoopEnds l s) (s.modLine l (withPermanentLoop clearEntry)) := by
  have hports : (s.modLine l (withPermanentLoop clearEntry)).linePorts l = s.linePorts l := linePorts_setLine s l l _ rfl
  by_cases h : (s.line l).faults.permanentLoop.state = .present
  · rw [permanentLoopEnds, if_pos h, clearPermanentLoop, if_pos h]
    exact congrArg (fun q => writeEvent q _ _ _ _) hports
  · rw [permanentLoopEnds, if_neg h, clearPermanentLoop, if_neg h]
    rfl

/-- The report of PERMANENT_LOOP raised, where it did not stand (R153). -/
def permanentLoopBegins (l : LineNo) (t : Time) (s : State) : List Message :=
  if (s.line l).faults.permanentLoop.state = .present then [] else [⟨s.linePorts l, some l, t, .faultRaised .permanentLoop⟩]

theorem raisePermanentLoop_eq (l : LineNo) (t : Time) (s : State) :
    raisePermanentLoop l t s = tell (permanentLoopBegins l t s) (s.modLine l (withPermanentLoop presentEntry)) := by
  have hports : (s.modLine l (withPermanentLoop presentEntry)).linePorts l = s.linePorts l := linePorts_setLine s l l _ rfl
  by_cases h : (s.line l).faults.permanentLoop.state = .present
  · rw [permanentLoopBegins, if_pos h, raisePermanentLoop, if_pos h]
    rfl
  · rw [permanentLoopBegins, if_neg h, raisePermanentLoop, if_neg h]
    exact congrArg (fun q => writeEvent q _ _ _ _) hports

/-! ### Hang-up and dial timeout -/

/-- A change of a line's record that a call's report leaves as it finds it: the detector status, the subscription, PERMANENT_LOOP. -/
structure EndsCall (g : Line → Line) : Prop where
  /-- the detector status -/
  status : SparesStatus g
  /-- the subscription -/
  subscription : ∀ r, (g r).subscription = r.subscription
  /-- PERMANENT_LOOP -/
  fault : ∀ r, (g r).faults = r.faults

section

variable {g : Line → Line} (hg : EndsCall g) (l : LineNo) (t : Time) (b : EventBody) (s : State)
include hg

/-- A call ended with a report dated `t` and its detector released: the record, the detector, the report. -/
theorem endCall_eq :
    releaseUnlocked l (lineEvent l t b (s.modLine l g)) = tell [⟨s.linePorts l, some l, t, b⟩] ((releaseUnlocked l s).modLine l g) := by
  have hports : (s.modLine l g).linePorts l = s.linePorts l := linePorts_setLine s l l _ (hg.subscription _)
  rw [lineEvent, hports, releaseUnlocked_writeEvent, releaseUnlocked_modLine hg.status]
  rfl

/-- What the report of PERMANENT_LOOP sees after a call's end is what stood before it. -/
theorem endCall_reads :
    let u := tell [⟨s.linePorts l, some l, t, b⟩] ((releaseUnlocked l s).modLine l g)
    (u.line l).faults = (s.line l).faults ∧ u.linePorts l = s.linePorts l ∧ u.now = s.now := by
  intro u
  have hreleased : ((releaseUnlocked l s).line l).faults = (s.line l).faults := by rw [releaseUnlocked_line]
  have hsubscription : ((releaseUnlocked l s).line l).subscription = (s.line l).subscription := by rw [releaseUnlocked_line]
  refine ⟨?_, ?_, by simp [u, now_modLine]⟩
  · rw [line_tell, State.line_modLine_self, hg.fault, hreleased]
  · rw [linePorts_tell]
    refine (linePorts_setLine _ l l _ (hg.subscription _)).trans ?_
    have hport : ∀ q, (releaseUnlocked l s).port q = s.port q := fun q => by simp
    simp only [State.linePorts, hsubscription, State.attached, hport]

end

/-- A hang-up (R73): its report and PERMANENT_LOOP's, the record, and the detector released. -/
theorem hangUp_eq (l : LineNo) (start : Time) (why : HangupBy) (s : State) :
    hangUp l start why s = tell (⟨s.linePorts l, some l, start, .hangup why⟩ :: permanentLoopEnds l s)
      ((releaseUnlocked l s).modLine l (fun r => withPermanentLoop clearEntry (hungUpFields r))) := by
  have hg : EndsCall hungUpFields := ⟨fun _ _ => rfl, fun _ => rfl, fun _ => rfl⟩
  obtain ⟨hfaults, hports, hnow⟩ := endCall_reads hg l start (.hangup why) s
  rw [hangUp, endCall_eq hg, clearPermanentLoop_eq, tell_modLine, modLine_modLine, ← tell_append]
  rw [permanentLoopEnds, hfaults, hports, hnow]
  rfl

/-- The record of a line whose dialling timed out (R93). -/
def timedOut (r : Line) : Line := { r with state := .talk, firstDigitExpiry := none }

/-- A dial timeout (R93): its report and PERMANENT_LOOP's, the record, and the detector released. -/
theorem dialTimeout_eq (l : LineNo) (e : Time) (s : State) :
    raisePermanentLoop l e (releaseUnlocked l (lineEvent l e .dialTimeout (s.modLine l timedOut))) =
      tell (⟨s.linePorts l, some l, e, .dialTimeout⟩ :: permanentLoopBegins l e s)
        ((releaseUnlocked l s).modLine l (fun r => withPermanentLoop presentEntry (timedOut r))) := by
  have hg : EndsCall timedOut := ⟨fun _ _ => rfl, fun _ => rfl, fun _ => rfl⟩
  obtain ⟨hfaults, hports, -⟩ := endCall_reads hg l e .dialTimeout s
  rw [endCall_eq hg, raisePermanentLoop_eq, tell_modLine, modLine_modLine, ← tell_append]
  rw [permanentLoopBegins, hfaults, hports]
  rfl

/-- Settles O49: both expiries end the call, one by a hang-up (`hangUp_eq`), one by a timeout (`dialTimeout_eq`). -/
theorem expiriesEndDialling : Obligations.ExpiriesEndDialling := by
  intro l s r kept
  refine ⟨fun b e hst hb he hdue => ?_, fun e he hdue hst => ?_⟩ <;> intro told
  · have hg : SparesStatus (fun r => withPermanentLoop clearEntry (hungUpFields r)) := fun _ _ => rfl
    have hexec : exec (.hangupExpiry l) s = .next (hangUp l b .expiry s) := by
      have hpast : expiryDue s.now (s.line l).hangupExpiry = true := by
        rw [show (s.line l).hangupExpiry = some e from he]
        exact decide_eq_true hdue
      change execHangupExpiry l s = _
      rw [execHangupExpiry, show (s.line l).breakStart = some b from hb]
      exact if_pos ⟨hpast, hst⟩
    have hreports : tell (⟨s.linePorts l, some l, b, .hangup .expiry⟩ :: permanentLoopEnds l s) s =
        if r.faults.permanentLoop.state = .present
          then writeEvent (s.linePorts l) (some l) s.now (.faultCleared .permanentLoop) told else told := by
      simp only [permanentLoopEnds, r]
      split <;> rfl
    refine ⟨_, hexec, ?_, ?_, ?_⟩ <;> rw [hangUp_eq]
    · exact released_line hg l _ s
    · rw [← hreports]
      exact released_journal _ l _ s
    · exact released_rest hg l _ s
  · have hg : SparesStatus (fun r => withPermanentLoop presentEntry (timedOut r)) := fun _ _ => rfl
    have hexec : exec (.firstDigitExpiry l) s =
        .next (raisePermanentLoop l e (releaseUnlocked l (lineEvent l e .dialTimeout (s.modLine l timedOut)))) := by
      change execFirstDigitExpiry l s = _
      rw [execFirstDigitExpiry, show (s.line l).firstDigitExpiry = some e from he]
      exact if_pos ⟨decide_eq_true hdue, hst⟩
    have hreports : tell (⟨s.linePorts l, some l, e, .dialTimeout⟩ :: permanentLoopBegins l e s) s =
        if r.faults.permanentLoop.state = .present then told
          else writeEvent (s.linePorts l) (some l) e (.faultRaised .permanentLoop) told := by
      simp only [permanentLoopBegins, r]
      split <;> rfl
    refine ⟨_, hexec, ?_, ?_, ?_⟩ <;> rw [dialTimeout_eq]
    · exact released_line hg l _ s
    · rw [← hreports]
      exact released_journal _ l _ s
    · exact released_rest hg l _ s

/-! ### The interdigit expiry -/

theorem timeBefore_iff (a b : Time) : timeBefore a b = true ↔ 1 ≤ (b - a).toNat ∧ (b - a).toNat < 2 ^ 31 := by
  exact (Bool.and_eq_true ..).to_iff.trans (and_congr decide_eq_true_iff decide_eq_true_iff)

/-- A break of the digit, or a run toward OPEN, began before the expiry (R87). -/
theorem breakHolds_iff (r : Line) (e : Time) :
    breakHolds r e = true ↔ (∃ b, r.breakStart = some b ∧ timeBefore b e = true) ∨
      ∃ n t, r.run = some ⟨.opened, n, t⟩ ∧ timeBefore t e = true := by
  unfold breakHolds
  rw [Bool.or_eq_true]
  refine or_congr ?_ ?_
  · cases r.breakStart <;> simp
  · obtain - | ⟨⟨⟩ | ⟨⟩, n, t⟩ := r.run <;> simp

/-- The digit completes, or the discard of an overcount ends (R87, R89). -/
theorem takeInterdigit_clauses (l : LineNo) (s : State) :
    let r := s.line l
    let start := { r with lastMakeStart := none, interdigitExpiry := none, interdigitHeld := false }
    (r.pulseDiscard = true → takeInterdigit l s = s.setLine l { start with pulseDiscard := false }) ∧
      ∀ onset, r.pulseDiscard = false → r.digitOnset = some onset → takeInterdigit l s =
        recordDigit l ⟨r.pulseCounter % 10, by omega⟩ .pulse onset (s.setLine l { start with pulseCounter := 0, digitOnset := none }) := by
  intro r start
  refine ⟨fun h => if_pos h, fun onset h ho => ?_⟩
  have hcomplete : takeInterdigit l s = completeDigit l s := if_neg fun hc => Bool.false_ne_true (h.symm.trans hc)
  rw [hcomplete, completeDigit]
  simp only [show (s.line l).digitOnset = some onset from ho]
  rfl

/-- Settles O50: the expiry is held, or taken (`takeInterdigit_clauses`), by whether a break holds it. -/
theorem interdigitExpiriesCompleteDigits : Obligations.InterdigitExpiriesCompleteDigits := by
  intro l e s he r before holds due start completes
  have hholds : breakHolds (s.line l) e = true ↔ holds := by
    simp only [breakHolds_iff, timeBefore_iff]
    rfl
  have hcompletes : completes (.next (takeInterdigit l s)) := by
    obtain ⟨hdiscard, hdigit⟩ := takeInterdigit_clauses l s
    exact ⟨fun h => congrArg Host.Outcome.next (hdiscard h), fun onset h ho => congrArg Host.Outcome.next (hdigit onset h ho)⟩
  have hexpiry : due → r.interdigitHeld = false → exec (.interdigitExpiry l) s =
      if breakHolds (s.line l) e then .next (s.modLine l (fun r => { r with interdigitHeld := true })) else .next (takeInterdigit l s) := by
    intro hdue hheld
    change execInterdigitExpiry l s = _
    rw [execInterdigitExpiry, he]
    exact if_pos ⟨decide_eq_true hdue, hheld⟩
  have hsettle : exec (.interdigitHeldSettle l) s =
      if (s.line l).interdigitHeld = true ∧ breakHolds (s.line l) e = false then .next (takeInterdigit l s) else .next s := by
    change execInterdigitHeldSettle l s = _
    rw [execInterdigitHeldSettle, he]
  refine ⟨fun hdue hheld h => ?_, fun hdue hheld h => ?_, fun hheld h => ?_, fun hheld h => ?_⟩
  · rw [hexpiry hdue hheld, if_pos (hholds.2 h)]
    rfl
  · rw [hexpiry hdue hheld, if_neg fun hc => h (hholds.1 hc)]
    exact hcompletes
  · rw [hsettle, if_pos ⟨hheld, by simpa using fun hc => h (hholds.1 hc)⟩]
    exact hcompletes
  · rw [hsettle, if_neg fun hc => by simp [hholds.2 h] at hc]

/-! ### The ring expiries -/

/-- A line that is not being measured in a slot of this time unit is not measured again (R22). -/
theorem rebeginSlot_of_apart {l : LineNo} {s : State} (h : ∀ m, (s.line l).measuring = some m → m.stamp ≠ s.now) : rebeginSlot l s = s := by
  unfold rebeginSlot
  split
  · rename_i m hm
    exact if_neg fun hc => h m hm hc.1
  · rfl

/-- Settles O51: the change of phase, or the end of the ringing, with no slot of this time unit to make again. -/
theorem ringExpiriesAreTaken : Obligations.RingExpiriesAreTaken := by
  intro l e s r p hapart hdue
  have hagain : ∀ (u : State), u.now = s.now → (∀ m, (u.line l).measuring = some m → ∃ m', r.measuring = some m' ∧ m.stamp = m'.stamp) →
      rebeginSlot l (recomputeFeed l u) = recomputeFeed l u := by
    intro u hnow hm
    refine rebeginSlot_of_apart fun m h => ?_
    rw [recomputeFeed_line_self] at h
    obtain ⟨m', hm', hstamp⟩ := hm m h
    rw [now_recomputeFeed, hnow, hstamp]
    exact hapart m' hm'
  refine ⟨fun he => ?_, fun he => ?_⟩
  · have hexec : ∀ q : Line, changePhase e p r = q → q.measuring = r.measuring →
        exec (.ringPhaseExpiry l) s = .next (recomputeFeed l (s.setLine l q)) := by
      rintro q rfl hq
      change execRingPhaseExpiry l s = _
      rw [execRingPhaseExpiry, show (s.line l).ringPhaseExpiry = some e from he]
      refine (if_pos (decide_eq_true hdue)).trans (congrArg Host.Outcome.next (hagain _ (now_modLine ..) fun m hm => ⟨m, ?_, rfl⟩))
      rw [State.line_modLine_self] at hm
      exact hq ▸ hm
    refine ⟨fun hph => hexec _ ?_ rfl, fun hph => hexec _ ?_ rfl⟩ <;> rw [changePhase, hph] <;> rfl
  · change execRingLimitExpiry l s = _
    rw [execRingLimitExpiry, show (s.line l).ringLimitExpiry = some e from he]
    refine (if_pos (decide_eq_true hdue)).trans (congrArg Host.Outcome.next ((hagain _ (by simp [now_modLine]) fun m hm => ?_).trans ?_))
    · rw [State.line_modLine_self, line_lineEvent] at hm
      simp only [unanswered, clearRinging, discardRingMeasuring, Option.map_eq_some_iff] at hm
      obtain ⟨m', hm', rfl⟩ := hm
      refine ⟨m', hm', ?_⟩
      split <;> rfl
    · refine congrArg (recomputeFeed l) ?_
      simp only [State.modLine, line_lineEvent]
      rfl

end Sys2Proof.Machine
end

