-- ==== Sys2Proof/Proofs/ReviewsAndBlocks.lean ====
section
/-! PROOF. The pool review and the ends of tone blocks (R103 to R107, R112 to R114). -/

namespace Sys2Proof.Machine

/-! ### The pool review -/

theorem isVictim_iff (r : Detector) :
    isVictim r = true ↔ r.line ≠ none ∧ r.locked = false ∧ r.used = false ∧ ∃ c, r.decision = .mute c := by
  obtain ⟨line, locked, used, -, -, decision⟩ := r
  cases decision <;> simp [isVictim, Option.isSome_iff_ne_none, and_assoc]

/-- The lowest detector the review may take is the one it finds (R113). -/
theorem victim_some {s : State} {d : DetNo} {v : LineNo} (hline : (s.det d).line = some v) (hd : isVictim (s.det d) = true)
    (hlow : ∀ x, x < d → isVictim (s.det x) = false) : s.victim = some (d, v) := by
  have hfind : allDets.find? (fun d => isVictim (s.det d)) = some d := by
    rw [allDets, List.find?_eq_some_iff_getElem]
    refine ⟨hd, d.val, by simp, by simp, fun j hj => ?_⟩
    have h := hlow ⟨j, by omega⟩ hj
    simpa using h
  rw [State.victim, hfind]
  simp only [hline]
  rfl

theorem victim_none {s : State} (h : ∀ d, isVictim (s.det d) = false) : s.victim = none := by
  have hfind : allDets.find? (fun d => isVictim (s.det d)) = none := by
    rw [List.find?_eq_none]
    exact fun d _ => by simp [h d]
  rw [State.victim, hfind]

/-- An eviction: the line without its detector waits at the tail, the head of the queue has the detector (R113). -/
theorem evictDet_eq {d : DetNo} {v w : LineNo} {rest : List LineNo} {u : State} (hq : u.pool.waitQueue = w :: rest) :
    evictDet d v u =
      let out := (u.setLine v { u.line v with detStatus := .waiting }).setQueue (rest ++ [v])
      (out.setLine w { out.line w with detStatus := .assigned d }).setDet d (freshDetector w false u.now) := by
  let s1 := (u.setDet d freedDetector).setStatus v .waiting
  have hhand : evictDet d v u = assignDet d w false (s1.setQueue (rest ++ [v])) := by
    rw [evictDet, handOn]
    have hqueue : (s1.setQueue (u.pool.waitQueue ++ [v])).pool.waitQueue = w :: (rest ++ [v]) := by
      rw [hq]
      rfl
    simp only [s1] at hqueue ⊢
    rw [hqueue]
    rfl
  rw [hhand, assignDet]
  simp only [s1, State.setStatus, setDet_modLine, setQueue_setDet, setDet_setDet, now_setDet, now_setQueue, now_modLine]
  rfl

/-- Settles O52: by whether the Wait Queue is empty, and whether a detector is silent. -/
theorem reviewsEvictTheSilent : Obligations.ReviewsEvictTheSilent := by
  intro s hdue u silent
  have hexec : exec .poolReview s = .next (reviewPool u) := if_pos hdue
  have hsilent : ∀ d, isVictim (u.det d) = true ↔ silent d := fun d => isVictim_iff (s.det d)
  have hloud : ∀ d, ¬ silent d → isVictim (u.det d) = false := fun d h => by simpa using mt (hsilent d).1 h
  refine ⟨fun hq => hexec.trans (congrArg Host.Outcome.next (if_pos hq)), fun w rest hq => ?_⟩
  have hsome : reviewPool u = match u.victim with
      | some (d, v) => evictDet d v u
      | none => clearUsedBits u := if_neg (fun hc => List.cons_ne_nil w rest (hq.symm.trans hc))
  refine ⟨fun d v hline hd hlow => ?_, fun hnone => ?_⟩
  · intro out
    have hvictim : u.victim = some (d, v) := victim_some hline ((hsilent d).2 hd) fun x hx => hloud x (hlow x hx)
    rw [hexec, hsome, hvictim]
    exact congrArg Host.Outcome.next (evictDet_eq hq)
  · rw [hexec, hsome, victim_none fun d => hloud d (hnone d)]
    rfl

/-! ### Block ends -/

theorem capEnergies_of_inRange {e : Energies} (h : energiesInRange e = true) : capEnergies e = e := by
  simp only [energiesInRange, List.all_cons, List.all_nil, Bool.and_true, Bool.and_eq_true, decide_eq_true_eq] at h
  obtain ⟨h1, h2, h3, h4, h5, h6, h7, h8, h9⟩ := h
  simp only [capEnergies, Nat.min_eq_left h1, Nat.min_eq_left h2, Nat.min_eq_left h3, Nat.min_eq_left h4, Nat.min_eq_left h5,
    Nat.min_eq_left h6, Nat.min_eq_left h7, Nat.min_eq_left h8, Nat.min_eq_left h9]

/-- The largest of four energies. -/
theorem topTwo_max (w x y z : Nat) : (topTwo w x y z).1 = max (max w x) (max y z) := by
  unfold topTwo
  split_ifs <;> simp only <;> omega

/-- A block that is decided and accepts no digit changes its detector (R104 to R106). -/
theorem takeDecidedBlock_plain {d : DetNo} {l : LineNo} {b : EndedBlock} {e : Energies} {s : State} {x : Decision}
    (h : decideBlock (blockDigit e) b.start (s.det d).decision = (x, none)) :
    takeDecidedBlock d l b e s = s.setDet d (decidedDetector e x (s.det d)) := by
  rw [takeDecidedBlock, h]

/-- A block that accepts a digit hands it to the Digit Assembler (R107). -/
theorem takeDecidedBlock_digit {d : DetNo} {l : LineNo} {b : EndedBlock} {e : Energies} {s : State} {x : Decision} {c : DigitCode} {t : Time}
    (h : decideBlock (blockDigit e) b.start (s.det d).decision = (x, some (c, t))) :
    takeDecidedBlock d l b e s = toneDigit l c t (s.setDet d (decidedDetector e x (s.det d))) := by
  rw [takeDecidedBlock, h]

section

variable {g : Option DigitCode} {t t0 : Time} {c : DigitCode} {k : Nat}

theorem decideBlock_keeps : decideBlock (some c) t (.tone c k) = (.tone c 0, none) := by simp [decideBlock]

theorem decideBlock_misses (h : g ≠ some c) (hk : k = 0) : decideBlock g t (.tone c k) = (.tone c 1, none) := by
  subst hk
  obtain - | y := g
  · rfl
  · have hy : ¬ y = c := fun hc => h (congrArg some hc)
    simp [decideBlock, hy]

theorem decideBlock_releases (h : g ≠ some c) (hk : k = 1) : decideBlock g t (.tone c k) = (.mute none, none) := by
  subst hk
  obtain - | y := g
  · rfl
  · have hy : ¬ y = c := fun hc => h (congrArg some hc)
    simp [decideBlock, hy]

theorem decideBlock_accepts : decideBlock (some c) t (.mute (some (c, t0))) = (.tone c 0, some (c, t0)) := by simp [decideBlock]

theorem decideBlock_replaces {y : DigitCode} (h : y ≠ c) : decideBlock (some y) t (.mute (some (c, t0))) = (.mute (some (y, t)), none) := by
  simp [decideBlock, h]

end

/-- Settles O53: discarded or decided, then by the decision state and the digit of the block. -/
theorem toneBlocksAreDecided : Obligations.ToneBlocksAreDecided := by
  intro d l b e s hrange hended hline r x taken discarded loud put answers
  let s1 := s.setDet d (endTaken (s.det d))
  have hexec : exec (.toneBlockEnd d e) s = .next (takeBlockEnd d l b e s) := by
    change execToneBlockEnd d e s = _
    rw [execToneBlockEnd, hended, hline, capEnergies_of_inRange hrange]
  have hdiscarded : blockDiscarded (s.line l) (s.det d) b = true ↔ discarded := by
    simp only [blockDiscarded, Bool.or_eq_true, Bool.not_eq_true', Bool.or_eq_false_iff, decide_eq_true_eq, decide_eq_false_iff_not, or_assoc]
    rfl
  have habove : aboveFloor e = decide loud := by
    simp only [aboveFloor, lowTop, highTop, topTwo_max, loud, Bool.decide_or]
    rfl
  have hdet : s1.det d = taken := State.det_setDet_self ..
  have hput : ∀ y, s1.setDet d (decidedDetector e y (s1.det d)) = put y := by
    intro y
    rw [hdet]
    simp only [s1, setDet_setDet, decidedDetector, habove]
    rfl
  refine ⟨fun h => hexec.trans (congrArg Host.Outcome.next (if_pos (hdiscarded.2 h))), fun hnot => ?_⟩
  have htake : takeBlockEnd d l b e s = takeDecidedBlock d l b e s1 := if_neg fun h => hnot (hdiscarded.1 h)
  have hdecision : (s1.det d).decision = x.decision := by rw [hdet]
  have hplain : ∀ y, decideBlock (blockDigit e) b.start x.decision = (y, none) → answers (put y) := by
    intro y h
    rw [← hdecision] at h
    exact hexec.trans (congrArg Host.Outcome.next (htake.trans ((takeDecidedBlock_plain h).trans (hput y))))
  have hdigit : ∀ y c t, decideBlock (blockDigit e) b.start x.decision = (y, some (c, t)) → answers (toneDigit l c t (put y)) := by
    intro y c t h
    rw [← hdecision] at h
    exact hexec.trans (congrArg Host.Outcome.next (htake.trans ((takeDecidedBlock_digit h).trans (congrArg (toneDigit l c t) (hput y)))))
  have hstate : ∀ y, ((put y).line l).state = r.state := fun y => rfl
  refine ⟨fun hx hg => hplain _ ?_, fun y hx hg => hplain _ ?_, fun c t0 hx => ⟨fun hg => hplain _ ?_, fun y hg hy => hplain _ ?_,
    fun hg hst => ?_, fun hg hst => ?_⟩, fun c k hx => ⟨fun hg => hplain _ ?_, fun hg hk => hplain _ ?_, fun hg hk => hplain _ ?_⟩⟩
  · rw [hx, hg]
    rfl
  · rw [hx, hg]
    rfl
  · rw [hx, hg]
    rfl
  · rw [hx, hg, decideBlock_replaces hy]
  · have h := hdigit (.tone c 0) c t0 (by rw [hx, hg, decideBlock_accepts])
    rw [toneDigit, hstate, hst] at h
    exact h
  · have h := hdigit (.tone c 0) c t0 (by rw [hx, hg, decideBlock_accepts])
    rw [toneDigit, hstate, hst] at h
    exact h
  · rw [hx, hg, decideBlock_keeps]
  · rw [hx, decideBlock_misses hg hk]
  · rw [hx, decideBlock_releases hg hk]

end Sys2Proof.Machine
end

