-- ==== Sys2Proof/Proofs/TimeBaseRuns.lean ====
section
/-! PROOF. The oscillator, time units and frame syncs (R98, R112, R170 to R179). -/

namespace Sys2Proof.Machine

/-! ### The oscillator -/

theorem advance_advance (a b : Nat) (s : State) : advance a (advance b s) = advance (b + a) s := by
  simp only [advance, State.setTb, advanceTb]
  congr 2
  · split <;> omega
  · omega
  · split <;> omega
  · cases s.tb.window <;> simp [Nat.add_assoc]

/-- The oscillator running on to an event before which nothing falls due (R173 to R176). -/
theorem runTo_quiet (e : TbEvent) {d : Nat} {s : State} (hd : 0 < d) (h : d ≤ (nextTbEvent s.tb).2) :
    runTo e d s = applyTbEvent e (advance d s) := by
  rw [runTo, if_neg (by omega), elapse_quiet _ _ (by omega), advance_advance]
  congr 2
  omega

section

variable {b : TimeBase}

theorem nextTbEvent_flywheel (h : b.lock = .locked) (hn : b.n ≤ 2) : nextTbEvent b = (.flywheel, toFlywheel b) := by
  simp [nextTbEvent, h, hn]

theorem nextTbEvent_loss (h : b.lock = .locked) (hn : 2 < b.n) : nextTbEvent b = (.loss, toLoss b) := by
  simp [nextTbEvent, h, Nat.not_le.2 hn]

/-- In FREE_RUN nothing falls due before both the free unit and, with a reference, the end of the window for frame 1. -/
theorem le_nextTbEvent_free (h : b.lock = .freeRun) {d : Nat} (hfree : d ≤ toFree b) (hexpiry : b.hasRef = true → d ≤ toRelockExpiry b) :
    d ≤ (nextTbEvent b).2 := by
  simp only [nextTbEvent, h]
  split
  · rename_i hc
    exact hexpiry hc.1
  · exact hfree

end

/-- What `c` cycles make of the Time Base in LOCKED, which has its reference (R171, R177). -/
theorem advance_locked (c : Nat) {s : State} (hlock : s.tb.lock = .locked) (href : s.tb.hasRef = true) :
    advance c s = { s with
      tb := { s.tb with
        g := s.tb.g + c, u := s.tb.u + c, window := s.tb.window.map (fun w => { w with cycles := w.cycles + c }) } } := by
  simp only [advance, State.setTb, advanceTb, hlock, href, reduceCtorEq, if_true, if_false]

/-- What `c` cycles make of the Time Base in FREE_RUN, which calibrates nothing (R171, R175). -/
theorem advance_free (c : Nat) {s : State} (hlock : s.tb.lock = .freeRun) (hwindow : s.tb.window = none) :
    advance c s = { s with
      tb := { s.tb with
        g := if s.tb.hasRef then s.tb.g + c else s.tb.g, u := s.tb.u + c, acc := s.tb.acc + 64 * c } } := by
  simp only [advance, State.setTb, advanceTb, hlock, hwindow, Option.map_none, if_true]

/-! ### A time unit -/

/-- A unit of any kind: the time, the review, a sample of each assigned detector, and nothing else (R170, R98, R112). -/
theorem emitUnit_effect (k : UnitKind) (s : State) :
    let t := emitUnit k s
    t.tb = { s.tb with counter := s.tb.counter + 1, u := 0 } ∧
      t.pool.reviewCount = (if s.pool.reviewCount + 1 = 1600 then 0 else s.pool.reviewCount + 1) ∧
      (s.pool.reviewCount + 1 = 1600 → t.pool.reviewDue = true) ∧
      (∀ d, (s.det d).line = none → t.det d = s.det d) ∧
      (∀ d l, (s.det d).line = some l → t.det d = takeSample k s.pool.law (s.line l).timeslot (s.now + 1) (s.det d)) ∧
      { t with tb := s.tb, pool := s.pool } = s := by
  let u : State := { s with tb := { s.tb with counter := timeAfter s.tb.counter 1, u := 0 }, pool := countReview s.pool }
  have hdet : ∀ d, u.det d = s.det d := fun d => by
    simp only [u, State.det, countReview]
    split <;> rfl
  have hlaw : u.pool.law = s.pool.law := by
    simp only [u, countReview]
    split <;> rfl
  have hcount : ∀ p : TonePool, (countReview p).reviewCount = if p.reviewCount + 1 = 1600 then 0 else p.reviewCount + 1 := fun p => by
    by_cases h : p.reviewCount + 1 = 1600
    · exact (congrArg TonePool.reviewCount (if_pos h : countReview p = _)).trans (if_pos h).symm
    · exact (congrArg TonePool.reviewCount (if_neg h : countReview p = _)).trans (if_neg h).symm
  refine ⟨rfl, hcount s.pool, fun h => ?_, fun d hd => ?_, fun d l hd => ?_, rfl⟩
  · exact congrArg TonePool.reviewDue (if_pos h : countReview s.pool = _)
  · rw [← hdet d] at hd ⊢
    exact sampleAll_free k u d hd
  · rw [← hdet d] at hd
    have h := sampleAll_assigned k u d l hd
    rw [hdet, hlaw] at h
    exact h

theorem takeSample_count (k : UnitKind) (law : Law) (slot : Option Timeslot) (t : Time) (r : Detector) :
    (takeSample k law slot t r).sampleCount = if r.sampleCount = 95 then 0 else r.sampleCount + 1 := by
  have hblock : r.sampleCount + 1 = Config.blockSamples ↔ r.sampleCount = 95 := Nat.succ_inj
  simp only [takeSample, hblock]
  split <;> rfl

/-- Settles O40: each event at its cycle (`runTo_quiet`), and what a unit counts (`emitUnit_effect`). -/
theorem theOscillatorRunsOn : Obligations.TheOscillatorRunsOn := by
  refine ⟨fun s hlock href hn hg => ?_, fun s hlock href hn hg => ?_, fun s hlock hwindow hacc => ?_, fun s hlock hwindow href hg => ?_,
    fun k s => ?_⟩
  · intro last
    have hbefore : s.tb.g < last := Nat.lt_succ_of_le ((Nat.le_div_iff_mul_le (by decide)).2 (by omega))
    have hexec : exec .flywheelUnit s = .next (runTo .flywheel (last - s.tb.g) s) := if_pos ⟨hlock, hn⟩
    have hnext : last - s.tb.g ≤ (nextTbEvent s.tb).2 := by
      rw [nextTbEvent_flywheel hlock hn]
      exact Nat.le_refl _
    rw [hexec, runTo_quiet _ (by omega) hnext, advance_locked _ hlock href]
    simp only [applyTbEvent, flywheel, State.setTb, Nat.add_sub_cancel' (Nat.le_of_lt hbefore)]
  · have hexec : exec .lossOfLock s = .next (runTo .loss (3 * s.tb.cal / 64 + 1 - s.tb.g) s) := if_pos hlock
    have hnext : 3 * s.tb.cal / 64 + 1 - s.tb.g ≤ (nextTbEvent s.tb).2 := by
      rw [nextTbEvent_loss hlock (by omega)]
      exact Nat.le_refl _
    rw [hexec, runTo_quiet _ (by omega) hnext, advance_locked _ hlock href]
    rfl
  · intro d hexpiry
    have hexec : exec .freeUnit s = .next (runTo .free d s) := if_pos hlock
    have hnext : d ≤ (nextTbEvent s.tb).2 := by
      refine le_nextTbEvent_free hlock (Nat.le_refl _) fun href => ?_
      have hwithin := (Nat.le_div_iff_mul_le (show 0 < 1024 by decide)).2 (Nat.mul_comm _ 1024 ▸ hexpiry href)
      simp only [toRelockExpiry, windowPassedAt]
      omega
    rw [hexec, runTo_quiet _ (by omega) hnext, advance_free _ hlock hwindow]
    rfl
  · intro d hfree
    have hwithin := (Nat.le_div_iff_mul_le (show 0 < 1024 by decide)).2 (Nat.mul_comm _ 1024 ▸ hg)
    have hexec : exec .relockWindowExpiry s = .next (runTo .relockExpiry d s) := if_pos ⟨hlock, href⟩
    have hnext : d ≤ (nextTbEvent s.tb).2 := by
      refine le_nextTbEvent_free hlock ?_ fun _ => Nat.le_refl _
      simp only [toFree, cyclesToFreeUnit]
      omega
    rw [hexec, runTo_quiet _ (by omega) hnext, advance_free _ hlock hwindow]
    rfl
  · obtain ⟨htb, hreview, -, hfree, htaken, hrest⟩ := emitUnit_effect k s
    refine ⟨htb, hreview, hfree, fun d l hd => ?_, hrest⟩
    rw [htaken d l hd, takeSample_count]

/-! ### Frame syncs -/

theorem inWindow_iff (cal g n : Nat) : inWindow cal g n = true ↔ 1024 * g ≤ 16 * n * cal + cal ∧ 16 * n * cal ≤ 1024 * g + cal := by
  rw [inWindow, Bool.and_eq_true, decide_eq_true_eq, decide_eq_true_eq]

theorem judgeSync_locked {frame : Vector Byte 128} {s : State} (h : s.tb.lock = .locked) :
    judgeSync frame s = if inWindow s.tb.cal s.tb.g s.tb.n then goodSync frame s else s := by rw [judgeSync, h]

theorem judgeSync_free {frame : Vector Byte 128} {s : State} (h : s.tb.lock = .freeRun) : judgeSync frame s = freeSync s := by
  rw [judgeSync, h]

/-- Settles O39: a sync in FREE_RUN by the reference, the window and the run. -/
theorem syncsRelock : Obligations.SyncsRelock := by
  intro cycles frame s hlock hwindow g b good since run hacc hexpiry
  have hexec : exec (.frameSync cycles frame) s = .next (freeSync { s with tb := b }) := by
    have hnext : cycles < (nextTbEvent s.tb).2 := by
      refine le_nextTbEvent_free hlock ?_ fun href => ?_
      · have hcal : s.tb.acc + 64 * cycles < s.tb.cal := hacc
        simp only [toFree, cyclesToFreeUnit]
        omega
      · have hg : g = s.tb.g + cycles := if_pos href
        have hwithin := (Nat.le_div_iff_mul_le (show 0 < 1024 by decide)).2 (Nat.mul_comm _ 1024 ▸ hexpiry href)
        have hcal : b.cal = s.tb.cal := rfl
        simp only [toRelockExpiry, windowPassedAt]
        omega
    change Host.Outcome.next (judgeSync frame (elapse cycles s)) = _
    rw [elapse_quiet _ _ hnext, advance_free _ hlock hwindow]
    exact congrArg Host.Outcome.next (judgeSync_free hlock)
  have hgood : inWindow b.cal b.g 1 = true ↔ good := inWindow_iff ..
  have hcounts : s.tb.hasRef = true → good → freeSync { s with tb := b } =
      if 64 ≤ run then relock { s with tb := { b with g := 0, n := 1, relockRun := run, relockTime := since } }
      else { s with tb := { b with g := 0, n := 1, relockRun := run, relockTime := since } } := by
    intro href hin
    have h1 : ¬ b.hasRef = false := by simp [b, href]
    have hset : countRelock b = { b with g := 0, n := 1, relockRun := run, relockTime := since } := by
      simp only [countRelock, newRef, b, href]
      rfl
    rw [freeSync, if_neg h1, if_pos (hgood.2 hin)]
    simp only [State.setTb, hset]
    rfl
  refine ⟨fun href => ?_, fun href hout => ?_, fun href hin hrun => ?_, fun href hin hrun => ?_⟩ <;> rw [hexec]
  · exact congrArg Host.Outcome.next (if_pos href)
  · have h1 : ¬ b.hasRef = false := by simp [b, href]
    rw [freeSync, if_neg h1, if_neg fun hc => hout (hgood.1 hc)]
  · rw [hcounts href hin, if_neg (by omega)]
  · rw [hcounts href hin, if_pos hrun]
    rfl

/-- A count taken in a state of the Time Base that calibrates alike (R178). -/
theorem takeCount_congr {count : Nat} {a b : TimeBase} (hcal : a.cal = b.cal) (hstatus : a.calStatus = b.calStatus)
    (hn : a.acceptedCount = b.acceptedCount) (hsum : a.acceptedSum = b.acceptedSum) :
    (takeCount count a).cal = (takeCount count b).cal ∧ (takeCount count a).calStatus = (takeCount count b).calStatus ∧
      (takeCount count a).acceptedCount = (takeCount count b).acceptedCount ∧
      (takeCount count a).acceptedSum = (takeCount count b).acceptedSum := by
  unfold takeCount
  rw [hn, hsum]
  split_ifs
  · exact ⟨rfl, rfl, rfl, rfl⟩
  · exact ⟨hcal, hstatus, rfl, rfl⟩
  · exact ⟨hcal, hstatus, hn, hsum⟩

/-- A count changes the calibration alone (R178). -/
theorem takeCount_rest (count : Nat) (b : TimeBase) :
    { takeCount count b with
      cal := b.cal, calStatus := b.calStatus, acceptedCount := b.acceptedCount, acceptedSum := b.acceptedSum } = b := by
  unfold takeCount
  split_ifs <;> rfl

theorem advanceWindow_rest (b : TimeBase) :
    { advanceWindow b with
      cal := b.cal, calStatus := b.calStatus, acceptedCount := b.acceptedCount, acceptedSum := b.acceptedSum, window := b.window } = b := by
  unfold advanceWindow
  split
  · rfl
  · split
    · rename_i w _ _
      have h := congrArg (fun x : TimeBase => { x with window := b.window }) (takeCount_rest w.cycles { b with window := some ⟨0, 0⟩ })
      exact h
    · rfl

section

variable {b : TimeBase} {w : CalWindow}

/-- With no window open a good sync opens one (R177). -/
theorem advanceWindow_opens (h : b.window = none) : advanceWindow b = { b with window := some ⟨0, 0⟩ } := by
  rw [advanceWindow, h]

/-- A good sync counts in the window (R177). -/
theorem advanceWindow_grows (h : b.window = some w) (hlt : w.good < 63) :
    advanceWindow b = { b with window := some ⟨w.cycles, w.good + 1⟩ } := by
  rw [advanceWindow, h]
  exact if_neg (fun hc : 64 ≤ w.good + 1 => by omega)

/-- The 64th good sync closes the window and opens the next (R177, R178). -/
theorem advanceWindow_closes (h : b.window = some w) (heq : w.good = 63) :
    advanceWindow b = takeCount w.cycles { b with window := some ⟨0, 0⟩ } := by
  rw [advanceWindow, h]
  exact if_pos (show 64 ≤ w.good + 1 by omega)

end

/-- Settles O38: a sync out of the window, and a good one with its unit and its place in the calibration window. -/
theorem syncsPaceTheUnits : Obligations.SyncsPaceTheUnits := by
  refine ⟨fun count b => ⟨fun h => ?_, fun hlow hhigh => ⟨fun h => ?_, fun h => ?_⟩⟩, fun cycles frame s hlock href => ?_⟩
  · refine if_neg fun hc => ?_
    simp only [countAccepted, Bool.and_eq_true, decide_eq_true_eq] at hc
    have hmin : Config.calMin = 117965 := rfl
    have hmax : Config.calMax = 144179 := rfl
    omega
  · have hacc : countAccepted count = true := Bool.and_eq_true_iff.2 ⟨decide_eq_true hlow, decide_eq_true hhigh⟩
    rw [takeCount, if_pos hacc, if_neg h]
  · have hacc : countAccepted count = true := Bool.and_eq_true_iff.2 ⟨decide_eq_true hlow, decide_eq_true hhigh⟩
    rw [takeCount, if_pos hacc, if_pos h]
  · intro g window passed hflywheel hloss good
    have hexec : exec (.frameSync cycles frame) s = .next (if inWindow s.tb.cal g s.tb.n then goodSync frame passed else passed) := by
      have hnext : cycles < (nextTbEvent s.tb).2 := by
        by_cases hn : s.tb.n ≤ 2
        · have hwithin := (Nat.le_div_iff_mul_le (show 0 < 1024 by decide)).2 (Nat.mul_comm _ 1024 ▸ hflywheel hn)
          rw [nextTbEvent_flywheel hlock hn]
          simp only [toFlywheel, windowPassedAt]
          omega
        · have hwithin := hloss (by omega)
          rw [nextTbEvent_loss hlock (by omega)]
          simp only [toLoss, lossAt]
          omega
      change Host.Outcome.next (judgeSync frame (elapse cycles s)) = _
      rw [elapse_quiet _ _ hnext, advance_locked _ hlock href]
      exact congrArg Host.Outcome.next (judgeSync_locked hlock)
    have hgood : inWindow s.tb.cal g s.tb.n = true ↔ good := inWindow_iff ..
    refine ⟨fun hout => by rw [hexec, if_neg fun hc => hout (hgood.1 hc)], fun hin => ?_⟩
    let u : State := { passed with tb := { passed.tb with g := 0, n := 1 } }
    let s1 := emitUnit (.paced frame) u
    obtain ⟨-, hreview, hdue, hfree, htaken, -⟩ := emitUnit_effect (.paced frame) u
    have hkept := advanceWindow_rest s1.tb
    have hslot : ∀ d l, (s.det d).line = some l →
        s1.det d = takeSample (.paced frame) s.pool.law (s.line l).timeslot (s.now + 1) (s.det d) := htaken
    refine ⟨goodSync frame passed, by rw [hexec, if_pos (hgood.2 hin)], ?_, ?_, ?_, ?_, rfl, ?_, fun hw => ?_, fun w hw hlt => ?_,
      fun w hw heq => ?_, hreview, hdue, hfree, fun d l hd hlt => ?_, fun d l hd heq => ?_, rfl⟩
    · have h := congrArg TimeBase.counter hkept
      exact h
    · have h := congrArg TimeBase.g hkept
      exact h
    · have h := congrArg TimeBase.n hkept
      exact h
    · have h := congrArg TimeBase.u hkept
      exact h
    · have h := congrArg TimeBase.lock hkept
      exact h.trans hlock
    · have hopen : advanceWindow s1.tb = { s1.tb with window := some ⟨0, 0⟩ } := advanceWindow_opens hw
      have hcal := congrArg TimeBase.cal hopen
      exact ⟨congrArg TimeBase.window hopen, hcal⟩
    · have hgrow : advanceWindow s1.tb = { s1.tb with window := some ⟨w.cycles, w.good + 1⟩ } := advanceWindow_grows hw hlt
      have hcal := congrArg TimeBase.cal hgrow
      exact ⟨congrArg TimeBase.window hgrow, hcal⟩
    · have hclose : advanceWindow s1.tb = takeCount w.cycles { s1.tb with window := some ⟨0, 0⟩ } := advanceWindow_closes hw heq
      have hwindow := congrArg TimeBase.window (takeCount_rest w.cycles { s1.tb with window := some ⟨0, 0⟩ })
      refine ⟨(congrArg TimeBase.window hclose).trans hwindow, ?_⟩
      obtain ⟨h1, h2, h3, h4⟩ := takeCount_congr (count := w.cycles) (a := { s1.tb with window := some ⟨0, 0⟩ }) (b := s.tb) rfl rfl rfl rfl
      exact ⟨(congrArg TimeBase.cal hclose).trans h1, (congrArg TimeBase.calStatus hclose).trans h2,
        (congrArg TimeBase.acceptedCount hclose).trans h3, (congrArg TimeBase.acceptedSum hclose).trans h4⟩
    · have hblock : ¬ (s.det d).sampleCount + 1 = Config.blockSamples := fun hc => by
        have h : Config.blockSamples = 96 := rfl
        omega
      refine (hslot d l hd).trans ((if_neg hblock).trans ?_)
      simp only [isFreeUnit, Bool.or_false, sampleOf]
    · have hblock : (s.det d).sampleCount + 1 = Config.blockSamples := congrArg (· + 1) heq
      have hend : s1.det d = _ := (hslot d l hd).trans (if_pos hblock)
      refine ⟨(congrArg Detector.blockStart hend).trans (congrArg some ?_), congrArg Detector.sampleCount hend, ?_⟩
      · exact BitVec.add_assoc s.now 1 1
      · refine (congrArg Detector.ended hend).trans ?_
        simp only [isFreeUnit, Bool.or_false]

end Sys2Proof.Machine
end

