-- ==== Sys2Proof/Proofs/TestAccess.lean ====
section
/-! PROOF. HOLD and RELEASE (R158 to R161, R166 to R168). -/

namespace Sys2Proof.Machine

/-! ### Modes of lines that are not RINGING -/

/-- Only a RINGING line has mode RING (R35). -/
theorem derivedMode_ne_ring {l : LineNo} {s : State} (h : (s.line l).state ≠ .ringing) : s.derivedMode l ≠ .ring :=
  fun hc => h (ringing_of_derivedMode_ring hc).1

/-- A recomputation for a line that is not RINGING sets the flag exactly on a move from RING (R25). -/
theorem line_recomputeFeed_apart {l : LineNo} {s : State} (h : (s.line l).state ≠ .ringing) :
    (recomputeFeed l s).line l =
      { s.line l with
        sentMode := s.derivedMode l, recoveryDiscard := (s.line l).recoveryDiscard || decide ((s.line l).sentMode = .ring) } := by
  have hmode := derivedMode_ne_ring h
  have hflag : ((s.line l).sentMode ≠ s.derivedMode l ∧ ((s.line l).sentMode = .ring ∨ s.derivedMode l = .ring)) ↔ (s.line l).sentMode = .ring :=
    ⟨fun hc => hc.2.resolve_right hmode, fun hc => ⟨fun heq => hmode (heq.symm.trans hc), .inl hc⟩⟩
  rw [recomputeFeed_line_self, noteMode]
  simp only [hflag]

/-- The pending set of a line's hold events is read from its subscription and the ports (R3). -/
theorem holdPorts_congr {s t : State} {l : LineNo} (hline : (t.line l).subscription = (s.line l).subscription)
    (hport : ∀ q, (t.port q).state = (s.port q).state) : t.holdPorts l = s.holdPorts l ∧ t.linePorts l = s.linePorts l := by
  simp only [State.holdPorts, State.linePorts, State.attached, hline, hport, and_self]

/-! ### HOLD -/

theorem releaseAny_setShadow (l : LineNo) (n : ShadowNo) (v : Option Shadow) (s : State) :
    releaseAny l (s.setShadow n v) = (releaseAny l s).setShadow n v := by
  have hhand : ∀ d (u : State), handOn d (u.setShadow n v) = (handOn d u).setShadow n v := fun d u => by
    unfold handOn
    have hq : (u.setShadow n v).pool.waitQueue = u.pool.waitQueue := rfl
    rw [hq]
    split <;> rfl
  have hline : (s.setShadow n v).line l = s.line l := rfl
  unfold releaseAny
  rw [hline]
  split
  · exact hhand _ ((s.setDet _ freedDetector).setStatus l .none)
  · exact hhand _ ((s.setDet _ freedDetector).setStatus l .none)
  · rfl
  · rfl

/-- The report of a HOLD (R161). -/
def holdNote (l : LineNo) (n : ShadowNo) (force : Bool) (s : State) : Message :=
  ⟨s.holdPorts l, some l, s.now, .holdTaken (force && inCall (s.line l).state) n (s.line l).state⟩

/-- The state in which a line's detector is released, its shadow stored and its record HELD, before its feed mode follows (R159, R160). -/
def heldState (l : LineNo) (n : ShadowNo) (s : State) : State :=
  ((releaseAny l s).setShadow n (some (shadowOf l (s.line l)))).modLine l (heldFields n)

theorem line_heldState_self (l : LineNo) (n : ShadowNo) (s : State) :
    (heldState l n s).line l = heldFields n { s.line l with detStatus := ((releaseAny l s).line l).detStatus } := by
  rw [heldState, State.line_modLine_self]
  exact congrArg (heldFields n) (releaseAny_line l l s)

theorem port_heldState (l : LineNo) (n : ShadowNo) (s : State) (q : Port) : (heldState l n s).port q = s.port q := by
  simp [heldState]

/-- A HOLD: the line's record, the feed mode, the report (R159 to R161). -/
theorem takeHold_eq (l : LineNo) (n : ShadowNo) (force : Bool) (s : State) :
    takeHold l n force s = tell [holdNote l n force s] (recomputeFeed l (heldState l n s)) := by
  have hports : (recomputeFeed l (heldState l n s)).holdPorts l = s.holdPorts l := by
    refine (holdPorts_congr ?_ fun q => ?_).1
    · rw [recomputeFeed_line_self, line_heldState_self]
      rfl
    · rw [port_recomputeFeed, port_heldState]
  have hstate : (releaseAny l (s.setShadow n (some (shadowOf l (s.line l))))).modLine l (heldFields n) = heldState l n s := by
    rw [releaseAny_setShadow]
    rfl
  rw [takeHold]
  simp only [hstate, hports]
  rfl

theorem takeHold_recordOut (p : Port) (k : Nat) (l : LineNo) (n : ShadowNo) (force : Bool) (s : State) :
    takeHold l n force (recordOut p k s) = recordOut p k (takeHold l n force s) := by
  simp [takeHold]

/-- A line whose detector is taken away is left without one, when no waiting place of its own is behind (R110, R111). -/
theorem detStatus_releaseAny {l : LineNo} {s : State} (h : (s.line l).detStatus ≠ .waiting → l ∉ s.pool.waitQueue) :
    ((releaseAny l s).line l).detStatus = .none := by
  have hrelease : ∀ d, l ∉ s.pool.waitQueue → ((releaseDet d l s).line l).detStatus = .none := by
    intro d hq
    let u := (s.setDet d freedDetector).setStatus l .none
    have hu : (u.line l).detStatus = .none := by simp [u, State.setStatus]
    change ((handOn d u).line l).detStatus = .none
    have hqueue : u.pool.waitQueue = s.pool.waitQueue := rfl
    unfold handOn
    split
    · exact hu
    · rename_i m rest hm
      have hne : l ≠ m := fun hc => hq (by rw [← hqueue, hm, hc]; exact List.mem_cons_self)
      rw [assignDet, State.setStatus, State.line_modLine_ne _ _ hne]
      exact hu
  unfold releaseAny
  split
  next d hd => exact hrelease d (h (by rw [hd]; nofun))
  next d hd => exact hrelease d (h (by rw [hd]; nofun))
  next hd => simp [leaveQueue, State.setStatus]
  next hd => exact hd

theorem yesOf_some {b : Byte} : b.toNat ≤ 1 → yesOf b = some (decide (b.toNat = 1)) := by
  revert b
  decide

/-- No shadow slot is found when none is free (R159). -/
theorem freeShadow_none {s : State} (h : ∀ n : ShadowNo, s.test.shadows[n] ≠ none) : s.freeShadow = none := by
  rw [State.freeShadow, List.find?_eq_none]
  exact fun n _ => by simpa [Option.isNone_iff_eq_none] using h n

/-- Settles O35: the checks in their order, then the hold (`takeHold_eq`). -/
theorem holdTakesTheLine : Obligations.HoldTakesTheLine := by
  intro p l f fill s hadm c k r busy
  have hbusy : inCall r.state = true ↔ busy := by simp [inCall, busy, or_assoc]
  refine ⟨fun hf => serve_line l rfl (by decide) hadm ?_, fun hf hst => serve_line l rfl (by decide) hadm ?_,
    fun hf hst hnone => serve_line l rfl (by decide) hadm ?_, fun n hf hst hfree hlow =>
      ⟨fun hb hforce => serve_line l rfl (by decide) hadm ?_, fun hgo hqueue => ?_⟩⟩
  · simp [holdRule, yesOf_none f hf, deny]
  · have hheld : (s.line l).state = .held := hst
    simp [holdRule, yesOf_some hf, hheld, deny]
  · have hheld : ¬ (s.line l).state = .held := hst
    simp [holdRule, yesOf_some hf, hheld, freeShadow_none hnone, deny]
  · have hheld : ¬ (s.line l).state = .held := hst
    have hcall : inCall (s.line l).state = true := hbusy.2 hb
    simp [holdRule, yesOf_some hf, hheld, freeShadow_some s n hfree hlow, hcall, hforce, deny]
  · have hexec : exec c s = .next (answered p 0x40 .ok [byteOf n.val] k (takeHold l n (decide (f.toNat = 1)) s)) := by
      refine serve_line l rfl (by decide) hadm ?_
      have hheld : ¬ (s.line l).state = .held := hst
      have hcall : ¬ (inCall (s.line l).state = true ∧ decide (f.toNat = 1) = false) := fun hc =>
        hgo.elim (fun hb => hb (hbusy.1 hc.1)) fun hone => of_decide_eq_false hc.2 hone
      simp only [holdRule, arg_cons_zero, arg_cons_succ, yesOf_some hf, line_recordOut, if_neg hheld, freeShadow_recordOut,
        freeShadow_some s n hfree hlow, if_neg hcall, takeHold_recordOut]
    let u := heldState l n s
    have hfields : u.line l = heldFields n { r with detStatus := .none } := by
      rw [line_heldState_self, detStatus_releaseAny hqueue]
    have hnoRing : (u.line l).state ≠ .ringing := by
      rw [hfields]
      nofun
    have hnote : holdNote l n (decide (f.toNat = 1)) s =
        ⟨s.holdPorts l, some l, s.now, .holdTaken (decide (f.toNat = 1 ∧ busy)) n r.state⟩ := by
      have hflag : (decide (f.toNat = 1) && inCall r.state) = decide (f.toNat = 1 ∧ busy) := by
        rw [Bool.eq_iff_iff, Bool.and_eq_true, decide_eq_true_eq, decide_eq_true_eq, hbusy]
      exact congrArg (fun b => (⟨s.holdPorts l, some l, s.now, .holdTaken b n r.state⟩ : Message)) hflag
    have hkept := (keeps_takeHold l n (decide (f.toNat = 1)) s).ports
    refine ⟨_, hexec, replies_answered hkept.1, ?_, ?_, fun m hm => ?_, ?_, ?_, hkept.2.answered, ?_⟩
    · rw [line_answered, takeHold_eq, line_tell, line_recomputeFeed_apart hnoRing, hfields]
      simp only [heldFields, discardMeasuring, endDialling, clearPulses, r]
      rfl
    · rw [FeedSent, line_answered, answered_link0, answered_link1, derivedMode_answered, takeHold_eq, line_tell, tell_link0, tell_link1,
        derivedMode_tell]
      exact feedSent_recompute (by rw [hfields]; rfl) (by simp [heldState]) (by simp [heldState])
    · rw [line_answered, takeHold_eq, line_tell, recomputeFeed_line_ne hm, heldState, State.line_modLine_ne _ _ hm]
      exact others_releaseAny l l s m hm
    · rw [answered_pool, takeHold_eq, tell_pool]
      simp [heldState]
    · refine JournalAs.answered ?_
      rw [takeHold_eq, hnote]
      exact JournalAs.tell (JournalAs.of_ports (by simp [heldState]) fun q => by simp [heldState]) (by simp [heldState]) [_]
    · rw [takeHold_eq]
      simp [callOf, feedOf, linesOf, portsOf, heldState, State.setShadow, shadowOf]
      rfl

/-! ### RELEASE -/

/-- The reason set of a line whose record is written back (R166 steps 3 and 4). -/
def returnedReasons (l : LineNo) (m : ReleaseMode) (sh : Shadow) (s : State) : Reasons :=
  { (s.line l).reasons with fault := (s.effective l).autoBlock && isolatingFault (writeBack m sh (s.line l)).faults }

/-- The record of a released line (R166, R167). -/
def returned (q : Reasons) (m : ReleaseMode) (sh : Shadow) (r : Line) : Line := releasedFields q (releasedTo q m sh) (writeBack m sh r)

/-- The events of a release (R168). -/
def releaseNotes (l : LineNo) (q : Reasons) (m : ReleaseMode) (sh : Shadow) (why : ReleaseReason) (s : State) : List Message :=
  ⟨s.holdPorts l, some l, s.now, .holdReleased m why (releasedTo q m sh).1⟩ :: reasonNotes l q s

theorem writeBack_keeps (m : ReleaseMode) (sh : Shadow) (r : Line) :
    (writeBack m sh r).subscription = r.subscription ∧ (writeBack m sh r).reasons = r.reasons ∧ (writeBack m sh r).sentMode = r.sentMode ∧
      (writeBack m sh r).recoveryDiscard = r.recoveryDiscard := by
  cases m <;> exact ⟨rfl, rfl, rfl, rfl⟩

theorem releasedTo_ne (q : Reasons) (m : ReleaseMode) (sh : Shadow) : (releasedTo q m sh).1 ≠ .ringing ∧ (releasedTo q m sh).1 ≠ .held := by
  unfold releasedTo
  split
  · cases m with
    | restore =>
      dsimp only
      split <;> exact ⟨nofun, nofun⟩
    | fresh => exact ⟨nofun, nofun⟩
  · cases m <;> exact ⟨nofun, nofun⟩

/-- The state in which a released line's items and slot are gone and its record is written, before its feed mode follows (R166, R167). -/
def returnedState (l : LineNo) (q : Reasons) (m : ReleaseMode) (sh : Shadow) (s : State) : State :=
  (freeSlotOf l (dropItems l s)).modLine l (returned q m sh)

theorem line_returnedState_self (l : LineNo) (q : Reasons) (m : ReleaseMode) (sh : Shadow) (s : State) :
    (returnedState l q m sh s).line l = returned q m sh (s.line l) := by
  rw [returnedState, State.line_modLine_self, line_freeSlotOf, line_dropItems]

/-- A release: the line's record, the feed mode, the events (R166 to R168). -/
theorem releaseLine_eq {l : LineNo} (m : ReleaseMode) (why : ReleaseReason) {s : State} {sh : Shadow} {q : Reasons} (hsh : s.shadowFor l = sh)
    (hq : returnedReasons l m sh s = q) :
    releaseLine l m why s = tell (releaseNotes l q m sh why s) (recomputeFeed l (returnedState l q m sh s)) := by
  let s1 := (freeSlotOf l (dropItems l s)).modLine l (writeBack m sh)
  have hreasons : ({ (s.line l).reasons with fault := s1.faultReason l } : Reasons) = q := by
    rw [← hq, returnedReasons, State.faultReason]
    simp only [s1, State.line_modLine_self, line_freeSlotOf, line_dropItems, effective_modLine, effective_freeSlotOf, effective_dropItems]
  have hs2 : recomputeFeed l (s1.modLine l (releasedFields q (releasedTo q m sh))) = recomputeFeed l (returnedState l q m sh s) := by
    rw [modLine_modLine]
    rfl
  have hports : (recomputeFeed l (returnedState l q m sh s)).holdPorts l = s.holdPorts l ∧
      (recomputeFeed l (returnedState l q m sh s)).linePorts l = s.linePorts l := by
    refine holdPorts_congr ?_ fun p => ?_
    · rw [recomputeFeed_line_self, line_returnedState_self]
      exact (writeBack_keeps m sh _).1
    · simp [returnedState]
  have hline : ∀ e t b u, lineEvent l t b (writeEvent e (some l) s.now (.holdReleased m why (releasedTo q m sh).1) u) =
      writeEvent (u.linePorts l) (some l) t b (writeEvent e (some l) s.now (.holdReleased m why (releasedTo q m sh).1) u) := fun e t b u => by
    rw [lineEvent, linePorts_writeEvent]
  rw [releaseLine]
  simp only [hsh, s1] at hreasons hs2 ⊢
  rw [hreasons, hs2, hports.1, hline, hports.2, releaseNotes, reasonNotes]
  split <;> rfl

theorem returnedState_recordOut (p : Port) (k : Nat) (l : LineNo) (q : Reasons) (m : ReleaseMode) (sh : Shadow) (s : State) :
    returnedState l q m sh (recordOut p k s) = recordOut p k (returnedState l q m sh s) := by
  have hdrop : dropItems l (recordOut p k s) = recordOut p k (dropItems l s) := by cases p <;> rfl
  have hslot : ∀ u, freeSlotOf l (recordOut p k u) = recordOut p k (freeSlotOf l u) := fun u => by
    unfold freeSlotOf
    rw [line_recordOut]
    cases (u.line l).shadowSlot
    · rfl
    · exact setShadow_recordOut ..
  rw [returnedState, hdrop, hslot, modLine_recordOut]
  rfl

theorem tell_recordOut (p : Port) (k : Nat) (es : List Message) (s : State) : tell es (recordOut p k s) = recordOut p k (tell es s) :=
  (tell_apart es s (recordOut p k) fun _ _ _ _ _ => (writeEvent_recordOut ..).symm).symm

theorem releaseLine_recordOut (p : Port) (k : Nat) (l : LineNo) (m : ReleaseMode) (why : ReleaseReason) (s : State) :
    releaseLine l m why (recordOut p k s) = recordOut p k (releaseLine l m why s) := by
  have hshadow : (recordOut p k s).shadowFor l = s.shadowFor l := by simp [State.shadowFor]
  have hreasons : returnedReasons l m (s.shadowFor l) (recordOut p k s) = returnedReasons l m (s.shadowFor l) s := by
    simp [returnedReasons]
  have hnotes : releaseNotes l (returnedReasons l m (s.shadowFor l) s) m (s.shadowFor l) why (recordOut p k s) =
      releaseNotes l (returnedReasons l m (s.shadowFor l) s) m (s.shadowFor l) why s := by
    simp [releaseNotes, reasonNotes]
  rw [releaseLine_eq m why hshadow hreasons, hnotes, returnedState_recordOut, recomputeFeed_recordOut, tell_recordOut,
    releaseLine_eq m why rfl rfl]

theorem Reasons.none_iff_apart (q : Reasons) : q.none = true ↔ q.controller = false ∧ q.fault = false := by
  obtain ⟨c, f⟩ := q
  simp [Reasons.none_iff]

/-- R167's table: where a released line goes. -/
theorem releasedTo_eq (q : Reasons) (m : ReleaseMode) (sh : Shadow) :
    let state : LineState := if q.controller = false ∧ q.fault = false then (if m = .restore ∧ sh.state = .idle then .idle else .acquire) else .blocked
    releasedTo q m sh = (state, if state = .idle then .opened else if state = .blocked ∧ m = .restore then sh.loop else .unknown) := by
  intro state
  by_cases hfree : q.controller = false ∧ q.fault = false
  · have hnone : q.none = true := q.none_iff_apart.2 hfree
    have hstate : state = if m = .restore ∧ sh.state = .idle then .idle else .acquire := if_pos hfree
    unfold releasedTo
    rw [hstate, if_pos hnone]
    cases m with
    | restore => by_cases hidle : sh.state = .idle <;> simp [hidle]
    | fresh => simp
  · have hnone : ¬ q.none = true := fun h => hfree (q.none_iff_apart.1 h)
    have hstate : state = .blocked := if_neg hfree
    unfold releasedTo
    rw [hstate, if_neg hnone]
    cases m <;> simp

/-- Settles O36: the checks in their order, then the release (`releaseLine_eq`). -/
theorem releaseReturnsTheLine : Obligations.ReleaseReturnsTheLine := by
  intro p l b fill s hadm c k r
  refine ⟨fun hb => serve_line l rfl (by decide) hadm ?_, fun hb hst => serve_line l rfl (by decide) hadm ?_,
    fun m n sh hb hst hslot hshadow => ?_⟩
  · simp [releaseRule, releaseModeOf_none b hb, deny]
  · have hheld : ¬ (s.line l).state = .held := hst
    have hsome : ∀ b : Byte, b.toNat ≤ 1 → (releaseModeOf b).isSome = true := by decide
    obtain ⟨m, hm⟩ := Option.isSome_iff_exists.1 (hsome b hb)
    simp [releaseRule, hm, hheld, deny]
  · intro faults q free state loop told
    have hexec : exec c s = .next (answered p 0x41 .ok [] k (releaseLine l m .request s)) := by
      refine serve_line l rfl (by decide) hadm ?_
      have hheld : (s.line l).state = .held := hst
      simp only [releaseRule, arg_cons_zero, arg_cons_succ, hb, releaseModeOf_byteOf, line_recordOut, hheld, if_true, releaseLine_recordOut,
        accept]
    have hsh : s.shadowFor l = sh := by
      have hslot' : (s.line l).shadowSlot = some n := hslot
      rw [State.shadowFor, hslot']
      simp only [hshadow, Option.getD_some]
    have hfaults : (writeBack m sh r).faults = faults := by cases m <;> rfl
    have hq : returnedReasons l m sh s = q := by
      rw [returnedReasons, hfaults]
    have hto : releasedTo q m sh = (state, loop) := releasedTo_eq q m sh
    let u := returnedState l q m sh s
    have hrelease : releaseLine l m .request s = tell (releaseNotes l q m sh .request s) (recomputeFeed l u) := releaseLine_eq m .request hsh hq
    have hrecord : u.line l = returned q m sh r := line_returnedState_self l q m sh s
    have hnoRing : (u.line l).state ≠ .ringing := by
      rw [hrecord]
      exact (releasedTo_ne q m sh).1
    have hkept := (keeps_releaseLine l m .request s).ports
    refine ⟨_, hexec, replies_answered hkept.1, ?_, ?_, fun x hx => ?_, ?_, hkept.2.answered, ?_⟩
    · rw [line_answered, hrelease, line_tell, line_recomputeFeed_apart hnoRing, hrecord, returned, hto]
      cases m <;> rfl
    · rw [FeedSent, line_answered, answered_link0, answered_link1, derivedMode_answered, hrelease, line_tell, tell_link0, tell_link1,
        derivedMode_tell]
      exact feedSent_recompute (by rw [hrecord]; exact (writeBack_keeps m sh r).2.2.1) (by simp [u, returnedState]) (by simp [u, returnedState])
    · rw [line_answered, hrelease, line_tell, recomputeFeed_line_ne hx]
      simp [u, returnedState, State.line_modLine_ne _ _ hx]
    · refine JournalAs.answered ?_
      have htold : tell (releaseNotes l q m sh .request s) s =
          if q = r.reasons then told else writeEvent (s.linePorts l) (some l) s.now (.blockChanged q) told := by
        simp only [releaseNotes, reasonNotes, hto]
        split <;> rfl
      rw [hrelease, ← htold]
      exact JournalAs.tell (JournalAs.of_ports (by simp [u, returnedState]) fun x => by simp [u, returnedState]) (by simp [u, returnedState]) _
    · have hslotOf : freeSlotOf l (dropItems l s) = (dropItems l s).setShadow n none := by
        have hslot' : ((dropItems l s).line l).shadowSlot = some n := hslot
        rw [freeSlotOf, hslot']
      rw [hrelease]
      simp only [feedOf, linesOf, portsOf, u, returnedState, hslotOf]
      simp [State.setShadow, dropItems]

end Sys2Proof.Machine
end

