-- ==== Sys2Proof/Proofs/MeasurementReadings.lean ====
section
/-! PROOF. What the supervision of a measurement keeps of its line: the last values, the baseline and the decimation counter (R42, R46, R49). -/

namespace Sys2Proof.Machine

/-! ### What supervision leaves of a measurement -/

/-- What a LOOP measurement leaves on a line, which its supervision keeps: the last values, the baseline, the decimation counter, and that
none is in progress (R42, R46, R49). -/
def reading (r : Line) : Int × Int × Nat × Bool × Nat × Nat × Bool :=
  (r.lastIm, r.lastIl, r.lastMc, r.overrange, r.baseline, r.faults.decimation, r.measuring.isSome)

section

variable (l : LineNo) (s : State)

theorem reading_modLine {f : Line → Line} (h : ∀ r, reading (f r) = reading r) : reading ((s.modLine l f).line l) = reading (s.line l) := by
  rw [State.line_modLine_self, h]

theorem reading_setLine {r : Line} (h : reading r = reading (s.line l)) : reading ((s.setLine l r).line l) = reading (s.line l) := by
  rw [State.line_setLine_self, h]

@[simp] theorem reading_releaseUnlocked : reading ((releaseUnlocked l s).line l) = reading (s.line l) := by
  rw [releaseUnlocked_line]
  rfl

@[simp] theorem reading_requestDet : reading ((requestDet l s).line l) = reading (s.line l) := by
  have h := congrArg reading (all_of_others (fun k => others_requestDet k l s) l)
  exact h

@[simp] theorem reading_recomputeFeed : reading ((recomputeFeed l s).line l) = reading (s.line l) := by
  rw [recomputeFeed_line_self]
  rfl

/-! ### Digits -/

@[simp] theorem reading_recordDigit (c : DigitCode) (m : DigitMethod) (t : Time) :
    reading ((recordDigit l c m t s).line l) = reading (s.line l) := by
  rw [line_recordDigit, State.line_setLine_self]
  unfold recorded
  split
  · rfl
  · split <;> rfl

@[simp] theorem reading_takeInterdigit : reading ((takeInterdigit l s).line l) = reading (s.line l) := by
  unfold takeInterdigit completeDigit
  split
  · exact reading_modLine l s fun _ => rfl
  · rw [reading_recordDigit]
    exact reading_setLine l s rfl

@[simp] theorem reading_noticeBreak (t : Time) : reading ((noticeBreak l t s).line l) = reading (s.line l) := by
  unfold noticeBreak
  split
  · split
    · rfl
    · exact reading_takeInterdigit l s
  · rfl

@[simp] theorem reading_takePulse (b t : Time) : reading ((takePulse l b t s).line l) = reading (s.line l) := by
  unfold takePulse
  dsimp only
  split
  · exact reading_setLine l s rfl
  · split
    · exact reading_setLine l s rfl
    · split
      · exact reading_setLine l s rfl
      · rw [line_lineEvent]
        exact reading_setLine l s rfl

/-! ### Seizure and hang-up -/

@[simp] theorem reading_clearPermanentLoop : reading ((clearPermanentLoop l s).line l) = reading (s.line l) := by
  rw [clearPermanentLoop_eq, line_tell]
  exact reading_modLine l s fun _ => rfl

@[simp] theorem reading_seizeDetector (t : Time) : reading ((seizeDetector l t s).line l) = reading (s.line l) := by
  unfold seizeDetector
  dsimp only
  split
  · rfl
  · split <;> simp

@[simp] theorem reading_clearOpenPair : reading ((clearOpenPair l s).line l) = reading (s.line l) := by
  unfold clearOpenPair
  dsimp only
  split
  · rw [line_lineEvent]
    exact reading_modLine l s fun _ => rfl
  · exact reading_modLine l s fun _ => rfl

@[simp] theorem reading_seize (t : Time) : reading ((seize l t s).line l) = reading (s.line l) := by
  rw [seize, reading_clearOpenPair, reading_seizeDetector, line_lineEvent]
  exact reading_modLine l s fun _ => rfl

@[simp] theorem reading_hangUp (t : Time) (w : HangupBy) : reading ((hangUp l t w s).line l) = reading (s.line l) := by
  rw [hangUp, reading_clearPermanentLoop, reading_releaseUnlocked, line_lineEvent]
  exact reading_modLine l s fun _ => rfl

/-! ### Breaks and makes -/

@[simp] theorem reading_openBreak (t : Time) : reading ((openBreak l t s).line l) = reading (s.line l) := by
  have hbreak : reading ((s.modLine l (breakFields t (s.effective l))).line l) = reading (s.line l) := reading_modLine l s fun _ => rfl
  unfold openBreak
  dsimp only
  split <;> split <;> simp only [reading_hangUp, reading_noticeBreak, hbreak]

@[simp] theorem reading_makeDialling (b t : Time) (d : Nat) : reading ((makeDialling l b t d s).line l) = reading (s.line l) := by
  have habandon : reading ((s.modLine l abandonDigit).line l) = reading (s.line l) := reading_modLine l s fun _ => rfl
  unfold makeDialling
  split
  · rfl
  · exact reading_takePulse l s b t
  · simp only [line_lineEvent, habandon]
  · simp only [line_lineEvent]
    split <;> simp only [line_lineEvent, habandon]
  · simp only [reading_seize, reading_hangUp]

@[simp] theorem reading_makeTalk (b t : Time) (d : Nat) : reading ((makeTalk l b t d s).line l) = reading (s.line l) := by
  unfold makeTalk
  split <;> simp

@[simp] theorem reading_makeBreak (b t : Time) : reading ((makeBreak l b t s).line l) = reading (s.line l) := by
  have hclosed : reading ((s.modLine l (fun r => { r with breakStart := none, hangupExpiry := none })).line l) = reading (s.line l) :=
    reading_modLine l s fun _ => rfl
  unfold makeBreak
  dsimp only
  split <;> simp only [reading_makeDialling, reading_makeTalk, hclosed]

/-! ### The debounce run -/

@[simp] theorem reading_confirmRun (d : LoopDir) (t : Time) : reading ((confirmRun l d t s).line l) = reading (s.line l) := by
  have hconfirm : reading ((s.modLine l (fun r => { r with loop := condOf d, run := none })).line l) = reading (s.line l) :=
    reading_modLine l s fun _ => rfl
  unfold confirmRun
  dsimp only
  split
  case h_3 | h_4 => split <;> simp only [reading_makeBreak, hconfirm]
  all_goals simp only [reading_seize, reading_openBreak, hconfirm]

@[simp] theorem reading_applyClass (c : MeasClass) (t : Time) : reading ((applyClass l c t s).line l) = reading (s.line l) := by
  unfold applyClass
  dsimp only
  split
  · exact reading_setLine l s rfl
  · split
    · exact reading_setLine l s rfl
    · split
      · exact reading_confirmRun l s _ _
      · exact reading_setLine l s rfl

@[simp] theorem reading_debounce (c : MeasClass) (t : Time) : reading ((debounce l c t s).line l) = reading (s.line l) := by
  unfold debounce
  split <;> simp only [reading_applyClass, reading_confirmRun]

/-! ### Acquisition -/

@[simp] theorem reading_settle (q : Run) : reading ((settle l q s).line l) = reading (s.line l) := by
  have hsettle : reading ((s.modLine l (fun r => { r with state := settledState q.dir, loop := condOf q.dir, run := none, acquireCount := 0 })).line l) =
      reading (s.line l) := reading_modLine l s fun _ => rfl
  unfold settle
  dsimp only
  split <;> simp only [reading_clearPermanentLoop, line_lineEvent, hsettle]

@[simp] theorem reading_settleUnstable (t : Time) : reading ((settleUnstable l t s).line l) = reading (s.line l) := by
  rw [settleUnstable, line_lineEvent]
  exact reading_modLine l s fun _ => rfl

theorem reading_acquireTable (n : Nat) (c : MeasClass) (t : Time) (r : Line) : reading (acquireTable n c t r).1 = reading r := by
  unfold acquireTable
  dsimp only
  split
  · rfl
  · split
    · split <;> rfl
    · split
      · rfl
      · split <;> rfl

@[simp] theorem reading_acquireStep (c : MeasClass) (t : Time) : reading ((acquireStep l c t s).line l) = reading (s.line l) := by
  have htable := reading_setLine l s (reading_acquireTable (s.effective l).debounce c t (s.line l))
  unfold acquireStep
  dsimp only
  split
  · rw [reading_settle, htable]
  · split
    · rw [reading_settleUnstable, htable]
    · exact htable

@[simp] theorem reading_acquire (c : MeasClass) (t : Time) : reading ((acquire l c t s).line l) = reading (s.line l) := by
  have hcount : reading ((s.modLine l (fun r => { r with acquireCount := r.acquireCount + 1 })).line l) = reading (s.line l) :=
    reading_modLine l s fun _ => rfl
  unfold acquire
  dsimp only
  split
  · split
    · exact (reading_acquireStep ..).trans ((reading_modLine l _ (f := firstHalf _) fun _ => rfl).trans hcount)
    · rw [reading_applyClass, reading_settle, hcount]
  · rw [reading_acquireStep, hcount]

/-! ### Ringing -/

theorem reading_answeredFields (r : Line) : reading (answeredFields r) = reading r := by
  simp [reading, answeredFields, clearRinging, discardRingMeasuring]

@[simp] theorem reading_answer (ph : RingPhase) (t : Time) : reading ((answer l ph t s).line l) = reading (s.line l) := by
  rw [answer, reading_recomputeFeed, reading_modLine l _ reading_answeredFields, line_lineEvent]

@[simp] theorem reading_answerStep (ph : RingPhase) (c : MeasClass) (t : Time) : reading ((answerStep l ph c t s).line l) = reading (s.line l) := by
  unfold answerStep
  dsimp only
  split
  · split
    · exact reading_answer l s _ _
    · exact reading_setLine l s rfl
  · exact reading_setLine l s rfl
  · exact reading_setLine l s rfl

@[simp] theorem reading_answerRun (ph : RingPhase) (c : MeasClass) (t : Time) : reading ((answerRun l ph c t s).line l) = reading (s.line l) := by
  unfold answerRun
  split
  · split <;> simp only [reading_applyClass, reading_answer]
  · exact reading_answerStep l s _ _ _

@[simp] theorem reading_superviseMeasurement (f : FeedMode) (c : MeasClass) (t : Time) :
    reading ((superviseMeasurement l f c t s).line l) = reading (s.line l) := by
  unfold superviseMeasurement ringMeasurement
  split
  · split <;> simp only [reading_answerRun]
  all_goals simp only [reading_acquire, reading_debounce]

/-! ### Counted groups -/

theorem reading_reasonsTaken (q : Reasons) (r : Line) : reading (reasonsTaken q r) = reading r := by
  unfold reasonsTaken
  dsimp only
  split
  · cases r.state
    case ringing => simp [reading]
    all_goals rfl
  · split <;> rfl

theorem decimation_observe (p : Profile) (stamp : Time) (os : List (FaultKind × Verdict)) (f : FaultSet) :
    (os.foldl (observe stamp p) f).decimation = f.decimation := by
  induction os generalizing f with
  | nil => rfl
  | cons o os ih =>
    rw [List.foldl_cons, ih]
    unfold observe FaultSet.setEntry
    cases o.1 <;> rfl

@[simp] theorem reading_countGroup (stamp : Time) (os : List (FaultKind × Verdict)) :
    reading ((countGroup l stamp os s).line l) = reading (s.line l) := by
  by_cases hst : (s.line l).state = .held
  · rw [countGroup, if_pos hst]
  · have hreleased : ∀ q, reading ((releasedBy l q (s.line l) s).line l) = reading (s.line l) := fun q => by
      unfold releasedBy
      split
      · exact reading_releaseUnlocked l s
      · rfl
    have hfaults : ∀ r, r = s.line l ∨ reading r = reading (s.line l) →
        reading (withFaults (os.foldl (observe stamp (s.effective l)) (s.line l).faults) r) = reading (s.line l) := by
      intro r hr
      have hr' : reading r = reading (s.line l) := hr.elim (fun h => h ▸ rfl) id
      have hdecimation := decimation_observe (s.effective l) stamp os (s.line l).faults
      simp only [reading, Prod.mk.injEq, withFaults, hdecimation] at hr' ⊢
      obtain ⟨h1, h2, h3, h4, h5, -, h7⟩ := hr'
      exact ⟨h1, h2, h3, h4, h5, trivial, h7⟩
    rcases countGroup_effect stamp os hst rfl rfl with h | h <;> rw [h]
    · rw [line_tell, State.line_modLine_self, reading_reasonsTaken]
      exact hfaults _ (.inr (hreleased _))
    · rw [reading_recomputeFeed, line_tell, State.line_modLine_self, reading_reasonsTaken]
      exact hfaults _ (.inr (hreleased _))

end

end Sys2Proof.Machine
end

