-- ==== Sys2Proof/Proofs/LoopMeasurements.lean ====
section
/-! PROOF. The arithmetic of a loop measurement and its evaluation (R39 to R47). -/

namespace Sys2Proof.Machine

/-! ### Loop arithmetic -/

theorem metallic_bounds {it ir : Int} (h1 : -8192 ≤ it) (h2 : it ≤ 8191) (h3 : -8192 ≤ ir) (h4 : ir ≤ 8191) :
    2 * metallic it ir ≤ it + ir ∧ it + ir ≤ 2 * metallic it ir + 1 ∧ longitudinal it ir = it - ir ∧
      -8192 ≤ metallic it ir ∧ metallic it ir ≤ 8191 ∧ -16383 ≤ longitudinal it ir ∧ longitudinal it ir ≤ 16383 := by
  unfold metallic longitudinal
  omega

theorem compensated_false (im : Int) (b : Nat) : compensated false im b = (im - (b : Int)).toNat := rfl

/-- The step toward a value above: the gap divided and truncated, at least one code (R47). -/
theorem baselineStep_up {d : Int} (h : 0 < d) (k : Nat) : baselineStep d k = max 1 (d / (2 ^ k : Nat)) := by
  have hq : 0 ≤ d / ((2 ^ k : Nat) : Int) := Int.ediv_nonneg (Int.le_of_lt h) (Int.natCast_nonneg _)
  unfold baselineStep
  dsimp only
  rw [if_pos (Int.le_of_lt h), if_pos h]
  generalize d / ((2 ^ k : Nat) : Int) = q at hq ⊢
  split <;> omega

/-- The step toward a value below is that toward the one above, turned round (R47). -/
theorem baselineStep_down {d : Int} (h : d < 0) (k : Nat) : baselineStep d k = -max 1 (-d / (2 ^ k : Nat)) := by
  have hq : 0 ≤ -d / ((2 ^ k : Nat) : Int) := Int.ediv_nonneg (by omega) (Int.natCast_nonneg _)
  unfold baselineStep
  dsimp only
  rw [if_neg (Int.not_le.2 h), if_neg (Int.not_lt.2 (Int.le_of_lt h)), if_pos h]
  generalize -d / ((2 ^ k : Nat) : Int) = q at hq ⊢
  split <;> omega

theorem baselineStep_zero (k : Nat) : baselineStep 0 k = 0 := by simp [baselineStep]

/-- A part of a gap, at least one code, is no more than the gap. -/
theorem step_le_gap {d : Int} (h : 0 < d) (k : Nat) : max 1 (d / (2 ^ k : Nat)) ≤ d := by
  have hq := Int.ediv_le_self ((2 ^ k : Nat) : Int) (Int.le_of_lt h)
  omega

/-! ### A measurement that is evaluated -/

theorem isOverrange_eq (it ir : Int) : isOverrange it ir = decide (it = -8192 ∨ it = 8191 ∨ ir = -8192 ∨ ir = 8191) := by
  simp only [isOverrange, Bool.decide_or, Bool.or_assoc]

section

variable {l : LineNo} {it ir : Int} {m : LoopSlot} {s : State}

/-- The last values of a measurement (R42). -/
theorem storeLast_eq (l : LineNo) (it ir : Int) (s : State) :
    s.modLine l (storeLast (isOverrange it ir) (metallic it ir) (longitudinal it ir)) = s.setLine l (withLast it ir (s.line l)) := by
  rw [isOverrange_eq]
  rfl

theorem currentCode_of_range {x : Int} (h1 : -8192 ≤ x) (h2 : x ≤ 8191) : currentCode x = x := by
  unfold currentCode clampInt
  omega

theorem endsAtLast_iff (r : Line) (m : LoopSlot) :
    endsAtLast r m = true ↔ m.mark = .discard ∨ r.state = .held ∨ (m.feed = .ring ∧ r.state ≠ .ringing) := by
  simp [endsAtLast, or_assoc]

/-- The measurement in progress completes: its last values, then nothing, or its evaluation (R39, R42). -/
theorem exec_loopMeasurement (hm : (s.line l).measuring = some m) (h1 : -8192 ≤ it) (h2 : it ≤ 8191) (h3 : -8192 ≤ ir) (h4 : ir ≤ 8191) :
    exec (.loopMeasurement l it ir) s = .next
      (if endsAtLast (s.line l) m then s.setLine l (withLast it ir (s.line l))
        else evaluateValid l m (withLast it ir (s.line l)).overrange (metallic it ir) (longitudinal it ir)
          (s.setLine l (withLast it ir (s.line l)))) := by
  change execLoopMeasurement l it ir s = _
  rw [execLoopMeasurement, hm]
  simp only [currentCode_of_range h1 h2, currentCode_of_range h3 h4, evaluate, storeLast_eq]
  rw [isOverrange_eq]
  rfl

end

/-! ### What follows the supervision -/

/-- The record of a line that learns, where it rests after the measurement (R46). -/
def rested (b : Nat) (x : Line) : Line :=
  { x with baseline := if x.state = .idle ∧ x.loop = .opened ∧ x.run = none then b else x.baseline }

/-- The learning of a line, from the record with the measurement's last values. -/
theorem learn_eq {l : LineNo} {last : Line} {u : State} (hbase : (u.line l).baseline = last.baseline) :
    learn l last.overrange last.lastIm u = u.modLine l (rested (learned last u.bat.feed (u.effective l).shift)) := by
  have hrest : learns (u.line l) last.overrange u.bat.feed = true ↔
      ((u.line l).state = .idle ∧ (u.line l).loop = .opened ∧ (u.line l).run = none) ∧ (last.overrange = false ∧ u.bat.feed = .normal) := by
    simp [learns, and_assoc]
  unfold learn
  split
  · rename_i h
    obtain ⟨hidle, hclear⟩ := hrest.1 h
    simp only [State.modLine, rested, if_pos hidle, learned, if_pos hclear, hbase]
  · rename_i h
    refine (setLine_line u l).symm.trans (congrArg (u.setLine l) ?_)
    by_cases hidle : (u.line l).state = .idle ∧ (u.line l).loop = .opened ∧ (u.line l).run = none
    · have hclear : ¬ (last.overrange = false ∧ u.bat.feed = .normal) := fun hc => h (hrest.2 ⟨hidle, hc⟩)
      simp only [rested, if_pos hidle, learned, if_neg hclear, ← hbase]
    · simp only [rested, if_neg hidle]

/-- What follows the supervision of a measurement that is no decimated sample: the learning and the count (R46, R49). -/
theorem decimate_counts {l : LineNo} {ovr : Bool} {im il : Int} {t : Time} {u : State} (h : (u.line l).faults.decimation ≠ 7) :
    decimate l ovr im il t u = u.modLine l counted := if_neg h

section

variable {l : LineNo} {it ir : Int} {m : LoopSlot} {s u : State}

/-- A VALID measurement under feed NORMAL that is no decimated sample: its supervision, then the learning and the count (R43 to R49). -/
theorem exec_normal (h : Evaluates m .normal it ir (s.line l)) (hst : (s.line l).state ≠ .held)
    (hu : superviseMeasurement l .normal (classOf (s.effective l) .normal (withLast it ir (s.line l)).lastMc) m.stamp
      (s.setLine l (withLast it ir (s.line l))) = u) :
    exec (.loopMeasurement l it ir) s = .next
      (u.modLine l (fun x => counted (rested (learned (withLast it ir (s.line l)) s.bat.feed (s.effective l).shift) x))) := by
  obtain ⟨hm, hvalid, hfeed, hdec, h1, h2, h3, h4⟩ := h
  have hgoes : ¬ endsAtLast (s.line l) m = true := fun hc => by
    rcases (endsAtLast_iff _ _).1 hc with hc | hc | ⟨hc, -⟩
    · exact absurd (hvalid.symm.trans hc) nofun
    · exact hst hc
    · exact absurd (hfeed.symm.trans hc) nofun
  have hreading : reading (u.line l) = reading (withLast it ir (s.line l)) := by
    rw [← hu, reading_superviseMeasurement, State.line_setLine_self]
  simp only [reading, Prod.mk.injEq] at hreading
  obtain ⟨-, -, -, -, hbase, hcount, -⟩ := hreading
  have hbat : u.bat = s.bat := by
    rw [← hu]
    simp
  have heff : u.effective l = s.effective l := effective_congr (by rw [← hu]; simp) l
  rw [exec_loopMeasurement hm h1 h2 h3 h4, if_neg hgoes]
  refine congrArg Host.Outcome.next ?_
  have hlearn := learn_eq hbase
  rw [hbat, heff] at hlearn
  have hnot : ¬ m.feed = .ring := fun hc => absurd (hfeed.symm.trans hc) nofun
  rw [evaluateValid, if_neg hnot, hfeed, effective_setLine, State.line_setLine_self, hu]
  refine (congrArg (decimate l _ _ _ _) hlearn).trans ?_
  rw [decimate_counts, modLine_modLine]
  rw [State.line_modLine_self]
  exact fun hc => hdec (hcount.symm.trans hc)

end

/-! ### Classes -/

section

variable {p : Profile} {mc : Nat}

theorem classOf_closes (h : Closes p mc) : classOf p .normal mc = .closed := if_pos h

theorem classOf_opens (h : Opens p mc) : classOf p .normal mc = .opened := by
  have hnot : ¬ p.tOn ≤ mc := Nat.not_le.2 h.1
  exact (if_neg hnot).trans (if_pos h.2)

theorem classOf_between (hc : ¬ Closes p mc) (ho : ¬ Opens p mc) : classOf p .normal mc = .between :=
  (if_neg hc).trans (if_neg fun h => ho ⟨Nat.not_le.1 hc, h⟩)

end

/-! ### Measurements that change nothing at the hook -/

section

variable {l : LineNo} {c : MeasClass} {t : Time} {s : State}

/-- A measurement that does not count toward the other loop condition ends the run (R56). -/
theorem applyClass_ends (h : ∀ d, classDir c = some d → (s.line l).loop = condOf d) :
    applyClass l c t s = s.setLine l { s.line l with run := none } := by
  unfold applyClass
  dsimp only
  split
  · rfl
  · rename_i d hd
    exact if_pos (h d hd)

/-- With no run pending a measurement is applied by its class alone (R15, R56). -/
theorem debounce_of_no_run (h : (s.line l).run = none) : debounce l c t s = applyClass l c t s := by
  rw [debounce, h]
  rfl

theorem superviseMeasurement_debounces {f : FeedMode}
    (h : (s.line l).state = .idle ∨ (s.line l).state = .dialling ∨ (s.line l).state = .talk ∨ (s.line l).state = .blocked) :
    superviseMeasurement l f c t s = debounce l c t s := by
  unfold superviseMeasurement
  rcases h with h | h | h | h <;> rw [h]

/-- A line without a run, measured as its loop condition stands or between the thresholds, is as it was (R56). -/
theorem superviseMeasurement_quiet {f : FeedMode}
    (hst : (s.line l).state = .idle ∨ (s.line l).state = .dialling ∨ (s.line l).state = .talk ∨ (s.line l).state = .blocked)
    (hrun : (s.line l).run = none) (hc : ∀ d, classDir c = some d → (s.line l).loop = condOf d) :
    superviseMeasurement l f c t s = s := by
  have hsame : { s.line l with run := none } = s.line l := by rw [← hrun]
  rw [superviseMeasurement_debounces hst, debounce_of_no_run hrun, applyClass_ends hc, hsame, setLine_line]

end

/-- Settles O45: the arithmetic, and the measurement of a resting line that learns (`exec_normal`). -/
theorem loopArithmetic : Obligations.LoopArithmetic := by
  refine ⟨fun it ir h1 h2 h3 h4 => ?_, fun b k im hb hk2 hk10 => ?_, fun l it ir m s => ?_⟩
  · obtain ⟨k1, k2, k3, k4, k5, k6, k7⟩ := metallic_bounds h1 h2 h3 h4
    refine ⟨k1, k2, k3, k4, k5, k6, k7, fun b => ⟨rfl, ?_⟩⟩
    rw [compensated_false]
    omega
  · unfold nextBaseline clampInt
    refine ⟨by omega, fun h => ?_, fun h => ?_, fun h => ?_⟩
    · rw [h, Int.sub_self, baselineStep_zero]
      omega
    · rw [baselineStep_up (by omega)]
      have hgap := step_le_gap (show 0 < im - b by omega) k
      generalize (im - (b : Int)) / ((2 ^ k : Nat) : Int) = q at hgap ⊢
      omega
    · rw [baselineStep_down (by omega), Int.neg_sub]
      have hgap := step_le_gap (show 0 < (b : Int) - im by omega) k
      generalize ((b : Int) - im) / ((2 ^ k : Nat) : Int) = q at hgap ⊢
      omega
  · intro r p last hm hst hloop hrun hclass
    have hquiet : superviseMeasurement l .normal (classOf p .normal last.lastMc) m.stamp (s.setLine l last) = s.setLine l last := by
      refine superviseMeasurement_quiet ?_ ?_ fun d hd => ?_ <;> rw [State.line_setLine_self]
      · exact .inl hst
      · exact hrun
      · have hnot : ¬ Closes p last.lastMc := Nat.not_le.2 hclass
        by_cases ho : Opens p last.lastMc
        · rw [classOf_opens ho] at hd
          cases hd
          exact hloop
        · rw [classOf_between hnot ho] at hd
          cases hd
    have hne : (s.line l).state ≠ .held := fun hc => by
      have hst' : (s.line l).state = .idle := hst
      rw [hst'] at hc
      cases hc
    rw [exec_normal hm hne hquiet]
    refine congrArg Host.Outcome.next ?_
    have hrest : last.state = .idle ∧ last.loop = .opened ∧ last.run = none := ⟨hst, hloop, hrun⟩
    simp only [State.modLine, State.line_setLine_self, State.setLine_setLine, rested]
    rw [if_pos hrest]
    rfl

end Sys2Proof.Machine
end

