-- ==== Sys2Proof/Proofs/LastValues.lean ====
section
/-! PROOF. What an evaluated measurement leaves of its line (R42, R46, R49 to R53). -/

namespace Sys2Proof.Machine

/-! ### What an evaluated measurement leaves -/

section

variable {l : LineNo} {it ir : Int} {m : LoopSlot} {s : State}

/-- The reading of a line after learning (R46). -/
theorem reading_learn (ovr : Bool) (im : Int) (u : State) :
    reading ((learn l ovr im u).line l) = reading { u.line l with
      baseline := if learns (u.line l) ovr u.bat.feed then nextBaseline (u.line l).baseline im (u.effective l).shift else (u.line l).baseline } := by
  unfold learn
  split
  · rw [State.line_modLine_self]
  · rfl

/-- The reading of a line after the decimation counter (R49). -/
theorem reading_decimate (ovr : Bool) (im il : Int) (t : Time) (u : State) :
    reading ((decimate l ovr im il t u).line l) = reading { u.line l with
      faults := { (u.line l).faults with
        decimation := if (u.line l).faults.decimation = 7 then 0 else (u.line l).faults.decimation + 1 } } := by
  unfold decimate
  dsimp only
  split
  · rw [reading_countGroup, State.line_modLine_self]
  · rw [State.line_modLine_self]

theorem decimate_rest (ovr : Bool) (im il : Int) (t : Time) (u : State) :
    let v := decimate l ovr im il t u
    v.store = u.store ∧ v.scan = u.scan ∧ v.sweep = u.sweep ∧ v.test = u.test ∧ v.tb = u.tb ∧ v.bat = u.bat := by
  unfold decimate
  dsimp only
  split <;> simp

/-- The decimation counter and the baseline apart, an evaluated measurement leaves the last values as they were stored; the counter counts a
measurement under a feed other than RING, and without learning the baseline stays (R42, R46, R49). -/
theorem reading_evaluateValid (ovr : Bool) (im il : Int) (u : State) :
    let v := superviseMeasurement l m.feed (classOf (u.effective l) m.feed (u.line l).lastMc) m.stamp u
    ∃ b, (learns (v.line l) ovr v.bat.feed = false → b = (u.line l).baseline) ∧
      reading ((evaluateValid l m ovr im il u).line l) = reading { u.line l with
        baseline := b
        faults := { (u.line l).faults with
          decimation := if m.feed = .ring then (u.line l).faults.decimation
            else if (u.line l).faults.decimation = 7 then 0 else (u.line l).faults.decimation + 1 } } := by
  intro v
  have hsupervised : reading (v.line l) = reading (u.line l) := reading_superviseMeasurement l u _ _ _
  have hlearned := reading_learn (l := l) ovr im v
  refine ⟨((learn l ovr im v).line l).baseline, fun h => ?_, ?_⟩
  · simp only [h, reading, Prod.mk.injEq] at hsupervised hlearned
    obtain ⟨-, -, -, -, hb, -⟩ := hlearned
    exact hb.trans hsupervised.2.2.2.2.1
  · have hevaluate : evaluateValid l m ovr im il u =
        if m.feed = .ring then learn l ovr im v else decimate l ovr im il m.stamp (learn l ovr im v) := rfl
    have hdecimated := reading_decimate (l := l) ovr im il m.stamp (learn l ovr im v)
    rw [hevaluate]
    simp only [reading, Prod.mk.injEq] at hsupervised hlearned hdecimated ⊢
    obtain ⟨s1, s2, s3, s4, -, s6, s7⟩ := hsupervised
    obtain ⟨k1, k2, k3, k4, -, k6, k7⟩ := hlearned
    obtain ⟨d1, d2, d3, d4, d5, d6, d7⟩ := hdecimated
    by_cases hring : m.feed = .ring
    · simp only [if_pos hring]
      exact ⟨k1.trans s1, k2.trans s2, k3.trans s3, k4.trans s4, trivial, k6.trans s6, k7.trans s7⟩
    · simp only [if_neg hring]
      rw [k6, s6] at d6
      exact ⟨d1.trans (k1.trans s1), d2.trans (k2.trans s2), d3.trans (k3.trans s3), d4.trans (k4.trans s4), d5, d6, d7.trans (k7.trans s7)⟩

end

/-- The observations of a decimated sample, written with their verdicts (R50 to R52). -/
theorem sample_observations (p : Profile) (ovr : Bool) (im il : Int) (st : LineState) (b : Nat) :
    groundObservations p ovr il ++ shortObservation p ovr im ++ leakageObservation p st b =
      (if ovr then [] else [(FaultKind.groundTip, verdictOf (decide ((p.ground : Int) ≤ il))),
        (.groundRing, verdictOf (decide (il ≤ -(p.ground : Int))))]) ++
      [(.short, verdictOf (ovr || decide ((p.shortThr : Int) ≤ im)))] ++
      (if st = .idle then [(.leakage, verdictOf (decide (p.leakCeiling ≤ b)))] else []) := rfl

/-- Settles O46: last values, then nothing, or what evaluation keeps (`reading_evaluateValid`); and a quiet decimated sample's group. -/
theorem measurementsLeaveLastValues : Obligations.MeasurementsLeaveLastValues := by
  intro l it ir s h1 h2 h3 h4 r im saturated last p
  refine ⟨fun hnone => ?_, fun m hm => ?_⟩
  · have hnone' : (s.line l).measuring = none := hnone
    change execLoopMeasurement l it ir s = _
    rw [execLoopMeasurement, hnone']
  · intro ends
    have hends : endsAtLast r m = true ↔ ends := endsAtLast_iff r m
    have hlast : withLast it ir (s.line l) = last := rfl
    let s1 := s.setLine l last
    let t := if endsAtLast r m then s1 else evaluateValid l m saturated im (longitudinal it ir) s1
    have hexec : exec (.loopMeasurement l it ir) s = .next t := exec_loopMeasurement hm h1 h2 h3 h4
    refine ⟨fun h => ?_, ⟨t, hexec, ?_⟩, fun hvalid hfeed hdec hrun hst hquiet => ?_⟩
    · rw [hexec]
      exact congrArg Host.Outcome.next (if_pos (hends.2 h))
    · have ht : t = evaluate l m it ir s := by
        simp only [evaluate, isOverrange_eq]
        rfl
      have hkept := (keeps_evaluate l m s ⟨h1, h2⟩ ⟨h3, h4⟩).ports
      have hothers := others_evaluate l m it ir s
      rw [← ht] at hkept hothers
      have hreading : ∃ b, ((saturated = true ∨ s.bat.feed ≠ .normal) → b = r.baseline) ∧ reading (t.line l) = reading { last with
          baseline := b
          faults := { r.faults with
            decimation := if ends ∨ m.feed = .ring then r.faults.decimation
              else if r.faults.decimation = 7 then 0 else r.faults.decimation + 1 } } := by
        by_cases hend : ends
        · refine ⟨r.baseline, fun _ => rfl, ?_⟩
          have hthere : t = s1 := if_pos (hends.2 hend)
          rw [hthere, State.line_setLine_self, if_pos (.inl hend)]
        · have hthere : t = evaluateValid l m saturated im (longitudinal it ir) s1 := if_neg fun hc => hend (hends.1 hc)
          obtain ⟨b, hb, hread⟩ := reading_evaluateValid (l := l) (m := m) saturated im (longitudinal it ir) s1
          rw [← hthere, State.line_setLine_self] at hread
          refine ⟨b, fun hstays => ?_, ?_⟩
          · rw [State.line_setLine_self] at hb
            refine hb ?_
            rw [superviseMeasurement_bat]
            rcases hstays with hover | hfeed
            · rw [hover]
              simp [learns]
            · have hfeed' : ¬ s1.bat.feed = .normal := hfeed
              simp [learns, hfeed']
          · rw [hread]
            simp only [hend, false_or]
            rfl
      obtain ⟨b, hb, hread⟩ := hreading
      simp only [reading, Prod.mk.injEq] at hread
      obtain ⟨k1, k2, k3, k4, k5, k6, k7⟩ := hread
      refine ⟨k1, k2, k3, k4, Option.isNone_iff_eq_none.1 (by simpa [last] using k7), k6, fun h => k5.trans (hb h), hothers, hkept.1, hkept.2, ?_⟩
      rw [ht]
      unfold evaluate evaluateValid
      dsimp only
      split
      · simp
      · split
        · simp
        · obtain ⟨d1, d2, d3, d4, d5, d6⟩ := decimate_rest (l := l) (isOverrange it ir) (metallic it ir) (longitudinal it ir) m.stamp
            (learn l (isOverrange it ir) (metallic it ir) _)
          refine ⟨d1.trans ?_, d2.trans ?_, d3.trans ?_, d4.trans ?_, d5.trans ?_, d6.trans ?_⟩ <;> simp
    · intro baseline judged grounds leakage
      have hends' : ¬ endsAtLast r m = true := fun hc => by
        rcases hends.1 hc with hc | hc | ⟨hc, -⟩
        · exact absurd (hvalid.symm.trans hc) nofun
        · rcases hst with h | h | h | h <;> exact absurd (h.symm.trans hc) nofun
        · exact absurd (hfeed.symm.trans hc) nofun
      have hthere : t = evaluateValid l m saturated im (longitudinal it ir) s1 := if_neg hends'
      have hnot : ¬ m.feed = .ring := fun hc => absurd (hfeed.symm.trans hc) nofun
      have hsupervised : superviseMeasurement l m.feed (classOf (s1.effective l) m.feed (s1.line l).lastMc) m.stamp s1 = s1 := by
        refine superviseMeasurement_quiet ?_ ?_ fun d hd => ?_ <;> rw [State.line_setLine_self]
        · exact hst
        · exact hrun
        · rw [hfeed, effective_setLine, State.line_setLine_self] at hd
          rcases hquiet with ⟨hc, hloop⟩ | ⟨ho, hloop⟩ | ⟨hc, ho⟩
          · rw [classOf_closes hc] at hd
            cases hd
            exact hloop
          · rw [classOf_opens ho] at hd
            cases hd
            exact hloop
          · rw [classOf_between hc ho] at hd
            cases hd
      have hlearn : learn l saturated im s1 = s.setLine l { last with baseline := baseline } := by
        have h := learn_eq (l := l) (last := last) (u := s1) (by rw [State.line_setLine_self])
        refine h.trans ?_
        have hrest : (last.state = .idle ∧ last.loop = .opened ∧ last.run = none) ↔ (r.state = .idle ∧ r.loop = .opened) :=
          ⟨fun hc => ⟨hc.1, hc.2.1⟩, fun hc => ⟨hc.1, hc.2, hrun⟩⟩
        simp only [State.modLine, s1, State.line_setLine_self, State.setLine_setLine, rested, hrest]
        rfl
      have hvalue : t = decimate l saturated im (longitudinal it ir) m.stamp (s.setLine l { last with baseline := baseline }) := by
        refine hthere.trans ((if_neg hnot).trans ?_)
        rw [hsupervised, hlearn]
      rw [hexec, hvalue]
      refine congrArg Host.Outcome.next ?_
      have hcount : ((s.setLine l { last with baseline := baseline }).line l).faults.decimation = 7 := by
        rw [State.line_setLine_self]
        exact hdec
      unfold decimate
      dsimp only
      rw [if_pos hcount, effective_setLine, sample_observations, State.modLine, State.line_setLine_self, State.setLine_setLine]
      rfl

end Sys2Proof.Machine
end

