-- ==== Sys2Proof/Proofs/Seizures.lean ====
section
/-! PROOF. Requests for a detector and the whole of a seizure (R64 to R66, R108). -/

namespace Sys2Proof.Machine

/-! ### Requests for a detector apart from the record and the journal -/

section

variable {f : Line → Line} (hf : SparesStatus f) (s : State) (l m : LineNo)
include hf

theorem requestDet_modLine : requestDet m (s.modLine l f) = (requestDet m s).modLine l f := by
  have hfree : (s.modLine l f).freeDet = s.freeDet := rfl
  unfold requestDet
  rw [hfree]
  split
  · exact assignDet_modLine hf s l m _ _
  · exact setStatus_modLine hf (s.setQueue (s.pool.waitQueue ++ [m])) l m .waiting

end

theorem requestDet_writeEvent (l : LineNo) (q : PortSet) (o : Option LineNo) (t : Time) (b : EventBody) (s : State) :
    requestDet l (writeEvent q o t b s) = writeEvent q o t b (requestDet l s) := by
  have hfree : (writeEvent q o t b s).freeDet = s.freeDet := by simp [State.freeDet]
  have hqueue : (writeEvent q o t b s).setQueue ((writeEvent q o t b s).pool.waitQueue ++ [l]) =
      writeEvent q o t b (s.setQueue (s.pool.waitQueue ++ [l])) := by
    rw [writeEvent_pool]
    exact writeEvent_setQueue ..
  unfold requestDet
  rw [hfree]
  split
  · exact assignDet_writeEvent ..
  · rw [hqueue]
    exact setStatus_writeEvent ..

theorem requestDet_tell (l : LineNo) (es : List Message) (s : State) : requestDet l (tell es s) = tell es (requestDet l s) :=
  tell_apart es s _ fun _ _ _ _ _ => requestDet_writeEvent ..

/-- A request touches the line that asks alone, and the Tone Pool. -/
theorem requestDet_line_ne {l m : LineNo} (h : m ≠ l) (s : State) : (requestDet l s).line m = s.line m := by
  rcases requestDet_cases l s with ⟨d, -, heq⟩ | ⟨-, heq⟩ <;> rw [heq]
  · exact State.line_modLine_ne _ _ h
  · exact State.line_modLine_ne _ _ h

theorem requestDet_line (l m : LineNo) (s : State) :
    (requestDet l s).line m = { s.line m with detStatus := ((requestDet l s).line m).detStatus } := by
  have h := all_of_others (fun k => others_requestDet k l s) m
  rw [← h]

/-! ### Seizure -/

/-- A profile under which a seizure asks for a detector (R65). -/
def wantsTone (p : Profile) : Bool := decide (p.dialMethod ≠ .pulse) && p.autoDetector

/-- The state after a seizure's request for a detector, where it makes one (R65). -/
def asked (l : LineNo) (s : State) : State :=
  if wantsTone (s.effective l) = true ∧ (s.line l).timeslot ≠ none ∧ (s.line l).detStatus = .none then requestDet l s else s

/-- The report of a line that has no timeslot for its detector (R65). -/
def toneNote (l : LineNo) (start : Time) (s : State) : List Message :=
  if wantsTone (s.effective l) = true ∧ (s.line l).timeslot = none then [⟨s.linePorts l, some l, start, .toneUnavailable⟩] else []

/-- The report of OPEN_PAIR's end, where it stood (R66, R152). -/
def openPairNote (l : LineNo) (s : State) : List Message :=
  if faultStands (s.line l).faults.openPair then [⟨s.linePorts l, some l, s.now, .faultCleared .openPair⟩] else []

/-- A record with OPEN_PAIR CLEAR. -/
def openPairCleared (r : Line) : Line := { r with faults := { r.faults with openPair := clearEntry } }

/-- The events of a seizure in their order (R66). -/
def seizeNotes (l : LineNo) (start : Time) (s : State) : List Message :=
  ⟨s.linePorts l, some l, start, .seize (s.effectiveNo l)⟩ :: toneNote l start s ++ openPairNote l s

theorem seizeDetector_eq (l : LineNo) (start : Time) (s : State) : seizeDetector l start s = tell (toneNote l start s) (asked l s) := by
  unfold seizeDetector toneNote asked
  by_cases hp : (s.effective l).dialMethod = .pulse ∨ (s.effective l).autoDetector = false
  · have hnot : ¬ wantsTone (s.effective l) = true := by
      simp only [wantsTone, Bool.and_eq_true, decide_eq_true_eq]
      rintro ⟨h1, h2⟩
      rcases hp with h | h
      · exact h1 h
      · rw [h] at h2
        cases h2
    dsimp only
    rw [if_pos hp, if_neg fun hc => hnot hc.1, if_neg fun hc => hnot hc.1]
    rfl
  · have hyes : wantsTone (s.effective l) = true := by
      simpa [wantsTone] using hp
    dsimp only
    rw [if_neg hp]
    cases hslot : (s.line l).timeslot with
    | none =>
      rw [if_pos ⟨hyes, rfl⟩, if_neg fun hc => hc.2.1 rfl]
      rfl
    | some x =>
      rw [if_neg (fun hc => nomatch hc.2)]
      cases hstatus : (s.line l).detStatus with
      | none =>
        rw [if_pos ⟨hyes, nofun, rfl⟩]
        rfl
      | waiting | assigned | locked => rw [if_neg fun hc => nomatch hc.2.2]; rfl

theorem clearOpenPair_eq (l : LineNo) (s : State) : clearOpenPair l s = tell (openPairNote l s) (s.modLine l openPairCleared) := by
  have hports : (s.modLine l openPairCleared).linePorts l = s.linePorts l := linePorts_setLine s l l _ rfl
  by_cases h : faultStands (s.line l).faults.openPair = true
  · rw [openPairNote, if_pos h, clearOpenPair, if_pos h]
    exact congrArg (fun q => writeEvent q _ _ _ _) hports
  · rw [openPairNote, if_neg h, clearOpenPair, if_neg h]
    rfl

/-- A change of the record that a seizure's request does not see. -/
theorem asked_modLine {f : Line → Line} (hf : SparesStatus f) (hslot : ∀ r, (f r).timeslot = r.timeslot) (l : LineNo) (s : State) :
    asked l (s.modLine l f) = (asked l s).modLine l f := by
  unfold asked
  rw [effective_modLine, State.line_modLine_self, hslot, hf.detStatus]
  split
  · exact requestDet_modLine hf s l l
  · rfl

theorem asked_tell (l : LineNo) (es : List Message) (s : State) : asked l (tell es s) = tell es (asked l s) := by
  unfold asked
  rw [effective_tell, line_tell]
  split
  · exact requestDet_tell l es s
  · rfl

theorem asked_line (l m : LineNo) (s : State) : (asked l s).line m = { s.line m with detStatus := ((asked l s).line m).detStatus } := by
  unfold asked
  split
  · exact requestDet_line l m s
  · rfl

theorem asked_line_ne {l m : LineNo} (h : m ≠ l) (s : State) : (asked l s).line m = s.line m := by
  unfold asked
  split
  · exact requestDet_line_ne h s
  · rfl

/-- A request touches lines and the Tone Pool. -/
theorem asked_rest (l : LineNo) (s : State) : { asked l s with lines := s.lines, pool := s.pool } = s := by
  unfold asked
  split
  · rcases requestDet_cases l s with ⟨d, -, heq⟩ | ⟨-, heq⟩ <;> rw [heq] <;> rfl
  · rfl

section

variable (l : LineNo) (s : State)

theorem asked_port (q : Port) : (asked l s).port q = s.port q := by
  have ha : (asked l s).portA = s.portA := by
    have h := congrArg State.portA (asked_rest l s)
    exact h
  have hb : (asked l s).portB = s.portB := by
    have h := congrArg State.portB (asked_rest l s)
    exact h
  have ht : (asked l s).portT = s.portT := by
    have h := congrArg State.portT (asked_rest l s)
    exact h
  cases q <;> assumption

@[simp] theorem asked_tb : (asked l s).tb = s.tb := by
  have h := congrArg State.tb (asked_rest l s)
  exact h

@[simp] theorem asked_store : (asked l s).store = s.store := by
  have h := congrArg State.store (asked_rest l s)
  exact h

@[simp] theorem asked_journal : (asked l s).journal = s.journal := by
  have h := congrArg State.journal (asked_rest l s)
  exact h

theorem asked_linePorts : (asked l s).linePorts l = s.linePorts l := by
  refine (holdPorts_congr (s := s) (t := asked l s) ?_ fun q => by rw [asked_port]).2
  rw [asked_line]

end

/-- The record of a seized line (R64, R66). -/
def seized (start : Time) (p : Profile) (r : Line) : Line := openPairCleared (seizedFields start p r)

/-- A seizure: its events, the request, the record (R64 to R66). -/
theorem seize_eq (l : LineNo) (start : Time) (s : State) :
    seize l start s = tell (seizeNotes l start s) ((asked l s).modLine l (seized start (s.effective l))) := by
  have hfields : SparesStatus (seizedFields start (s.effective l)) := fun _ _ => rfl
  let s1 := s.modLine l (seizedFields start (s.effective l))
  let s2 := tell [⟨s.linePorts l, some l, start, .seize (s.effectiveNo l)⟩] s1
  have hports1 : s1.linePorts l = s.linePorts l := linePorts_setLine s l l _ rfl
  have hs2 : lineEvent l start (.seize (s.effectiveNo l)) s1 = s2 := congrArg (fun q => writeEvent q _ _ _ _) hports1
  have htone : toneNote l start s2 = toneNote l start s := by
    simp only [toneNote, s2, s1, effective_tell, effective_modLine, line_tell, State.line_modLine_self, linePorts_tell]
    rw [hports1]
    rfl
  have hasked : asked l s2 = tell [⟨s.linePorts l, some l, start, .seize (s.effectiveNo l)⟩]
      ((asked l s).modLine l (seizedFields start (s.effective l))) := by
    rw [asked_tell, asked_modLine hfields fun _ => rfl]
  have hopen : openPairNote l (tell (toneNote l start s) (asked l s2)) = openPairNote l s := by
    have hfaults : ((asked l s).line l).faults = (s.line l).faults := by rw [asked_line]
    have hports : ((asked l s).modLine l (seizedFields start (s.effective l))).linePorts l = s.linePorts l :=
      (linePorts_setLine (asked l s) l l (seizedFields start (s.effective l) ((asked l s).line l)) rfl).trans (asked_linePorts l s)
    have hnow : (asked l s).now = s.now := congrArg TimeBase.counter (asked_tb l s)
    simp only [openPairNote, hasked, line_tell, linePorts_tell, now_tell, State.line_modLine_self, now_modLine, hports, hnow]
    simp only [seizedFields, clearPulses, hfaults]
  rw [seize, hs2, seizeDetector_eq, clearOpenPair_eq, htone, hopen, tell_modLine, hasked, tell_modLine, modLine_modLine, ← tell_append,
    ← tell_append]
  rfl

end Sys2Proof.Machine
end

