-- ==== Sys2Proof/Proofs/ClosedRuns.lean ====
section
/-! PROOF. Runs toward CLOSED, the seizure they end in, and acquisition (R56, R57, R60 to R66). -/

namespace Sys2Proof.Machine

/-! ### A measurement under feed RING -/

section

variable {l : LineNo} {it ir : Int} {m : LoopSlot} {s u : State}

/-- A VALID measurement under feed RING of a RINGING line: its supervision, and no count (R43 to R49). -/
theorem exec_ring (h : Evaluates m .ring it ir (s.line l)) (hst : (s.line l).state = .ringing)
    (hu : superviseMeasurement l .ring (classOf (s.effective l) .ring (withLast it ir (s.line l)).lastMc) m.stamp
      (s.setLine l (withLast it ir (s.line l))) = u) :
    exec (.loopMeasurement l it ir) s = .next (u.modLine l (rested (learned (withLast it ir (s.line l)) s.bat.feed (s.effective l).shift))) := by
  obtain ⟨hm, hvalid, hfeed, -, h1, h2, h3, h4⟩ := h
  have hgoes : ¬ endsAtLast (s.line l) m = true := fun hc => by
    rcases (endsAtLast_iff _ _).1 hc with hc | hc | ⟨-, hc⟩
    · exact absurd (hvalid.symm.trans hc) nofun
    · exact absurd (hst.symm.trans hc) nofun
    · exact hc hst
  have hreading : reading (u.line l) = reading (withLast it ir (s.line l)) := by
    rw [← hu, reading_superviseMeasurement, State.line_setLine_self]
  simp only [reading, Prod.mk.injEq] at hreading
  obtain ⟨-, -, -, -, hbase, -⟩ := hreading
  have hbat : u.bat = s.bat := by
    rw [← hu]
    simp
  have heff : u.effective l = s.effective l := effective_congr (by rw [← hu]; simp) l
  have hlearn := learn_eq hbase
  rw [hbat, heff] at hlearn
  rw [exec_loopMeasurement hm h1 h2 h3 h4, if_neg hgoes]
  refine congrArg Host.Outcome.next ?_
  rw [evaluateValid, if_pos hfeed, hfeed, effective_setLine, State.line_setLine_self, hu]
  exact hlearn

end

/-- A change of a line's record is read off the record it has. -/
theorem modLine_congr {l : LineNo} {s : State} {f g : Line → Line} (h : f (s.line l) = g (s.line l)) : s.modLine l f = s.modLine l g :=
  congrArg (s.setLine l) h

/-- A line that is not at rest learns nothing (R46). -/
theorem rested_of_busy {b : Nat} {x : Line} (h : ¬ (x.state = .idle ∧ x.loop = .opened ∧ x.run = none)) : rested b x = x := by
  rw [rested, if_neg h]

/-- A line at rest takes the baseline it learned (R46). -/
theorem rested_of_idle {b : Nat} {x : Line} (hst : x.state = .idle) (hloop : x.loop = .opened) (hrun : x.run = none) :
    rested b x = { x with baseline := b } := by
  rw [rested, if_pos ⟨hst, hloop, hrun⟩]

/-! ### Runs -/

theorem extendRun_eq (r : Option Run) (d : LoopDir) (t : Time) : extendRun r d t = runAfter r d t := by
  obtain - | ⟨dir, n, start⟩ := r
  · rfl
  · unfold extendRun runAfter
    dsimp only
    split
    · rename_i h
      rw [h]
    · rfl

theorem runAfter_dir (r : Option Run) (d : LoopDir) (t : Time) : (runAfter r d t).dir = d := by
  unfold runAfter
  split
  · split <;> rfl
  · rfl

/-- A run below the length needed is not met (R15). -/
theorem runMeets_none {n : Nat} {r : Option Run} (h : ∀ q, r = some q → q.count < n) : runMeets n r = none := by
  obtain - | q := r
  · rfl
  · have hlt := h q rfl
    exact if_neg (by simpa using hlt)

section

variable {l : LineNo} {it ir : Int} {m : LoopSlot} {n : Nat} {start : Time} {s : State} {d : LoopDir} {mc : Nat}

theorem classDir_of (h : (d = .closed ∧ Closes (s.effective l) mc) ∨ (d = .opened ∧ Opens (s.effective l) mc)) :
    classDir (classOf (s.effective l) .normal mc) = some d := by
  rcases h with ⟨rfl, h⟩ | ⟨rfl, h⟩
  · rw [classOf_closes h]
    rfl
  · rw [classOf_opens h]
    rfl

/-- The measurement that confirms a run (R56, R57). -/
theorem debounce_confirms {c : MeasClass} {t : Time} (hc : classDir c = some d) (hloop : (s.line l).loop ≠ condOf d)
    (hrun : (s.line l).run = some ⟨d, n, start⟩) (hn : n + 1 = (s.effective l).debounce) : debounce l c t s = confirmRun l d start s := by
  have hpending : runMeets (s.effective l).debounce (s.line l).run = none := by
    rw [hrun]
    refine runMeets_none fun q hq => ?_
    cases hq
    exact Nat.lt_of_succ_le (Nat.le_of_eq hn)
  rw [debounce, hpending]
  unfold applyClass
  dsimp only
  split
  · rename_i hnone
    rw [hc] at hnone
    cases hnone
  · rename_i d' hd'
    rw [hc] at hd'
    cases hd'
    rw [if_neg hloop, extendRun_eq, hrun, runAfter, if_pos rfl, if_pos (Nat.le_of_eq hn.symm)]

end

/-- A measurement that seizes the line: what its record is just before the seizure (R42, R57). -/
def closing (it ir : Int) (r : Line) : Line := { withLast it ir r with loop := .closed, run := none }

/-- A seizure from the record a measurement leaves tells what one from the record before would, and asks for the same (R66). -/
theorem seize_closing (it ir : Int) (l : LineNo) (start : Time) (s : State) :
    seize l start (s.modLine l (closing it ir)) =
      tell (seizeNotes l start s) ((asked l s).modLine l (fun r => seized start (s.effective l) (closing it ir r))) := by
  have hnotes : seizeNotes l start (s.modLine l (closing it ir)) = seizeNotes l start s := by
    have hports : (s.modLine l (closing it ir)).linePorts l = s.linePorts l := linePorts_setLine s l l _ rfl
    have hno : (s.modLine l (closing it ir)).effectiveNo l = s.effectiveNo l := rfl
    simp only [seizeNotes, toneNote, openPairNote, hports, hno, effective_modLine, now_modLine, State.line_modLine_self]
    rfl
  rw [seize_eq, hnotes, asked_modLine (f := closing it ir) (fun _ _ => rfl) (fun _ => rfl), modLine_modLine, effective_modLine]

/-- The first part of O47: the CLOSED measurement that completes an IDLE line's run seizes it. -/
theorem closed_run_seizes (l : LineNo) (it ir : Int) (m : LoopSlot) (n : Nat) (start : Time) (s : State) :
    Evaluates m .normal it ir (s.line l) → (s.line l).state = .idle → (s.line l).loop = .opened → (s.line l).run = some ⟨.closed, n, start⟩ →
      n + 1 = (s.effective l).debounce → Closes (s.effective l) (withLast it ir (s.line l)).lastMc →
    ∃ t, exec (.loopMeasurement l it ir) s = .next t ∧
      t = tell (seizeNotes l start s)
        ((asked l s).modLine l (fun r => counted (seized start (s.effective l) (closing it ir r)))) := by
  intro h hst hloop hrun hn hc
  let last := withLast it ir (s.line l)
  have hsupervised : superviseMeasurement l .normal (classOf (s.effective l) .normal last.lastMc) m.stamp (s.setLine l last) =
      seize l start (s.modLine l (closing it ir)) := by
    have hidle : ((s.setLine l last).line l).state = .idle := by
      rw [State.line_setLine_self]
      exact hst
    rw [superviseMeasurement_debounces (.inl hidle)]
    rw [debounce_confirms (d := .closed) (n := n) (start := start) (by rw [classOf_closes hc]; rfl)
      (by rw [State.line_setLine_self]; exact fun hcl => nomatch hloop.symm.trans hcl) (by rw [State.line_setLine_self]; exact hrun)
      (by rw [effective_setLine]; exact hn)]
    unfold confirmRun
    rw [hidle]
    simp only [State.modLine, State.line_setLine_self, State.setLine_setLine]
    rfl
  refine ⟨_, exec_normal h (fun hcl => nomatch hst.symm.trans hcl) hsupervised, ?_⟩
  rw [seize_closing, tell_modLine, modLine_modLine]
  refine congrArg (tell _) (modLine_congr ?_)
  exact congrArg counted (rested_of_busy fun hcl => nomatch hcl.1)

/-! ### Acquisition -/

/-- The record of a line in ACQUIRE with a measurement's last values, its acquire count risen (R60). -/
def acquiring (it ir : Int) (r : Line) : Line := { withLast it ir r with acquireCount := r.acquireCount + 1 }

/-- A record settled by an acquisition that ends at rest (R61, R62). -/
def settledIdle (b : Nat) (r : Line) : Line :=
  { r with state := .idle, loop := .opened, run := none, acquireCount := 0, baseline := b }

section

variable {l : LineNo} {it ir : Int} {m : LoopSlot} {s : State} {y : Line} {done : Option Run}

/-- A measurement of a line in ACQUIRE whose run no lowered D has overtaken goes by R60's table. -/
theorem superviseMeasurement_acquires {c : MeasClass} {f : FeedMode} {t : Time} (hst : (s.line l).state = .acquire)
    (hrun : ∀ q, (s.line l).run = some q → q.count < (s.effective l).debounce) :
    superviseMeasurement l f c t (s.setLine l (withLast it ir (s.line l))) = acquireStep l c t (s.setLine l (acquiring it ir (s.line l))) := by
  have hline : (s.setLine l (withLast it ir (s.line l))).line l = withLast it ir (s.line l) := State.line_setLine_self ..
  have hacquire : ((s.setLine l (withLast it ir (s.line l))).line l).state = .acquire := by
    rw [hline]
    exact hst
  have hmeets : runMeets ((s.setLine l (withLast it ir (s.line l))).effective l).debounce ((s.setLine l (withLast it ir (s.line l))).line l).run =
      none := by
    rw [hline, effective_setLine]
    exact runMeets_none hrun
  unfold superviseMeasurement
  rw [hacquire]
  unfold acquire
  dsimp only
  rw [hmeets, State.modLine, hline, State.setLine_setLine]
  rfl

/-- A VALID measurement of a line in ACQUIRE that completes no run: the record the table gives, or with the 400th the end as unstable (R60,
R62). -/
theorem acquire_goes_on (h : Evaluates m .normal it ir (s.line l)) (hst : (s.line l).state = .acquire)
    (hrun : ∀ q, (s.line l).run = some q → q.count < (s.effective l).debounce)
    (htable : acquireTable (s.effective l).debounce (classOf (s.effective l) .normal (withLast it ir (s.line l)).lastMc) m.stamp
      (acquiring it ir (s.line l)) = (y, none))
    (hcount : y.acquireCount = (s.line l).acquireCount + 1) (hstate : y.state = .acquire) (hsub : y.subscription = (s.line l).subscription) :
    ((s.line l).acquireCount + 1 < 400 → exec (.loopMeasurement l it ir) s = .next (s.setLine l (counted y))) ∧
      (400 ≤ (s.line l).acquireCount + 1 → exec (.loopMeasurement l it ir) s = .next
        ((writeEvent (s.linePorts l) (some l) m.stamp (.initial .unstable) s).setLine l
          (settledIdle (learned (withLast it ir (s.line l)) s.bat.feed (s.effective l).shift) (counted y)))) := by
  let last := withLast it ir (s.line l)
  have hsupervised : superviseMeasurement l .normal (classOf (s.effective l) .normal last.lastMc) m.stamp (s.setLine l last) =
      if 400 ≤ (s.line l).acquireCount + 1 then settleUnstable l m.stamp (s.setLine l y) else s.setLine l y := by
    rw [superviseMeasurement_acquires hst hrun]
    unfold acquireStep
    rw [effective_setLine, State.line_setLine_self, htable]
    dsimp only
    rw [hcount, State.setLine_setLine]
    rfl
  have hgo : (s.line l).state ≠ .held := fun hcl => nomatch hst.symm.trans hcl
  refine ⟨fun hlt => ?_, fun hge => ?_⟩
  · rw [if_neg (by omega)] at hsupervised
    rw [exec_normal h hgo hsupervised, State.modLine, State.line_setLine_self, State.setLine_setLine]
    refine congrArg (fun x => Host.Outcome.next (s.setLine l (counted x))) (rested_of_busy fun hcl => ?_)
    exact nomatch hstate.symm.trans hcl.1
  · rw [if_pos hge] at hsupervised
    have hports : (s.setLine l { y with state := .idle, loop := .opened, run := none, acquireCount := 0 }).linePorts l = s.linePorts l :=
      linePorts_setLine s l l _ hsub
    have hunstable : settleUnstable l m.stamp (s.setLine l y) =
        writeEvent (s.linePorts l) (some l) m.stamp (.initial .unstable)
          (s.setLine l { y with state := .idle, loop := .opened, run := none, acquireCount := 0 }) := by
      rw [settleUnstable, State.modLine, State.line_setLine_self, State.setLine_setLine, lineEvent, hports]
    rw [exec_normal h hgo hsupervised, hunstable, writeEvent_modLine, State.modLine, State.line_setLine_self, State.setLine_setLine,
      rested_of_idle rfl rfl rfl, writeEvent_setLine]
    rfl

/-- A VALID measurement of a line in ACQUIRE that completes the second half of an acquisition (R60, R61). -/
theorem acquire_settles {q : Run} (h : Evaluates m .normal it ir (s.line l)) (hst : (s.line l).state = .acquire)
    (hrun : ∀ q, (s.line l).run = some q → q.count < (s.effective l).debounce)
    (htable : acquireTable (s.effective l).debounce (classOf (s.effective l) .normal (withLast it ir (s.line l)).lastMc) m.stamp
      (acquiring it ir (s.line l)) = (y, some q)) :
    exec (.loopMeasurement l it ir) s = .next ((settle l q (s.setLine l y)).modLine l
      (fun x => counted (rested (learned (withLast it ir (s.line l)) s.bat.feed (s.effective l).shift) x))) := by
  refine exec_normal h (fun hcl => nomatch hst.symm.trans hcl) ?_
  rw [superviseMeasurement_acquires hst hrun]
  unfold acquireStep
  rw [effective_setLine, State.line_setLine_self, htable]
  dsimp only
  rw [State.setLine_setLine]

end

/-! ### R60's table -/

section

variable {n : Nat} {c : MeasClass} {t : Time} {r : Line} {d : LoopDir}

theorem acquireTable_between (hc : classDir c = none) : acquireTable n c t r = ({ r with run := none, loop := .unknown }, none) := by
  unfold acquireTable
  rw [hc]

theorem condOf_ne_unknown (d : LoopDir) : condOf d ≠ .unknown := by cases d <;> nofun

variable (hc : classDir c = some d)
include hc

theorem acquireTable_first_counts (hloop : r.loop = .unknown) (hq : (runAfter r.run d t).count < n) :
    acquireTable n c t r = ({ r with run := some (runAfter r.run d t) }, none) := by
  unfold acquireTable
  rw [hc]
  dsimp only
  rw [if_pos hloop, extendRun_eq, if_neg (Nat.not_le.2 hq)]

theorem acquireTable_first_done (hloop : r.loop = .unknown) (hq : n ≤ (runAfter r.run d t).count) :
    acquireTable n c t r = ({ r with loop := condOf d, run := some ⟨d, 0, (runAfter r.run d t).start⟩ }, none) := by
  have hdir := runAfter_dir r.run d t
  unfold acquireTable
  rw [hc]
  dsimp only
  rw [if_pos hloop, extendRun_eq, if_pos hq, firstHalf]
  simp only [hdir]

theorem acquireTable_second_counts (hloop : r.loop = condOf d) (hq : (runAfter r.run d t).count < n) :
    acquireTable n c t r = ({ r with run := some (runAfter r.run d t) }, none) := by
  have hknown : ¬ r.loop = .unknown := fun h => condOf_ne_unknown d (hloop.symm.trans h)
  unfold acquireTable
  rw [hc]
  dsimp only
  rw [if_neg hknown, if_pos hloop, extendRun_eq, if_neg (Nat.not_le.2 hq)]

theorem acquireTable_second_done (hloop : r.loop = condOf d) (hq : n ≤ (runAfter r.run d t).count) :
    acquireTable n c t r = ({ r with run := some (runAfter r.run d t) }, some (runAfter r.run d t)) := by
  have hknown : ¬ r.loop = .unknown := fun h => condOf_ne_unknown d (hloop.symm.trans h)
  unfold acquireTable
  rw [hc]
  dsimp only
  rw [if_neg hknown, if_pos hloop, extendRun_eq, if_pos hq]

theorem acquireTable_turns (hknown : r.loop ≠ .unknown) (hloop : r.loop ≠ condOf d) (hn : 1 < n) :
    acquireTable n c t r = ({ r with loop := .unknown, run := some ⟨d, 1, t⟩ }, none) := by
  unfold acquireTable
  rw [hc]
  dsimp only
  rw [if_neg hknown, if_neg hloop, if_neg (Nat.not_le.2 hn)]

theorem acquireTable_turns_done (hknown : r.loop ≠ .unknown) (hloop : r.loop ≠ condOf d) (hn : n ≤ 1) :
    acquireTable n c t r = ({ r with loop := condOf d, run := some ⟨d, 0, t⟩ }, none) := by
  unfold acquireTable
  rw [hc]
  dsimp only
  rw [if_neg hknown, if_neg hloop, if_pos hn, firstHalf]

end

/-! ### The end of an acquisition -/

section

variable {l : LineNo} {s : State} {y : Line} {q : Run} (hsub : y.subscription = (s.line l).subscription)
include hsub

/-- The report of an acquisition that settles, and the record (R61). -/
theorem settle_report (o : InitialOutcome) (f : Line → Line) (hf : ∀ r, (f r).subscription = r.subscription) (t : Time) :
    lineEvent l t (.initial o) ((s.setLine l y).modLine l f) = (writeEvent (s.linePorts l) (some l) t (.initial o) s).setLine l (f y) := by
  have hports : (s.setLine l (f y)).linePorts l = s.linePorts l := linePorts_setLine s l l _ ((hf y).trans hsub)
  rw [State.modLine, State.line_setLine_self, State.setLine_setLine, lineEvent, hports, writeEvent_setLine]

theorem settle_closed (hq : q.dir = .closed) :
    settle l q (s.setLine l y) = (writeEvent (s.linePorts l) (some l) q.start (.initial .closed) s).setLine l
      { y with state := .talk, loop := .closed, run := none, acquireCount := 0 } := by
  rw [settle, hq]
  exact settle_report hsub _ (fun r => { r with state := .talk, loop := .closed, run := none, acquireCount := 0 }) (fun _ => rfl) _

theorem settle_opened (hq : q.dir = .opened) (hfaults : y.faults.permanentLoop = (s.line l).faults.permanentLoop) :
    settle l q (s.setLine l y) =
      (tell (⟨s.linePorts l, some l, q.start, .initial .opened⟩ :: permanentLoopEnds l s) s).setLine l
        (withPermanentLoop clearEntry { y with state := .idle, loop := .opened, run := none, acquireCount := 0 }) := by
  let g : Line → Line := fun r => { r with state := .idle, loop := .opened, run := none, acquireCount := 0 }
  let u := tell [⟨s.linePorts l, some l, q.start, .initial .opened⟩] (s.setLine l (g y))
  have hsettle : settle l q (s.setLine l y) = clearPermanentLoop l u := by
    have hreport := settle_report hsub .opened g (fun _ => rfl) q.start
    rw [writeEvent_setLine] at hreport
    rw [settle, hq]
    exact congrArg (clearPermanentLoop l) hreport
  have hends : permanentLoopEnds l u = permanentLoopEnds l s := by
    have hports : (s.setLine l (g y)).linePorts l = s.linePorts l := linePorts_setLine s l l _ hsub
    have hnow : (s.setLine l (g y)).now = s.now := now_setLine ..
    simp only [permanentLoopEnds, u, line_tell, State.line_setLine_self, linePorts_tell, now_tell, hports, hnow]
    simp only [g, hfaults]
  rw [hsettle, clearPermanentLoop_eq, hends, tell_modLine, ← tell_append, tell_setLine, State.modLine, State.line_setLine_self,
    State.setLine_setLine]
  rfl

end

end Sys2Proof.Machine
end

