-- ==== Sys2Proof/Proofs/RunsSeize.lean ====
section
/-! PROOF. The answer run of a RINGING line, and what a CLOSED run does in each state (R127 to R130). -/

namespace Sys2Proof.Machine

/-! ### The ringing line -/

/-- A change of a record that neither the derived mode nor a note of a mode sees commutes with a recomputation (R35, R36). -/
theorem recomputeFeed_modLine {f : Line → Line} (hfeed : ∀ r, SameFeed r (f r)) (hnote : ∀ m r, noteMode m (f r) = f (noteMode m r))
    (l : LineNo) (s : State) : recomputeFeed l (s.modLine l f) = (recomputeFeed l s).modLine l f := by
  have hitem : (s.modLine l f).itemOn l = s.itemOn l := itemOn_congr (by simp)
  have hmode : (s.modLine l f).derivedMode l = s.derivedMode l :=
    derivedMode_congr (by rw [State.line_modLine_self]; exact hfeed _) (by simp) (by rw [hitem])
  have hsent : ((s.modLine l f).line l).sentMode = (s.line l).sentMode := by
    rw [State.line_modLine_self]
    exact (hfeed _).1
  by_cases h : s.derivedMode l = (s.line l).sentMode
  · have h' : (s.modLine l f).derivedMode l = ((s.modLine l f).line l).sentMode := hmode.trans (h.trans hsent.symm)
    rw [recomputeFeed_same h, recomputeFeed_same h']
  · have h' : (s.modLine l f).derivedMode l ≠ ((s.modLine l f).line l).sentMode := fun hc => h (hmode.symm.trans (hc.trans hsent))
    have hsend : ∀ m (u : State), sendCommand l m .none (u.modLine l f) = (sendCommand l m .none u).modLine l f := fun m u => by
      unfold sendCommand
      cases bankOf l <;> rfl
    rw [recomputeFeed, recomputeFeed, recomputeFeedWith_sends (.inl h), recomputeFeedWith_sends (.inl h'), hmode, ← hsend, modLine_modLine,
      modLine_modLine]
    exact congrArg (sendCommand l _ _) (modLine_congr (hnote _ _))

theorem classOf_ring_closed {p : Profile} {mc : Nat} (h : p.tTrip ≤ mc) : classOf p .ring mc = .closed := if_pos h

theorem classOf_ne_closed {p : Profile} {f : FeedMode} {mc : Nat} (h : mc < (if f = .ring then p.tTrip else p.tOn)) :
    classOf p f mc ≠ .closed := by
  unfold classOf classRing classNormal
  split
  · rename_i hf
    rw [if_pos hf] at h
    rw [if_neg (Nat.not_le.2 h)]
    split <;> nofun
  · rename_i hf
    rw [if_neg hf] at h
    rw [if_neg (Nat.not_le.2 h)]
    split <;> nofun

section

variable {l : LineNo} {ph : RingPhase} {c : MeasClass} {t : Time} {s : State}

/-- A measurement of a RINGING line that is not CLOSED ends the answer run (R128, R129). -/
theorem answerStep_ends (h : c ≠ .closed) : answerStep l ph c t s = s.setLine l { s.line l with run := none } := by
  unfold answerStep
  cases c
  case closed => exact absurd rfl h
  all_goals rfl

/-- A CLOSED measurement of a RINGING line counts, and answers with the run's last (R128 to R130). -/
theorem answerStep_counts :
    answerStep l ph .closed t s =
      if answerCount (s.effective l) ph ≤ (runAfter (s.line l).run .closed t).count then answer l ph (runAfter (s.line l).run .closed t).start s
      else s.setLine l { s.line l with run := some (runAfter (s.line l).run .closed t) } := by
  unfold answerStep
  dsimp only
  rw [extendRun_eq]

/-- A measurement of the feed that matches the phase, with no run overtaken (R15, R127). -/
theorem answerRun_steps (h : ∀ q, (s.line l).run = some q → q.count < answerCount (s.effective l) ph) :
    answerRun l ph c t s = answerStep l ph c t s := by
  rw [answerRun, runMeets_none h]

/-- The feed of a phase (R127). -/
def phaseFeed (ph : RingPhase) : FeedMode :=
  match ph with
  | .ring => .ring
  | .pause => .normal

theorem ringMeasurement_matches (h : (s.line l).ringPhase = some ph) : ringMeasurement l (phaseFeed ph) c t s = answerRun l ph c t s := by
  unfold ringMeasurement
  rw [h]
  cases ph <;> rfl

theorem ringMeasurement_apart {f : FeedMode} (h : (s.line l).ringPhase = some ph) (hf : f ≠ phaseFeed ph) : ringMeasurement l f c t s = s := by
  unfold ringMeasurement
  split
  next hring =>
    cases h.symm.trans hring
    exact absurd rfl hf
  next hpause =>
    cases h.symm.trans hpause
    exact absurd rfl hf
  next => rfl

end

/-- The record of a RINGING line after the count of a measurement under this feed (R49). -/
def countedUnder (f : FeedMode) (r : Line) : Line := if f = .ring then r else counted r

section

variable {l : LineNo} {it ir : Int} {m : LoopSlot} {s u : State}

/-- A VALID measurement of a RINGING line that leaves it not at rest (R43 to R49, R127). -/
theorem exec_ringing (h : Evaluates m .normal it ir (s.line l) ∨ Evaluates m .ring it ir (s.line l)) (hst : (s.line l).state = .ringing)
    (hu : ringMeasurement l m.feed (classOf (s.effective l) m.feed (withLast it ir (s.line l)).lastMc) m.stamp
      (s.setLine l (withLast it ir (s.line l))) = u) (hbusy : (u.line l).state ≠ .idle) :
    exec (.loopMeasurement l it ir) s = .next (u.modLine l (countedUnder m.feed)) := by
  have hsupervised : ∀ f c t, superviseMeasurement l f c t (s.setLine l (withLast it ir (s.line l))) =
      ringMeasurement l f c t (s.setLine l (withLast it ir (s.line l))) := fun f c t => by
    have hringing : ((s.setLine l (withLast it ir (s.line l))).line l).state = .ringing := by
      rw [State.line_setLine_self]
      exact hst
    unfold superviseMeasurement
    rw [hringing]
  have hrest : ∀ b, rested b (u.line l) = u.line l := fun b => rested_of_busy fun hc => hbusy hc.1
  rcases h with h | h
  · have hfeed : m.feed = .normal := h.2.2.1
    rw [hfeed] at hu ⊢
    rw [exec_normal h (fun hc => nomatch hst.symm.trans hc) ((hsupervised ..).trans hu)]
    exact congrArg Host.Outcome.next (modLine_congr (congrArg counted (hrest _)))
  · have hfeed : m.feed = .ring := h.2.2.1
    rw [hfeed] at hu ⊢
    rw [exec_ring h hst ((hsupervised ..).trans hu)]
    exact congrArg Host.Outcome.next (modLine_congr (hrest _))

end

section

variable {l : LineNo} {it ir : Int} {m : LoopSlot} {ph : RingPhase} {s : State}
  (hev : Evaluates m .normal it ir (s.line l) ∨ Evaluates m .ring it ir (s.line l)) (hst : (s.line l).state = .ringing)
  (hph : (s.line l).ringPhase = some ph)

theorem modLine_setLine (y : Line) (f : Line → Line) : (s.setLine l y).modLine l f = s.setLine l (f y) := by
  rw [State.modLine, State.line_setLine_self, State.setLine_setLine]

theorem ringPhase_measured (hph : (s.line l).ringPhase = some ph) :
    ((s.setLine l (withLast it ir (s.line l))).line l).ringPhase = some ph := by
  rw [State.line_setLine_self]
  exact hph

include hev hst hph

/-- A measurement of the other feed is not counted in the answer run (R127). -/
theorem ringing_apart (hfeed : m.feed ≠ phaseFeed ph) :
    exec (.loopMeasurement l it ir) s = .next (s.setLine l (countedUnder m.feed (withLast it ir (s.line l)))) := by
  have hapart := ringMeasurement_apart (c := classOf (s.effective l) m.feed (withLast it ir (s.line l)).lastMc) (t := m.stamp)
    (ringPhase_measured (it := it) (ir := ir) hph) hfeed
  refine (exec_ringing hev hst hapart ?_).trans (congrArg Host.Outcome.next (modLine_setLine _ _))
  rw [State.line_setLine_self]
  exact fun hc => nomatch hst.symm.trans hc

variable (hfeed : m.feed = phaseFeed ph) (hrun : ∀ q, (s.line l).run = some q → q.count < answerCount (s.effective l) ph)
include hfeed hrun

/-- A measurement of the phase's feed goes to the answer run (R127 to R129). -/
theorem ringing_steps {u : State} (hu : answerStep l ph (classOf (s.effective l) m.feed (withLast it ir (s.line l)).lastMc) m.stamp
    (s.setLine l (withLast it ir (s.line l))) = u) (hbusy : (u.line l).state ≠ .idle) :
    exec (.loopMeasurement l it ir) s = .next (u.modLine l (countedUnder m.feed)) := by
  refine exec_ringing hev hst (Eq.trans ?_ hu) hbusy
  rw [hfeed, ringMeasurement_matches (ringPhase_measured hph)]
  refine answerRun_steps fun q hq => ?_
  rw [State.line_setLine_self] at hq
  rw [effective_setLine]
  exact hrun q hq

/-- A measurement of the phase's feed that is not CLOSED ends the answer run (R128, R129). -/
theorem ringing_ends (hclass : classOf (s.effective l) m.feed (withLast it ir (s.line l)).lastMc ≠ .closed) :
    exec (.loopMeasurement l it ir) s = .next (s.setLine l (countedUnder m.feed { withLast it ir (s.line l) with run := none })) := by
  have hends := answerStep_ends (l := l) (ph := ph) (t := m.stamp) (s := s.setLine l (withLast it ir (s.line l))) hclass
  rw [State.line_setLine_self, State.setLine_setLine] at hends
  refine (ringing_steps hev hst hph hfeed hrun hends ?_).trans (congrArg Host.Outcome.next (modLine_setLine _ _))
  rw [State.line_setLine_self]
  exact fun hc => nomatch hst.symm.trans hc

variable (hclass : classOf (s.effective l) m.feed (withLast it ir (s.line l)).lastMc = .closed)
include hclass

/-- A CLOSED measurement short of the answer counts in the run (R128, R129). -/
theorem ringing_counts (hcount : (runAfter (s.line l).run .closed m.stamp).count < answerCount (s.effective l) ph) :
    exec (.loopMeasurement l it ir) s = .next
      (s.setLine l (countedUnder m.feed { withLast it ir (s.line l) with run := some (runAfter (s.line l).run .closed m.stamp) })) := by
  have hcounts := answerStep_counts (l := l) (ph := ph) (t := m.stamp) (s := s.setLine l (withLast it ir (s.line l)))
  have hkept : (withLast it ir (s.line l)).run = (s.line l).run := rfl
  rw [effective_setLine, State.line_setLine_self, hkept] at hcounts
  rw [if_neg (Nat.not_le.2 hcount), State.setLine_setLine, ← hclass] at hcounts
  refine (ringing_steps hev hst hph hfeed hrun hcounts ?_).trans (congrArg Host.Outcome.next (modLine_setLine _ _))
  rw [State.line_setLine_self]
  exact fun hc => nomatch hst.symm.trans hc

/-- The CLOSED measurement that completes the run is the trip or the answer (R130). -/
theorem ringing_answers (hcount : answerCount (s.effective l) ph ≤ (runAfter (s.line l).run .closed m.stamp).count) :
    exec (.loopMeasurement l it ir) s = .next
      (recomputeFeed l ((writeEvent (s.linePorts l) (some l) (runAfter (s.line l).run .closed m.stamp).start (.ringTrip ph) s).setLine l
        (countedUnder m.feed (answeredFields (withLast it ir (s.line l)))))) := by
  have hcounts := answerStep_counts (l := l) (ph := ph) (t := m.stamp) (s := s.setLine l (withLast it ir (s.line l)))
  have hkept : (withLast it ir (s.line l)).run = (s.line l).run := rfl
  rw [effective_setLine, State.line_setLine_self, hkept] at hcounts
  rw [if_pos hcount, ← hclass] at hcounts
  have hfeedless : ∀ y, SameFeed y (countedUnder m.feed y) := fun y => by
    unfold countedUnder
    split <;> exact SameFeed.refl _
  have hnoteless : ∀ mode y, noteMode mode (countedUnder m.feed y) = countedUnder m.feed (noteMode mode y) := fun mode y => by
    unfold countedUnder
    split <;> rfl
  have hports : (s.setLine l (withLast it ir (s.line l))).linePorts l = s.linePorts l := linePorts_setLine s l l _ rfl
  refine (ringing_steps hev hst hph hfeed hrun hcounts ?_).trans (congrArg Host.Outcome.next ?_)
  · rw [answer, recomputeFeed_line_self, State.line_modLine_self]
    nofun
  · rw [answer, ← recomputeFeed_modLine hfeedless hnoteless, modLine_modLine, lineEvent, hports, ← writeEvent_setLine, modLine_setLine]

end

section

variable {l : LineNo} {it ir : Int} {m : LoopSlot} {s : State} {y : Line} {q : Run}
  (h : Evaluates m .normal it ir (s.line l)) (hst : (s.line l).state = .acquire)
  (hrun : ∀ q, (s.line l).run = some q → q.count < (s.effective l).debounce)
  (htable : acquireTable (s.effective l).debounce (classOf (s.effective l) .normal (withLast it ir (s.line l)).lastMc) m.stamp
    (acquiring it ir (s.line l)) = (y, some q)) (hsub : y.subscription = (s.line l).subscription)
include h hst hrun htable hsub

/-- An acquisition that settles CLOSED (R61). -/
theorem acquire_settles_closed (hq : q.dir = .closed) :
    exec (.loopMeasurement l it ir) s = .next ((writeEvent (s.linePorts l) (some l) q.start (.initial .closed) s).setLine l
      (counted { y with state := .talk, loop := .closed, run := none, acquireCount := 0 })) := by
  refine (acquire_settles h hst hrun htable).trans (congrArg Host.Outcome.next ?_)
  rw [settle_closed hsub hq, modLine_setLine]
  exact congrArg (fun y => State.setLine _ l (counted y)) (rested_of_busy fun hcl => nomatch hcl.1)

/-- An acquisition that settles OPEN (R61, R153). -/
theorem acquire_settles_opened (hq : q.dir = .opened) (hfaults : y.faults.permanentLoop = (s.line l).faults.permanentLoop) :
    exec (.loopMeasurement l it ir) s = .next
      ((tell (⟨s.linePorts l, some l, q.start, .initial .opened⟩ :: permanentLoopEnds l s) s).setLine l
        (counted { withPermanentLoop clearEntry { y with state := .idle, loop := .opened, run := none, acquireCount := 0 } with
          baseline := learned (withLast it ir (s.line l)) s.bat.feed (s.effective l).shift })) := by
  refine (acquire_settles h hst hrun htable).trans (congrArg Host.Outcome.next ?_)
  rw [settle_opened hsub hq hfaults, modLine_setLine]
  exact congrArg (fun y => State.setLine _ l (counted y)) (rested_of_idle rfl rfl rfl)

end

theorem poolOf_tell (s : State) (es : List Message) (u : State) : poolOf s (tell es u) = poolOf s u := by simp [poolOf, linesOf, portsOf]

theorem poolOf_asked (l : LineNo) (s : State) : poolOf s (asked l s) = s := by
  have h := congrArg (fun x : State => { x with journal := s.journal, portA := s.portA, portB := s.portB, portT := s.portT }) (asked_rest l s)
  exact h

/-- Settles O47: the seizure (`closed_run_seizes`), R60's table row by row, and the answer run. -/
theorem closedRunsSeize : Obligations.ClosedRunsSeize := by
  refine ⟨fun l it ir m n start s h1 h2 h3 h4 => ?_, fun l it ir m s => ?_, fun l it ir m ph s => ?_⟩
  · intro r p saturated hm hvalid hfeed hst hloop hdec hrun hn hclosed tone told toldTone toldPair askedState
    obtain ⟨t, hexec, ht⟩ := closed_run_seizes l it ir m n start s ⟨hm, hvalid, hfeed, hdec, h1, h2, h3, h4⟩ hst hloop hrun hn hclosed
    have htone : wantsTone p = true ↔ tone := by simp [wantsTone, tone]
    have hasked : asked l s = askedState := if_congr (and_congr htone Iff.rfl) rfl rfl
    have htold : tell (seizeNotes l start s) s = toldPair := by
      have h1 : tell (toneNote l start s) told = toldTone := by
        by_cases hc : tone ∧ r.timeslot = none
        · rw [toneNote, if_pos ⟨htone.2 hc.1, hc.2⟩]
          exact (if_pos hc).symm
        · rw [toneNote, if_neg fun hc' => hc ⟨htone.1 hc'.1, hc'.2⟩]
          exact (if_neg hc).symm
      have h2 : tell (openPairNote l s) toldTone = toldPair := by
        by_cases hc : faultStands r.faults.openPair = true
        · rw [openPairNote, if_pos hc]
          exact (if_pos hc).symm
        · rw [openPairNote, if_neg hc]
          exact (if_neg hc).symm
      rw [seizeNotes, tell_append, tell_cons]
      rw [← h2, ← h1]
    let g : Line → Line := fun r => counted (seized start (s.effective l) (closing it ir r))
    have hports : PortsKept s (tell (seizeNotes l start s) ((asked l s).modLine l g)) :=
      (PortsKept.of_eq fun q => asked_port l s q).trans ((PortsKept.of_eq fun q => by simp).trans (portsKept_tell _ _))
    refine ⟨t, hexec, ?_, ?_, fun x hx => ?_, ?_, ?_, ?_, ?_⟩
    · rw [ht, line_tell, State.line_modLine_self, asked_line, hasked]
      rfl
    · rw [ht, tell_pool, ← hasked]
      rfl
    · rw [ht, line_tell, State.line_modLine_ne _ _ hx, asked_line_ne hx]
    · rw [ht, ← htold]
      exact JournalAs.tell (JournalAs.of_ports (by simp) fun q => by simp [asked_port]) (by simp) _
    · rw [ht]
      exact hports.1
    · rw [ht]
      exact hports.2
    · rw [ht]
      exact (poolOf_tell s _ _).trans (poolOf_asked l s)
  · intro r p last x answers reports rests goesOn h hst hrun
    have hgoes : ∀ y, acquireTable p.debounce (classOf p .normal last.lastMc) m.stamp (acquiring it ir r) = (y, none) →
        y.acquireCount = r.acquireCount + 1 → y.state = .acquire → y.subscription = r.subscription → goesOn (counted y) :=
      fun y htable hcount hstate hsub => acquire_goes_on h hst hrun htable hcount hstate hsub
    refine ⟨fun hc ho => ?_, fun d hd => ?_⟩
    · have hnone : classDir (classOf p .normal last.lastMc) = none := by
        rw [classOf_between hc ho]
        rfl
      exact hgoes _ (acquireTable_between hnone) rfl hst rfl
    · intro q
      have hdir : classDir (classOf p .normal last.lastMc) = some d := classDir_of hd
      have hq : q.dir = d := runAfter_dir ..
      refine ⟨fun hloop => ⟨fun hcount => ?_, fun hcount => ?_⟩, fun hknown hloop => ⟨fun hn => ?_, fun hn => ?_⟩,
        fun hloop => ⟨fun hcount => ?_, fun hcount hclosed => ?_, fun hcount hopened => ?_⟩⟩
      · exact hgoes _ (acquireTable_first_counts hdir hloop hcount) rfl hst rfl
      · exact hgoes _ (acquireTable_first_done hdir hloop hcount) rfl hst rfl
      · exact hgoes _ (acquireTable_turns hdir hknown hloop hn) rfl hst rfl
      · exact hgoes _ (acquireTable_turns_done hdir hknown hloop hn) rfl hst rfl
      · exact hgoes _ (acquireTable_second_counts hdir hloop hcount) rfl hst rfl
      · exact acquire_settles_closed h hst hrun (acquireTable_second_done hdir hloop hcount) rfl (hq.trans hclosed)
      · intro told toldPair
        have htold : tell (⟨s.linePorts l, some l, q.start, .initial .opened⟩ :: permanentLoopEnds l s) s = toldPair := by
          simp only [permanentLoopEnds, toldPair]
          by_cases hc : r.faults.permanentLoop.state = .present
          · rw [if_pos hc, if_pos hc]
            rfl
          · rw [if_neg hc, if_neg hc]
            rfl
        exact (acquire_settles_opened h hst hrun (acquireTable_second_done hdir hloop hcount) rfl (hq.trans hopened) rfl).trans
          (congrArg (fun u => Host.Outcome.next (State.setLine u l _)) htold)
  · intro r p last x answers level needed matching hev hst hph
    have hneeded : needed = answerCount p ph := by cases ph <;> rfl
    have hmatching : matching = phaseFeed ph := by cases ph <;> rfl
    have hlevel : level = if phaseFeed ph = .ring then p.tTrip else p.tOn := by cases ph <;> rfl
    have hput : ∀ (run : Option Run), countedUnder m.feed { last with run := run } = { x with run := run } := fun run => by
      simp only [countedUnder, x]
      split <;> rfl
    refine ⟨fun hne => ringing_apart hev hst hph (hmatching ▸ hne), fun hmatches hshort => ?_⟩
    have hfeed : m.feed = phaseFeed ph := hmatches.trans hmatching
    rw [hneeded] at hshort
    refine ⟨fun hlow => ?_, fun hhigh => ?_⟩
    · have hclass : classOf p m.feed last.lastMc ≠ .closed := by
        refine classOf_ne_closed ?_
        rw [hfeed, ← hlevel]
        exact hlow
      have hends := ringing_ends hev hst hph hfeed hshort hclass
      rw [hput] at hends
      exact hends
    · have hclass : classOf p m.feed last.lastMc = .closed := by
        rw [hfeed]
        cases ph with
        | ring => exact classOf_ring_closed hhigh
        | pause => exact classOf_closes hhigh
      intro q
      rw [hneeded]
      refine ⟨fun hcount => ?_, fun hcount => ?_⟩
      · have hcounts := ringing_counts hev hst hph hfeed hshort hclass hcount
        rw [hput] at hcounts
        exact hcounts
      · refine (ringing_answers hev hst hph hfeed hshort hclass hcount).trans ?_
        refine congrArg (fun y => Host.Outcome.next (recomputeFeed l (State.setLine _ l y))) ?_
        simp only [countedUnder, x]
        split <;> rfl

end Sys2Proof.Machine
end

