-- ==== Sys2Proof/Proofs/MakesByBand.lean ====
section
/-! PROOF. Makes by the band of their break, and the pulse a make counts (chapters 4 and 5). -/

namespace Sys2Proof.Machine

/-! ### The bands of a break -/

section

variable {p : Profile} {dur : Nat}

/-- The bands of a profile in order do not overlap (R9, R68). -/
theorem bands_ordered (h : profileGood p = true) :
    p.pbMin * 8 ≤ p.pbMax * 8 ∧ p.pbMax * 8 < p.flashMin * 8 ∧ p.flashMin * 8 ≤ p.flashMax * 8 ∧ p.flashMax * 8 < p.hangupMin * 8 := by
  have hordered : profileOrdered p = true := (Bool.and_eq_true_iff.1 h).2
  simp only [profileOrdered, Bool.and_eq_true, decide_eq_true_eq] at hordered
  omega

theorem bandOf_short (h : dur < p.pbMin * 8) : bandOf p dur = .short := if_pos h

theorem bandOf_pulse (h1 : p.pbMin * 8 ≤ dur) (h2 : dur ≤ p.pbMax * 8) : bandOf p dur = .pulse :=
  (if_neg (Nat.not_lt.2 h1)).trans (if_pos h2)

theorem bandOf_invalid (h : profileGood p = true)
    (hd : (p.pbMax * 8 < dur ∧ dur < p.flashMin * 8) ∨ (p.flashMax * 8 < dur ∧ dur < p.hangupMin * 8)) : bandOf p dur = .invalid := by
  obtain ⟨h1, h2, h3, h4⟩ := bands_ordered h
  have hshort : ¬ dur < msUnits p.pbMin := fun hc : dur < p.pbMin * 8 => by omega
  have hpulse : ¬ dur ≤ msUnits p.pbMax := fun hc : dur ≤ p.pbMax * 8 => by omega
  unfold bandOf
  rw [if_neg hshort, if_neg hpulse]
  rcases hd with ⟨-, hd⟩ | ⟨hlow, hd⟩
  · exact if_pos hd
  · have hlong : ¬ dur < msUnits p.flashMin := fun hc : dur < p.flashMin * 8 => by omega
    have hflash : ¬ dur ≤ msUnits p.flashMax := fun hc : dur ≤ p.flashMax * 8 => by omega
    rw [if_neg hlong, if_neg hflash]
    exact if_pos hd

theorem bandOf_flash (h : profileGood p = true) (hd1 : p.flashMin * 8 ≤ dur) (hd2 : dur ≤ p.flashMax * 8) : bandOf p dur = .flash := by
  obtain ⟨h1, h2, h3, h4⟩ := bands_ordered h
  have hshort : ¬ dur < msUnits p.pbMin := fun hc : dur < p.pbMin * 8 => by omega
  have hpulse : ¬ dur ≤ msUnits p.pbMax := fun hc : dur ≤ p.pbMax * 8 => by omega
  unfold bandOf
  have hlong : ¬ dur < msUnits p.flashMin := fun hc : dur < p.flashMin * 8 => by omega
  rw [if_neg hshort, if_neg hpulse, if_neg hlong]
  exact if_pos hd2

theorem bandOf_hangup (h : profileGood p = true) (hd : p.hangupMin * 8 ≤ dur) : bandOf p dur = .hangup := by
  obtain ⟨h1, h2, h3, h4⟩ := bands_ordered h
  have hshort : ¬ dur < msUnits p.pbMin := fun hc : dur < p.pbMin * 8 => by omega
  have hpulse : ¬ dur ≤ msUnits p.pbMax := fun hc : dur ≤ p.pbMax * 8 => by omega
  have hlong : ¬ dur < msUnits p.flashMin := fun hc : dur < p.flashMin * 8 => by omega
  have hflash : ¬ dur ≤ msUnits p.flashMax := fun hc : dur ≤ p.flashMax * 8 => by omega
  unfold bandOf
  rw [if_neg hshort, if_neg hpulse, if_neg hlong, if_neg hflash]
  exact if_neg (Nat.not_lt.2 hd)

end

/-! ### Makes, by their bands -/

/-- The record of a line whose break a make ended (R68). -/
def breakEnded (r : Line) : Line := { r with breakStart := none, hangupExpiry := none }

section

variable {l : LineNo} {brk make : Time} {s : State}

/-- An event of a line in a state that has another record of it (R3). -/
theorem lineEvent_setLine (t : Time) (b : EventBody) {r : Line} (h : r.subscription = (s.line l).subscription) :
    lineEvent l t b (s.setLine l r) = writeEvent (s.linePorts l) (some l) t b (s.setLine l r) := by
  rw [lineEvent, linePorts_setLine s l l r h]

theorem makeBreak_dialling (h : (s.line l).state = .dialling) :
    makeBreak l brk make s = makeDialling l brk make (make - brk).toNat (s.setLine l (breakEnded (s.line l))) := if_pos h

theorem makeBreak_talk (h : (s.line l).state = .talk) :
    makeBreak l brk make s = makeTalk l brk make (make - brk).toNat (s.setLine l (breakEnded (s.line l))) := by
  have hne : ¬ (s.line l).state = .dialling := fun hc => nomatch h.symm.trans hc
  exact if_neg hne

end

/-! ### The pulse of a make -/

section

variable {l : LineNo} {brk make : Time} {s : State}

/-- The record of a line whose interdigit expiry a pulse armed (R84). -/
def pulseArmed (make : Time) (p : Profile) (r : Line) : Line :=
  { r with
    lastMakeStart := some make, interdigitExpiry := some (timeAfter make (p.interdigit * 8)), interdigitHeld := false }

theorem takePulse_discarded (h : (s.line l).pulseDiscard = true) :
    takePulse l brk make s = s.setLine l (pulseArmed make (s.effective l) (s.line l)) := if_pos h

theorem takePulse_first (h : (s.line l).pulseDiscard = false) (hcount : (s.line l).pulseCounter = 0) :
    takePulse l brk make s =
      s.setLine l (pulseArmed make (s.effective l) { s.line l with pulseCounter := 1, digitOnset := some brk, firstDigitExpiry := none }) :=
  (if_neg fun hc => Bool.false_ne_true (h.symm.trans hc)).trans (if_pos hcount)

theorem takePulse_next (h : (s.line l).pulseDiscard = false) (hcount : 0 < (s.line l).pulseCounter) (hroom : (s.line l).pulseCounter < 10) :
    takePulse l brk make s =
      s.setLine l (pulseArmed make (s.effective l) { s.line l with pulseCounter := (s.line l).pulseCounter + 1 }) :=
  (if_neg fun hc => Bool.false_ne_true (h.symm.trans hc)).trans ((if_neg (Nat.pos_iff_ne_zero.1 hcount)).trans (if_pos hroom))

theorem takePulse_over (h : (s.line l).pulseDiscard = false) (hcount : 10 ≤ (s.line l).pulseCounter) :
    takePulse l brk make s = lineEvent l brk (.dialError .pulseOvercount)
      (s.setLine l (pulseArmed make (s.effective l) { s.line l with pulseCounter := 0, pulseDiscard := true, digitOnset := none })) :=
  (if_neg fun hc => Bool.false_ne_true (h.symm.trans hc)).trans
    ((if_neg (by omega)).trans (if_neg (Nat.not_lt.2 hcount)))

end

/-! ### O48's first two parts -/

/-- What a make of a DIALLING line in band `b` leaves (R69). -/
def madeDialling (b : Band) (l : LineNo) (brk make : Time) (s : State) : State :=
  let s1 := s.setLine l (breakEnded (s.line l))
  let gone := s.setLine l (abandonDigit (breakEnded (s.line l)))
  match b with
  | .short => s1
  | .pulse => takePulse l brk make s1
  | .invalid => lineEvent l brk (.dialError (.invalidBreak (make - brk).toNat)) gone
  | .flash => lineEvent l brk (.flash (make - brk).toNat)
      (if 0 < (s.line l).pulseCounter then lineEvent l brk (.dialError .pulseAbort) gone else gone)
  | .hangup => seize l make (hangUp l brk .make s1)

/-- What a make of a line in TALK in band `b` leaves (R70). -/
def madeTalk (b : Band) (l : LineNo) (brk make : Time) (s : State) : State :=
  let s1 := s.setLine l (breakEnded (s.line l))
  match b with
  | .flash => lineEvent l brk (.flash (make - brk).toNat) s1
  | .hangup => seize l make (hangUp l brk .make s1)
  | .short | .pulse | .invalid => s1

section

variable {l : LineNo} {brk make : Time} {s : State} (hgood : profileGood (s.effective l) = true)

theorem makeBreak_dialling_band {b : Band} (hst : (s.line l).state = .dialling)
    (hb : bandOf (s.effective l) (make - brk).toNat = b) : makeBreak l brk make s = madeDialling b l brk make s := by
  rw [makeBreak_dialling hst]
  unfold makeDialling madeDialling
  rw [effective_setLine, hb]
  simp only [modLine_setLine, State.line_setLine_self]
  cases b <;> rfl

theorem makeBreak_talk_band {b : Band} (hst : (s.line l).state = .talk)
    (hb : bandOf (s.effective l) (make - brk).toNat = b) : makeBreak l brk make s = madeTalk b l brk make s := by
  rw [makeBreak_talk hst]
  unfold makeTalk madeTalk
  rw [effective_setLine, hb]
  cases b <;> rfl

include hgood

/-- The first part of O48: a make in DIALLING, by its band. -/
theorem makes_in_dialling (hst : (s.line l).state = .dialling) :
    let p := s.effective l
    let r := breakEnded (s.line l)
    let dur := (make - brk).toNat
    let t := makeBreak l brk make s
    let event := fun body => writeEvent (s.linePorts l) (some l) brk body
    (dur < p.pbMin * 8 → t = s.setLine l r) ∧
    (p.pbMin * 8 ≤ dur → dur ≤ p.pbMax * 8 → t = takePulse l brk make (s.setLine l r)) ∧
    ((p.pbMax * 8 < dur ∧ dur < p.flashMin * 8) ∨ (p.flashMax * 8 < dur ∧ dur < p.hangupMin * 8) →
      t = event (.dialError (.invalidBreak dur)) (s.setLine l (abandonDigit r))) ∧
    (p.flashMin * 8 ≤ dur → dur ≤ p.flashMax * 8 →
      (r.pulseCounter = 0 → t = event (.flash dur) (s.setLine l (abandonDigit r))) ∧
      (0 < r.pulseCounter → t = event (.flash dur) (event (.dialError .pulseAbort) (s.setLine l (abandonDigit r))))) ∧
    (p.hangupMin * 8 ≤ dur → t = seize l make (hangUp l brk .make (s.setLine l r))) := by
  intro p r dur t event
  refine ⟨fun h => makeBreak_dialling_band (b := .short) hst (bandOf_short h), fun h1 h2 => makeBreak_dialling_band (b := .pulse) hst (bandOf_pulse h1 h2), fun h => ?_,
    fun h1 h2 => ⟨fun hzero => ?_, fun hpos => ?_⟩, fun h => makeBreak_dialling_band (b := .hangup) hst (bandOf_hangup hgood h)⟩
  · refine (makeBreak_dialling_band (b := .invalid) hst (bandOf_invalid hgood h)).trans ?_
    exact lineEvent_setLine _ _ rfl
  · refine (makeBreak_dialling_band (b := .flash) hst (bandOf_flash hgood h1 h2)).trans ?_
    rw [madeDialling, if_neg (show ¬ 0 < (s.line l).pulseCounter from Nat.not_lt.2 (Nat.le_of_eq hzero))]
    exact lineEvent_setLine _ _ rfl
  · refine (makeBreak_dialling_band (b := .flash) hst (bandOf_flash hgood h1 h2)).trans ?_
    rw [madeDialling, if_pos (show 0 < (s.line l).pulseCounter from hpos), lineEvent_setLine _ _ (show (abandonDigit r).subscription = _ from rfl), lineEvent, linePorts_writeEvent]
    exact congrArg (fun q => writeEvent q _ _ _ _) (linePorts_setLine s l l _ rfl)

/-- The second part of O48: a make in TALK, by its band. -/
theorem makes_in_talk (hst : (s.line l).state = .talk) :
    let p := s.effective l
    let r := breakEnded (s.line l)
    let dur := (make - brk).toNat
    let t := makeBreak l brk make s
    ((dur < p.flashMin * 8 ∨ (p.flashMax * 8 < dur ∧ dur < p.hangupMin * 8)) → t = s.setLine l r) ∧
    (p.flashMin * 8 ≤ dur → dur ≤ p.flashMax * 8 → t = writeEvent (s.linePorts l) (some l) brk (.flash dur) (s.setLine l r)) ∧
    (p.hangupMin * 8 ≤ dur → t = seize l make (hangUp l brk .make (s.setLine l r))) := by
  intro p r dur t
  refine ⟨fun h => ?_, fun h1 h2 => ?_, fun h => makeBreak_talk_band (b := .hangup) hst (bandOf_hangup hgood h)⟩
  · by_cases hshort : dur < p.pbMin * 8
    · exact makeBreak_talk_band (b := .short) hst (bandOf_short hshort)
    by_cases hpulse : dur ≤ p.pbMax * 8
    · exact makeBreak_talk_band (b := .pulse) hst (bandOf_pulse (Nat.not_lt.1 hshort) hpulse)
    · exact makeBreak_talk_band (b := .invalid) hst (bandOf_invalid hgood (h.imp (fun h => ⟨Nat.not_le.1 hpulse, h⟩) id))
  · refine (makeBreak_talk_band (b := .flash) hst (bandOf_flash hgood h1 h2)).trans ?_
    exact lineEvent_setLine _ _ rfl

end

end Sys2Proof.Machine
end

