-- ==== Sys2Proof/Proofs/BreaksCounted.lean ====
section
/-! PROOF. The learning and the count of a measurement, apart from the breaks and makes it confirms. -/

namespace Sys2Proof.Machine

/-! ### The learning and the count, apart from breaks and makes -/

/-- A record with a baseline learned and the measurement counted (R46, R49). -/
def scored (b : Nat) (r : Line) : Line := { counted r with baseline := b }

section

variable {l : LineNo} {s : State} (b : Nat)

theorem scored_spares : SparesStatus (scored b) := fun _ _ => rfl

/-- Two changes of a record that commute. -/
theorem modLine_comm_self {f g : Line → Line} (h : ∀ r, f (g r) = g (f r)) : (s.modLine l g).modLine l f = (s.modLine l f).modLine l g := by
  rw [modLine_modLine, modLine_modLine]
  exact modLine_congr (h _)

theorem linePorts_scored : (s.modLine l (scored b)).linePorts l = s.linePorts l := linePorts_setLine s l l _ rfl

theorem lineEvent_scored (t : Time) (e : EventBody) : lineEvent l t e (s.modLine l (scored b)) = (lineEvent l t e s).modLine l (scored b) := by
  rw [lineEvent, linePorts_scored, ← writeEvent_modLine]
  rfl

theorem recordDigit_scored (c : DigitCode) (m : DigitMethod) (t : Time) :
    recordDigit l c m t (s.modLine l (scored b)) = (recordDigit l c m t s).modLine l (scored b) := by
  refine recordDigit_modLine (f := scored b) (fun _ => rfl) (fun _ => rfl) (fun _ => rfl) (fun r => ?_) l t s
  unfold recorded scored counted
  dsimp only
  split
  · rfl
  · split <;> rfl

theorem hangUp_scored (t : Time) (w : HangupBy) : hangUp l t w (s.modLine l (scored b)) = (hangUp l t w s).modLine l (scored b) := by
  have hends : permanentLoopEnds l (s.modLine l (scored b)) = permanentLoopEnds l s := by
    rw [permanentLoopEnds, linePorts_scored, State.line_modLine_self]
    rfl
  rw [hangUp_eq, hangUp_eq, hends, linePorts_scored, releaseUnlocked_modLine (scored_spares b), tell_modLine]
  exact congrArg (tell _) (modLine_comm_self fun _ => rfl)

theorem seize_scored (t : Time) : seize l t (s.modLine l (scored b)) = (seize l t s).modLine l (scored b) := by
  have hnotes : seizeNotes l t (s.modLine l (scored b)) = seizeNotes l t s := by
    have hno : (s.modLine l (scored b)).effectiveNo l = s.effectiveNo l := rfl
    simp only [seizeNotes, toneNote, openPairNote, linePorts_scored, hno, effective_modLine, now_modLine, State.line_modLine_self]
    rfl
  rw [seize_eq, seize_eq, hnotes, asked_modLine (scored_spares b) fun _ => rfl, effective_modLine, tell_modLine]
  exact congrArg (tell _) (modLine_comm_self fun _ => rfl)

theorem takePulse_scored (t u : Time) : takePulse l t u (s.modLine l (scored b)) = (takePulse l t u s).modLine l (scored b) := by
  have hdiscard : ((s.modLine l (scored b)).line l).pulseDiscard = (s.line l).pulseDiscard := by
    rw [State.line_modLine_self]
    rfl
  have hcount : ((s.modLine l (scored b)).line l).pulseCounter = (s.line l).pulseCounter := by
    rw [State.line_modLine_self]
    rfl
  have hset : ∀ f : Line → Line, (∀ r, f (scored b r) = scored b (f r)) →
      (s.modLine l (scored b)).setLine l (f ((s.modLine l (scored b)).line l)) = (s.setLine l (f (s.line l))).modLine l (scored b) :=
    fun f hf => modLine_comm_self hf
  by_cases hd : (s.line l).pulseDiscard = true
  · rw [takePulse_discarded (hdiscard.trans hd), takePulse_discarded hd, effective_modLine]
    exact hset (pulseArmed u (s.effective l)) fun _ => rfl
  have hcounts := Bool.eq_false_iff.2 hd
  by_cases hzero : (s.line l).pulseCounter = 0
  · rw [takePulse_first (hdiscard.trans hcounts) (hcount.trans hzero), takePulse_first hcounts hzero, effective_modLine]
    exact hset (fun r => pulseArmed u (s.effective l) { r with pulseCounter := 1, digitOnset := some t, firstDigitExpiry := none }) fun _ => rfl
  have hpos := Nat.pos_iff_ne_zero.2 hzero
  by_cases hroom : (s.line l).pulseCounter < 10
  · rw [takePulse_next (hdiscard.trans hcounts) (hcount ▸ hpos) (hcount ▸ hroom), takePulse_next hcounts hpos hroom, effective_modLine]
    exact hset (fun r => pulseArmed u (s.effective l) { r with pulseCounter := r.pulseCounter + 1 }) fun _ => rfl
  · have hfull := Nat.not_lt.1 hroom
    rw [takePulse_over (hdiscard.trans hcounts) (hcount ▸ hfull), takePulse_over hcounts hfull, effective_modLine, ← lineEvent_scored]
    exact congrArg (lineEvent l t _)
      (hset (fun r => pulseArmed u (s.effective l) { r with pulseCounter := 0, pulseDiscard := true, digitOnset := none }) fun _ => rfl)

theorem makeDialling_scored (t u : Time) (dur : Nat) :
    makeDialling l t u dur (s.modLine l (scored b)) = (makeDialling l t u dur s).modLine l (scored b) := by
  have hcount : ((s.modLine l (scored b)).line l).pulseCounter = (s.line l).pulseCounter := by
    rw [State.line_modLine_self]
    rfl
  have hgone : (s.modLine l (scored b)).modLine l abandonDigit = (s.modLine l abandonDigit).modLine l (scored b) :=
    modLine_comm_self fun _ => rfl
  unfold makeDialling
  rw [effective_modLine, hcount, hgone]
  cases bandOf (s.effective l) dur with
  | short => rfl
  | pulse => exact takePulse_scored b t u
  | invalid => exact lineEvent_scored b ..
  | flash =>
    dsimp only
    split
    · rw [lineEvent_scored, lineEvent_scored]
    · exact lineEvent_scored b ..
  | hangup => exact (congrArg (seize l u) (hangUp_scored b ..)).trans (seize_scored b u)

theorem makeTalk_scored (t u : Time) (dur : Nat) : makeTalk l t u dur (s.modLine l (scored b)) = (makeTalk l t u dur s).modLine l (scored b) := by
  unfold makeTalk
  rw [effective_modLine]
  cases bandOf (s.effective l) dur with
  | short | pulse | invalid => rfl
  | flash => exact lineEvent_scored b ..
  | hangup => exact (congrArg (seize l u) (hangUp_scored b ..)).trans (seize_scored b u)

theorem makeBreak_scored (t u : Time) : makeBreak l t u (s.modLine l (scored b)) = (makeBreak l t u s).modLine l (scored b) := by
  have hstate : ((s.modLine l (scored b)).line l).state = (s.line l).state := by
    rw [State.line_modLine_self]
    rfl
  have hended : (s.modLine l (scored b)).modLine l breakEnded = (s.modLine l breakEnded).modLine l (scored b) := modLine_comm_self fun _ => rfl
  have hunfold : ∀ v : State, makeBreak l t u v = if (v.line l).state = .dialling
      then makeDialling l t u (timeSince t u) (v.modLine l breakEnded) else makeTalk l t u (timeSince t u) (v.modLine l breakEnded) :=
    fun _ => rfl
  rw [hunfold, hunfold, hstate, hended]
  split
  · exact makeDialling_scored b ..
  · exact makeTalk_scored b ..

end

/-! ### The state a break leaves -/

section

variable {l : LineNo} {s : State}

theorem state_takePulse (t u : Time) : ((takePulse l t u s).line l).state = (s.line l).state := by
  unfold takePulse
  dsimp only
  split
  · rw [State.line_setLine_self, armInterdigit]
  · split
    · rw [State.line_setLine_self, armInterdigit]
    · split
      · rw [State.line_setLine_self, armInterdigit]
      · rw [line_lineEvent, State.line_setLine_self, armInterdigit]

theorem state_seize (t : Time) : ((seize l t s).line l).state = .dialling := by
  rw [seize_eq, line_tell, State.line_modLine_self]
  rfl

/-- A make leaves its line in a call (R69, R70). -/
theorem state_makeBreak (t u : Time) (h : (s.line l).state = .dialling ∨ (s.line l).state = .talk) :
    ((makeBreak l t u s).line l).state ≠ .idle := by
  have hbusy : (s.line l).state ≠ .idle := fun hc => by
    rcases h with h | h <;> exact nomatch h.symm.trans hc
  rcases h with h | h
  · rw [makeBreak_dialling_band h rfl]
    cases bandOf (s.effective l) (u - t).toNat with
    | short =>
      rw [madeDialling, State.line_setLine_self]
      exact hbusy
    | pulse =>
      rw [madeDialling, state_takePulse, State.line_setLine_self]
      exact hbusy
    | invalid =>
      rw [madeDialling, line_lineEvent, State.line_setLine_self]
      exact hbusy
    | flash =>
      rw [madeDialling, line_lineEvent]
      split
      · rw [line_lineEvent, State.line_setLine_self]
        exact hbusy
      · rw [State.line_setLine_self]
        exact hbusy
    | hangup =>
      rw [madeDialling, state_seize]
      nofun
  · rw [makeBreak_talk_band h rfl]
    cases bandOf (s.effective l) (u - t).toNat with
    | short | pulse | invalid =>
      rw [madeTalk, State.line_setLine_self]
      exact hbusy
    | flash =>
      rw [madeTalk, line_lineEvent, State.line_setLine_self]
      exact hbusy
    | hangup =>
      rw [madeTalk, state_seize]
      nofun

end

end Sys2Proof.Machine
end

