-- ==== Sys2Proof/Proofs/BreaksClassed.lean ====
section
/-! PROOF. The runs that make and open a break, and O48. -/

namespace Sys2Proof.Machine

section

variable {l : LineNo} {it ir : Int} {m : LoopSlot} {n : Nat} {start : Time} {s : State}
  (h : Evaluates m .normal it ir (s.line l)) (hst : (s.line l).state = .dialling ∨ (s.line l).state = .talk)
  (hn : n + 1 = (s.effective l).debounce)

/-- A measurement's record whose run it confirms (R42, R57). -/
def confirming (it ir : Int) (d : LoopDir) (r : Line) : Line := { withLast it ir r with loop := condOf d, run := none }

include hst hn in
/-- The measurement that confirms the run of a line in a call (R57). -/
theorem call_confirms {d : LoopDir} {c : MeasClass} {t : Time} {f : FeedMode} (hc : classDir c = some d) (hloop : (s.line l).loop ≠ condOf d)
    (hrun : (s.line l).run = some ⟨d, n, start⟩) :
    superviseMeasurement l f c t (s.setLine l (withLast it ir (s.line l))) = confirmRun l d start (s.setLine l (withLast it ir (s.line l))) := by
  rw [superviseMeasurement_debounces (.inr (hst.imp (fun h => by rw [State.line_setLine_self]; exact h)
    fun h => .inl (by rw [State.line_setLine_self]; exact h)))]
  refine debounce_confirms hc ?_ ?_ (by rw [effective_setLine]; exact hn)
  · rw [State.line_setLine_self]
    exact hloop
  · rw [State.line_setLine_self]
    exact hrun

omit hn in
include hst in
/-- A confirmed run toward CLOSED with a break open is its make (R57, R68). -/
theorem confirmRun_makes {b : Time} (hb : (s.line l).breakStart = some b) :
    confirmRun l .closed start s = makeBreak l b start (s.setLine l { s.line l with loop := .closed, run := none }) := by
  unfold confirmRun
  rcases hst with hst | hst <;> rw [hst, hb] <;> rfl

omit hn in
include hst in
/-- A confirmed run toward OPEN opens a break (R57, R67). -/
theorem confirmRun_opens : confirmRun l .opened start s = openBreak l start (s.setLine l { s.line l with loop := .opened, run := none }) := by
  unfold confirmRun
  rcases hst with hst | hst <;> rw [hst] <;> rfl

include h hst hn in
/-- The measurement that confirms a make (R57, R68). -/
theorem closed_run_makes {b : Time} (hloop : (s.line l).loop = .opened) (hb : (s.line l).breakStart = some b)
    (hrun : (s.line l).run = some ⟨.closed, n, start⟩) (hc : Closes (s.effective l) (withLast it ir (s.line l)).lastMc) :
    exec (.loopMeasurement l it ir) s = .next (makeBreak l b start (s.setLine l (counted (confirming it ir .closed (s.line l))))) := by
  let y := confirming it ir .closed (s.line l)
  have hheld : (s.line l).state ≠ .held := fun hcl => by
    rcases hst with hst | hst <;> exact nomatch hst.symm.trans hcl
  have hsupervised := call_confirms (it := it) (ir := ir) (t := m.stamp) (f := .normal) hst hn
    (classDir_of (.inl ⟨rfl, hc⟩)) (fun hcl : _ = LoopCond.closed => nomatch hloop.symm.trans hcl) hrun
  have hmakes : confirmRun l .closed start (s.setLine l (withLast it ir (s.line l))) = makeBreak l b start (s.setLine l y) := by
    rw [confirmRun_makes (by rw [State.line_setLine_self]; exact hst) (by rw [State.line_setLine_self]; exact hb),
      State.line_setLine_self, State.setLine_setLine]
    rfl
  rw [hmakes] at hsupervised
  have hbusy : ((makeBreak l b start (s.setLine l y)).line l).state ≠ .idle :=
    state_makeBreak _ _ (by rw [State.line_setLine_self]; exact hst)
  have hreading : reading ((makeBreak l b start (s.setLine l y)).line l) = reading y := by rw [reading_makeBreak, State.line_setLine_self]
  simp only [reading, Prod.mk.injEq] at hreading
  obtain ⟨-, -, -, -, hbase, -⟩ := hreading
  refine (exec_normal h hheld hsupervised).trans (congrArg Host.Outcome.next ?_)
  have hscored : counted y = scored y.baseline y := rfl
  have hput : s.setLine l (scored y.baseline y) = (s.setLine l y).modLine l (scored y.baseline) := (modLine_setLine y _).symm
  rw [hscored, hput, makeBreak_scored]
  refine modLine_congr ?_
  rw [rested_of_busy fun hcl => hbusy hcl.1, scored, ← hbase]
  rfl

/-- A break's notice and its expiry, given what the notice leaves (R67). -/
theorem openBreak_noticed {expiry : Time} {v : State} {y : Line}
    (hv : (if y.state = .dialling then noticeBreak l start (s.setLine l (breakFields start (s.effective l) y))
      else s.setLine l (breakFields start (s.effective l) y)) = v)
    (hnow : v.now = s.now) (hexpiry : (v.line l).hangupExpiry = some expiry) :
    openBreak l start (s.setLine l y) = if (s.now - expiry).toNat < 2 ^ 31 then hangUp l start .expiry v else v := by
  have hfold : openBreak l start (s.setLine l y) =
      if expiryDue v.now (v.line l).hangupExpiry then hangUp l start .expiry v else v := by
    unfold openBreak
    dsimp only
    rw [effective_setLine, modLine_setLine, State.line_setLine_self]
    rw [← hv]
    rfl
  rw [hfold, hnow, hexpiry]
  exact if_congr decide_eq_true_iff rfl rfl

theorem state_hangUp (t : Time) (w : HangupBy) :
    ((hangUp l t w s).line l).state = .idle ∧ ((hangUp l t w s).line l).loop = .opened ∧ ((hangUp l t w s).line l).run = (s.line l).run := by
  rw [hangUp_eq, line_tell, State.line_modLine_self, releaseUnlocked_line]
  exact ⟨rfl, rfl, rfl⟩

include h hst hn in
/-- The measurement that confirms a break, given what the notice of it leaves (R46, R57, R67). -/
theorem opened_run_opens (hloop : (s.line l).loop = .closed) (hrun : (s.line l).run = some ⟨.opened, n, start⟩)
    (ho : Opens (s.effective l) (withLast it ir (s.line l)).lastMc) {v : State}
    (hv : (if (s.line l).state = .dialling
      then noticeBreak l start (s.setLine l (breakFields start (s.effective l) (confirming it ir .opened (s.line l))))
      else s.setLine l (breakFields start (s.effective l) (confirming it ir .opened (s.line l)))) = v)
    (hnow : v.now = s.now) (hexpiry : (v.line l).hangupExpiry = some (timeAfter start ((s.effective l).hangupMin * 8)))
    (hvst : (v.line l).state = (s.line l).state) (hvrun : (v.line l).run = none) (hbase : (v.line l).baseline = (s.line l).baseline) :
    let past := (s.now - timeAfter start ((s.effective l).hangupMin * 8)).toNat < 2 ^ 31
    let u := v.modLine l (scored (if past then learned (withLast it ir (s.line l)) s.bat.feed (s.effective l).shift else (s.line l).baseline))
    exec (.loopMeasurement l it ir) s = .next (if past then hangUp l start .expiry u else u) := by
  intro past u
  have hheld : (s.line l).state ≠ .held := fun hcl => by
    rcases hst with hst | hst <;> exact nomatch hst.symm.trans hcl
  have hidle : (s.line l).state ≠ .idle := fun hcl => by
    rcases hst with hst | hst <;> exact nomatch hst.symm.trans hcl
  have hsupervised := call_confirms (it := it) (ir := ir) (t := m.stamp) (f := .normal) hst hn
    (classDir_of (.inr ⟨rfl, ho⟩)) (fun hcl : _ = LoopCond.opened => nomatch hloop.symm.trans hcl) hrun
  have hopens : confirmRun l .opened start (s.setLine l (withLast it ir (s.line l))) = if past then hangUp l start .expiry v else v := by
    rw [confirmRun_opens (by rw [State.line_setLine_self]; exact hst), State.line_setLine_self, State.setLine_setLine]
    exact openBreak_noticed hv hnow hexpiry
  rw [hopens] at hsupervised
  refine (exec_normal h hheld hsupervised).trans (congrArg Host.Outcome.next ?_)
  by_cases hpast : past
  · obtain ⟨h1, h2, h3⟩ := state_hangUp (l := l) (s := v) start .expiry
    simp only [u, if_pos hpast]
    rw [hangUp_scored]
    refine modLine_congr ?_
    rw [rested_of_idle h1 h2 (h3.trans hvrun)]
    rfl
  · simp only [u, if_neg hpast]
    refine modLine_congr ?_
    rw [rested_of_busy fun hcl => hidle (hvst.symm.trans hcl.1), scored, ← hbase]
    rfl

end

/-- A digit recorded changes a line's Dial Record and overflow marker alone (R91). -/
theorem recorded_apart (c : DigitCode) (m : DigitMethod) (r : Line) :
    { recorded c m r with dialRecord := r.dialRecord, overflow := r.overflow } = r := by
  unfold recorded
  split
  · rfl
  · split <;> rfl

section

variable {l : LineNo} {start e : Time} {s : State}

theorem noticeBreak_none (he : (s.line l).interdigitExpiry = none) : noticeBreak l start s = s := by
  rw [noticeBreak, he]

/-- A break that starts before the interdigit expiry leaves the digit open (R86). -/
theorem noticeBreak_before (he : (s.line l).interdigitExpiry = some e) (h : timeBefore start e = true) : noticeBreak l start s = s := by
  rw [noticeBreak, he]
  exact if_pos h

/-- A break that does not start before the interdigit expiry takes it first (R86). -/
theorem noticeBreak_takes (he : (s.line l).interdigitExpiry = some e) (h : ¬ timeBefore start e = true) :
    noticeBreak l start s = takeInterdigit l s := by
  rw [noticeBreak, he]
  exact if_neg h

end

/-- The interdigit expiry taken of a line whose record was just put (R87, R89). -/
theorem takeInterdigit_put (l : LineNo) (r : Line) (s : State) :
    let start := { r with lastMakeStart := none, interdigitExpiry := none, interdigitHeld := false }
    (r.pulseDiscard = true → takeInterdigit l (s.setLine l r) = s.setLine l { start with pulseDiscard := false }) ∧
      ∀ onset, r.pulseDiscard = false → r.digitOnset = some onset → takeInterdigit l (s.setLine l r) =
        recordDigit l ⟨r.pulseCounter % 10, by omega⟩ .pulse onset (s.setLine l { start with pulseCounter := 0, digitOnset := none }) := by
  obtain ⟨hdiscard, hdigit⟩ := takeInterdigit_clauses l (s.setLine l r)
  have hr : (s.setLine l r).line l = r := State.line_setLine_self ..
  refine ⟨fun h => (hdiscard (hr.symm ▸ h)).trans ?_, fun onset h ho => (hdigit onset (hr.symm ▸ h) (hr.symm ▸ ho)).trans ?_⟩
  · simp only [hr, State.setLine_setLine]
  · simp only [hr, State.setLine_setLine]

/-- Settles O48: the bands of a make (`makes_in_dialling`, `makes_in_talk`), and the runs that make and open a break. -/
theorem makesAreClassed : Obligations.MakesAreClassed := by
  refine ⟨fun l brk make s hst => ?_, fun l brk make s hst => ?_, fun l it ir m n start s => ?_⟩
  · intro p r dur t event armed gone hgood
    obtain ⟨hshort, hpulse, hinvalid, hflash, hhangup⟩ := makes_in_dialling (brk := brk) (make := make) hgood hst
    have hput : ∀ x : Line, (s.setLine l r).setLine l x = s.setLine l x := fun x => State.setLine_setLine ..
    have hline : (s.setLine l r).line l = r := State.line_setLine_self ..
    refine ⟨hshort, fun h1 h2 => ?_, hinvalid, hflash, hhangup⟩
    have hmade : t = takePulse l brk make (s.setLine l r) := hpulse h1 h2
    refine ⟨fun hd => ?_, fun hd => ⟨fun hc => ?_, fun hc1 hc2 => ?_, fun hc => ?_⟩⟩
    · rw [hmade, takePulse_discarded (by rw [hline]; exact hd), hline, hput]
      rfl
    · rw [hmade, takePulse_first (by rw [hline]; exact hd) (by rw [hline]; exact hc), hline, hput]
      rfl
    · rw [hmade, takePulse_next (by rw [hline]; exact hd) (by rw [hline]; exact hc1) (by rw [hline]; exact hc2), hline, hput]
      rfl
    · rw [hmade, takePulse_over (by rw [hline]; exact hd) (by rw [hline]; exact Nat.le_of_eq hc.symm), hline, hput]
      exact lineEvent_setLine _ _ rfl
  · intro p r dur t hgood
    exact makes_in_talk hgood hst
  · intro r p last h hst hn
    refine ⟨fun b hloop hb hrun hc => closed_run_makes h hst hn hloop hb hrun hc, fun hloop hrun ho => ?_⟩
    intro expiry past x start' before opens
    let y := breakFields start p (confirming it ir .opened r)
    have hx : scored (if past then learned last s.bat.feed p.shift else r.baseline) y = x := rfl
    have hopened : (s.setLine l y).line l = y := State.line_setLine_self ..
    have hbefore : ∀ e, timeBefore start e = true ↔ before e := fun e => timeBefore_iff start e
    have hafter : ∀ v, (r.state = .dialling → noticeBreak l start (s.setLine l y) = v) → (r.state ≠ .dialling → s.setLine l y = v) →
        v.now = s.now → (v.line l).hangupExpiry = y.hangupExpiry ∧ (v.line l).state = y.state ∧ (v.line l).run = y.run ∧
          (v.line l).baseline = y.baseline →
        opens (v.modLine l (scored (if past then learned last s.bat.feed p.shift else r.baseline))) := by
      intro v hdial htalk hnow hline
      obtain ⟨h1, h2, h3, h4⟩ := hline
      refine opened_run_opens h hst hn hloop hrun ho ?_ hnow h1 h2 h3 h4
      split
      · rename_i hc
        exact hdial hc
      · rename_i hc
        exact htalk hc
    have hquiet : (r.state = .dialling → noticeBreak l start (s.setLine l y) = s.setLine l y) → opens (s.setLine l x) := fun hc => by
      have hv := hafter _ hc (fun _ => rfl) (now_setLine ..) (by rw [hopened]; exact ⟨rfl, rfl, rfl, rfl⟩)
      rw [modLine_setLine, hx] at hv
      exact hv
    have hexpiry : ((s.setLine l y).line l).interdigitExpiry = r.interdigitExpiry := by
      rw [hopened]
      rfl
    refine ⟨fun hc => hquiet fun hdial => ?_, fun e hdial he => ⟨fun hbef => hquiet fun _ => ?_, fun hbef hd => ?_, fun onset hbef hd honset => ?_⟩⟩
    · rcases hc with hc | hc
      · exact nomatch hdial.symm.trans hc
      · exact noticeBreak_none (hexpiry.trans hc)
    · exact noticeBreak_before (hexpiry.trans he) ((hbefore e).2 hbef)
    · obtain ⟨hdiscard, -⟩ := takeInterdigit_put l y s
      have hv := hafter _ (fun _ => (noticeBreak_takes (hexpiry.trans he) (fun hc => hbef ((hbefore e).1 hc))).trans (hdiscard hd))
        (fun hc => absurd hdial hc) (now_setLine ..) (by rw [State.line_setLine_self]; exact ⟨rfl, rfl, rfl, rfl⟩)
      rw [modLine_setLine] at hv
      exact hv
    · obtain ⟨-, hdigit⟩ := takeInterdigit_put l y s
      have hv := hafter _ (fun _ => (noticeBreak_takes (hexpiry.trans he) (fun hc => hbef ((hbefore e).1 hc))).trans (hdigit onset hd honset))
        (fun hc => absurd hdial hc) ((now_recordDigit ..).trans (now_setLine ..)) ?_
      · rw [← recordDigit_scored, modLine_setLine] at hv
        exact hv
      · rw [line_recordDigit, State.line_setLine_self, State.line_setLine_self]
        have hrest := fun {α : Type} (f : Line → α) => congrArg f (recorded_apart ⟨y.pulseCounter % 10, by omega⟩ .pulse
          { y with lastMakeStart := none, interdigitExpiry := none, interdigitHeld := false, pulseCounter := 0, digitOnset := none })
        exact ⟨hrest Line.hangupExpiry, hrest Line.state, hrest Line.run, hrest Line.baseline⟩

end Sys2Proof.Machine
end

