-- ==== Sys2Proof/Proofs/OfferRequests.lean ====
section
/-! PROOF. What a request for an offer leaves: the passes it ends, the sweeps it leaves alone, the offer (chapter 8). -/

namespace Sys2Proof.Machine

/-! ### Visits and turns -/

/-- A visit used ends its turn (R139). -/
def turnEnds (n : SweepNo) (s : State) : Bool := decide ((s.sw n).blockLength ≤ s.sweep.used + 1) || (s.sw n).closing

section

variable (n m : SweepNo) (s : State)

theorem useVisit_eq : useVisit n s = { s with
    sweep := { s.sweep with
      used := s.sweep.used + 1
      holder := if turnEnds n s then none else s.sweep.holder
      lastServed := if turnEnds n s then n else s.sweep.lastServed } } := by
  have hfold : useVisit n s =
      if (s.sw n).blockLength ≤ s.sweep.used + 1 ∨ (s.sw n).closing = true
        then endTurn n { s with sweep := { s.sweep with used := s.sweep.used + 1 } } else { s with sweep := { s.sweep with used := s.sweep.used + 1 } } :=
    rfl
  have hends : turnEnds n s = true ↔ (s.sw n).blockLength ≤ s.sweep.used + 1 ∨ (s.sw n).closing = true := by simp [turnEnds]
  rw [hfold]
  by_cases h : turnEnds n s = true
  · rw [if_pos (hends.1 h), if_pos h, if_pos h]
    rfl
  · rw [if_neg fun hc => h (hends.2 hc), if_neg h, if_neg h]

@[simp] theorem sw_useVisit : (useVisit n s).sw m = s.sw m := by
  rw [useVisit_eq]
  rfl

/-- The sweep after a skipped visit (R140). -/
def skippedVisit (w : Sweep) : Sweep := passOn { w with skipped := w.skipped + 1 }

theorem sw_skipVisit_self : (skipVisit n s).sw n = skippedVisit (s.sw n) := by
  rw [skipVisit, sw_useVisit, State.sw_setSw_self]
  rfl

variable {n m} in
theorem sw_skipVisit_ne (h : m ≠ n) : (skipVisit n s).sw m = s.sw m := by
  rw [skipVisit, sw_useVisit, State.sw_setSw_ne _ _ h]

/-- A skipped visit touches the sweeps alone. -/
theorem skipVisit_rest (w : SweepUnit) : { skipVisit n s with sweep := w } = { s with sweep := w } := by
  rw [skipVisit, useVisit_eq]
  rfl

theorem holder_skipVisit : (skipVisit n s).sweep.holder =
    if turnEnds n (s.setSw n (skippedVisit (s.sw n))) then none else s.sweep.holder := by
  rw [skipVisit, useVisit_eq]
  rfl

/-- A visit that ends the pass ends the turn (R139, R142). -/
theorem holder_skipVisit_closing (h : (skippedVisit (s.sw n)).closing = true) : (skipVisit n s).sweep.holder = none := by
  rw [holder_skipVisit, if_pos]
  simp [turnEnds, h]

theorem skipVisit_offer : (skipVisit n s).sweep.offer = s.sweep.offer := by
  rw [skipVisit, useVisit_eq]
  rfl

end

section

variable (w : Sweep)

theorem skippedVisit_kind : (skippedVisit w).kind = w.kind := by unfold skippedVisit passOn; split <;> rfl

theorem skippedVisit_items : (skippedVisit w).items = w.items := by unfold skippedVisit passOn; split <;> rfl

theorem skippedVisit_measured : (skippedVisit w).measured = w.measured := by unfold skippedVisit passOn; split <;> rfl

theorem skippedVisit_skipped : (skippedVisit w).skipped = w.skipped + 1 := by unfold skippedVisit passOn; split <;> rfl

theorem skippedVisit_count : (skippedVisit w).count = w.count := by unfold skippedVisit passOn; split <;> rfl

/-- The end of a pass does not see the visits skipped before it (R144). -/
theorem passEnded_skippedVisit : passEnded (skippedVisit w) = passEnded w := by unfold skippedVisit passOn; split <;> rfl

theorem skippedVisit_goes_on (h : (skippedVisit w).closing = false) : w.closing = false ∧ w.cursor + 1 < w.count ∧ (skippedVisit w).cursor = w.cursor + 1 := by
  unfold skippedVisit passOn at h ⊢
  split at h
  · rename_i hc
    rw [if_pos hc]
    exact ⟨h, hc, rfl⟩
  · cases h

theorem skippedVisit_closes (h : (skippedVisit w).closing = true) : w.closing = true ∨ w.count ≤ w.cursor + 1 := by
  unfold skippedVisit passOn at h
  split at h
  · exact .inl h
  · rename_i hc
    exact .inr (Nat.not_lt.1 hc)

end

/-! ### The ends of passes in the journal -/

/-- The SWEEP_DONE of a pass that ends (R144). -/
def doneNote (s : State) (d : SweepNo × Nat × Nat) : Message :=
  ⟨s.attachedControllers, none, s.now, .sweepDone d.1 (s.sw d.1).kind d.2.1 d.2.2⟩

theorem passesDone_eq (ds : List (SweepNo × Nat × Nat)) (s : State) : passesDone ds s = tell (ds.map (doneNote s)) s := by
  rw [passesDone, tell, List.foldl_map]
  rfl

/-- Events say nothing of the sweeps. -/
theorem tell_withSweep (es : List Message) (s : State) (w : SweepUnit) : { tell es s with sweep := w } = tell es { s with sweep := w } :=
  tell_apart es s (fun u => { u with sweep := w }) fun q o t b u => writeEvent_apart u q o t b (fun u => { u with sweep := w })
    (fun _ _ _ _ _ => rfl) fun _ => ⟨rfl, rfl, rfl, rfl, rfl⟩

/-- Two states of one time with the same ports and kinds of sweeps report the same ends. -/
theorem doneNote_congr {s t : State} (hp : ∀ q, t.attached q = s.attached q) (hn : t.now = s.now) (hk : ∀ n, (t.sw n).kind = (s.sw n).kind)
    (d : SweepNo × Nat × Nat) : doneNote t d = doneNote s d := by
  have hports : t.attachedControllers = s.attachedControllers := by simp only [State.attachedControllers, hp]
  rw [doneNote, doneNote, hports, hn, hk]

/-- The end of a pass is its report, the sweeps apart (R144). -/
theorem endPass_rest (n : SweepNo) (s : State) (w : SweepUnit) :
    { endPass n s with sweep := w } = tell [doneNote s (n, (s.sw n).measured, (s.sw n).skipped)] { s with sweep := w } := by
  have hreport := tell_withSweep [doneNote s (n, (s.sw n).measured, (s.sw n).skipped)] s w
  rw [endPass_eq, passesDone_eq]
  exact hreport

theorem sw_endPass_self (n : SweepNo) (s : State) : (endPass n s).sw n = passEnded (s.sw n) := by
  rw [endPass_eq, State.sw_setSw_self]

theorem sw_endPass_ne {n m : SweepNo} (h : m ≠ n) (s : State) : (endPass n s).sw m = s.sw m := by
  rw [endPass_eq, State.sw_setSw_ne _ _ h, passesDone_eq]
  simp only [State.sw, tell_sweep]

theorem endPass_turn (n : SweepNo) (s : State) :
    (endPass n s).sweep.holder = s.sweep.holder ∧ (endPass n s).sweep.offer = s.sweep.offer := by
  have hsweep := tell_sweep [doneNote s (n, (s.sw n).measured, (s.sw n).skipped)] s
  rw [endPass_eq, passesDone_eq]
  have hholder := congrArg SweepUnit.holder hsweep
  have hoffer := congrArg SweepUnit.offer hsweep
  exact ⟨hholder, hoffer⟩

/-! ### Requests -/

/-- A pass that a request ended: none of its items was in progress, and its tallies are those of its last visit (R142, R144). -/
def PassOf (w w' : Sweep) (tallies : Nat × Nat) : Prop :=
  w.items = 0 ∧ w' = passEnded w ∧ tallies.1 = w.measured ∧
    (w.closing = false → w.cursor < w.count → tallies.2 = w.skipped + (w.count - w.cursor))

/-- The pending offer is the visit at the cursor of the turn's holder, on a line that is IDLE or BLOCKED (R140). -/
def OffersVisit (t : State) : Prop :=
  ∀ o, t.sweep.offer = some o →
    t.sweep.holder = some o.sweep ∧ o.line = visitLine (t.sw o.sweep) (t.sw o.sweep).cursor ∧ o.kind = (t.sw o.sweep).kind ∧
      visitable (t.line o.line).state = true

/-- What a request for an offer that ended the passes `ds` leaves of a state in which it had ended those of `ended` (R140 to R144). -/
structure Requested (ended : List SweepNo) (ds : List (SweepNo × Nat × Nat)) (s t : State) : Prop where
  /-- no sweep's pass ends twice -/
  nodup : (ds.map Prod.fst).Nodup
  /-- the sweeps and the reports are all that changes -/
  rest : { t with sweep := s.sweep } = tell (ds.map (doneNote s)) s
  /-- the passes that ended -/
  passes : ∀ d ∈ ds, PassOf (s.sw d.1) (t.sw d.1) d.2
  /-- a sweep that is not eligible, or was dealt with, and holds no turn is left alone -/
  apart : ∀ n, (n ∈ ended ∨ eligible (s.sw n) = false) → s.sweep.holder ≠ some n →
    t.sw n = s.sw n ∧ t.sweep.holder ≠ some n ∧ ∀ d ∈ ds, d.1 ≠ n
  /-- the offer, when there is one -/
  offers : s.sweep.offer = none → OffersVisit t

section

variable {ended : List SweepNo} {ds : List (SweepNo × Nat × Nat)} {s t : State} {n : SweepNo}

theorem Requested.refl (ended : List SweepNo) (s : State) : Requested ended [] s s :=
  ⟨List.nodup_nil, rfl, nofun, fun _ _ h => ⟨rfl, h, nofun⟩, fun h _ ho => nomatch h.symm.trans ho⟩

/-- The ports, the time and the kinds that the reports name are as they were after a step of a request. -/
theorem doneNotes_of_rest {s1 : State} (hrest : { s1 with sweep := s.sweep } = s) (hk : ∀ n, (s1.sw n).kind = (s.sw n).kind) :
    doneNote s1 = doneNote s :=
  funext fun d => doneNote_congr (s := s) (t := s1) (fun q => by have h := congrArg (fun u : State => u.attached q) hrest; exact h)
    (by have h := congrArg State.now hrest; exact h) hk d

/-- A turn that begins (R139). -/
theorem Requested.of_begin (h : Requested ended ds (beginTurn n s) t) (hn : eligible (s.sw n) = true) (hfresh : n ∉ ended) :
    Requested ended ds s t := by
  refine ⟨h.nodup, ?_, h.passes, fun m hm hh => ?_, h.offers⟩
  · have hrest := congrArg (fun u : State => { u with sweep := s.sweep }) h.rest
    exact hrest.trans (tell_withSweep _ (beginTurn n s) s.sweep)
  · refine h.apart m hm fun hc => ?_
    cases hc
    rcases hm with hm | hm
    · exact hfresh hm
    · exact Bool.false_ne_true (hm.symm.trans hn)

variable (hheld : s.sweep.holder = some n)
include hheld

/-- A visit skipped that does not end its pass, or ends one with items in progress (R140, R142). -/
theorem Requested.of_skip (h : Requested ended ds (skipVisit n s) t) (hdue : passDue (skippedVisit (s.sw n)) = false) : Requested ended ds s t := by
  have hkind : ∀ m, ((skipVisit n s).sw m).kind = (s.sw m).kind := fun m => by
    by_cases hm : m = n
    · rw [hm, sw_skipVisit_self, skippedVisit_kind]
    · rw [sw_skipVisit_ne _ hm]
  refine ⟨h.nodup, ?_, fun d hd => ?_, fun m hm hh => ?_, fun ho => h.offers ((skipVisit_offer n s).trans ho)⟩
  · have hrest := congrArg (fun u : State => { u with sweep := s.sweep }) h.rest
    refine hrest.trans ((tell_withSweep _ _ s.sweep).trans ?_)
    rw [skipVisit_rest, doneNotes_of_rest (s := s) (skipVisit_rest n s s.sweep) hkind]
  · have hp := h.passes d hd
    by_cases hm : d.1 = n
    · rw [hm, sw_skipVisit_self] at hp
      rw [hm]
      obtain ⟨hitems, hended, hmeasured, hskipped⟩ := hp
      refine ⟨(skippedVisit_items _).symm.trans hitems, hended.trans (passEnded_skippedVisit _), hmeasured.trans (skippedVisit_measured _),
        fun _ hc => ?_⟩
      have hopen : (skippedVisit (s.sw n)).closing = false := by
        by_contra hcl
        have hcl := Bool.eq_true_of_not_eq_false hcl
        rw [(passDue_iff _).2 ⟨hcl, hitems⟩] at hdue
        cases hdue
      obtain ⟨-, hlt, hcursor⟩ := skippedVisit_goes_on _ hopen
      have htally := hskipped hopen (by rw [hcursor, skippedVisit_count]; exact hlt)
      rw [htally, skippedVisit_skipped, skippedVisit_count, hcursor]
      omega
    · rw [sw_skipVisit_ne _ hm] at hp
      exact hp
  · have hne : m ≠ n := fun hc => hh (hc ▸ hheld)
    rw [← sw_skipVisit_ne s hne] at hm ⊢
    refine h.apart m hm ?_
    rw [holder_skipVisit]
    split
    · nofun
    · exact hh

/-- A visit skipped that ends its pass with no item in progress (R142, R144). -/
theorem Requested.of_end (h : Requested (n :: ended) ds (endPass n (skipVisit n s)) t) (hdue : passDue (skippedVisit (s.sw n)) = true) :
    Requested ended ((n, (s.sw n).measured, (s.sw n).skipped + 1) :: ds) s t := by
  obtain ⟨hcloses, hitems⟩ := (passDue_iff _).1 hdue
  obtain ⟨hholder, hoffer⟩ := endPass_turn n (skipVisit n s)
  have hnone : (endPass n (skipVisit n s)).sweep.holder = none := hholder.trans (holder_skipVisit_closing n s hcloses)
  have hunheld : ∀ m, (endPass n (skipVisit n s)).sweep.holder ≠ some m := fun m hc => nomatch hnone.symm.trans hc
  obtain ⟨hself, -, hnot⟩ := h.apart n (.inl List.mem_cons_self) (hunheld n)
  have hothers : ∀ m, m ≠ n → (endPass n (skipVisit n s)).sw m = s.sw m := fun m hm =>
    (sw_endPass_ne hm _).trans (sw_skipVisit_ne _ hm)
  have hended : (endPass n (skipVisit n s)).sw n = passEnded (s.sw n) := by
    rw [sw_endPass_self, sw_skipVisit_self, passEnded_skippedVisit]
  have hkind : ∀ m, ((skipVisit n s).sw m).kind = (s.sw m).kind := fun m => by
    by_cases hm : m = n
    · rw [hm, sw_skipVisit_self, skippedVisit_kind]
    · rw [sw_skipVisit_ne _ hm]
  have hnote : doneNote (skipVisit n s) = doneNote s := doneNotes_of_rest (skipVisit_rest n s s.sweep) hkind
  have hfirst : { endPass n (skipVisit n s) with sweep := s.sweep } = tell [doneNote s (n, (s.sw n).measured, (s.sw n).skipped + 1)] s := by
    rw [endPass_rest, skipVisit_rest, hnote, sw_skipVisit_self, skippedVisit_measured, skippedVisit_skipped]
  have hlater : doneNote (endPass n (skipVisit n s)) = doneNote s := by
    refine funext fun d => doneNote_congr (fun q => ?_) ?_ (fun m => ?_) d
    · have hq := congrArg (fun u : State => u.attached q) hfirst
      exact hq.trans (by simp [State.attached, ((portsKept_tell _ s).2 q).1])
    · exact (congrArg State.now hfirst).trans (now_tell ..)
    · by_cases hm : m = n
      · rw [hm, hended]
        rfl
      · rw [hothers m hm]
  refine ⟨?_, ?_, fun d hd => ?_, fun m hm hh => ?_, fun ho => h.offers (hoffer.trans ((skipVisit_offer n s).trans ho))⟩
  · rw [List.map_cons, List.nodup_cons]
    refine ⟨fun hc => ?_, h.nodup⟩
    obtain ⟨d, hd, heq⟩ := List.mem_map.1 hc
    exact hnot d hd heq
  · have hrest := congrArg (fun u : State => { u with sweep := s.sweep }) h.rest
    refine hrest.trans ((tell_withSweep _ _ s.sweep).trans ?_)
    rw [hfirst, hlater, ← tell_append]
    rfl
  · rcases List.mem_cons.1 hd with rfl | hd
    · refine ⟨(skippedVisit_items _).symm.trans hitems, hself.trans hended, rfl, fun hopen (hlt : (s.sw n).cursor < (s.sw n).count) => ?_⟩
      have hlast := (skippedVisit_closes _ hcloses).resolve_left (fun hc => Bool.false_ne_true (hopen.symm.trans hc))
      change (s.sw n).skipped + 1 = (s.sw n).skipped + ((s.sw n).count - (s.sw n).cursor)
      omega
    · have hp := h.passes d hd
      rw [hothers d.1 (hnot d hd)] at hp
      exact hp
  · have hne : m ≠ n := fun hc => hh (hc ▸ hheld)
    obtain ⟨h1, h2, h3⟩ := h.apart m (hm.imp (List.mem_cons_of_mem n) fun he => by rw [hothers m hne]; exact he) (hunheld m)
    refine ⟨h1.trans (hothers m hne), h2, fun d hd => ?_⟩
    rcases List.mem_cons.1 hd with rfl | hd
    · exact hne.symm
    · exact h3 d hd

end

/-- What a request for an offer leaves (R139 to R144). -/
theorem requestOffer_requested (fuel : Nat) (begun ended : List SweepNo) (s : State) (hholder : ∀ n ∈ ended, s.sweep.holder ≠ some n) :
    ∃ ds, Requested ended ds s (requestOffer fuel begun ended s) := by
  induction fuel generalizing begun ended s with
  | zero => exact ⟨[], Requested.refl ended s⟩
  | succ fuel ih =>
    unfold requestOffer
    cases hh : s.sweep.holder with
    | none =>
      dsimp only
      cases hnext : s.nextHolder ended with
      | none => exact ⟨[], Requested.refl ended s⟩
      | some n =>
        dsimp only
        obtain ⟨hn, hfresh⟩ := nextHolder_eligible hnext
        split
        · exact ⟨[], Requested.refl ended s⟩
        · obtain ⟨ds, h⟩ := ih (n :: begun) ended (beginTurn n s) fun m hm hc => hfresh (by cases hc; exact hm)
          exact ⟨ds, h.of_begin hn hfresh⟩
    | some n =>
      dsimp only
      have hfresh : n ∉ ended := fun hc => hholder n hc hh
      split
      · rename_i hv
        refine ⟨[], List.nodup_nil, rfl, nofun, fun m _ hm => ⟨rfl, hm, nofun⟩, fun _ o ho => ?_⟩
        cases ho
        exact ⟨hh, rfl, rfl, hv⟩
      · split
        · rename_i hd
          rw [sw_skipVisit_self] at hd
          have hnone : (endPass n (skipVisit n s)).sweep.holder = none :=
            (endPass_turn n _).1.trans (holder_skipVisit_closing n s ((passDue_iff _).1 hd).1)
          obtain ⟨ds, h⟩ := ih begun (n :: ended) (endPass n (skipVisit n s)) fun m _ hc => nomatch hnone.symm.trans hc
          exact ⟨_, h.of_end hh hd⟩
        · rename_i hd
          rw [sw_skipVisit_self] at hd
          obtain ⟨ds, h⟩ := ih begun ended (skipVisit n s) fun m hm hc => by
            rw [holder_skipVisit] at hc
            split at hc
            · cases hc
            · exact hholder m hm hc
          exact ⟨ds, h.of_skip hh (Bool.eq_false_iff.2 hd)⟩

/-- What asking for an offer leaves (R139 to R144). -/
theorem askOffer_requested (s : State) :
    ∃ ds t, Requested [] ds s t ∧ askOffer s = if t.sweep.offer = none then { t with scan := { t.scan with noOffer := true } } else t := by
  obtain ⟨ds, h⟩ := requestOffer_requested requestFuel [] [] s nofun
  refine ⟨ds, _, h, ?_⟩
  unfold askOffer
  dsimp only
  split
  · rename_i o ho
    rw [if_neg (by rw [ho]; nofun)]
  · rename_i ho
    rw [if_pos ho]

end Sys2Proof.Machine
end

