-- ==== Sys2Proof/Proofs/SweepsRunning.lean ====
section
/-! PROOF. STOP_SWEEP apart from the port it came on, and O33. -/

namespace Sys2Proof.Machine

/-! ### Requests apart from what a port gives out -/

section

variable (p : Port) (k : Nat) (s : State) (n : SweepNo)

theorem useVisit_recordOut : useVisit n (recordOut p k s) = recordOut p k (useVisit n s) := by
  have hends : turnEnds n (recordOut p k s) = turnEnds n s := by simp [turnEnds]
  rw [useVisit_eq, useVisit_eq, hends]
  simp only [recordOut_sweep]
  exact putSweep_recordOut p k s _

theorem skipVisit_recordOut : skipVisit n (recordOut p k s) = recordOut p k (skipVisit n s) := by
  simp only [skipVisit, sw_recordOut, setSw_recordOut, useVisit_recordOut]

theorem endPass_recordOut : endPass n (recordOut p k s) = recordOut p k (endPass n s) := by
  simp only [endPass, sw_recordOut, attachedControllers_recordOut, now_recordOut, writeEvent_recordOut, setSw_recordOut]

theorem beginTurn_recordOut : beginTurn n (recordOut p k s) = recordOut p k (beginTurn n s) := by
  simp only [beginTurn, recordOut_sweep]
  exact putSweep_recordOut p k s _

theorem withdrawOffer_recordOut : withdrawOffer (recordOut p k s) = recordOut p k (withdrawOffer s) := by
  simp only [withdrawOffer, recordOut_sweep]
  exact putSweep_recordOut p k s _

theorem requestOffer_recordOut (fuel : Nat) (begun ended : List SweepNo) :
    requestOffer fuel begun ended (recordOut p k s) = recordOut p k (requestOffer fuel begun ended s) := by
  induction fuel generalizing begun ended s with
  | zero => rfl
  | succ fuel ih =>
    have hnext : (recordOut p k s).nextHolder ended = s.nextHolder ended := by simp only [State.nextHolder, recordOut_sweep, sw_recordOut]
    unfold requestOffer
    simp only [recordOut_sweep, hnext, sw_recordOut, line_recordOut, beginTurn_recordOut, skipVisit_recordOut, endPass_recordOut, ih]
    cases s.sweep.holder with
    | none =>
      dsimp only
      cases s.nextHolder ended with
      | none => rfl
      | some n =>
        dsimp only
        split <;> rfl
    | some n =>
      dsimp only
      split
      · exact putSweep_recordOut p k s _
      · split <;> rfl

theorem askOffer_recordOut : askOffer (recordOut p k s) = recordOut p k (askOffer s) := by
  have hoffer : ∀ u : State, (recordOut p k u).sweep.offer = u.sweep.offer := fun u => by rw [recordOut_sweep]
  unfold askOffer
  dsimp only
  rw [requestOffer_recordOut, hoffer, recordOut_scan]
  split
  · rfl
  · exact putScan_recordOut p k _ _

theorem stopSweep_recordOut : stopSweep n (recordOut p k s) = recordOut p k (stopSweep n s) := by
  have hend : ∀ u : State, endTurnOf n (recordOut p k u) = recordOut p k (endTurnOf n u) := fun u => by
    unfold endTurnOf endTurn
    simp only [recordOut_sweep]
    split
    · exact putSweep_recordOut p k u _
    · rfl
  have hoffer : offerOf n (recordOut p k s) = offerOf n s := by simp only [offerOf, recordOut_sweep]
  unfold stopSweep
  simp only [sw_recordOut, setSw_recordOut, hend, hoffer, withdrawOffer_recordOut, askOffer_recordOut]
  split
  · rfl
  · split <;> rfl

end

/-! ### STOP_SWEEP -/

/-- A state that differs in its sweeps has the same journal. -/
theorem JournalAs.of_sweep {t v : State} {w : SweepUnit} (h : { t with sweep := w } = v) : JournalAs v t := by
  have hj := congrArg State.journal h
  have hg := fun q => congrArg (fun u : State => (u.port q).gap) h
  exact ⟨hj, hg⟩

/-- What a request for an offer writes is the ends of passes (R142, R144). -/
theorem Requested.journal {ended : List SweepNo} {ds : List (SweepNo × Nat × Nat)} {s t : State} (h : Requested ended ds s t) :
    JournalAs (passesDone ds s) t := by
  rw [passesDone_eq]
  exact JournalAs.of_sweep h.rest

/-- Asking for an offer touches the sweeps, the mark that the requests ended, and the journal alone. -/
theorem askOffer_rest (s : State) : ∃ ds, (∀ d ∈ ds, (s.sw d.1).items = 0) ∧ { askOffer s with sweep := s.sweep, scan := s.scan } = passesDone ds s := by
  obtain ⟨ds, t, h, hask⟩ := askOffer_requested s
  have hrest : { t with sweep := s.sweep, scan := s.scan } = passesDone ds s := by
    have hput := congrArg (fun u : State => { u with scan := s.scan }) h.rest
    refine hput.trans ?_
    have hscan : (tell (ds.map (doneNote s)) s).scan = s.scan := tell_scan ..
    rw [passesDone_eq, ← hscan]
  refine ⟨ds, fun d hd => (h.passes d hd).1, ?_⟩
  rw [hask]
  split
  · exact hrest
  · exact hrest

theorem askOffer_lines (s : State) : (askOffer s).lines = s.lines := by
  obtain ⟨ds, -, h⟩ := askOffer_rest s
  have hlines := congrArg State.lines h
  rw [passesDone_eq, tell_lines] at hlines
  exact hlines

theorem stopSweep_lines (n : SweepNo) (s : State) : (stopSweep n s).lines = s.lines := by
  have hend : ∀ u : State, (endTurnOf n u).lines = u.lines := fun u => by
    unfold endTurnOf
    split <;> rfl
  unfold stopSweep
  split
  · rfl
  · dsimp only
    split
    · exact (askOffer_lines _).trans (hend _)
    · exact hend _

/-- A sweep stopped (R138): its state, the turn it held, the offer of it. -/
theorem stopSweep_idle {n : SweepNo} {s : State} (h : (s.sw n).state = .idle) : stopSweep n s = s := if_pos h

theorem stopSweep_no_offer {n : SweepNo} {s : State} (h : (s.sw n).state ≠ .idle) (ho : ∀ o, s.sweep.offer = some o → o.sweep ≠ n) :
    stopSweep n s = endTurnOf n (s.setSw n { s.sw n with state := .idle }) := by
  have hoffer : offerOf n s = false := by
    unfold offerOf
    split
    · rename_i o h
      exact decide_eq_false (ho o h)
    · rfl
  unfold stopSweep
  rw [if_neg h, hoffer]
  rfl

/-- A stopped sweep's descriptor, the turn and the offers after it; the passes that the request in the offer's place ended (R138, R144). -/
theorem stopSweep_stops {n : SweepNo} {s : State} (h : (s.sw n).state ≠ .idle) :
    (stopSweep n s).sw n = { s.sw n with state := .idle } ∧ (stopSweep n s).sweep.holder ≠ some n ∧
      (∀ o, (stopSweep n s).sweep.offer = some o → o.sweep ≠ n) ∧
      ∃ ds, (∀ d ∈ ds, d.1 ≠ n ∧ (s.sw d.1).items = 0) ∧ JournalAs (passesDone ds s) (stopSweep n s) := by
  let u := endTurnOf n (s.setSw n { s.sw n with state := .idle })
  have husw : ∀ m, u.sw m = (s.setSw n { s.sw n with state := .idle }).sw m := fun m => by
    simp only [u]
    unfold endTurnOf
    split <;> rfl
  have hself : u.sw n = { s.sw n with state := .idle } := by rw [husw, State.sw_setSw_self]
  have hothers : ∀ m, m ≠ n → u.sw m = s.sw m := fun m hm => by rw [husw, State.sw_setSw_ne _ _ hm]
  have hholder : u.sweep.holder ≠ some n := by
    simp only [u]
    unfold endTurnOf
    split
    · nofun
    · assumption
  have hoffer : u.sweep.offer = s.sweep.offer := by
    simp only [u]
    unfold endTurnOf
    split <;> rfl
  have hrest : { u with sweep := s.sweep } = s := by
    simp only [u]
    unfold endTurnOf
    split <;> rfl
  by_cases ho : offerOf n s = true
  · have hfold : stopSweep n s = askOffer (withdrawOffer u) := by
      unfold stopSweep
      rw [if_neg h]
      exact if_pos ho
    obtain ⟨ds, t, hreq, hask⟩ := askOffer_requested (withdrawOffer u)
    have hinert : eligible ((withdrawOffer u).sw n) = false := by
      have hsw : (withdrawOffer u).sw n = { s.sw n with state := .idle } := hself
      rw [hsw]
      rfl
    obtain ⟨h1, h2, h3⟩ := hreq.apart n (.inr hinert) hholder
    have hoffers := hreq.offers rfl
    have hsame : (stopSweep n s).sweep = t.sweep := by
      rw [hfold, hask]
      split <;> rfl
    have hnotes : doneNote (withdrawOffer u) = doneNote s := by
      refine doneNotes_of_rest (s := s) (s1 := withdrawOffer u) hrest fun m => ?_
      by_cases hm : m = n
      · rw [hm]
        exact (congrArg Sweep.kind hself :)
      · exact congrArg Sweep.kind (hothers m hm)
    refine ⟨?_, by rw [hsame]; exact h2, fun o hoo hc => ?_, ds, fun d hd => ⟨h3 d hd, ?_⟩, ?_⟩
    · have hsw : (stopSweep n s).sw n = t.sw n := by simp only [State.sw, hsame]
      exact hsw.trans (h1.trans hself)
    · rw [hsame] at hoo
      exact h2 (hc ▸ (hoffers o hoo).1)
    · have hitems := (hreq.passes d hd).1
      rw [show (withdrawOffer u).sw d.1 = u.sw d.1 from rfl, hothers d.1 (h3 d hd)] at hitems
      exact hitems
    · have hstart : JournalAs (passesDone ds s) (passesDone ds (withdrawOffer u)) := by
        have htb := congrArg State.tb hrest
        rw [passesDone_eq, passesDone_eq, hnotes]
        exact (JournalAs.of_sweep (t := withdrawOffer u) (w := s.sweep) hrest).tell htb _
      refine hstart.trans (hreq.journal.trans ?_)
      rw [hfold, hask]
      split <;> exact JournalAs.of_ports rfl fun _ => rfl
  · have hfold : stopSweep n s = u := by
      unfold stopSweep
      rw [if_neg h]
      exact if_neg ho
    rw [hfold]
    refine ⟨hself, hholder, fun o hoo hc => ho ?_, [], nofun, ?_⟩
    · rw [hoffer] at hoo
      simp [offerOf, hoo, hc]
    · exact JournalAs.of_sweep hrest

/-- Settles O33: START_SWEEP by its checks, STOP_SWEEP (`stopSweep_stops`), and the end of a pass (`endPass_eq`). -/
theorem sweepsRun : Obligations.SweepsRun := by
  have hnumber : ∀ n : Byte, 3 < n.toNat → sweepNoOf n = none := by decide
  have hno : ∀ x : SweepNo, sweepNoOf (byteOf x.val) = some x := by decide
  refine ⟨fun p n m fill s hadm => ?_, fun p n fill s hadm => ?_, fun x s hclosing hitems => ?_⟩
  · intro c k
    have hrewind : ∀ m : Byte, 1 < m.toNat → rewindOf m = none := by decide
    have hmode : ∀ m : Byte, m.toNat ≤ 1 → rewindOf m = some (decide (m.toNat = 0)) := by decide
    refine ⟨fun hbad => serve_effect rfl (by decide) hadm.1 (.inl hadm.2) ?_, fun x hn hm => ?_⟩
    · simp only [startSweepRule, arg_cons_zero, arg_cons_succ]
      rcases hbad with hbad | hbad
      · rw [hnumber n hbad]
        rfl
      · rw [hrewind m hbad]
        cases sweepNoOf n <;> rfl
    · subst hn
      refine ⟨fun hbusy => serve_effect rfl (by decide) hadm.1 (.inl hadm.2) ?_,
        fun hidle hitems => serve_effect rfl (by decide) hadm.1 (.inl hadm.2) ?_⟩
      · have hb : sweepBusy (s.sw x) = true := by simpa [sweepBusy] using hbusy
        simp only [startSweepRule, arg_cons_zero, arg_cons_succ, hno, hmode m hm, sw_recordOut, hb, if_true]
        rfl
      · have hb : sweepBusy (s.sw x) = false := by
          have h1 : (s.sw x).state = .idle := hidle
          have h2 : (s.sw x).items = 0 := hitems
          simp [sweepBusy, h1, h2]
        simp only [startSweepRule, arg_cons_zero, arg_cons_succ, hno, hmode m hm, sw_recordOut, hb, startSweep, setSw_recordOut, recordOut_bat]
        by_cases h0 : m.toNat = 0 <;> simp [h0, accept]
  · intro c k
    refine ⟨fun hbad => serve_effect rfl (by decide) hadm.1 (.inl hadm.2) ?_, fun x hn => ?_⟩
    · simp only [stopSweepRule, arg_cons_zero, hnumber n hbad]
      rfl
    · subst hn
      have hexec : exec c s = .next (answered p 0x32 .ok [] k (stopSweep x s)) := by
        refine serve_effect rfl (by decide) hadm.1 (.inl hadm.2) ?_
        simp only [stopSweepRule, arg_cons_zero, hno]
        exact congrArg (Reply.mk _ _) (stopSweep_recordOut ..)
      refine ⟨fun hidle => ?_, fun hrun => ⟨fun hoffer => ?_, ?_⟩⟩
      · rw [hexec, stopSweep_idle hidle]
      · intro u
        rw [hexec, stopSweep_no_offer hrun hoffer]
        rfl
      · obtain ⟨h1, h2, h3, ds, hds, hjournal⟩ := stopSweep_stops hrun
        have hkeeps := keeps_stopSweep x s
        refine ⟨_, hexec, replies_answered hkeeps.ports.1, ?_, ?_, fun o ho => h3 o ?_, ?_, ds, hds, JournalAs.answered hjournal⟩
        · rw [sw_answered]
          exact h1
        · rw [answered_sweep]
          exact h2
        · rw [answered_sweep] at ho
          exact ho
        · rw [answered_lines]
          exact stopSweep_lines x s
  · have hdue : passDue (s.sw x) = true := (passDue_iff _).2 ⟨hclosing, hitems⟩
    change execEndOfPass x s = _
    rw [execEndOfPass, if_pos hdue, endPass_eq]
    rfl

end Sys2Proof.Machine
end

