-- ==== Sys2Proof/Proofs/LinesInTurn.lean ====
section
/-! PROOF. Operations on the lines one after the other, and the loss of the battery on one line (R182). -/

namespace Sys2Proof.Machine

/-! ### Operations on lines one after the other -/

/-- `t` keeps the record of line `m`, the detector status apart. -/
def KeepsLine (m : LineNo) (s t : State) : Prop := ∀ d, { t.line m with detStatus := d } = { s.line m with detStatus := d }

/-- `t` is `s` but for lines, the Tone Pool and the feed-control links. -/
def ServesLines (s t : State) : Prop := { t with lines := s.lines, pool := s.pool, link0 := s.link0, link1 := s.link1 } = s

section

variable {m : LineNo} {s t u : State}

theorem KeepsLine.refl (m : LineNo) (s : State) : KeepsLine m s s := fun _ => rfl

theorem KeepsLine.trans (h : KeepsLine m s t) (k : KeepsLine m t u) : KeepsLine m s u := fun d => (k d).trans (h d)

theorem KeepsLine.of_others {l : LineNo} (h : OtherLinesButDetector l s t) (hm : m ≠ l) : KeepsLine m s t := fun d => by
  rw [← h m hm]

/-- A field of a kept line, the detector status apart, is as it was. -/
theorem KeepsLine.reads (h : KeepsLine m s t) {α : Type} (f : Line → α) (hf : ∀ (r : Line) d, f { r with detStatus := d } = f r) :
    f (t.line m) = f (s.line m) :=
  (hf _ .none).symm.trans ((congrArg f (h .none)).trans (hf _ .none))

theorem ServesLines.refl (s : State) : ServesLines s s := rfl

theorem ServesLines.trans (h : ServesLines s t) (k : ServesLines t u) : ServesLines s u := by
  have hput := congrArg (fun v : State => { v with lines := s.lines, pool := s.pool, link0 := s.link0, link1 := s.link1 }) k
  exact hput.trans h

theorem servesLines_modLine (l : LineNo) (f : Line → Line) (s : State) : ServesLines s (s.modLine l f) := rfl

theorem servesLines_releaseUnlocked (l : LineNo) (s : State) : ServesLines s (releaseUnlocked l s) := by
  unfold ServesLines
  simp

theorem servesLines_recomputeFeed (l : LineNo) (s : State) : ServesLines s (recomputeFeed l s) := by
  unfold ServesLines
  simp

variable (h : ServesLines s t)
include h

theorem ServesLines.store : t.store = s.store := by
  have h := congrArg State.store h
  exact h

theorem ServesLines.scan : t.scan = s.scan := by
  have h := congrArg State.scan h
  exact h

theorem ServesLines.sweep : t.sweep = s.sweep := by
  have h := congrArg State.sweep h
  exact h

theorem ServesLines.test : t.test = s.test := by
  have h := congrArg State.test h
  exact h

theorem ServesLines.tb : t.tb = s.tb := by
  have h := congrArg State.tb h
  exact h

theorem ServesLines.bat : t.bat = s.bat := by
  have h := congrArg State.bat h
  exact h

theorem ServesLines.port (q : Port) : t.port q = s.port q := by
  have h := congrArg (fun v : State => v.port q) h
  exact h

theorem ServesLines.journal : JournalAs s t := by
  have hj := congrArg State.journal h
  exact JournalAs.of_ports hj h.port

/-- A line that keeps its record keeps the mode derived for it. -/
theorem ServesLines.derivedMode (k : KeepsLine m s t) : t.derivedMode m = s.derivedMode m := by
  refine derivedMode_eq (k.reads _ fun _ _ => rfl) (k.reads _ fun _ _ => rfl) (k.reads _ fun _ _ => rfl) (k.reads _ fun _ _ => rfl) h.store ?_
  exact congrArg (fun c : Scan => ({ s with scan := c } : State).itemOn m) h.scan

end

/-! ### A line's turn -/

/-- A line's turn in a list of operations that leave the other lines their records: it finds the record the line had, and what it leaves
stands. -/
theorem forLines_turn {f : LineNo → State → State} (hlines : ∀ l s, ServesLines s (f l s)) (hothers : ∀ l m s, m ≠ l → KeepsLine m s (f l s))
    {ls : List LineNo} (hls : ls.Nodup) {m : LineNo} (hm : m ∈ ls) (s : State) :
    ∃ u, ServesLines s u ∧ KeepsLine m s u ∧ ServesLines (f m u) (forLines ls f s) ∧ KeepsLine m (f m u) (forLines ls f s) := by
  obtain ⟨before, after, hb, ha, -, -, heq⟩ := forLines_at (f := f) hls hm s
  have hserves : ∀ (ks : List LineNo) (v : State), ServesLines v (forLines ks f v) := fun ks v =>
    forLines_rel ServesLines.refl (fun _ _ _ => ServesLines.trans) (fun l _ v => hlines l v) v
  have hkeeps : ∀ (ks : List LineNo) (v : State), m ∉ ks → KeepsLine m v (forLines ks f v) := fun ks v hn =>
    forLines_rel (R := KeepsLine m) (KeepsLine.refl m) (fun _ _ _ => KeepsLine.trans) (fun l hl v => hothers l m v fun hc => hn (hc ▸ hl)) v
  exact ⟨forLines before f s, hserves _ _, hkeeps _ _ hb, heq ▸ hserves _ _, heq ▸ hkeeps _ _ ha⟩

/-! ### The loss of the battery -/

/-- A line's record after the loss of the battery, its feed and its detector apart (R182). -/
def lostLine (r : Line) : Line :=
  match r.state with
  | .idle | .dialling | .talk => acquireFields (endDialling r)
  | .ringing => acquireFields (endDialling (clearRinging r))
  | .acquire => acquireFields r
  | .blocked | .held => r

theorem lostLine_detStatus (r : Line) (d : DetStatus) : lostLine { r with detStatus := d } = { lostLine r with detStatus := d } := by
  obtain ⟨st, _⟩ := r
  cases st <;> rfl

section

variable (l : LineNo) (s : State)

theorem servesLines_dropService : ServesLines s (dropService l s) :=
  (servesLines_modLine l _ s).trans (servesLines_releaseUnlocked l _)

theorem servesLines_loseLine : ServesLines s (loseLine l s) := by
  unfold loseLine
  cases (s.line l).state with
  | idle | dialling | talk => exact servesLines_dropService l s
  | ringing =>
    exact (servesLines_modLine l clearRinging s).trans ((servesLines_dropService l _).trans (servesLines_recomputeFeed l _))
  | acquire => exact servesLines_modLine l acquireFields s
  | blocked | held => exact ServesLines.refl s

theorem others_dropService : OtherLinesButDetector l s (dropService l s) :=
  others_trans (others_modLine l _ s) (others_releaseUnlocked l l _)

theorem others_loseLine : OtherLinesButDetector l s (loseLine l s) := by
  unfold loseLine
  cases (s.line l).state with
  | idle | dialling | talk => exact others_dropService l s
  | ringing => exact others_trans (others_modLine l clearRinging s) (others_trans (others_dropService l _) (others_recomputeFeed l _))
  | acquire => exact others_modLine l acquireFields s
  | blocked | held => exact others_refl l s

theorem dropService_line (d : DetStatus) :
    { (dropService l s).line l with detStatus := d } = { acquireFields (endDialling (s.line l)) with detStatus := d } := by
  rw [dropService, releaseUnlocked_line, State.line_modLine_self]

/-- The loss of the battery on a line that was not RINGING (R182). -/
theorem loseLine_line (h : (s.line l).state ≠ .ringing) (d : DetStatus) :
    { (loseLine l s).line l with detStatus := d } = { lostLine (s.line l) with detStatus := d } := by
  unfold loseLine lostLine
  cases hst : (s.line l).state with
  | idle | dialling | talk => exact dropService_line l s d
  | ringing => exact absurd hst h
  | acquire =>
    dsimp only
    rw [State.line_modLine_self]
  | blocked | held => rfl

/-- The loss of the battery on a RINGING line: its feed mode follows (R182). -/
theorem loseLine_ringing (h : (s.line l).state = .ringing) :
    (∀ d m b, { (loseLine l s).line l with detStatus := d, sentMode := m, recoveryDiscard := b } =
      { lostLine (s.line l) with detStatus := d, sentMode := m, recoveryDiscard := b }) ∧
      ((loseLine l s).line l).sentMode = (loseLine l s).derivedMode l := by
  have heq : loseLine l s = recomputeFeed l (dropService l (s.modLine l clearRinging)) := by
    unfold loseLine
    rw [h]
  refine ⟨fun d m b => ?_, ?_⟩
  · have hdrop := dropService_line l (s.modLine l clearRinging) d
    rw [State.line_modLine_self] at hdrop
    have hput := congrArg (fun r : Line => { r with sentMode := m, recoveryDiscard := b }) hdrop
    rw [heq, recomputeFeed_line_self]
    unfold lostLine
    rw [h]
    exact hput
  · rw [heq, recomputeFeed_line_self, noteMode]
    exact (derivedMode_recomputeFeed ..).symm

end

end Sys2Proof.Machine
end

