-- ==== Sys2Proof/Proofs/FeedStateChanges.lean ====
section
/-! PROOF. The sweeps and the lines under a change of feed state, and O42. -/

namespace Sys2Proof.Machine

/-! ### The sweeps under a change of feed state -/

section

variable {f : State → SweepNo → State} {g : Sweep → Sweep} (hself : ∀ s n, (f s n).sw n = g (s.sw n))
  (hne : ∀ s n m, m ≠ n → (f s n).sw m = s.sw m)
include hself hne

/-- An operation on each sweep of a list that leaves the others. -/
theorem sw_foldl {ls : List SweepNo} (hls : ls.Nodup) (s : State) (m : SweepNo) :
    (ls.foldl f s).sw m = if m ∈ ls then g (s.sw m) else s.sw m := by
  induction ls generalizing s with
  | nil => rfl
  | cons n ls ih =>
    obtain ⟨hn, hls⟩ := List.nodup_cons.1 hls
    rw [List.foldl_cons, ih hls]
    by_cases hm : m = n
    · subst hm
      rw [if_neg hn, if_pos List.mem_cons_self, hself]
    · rw [hne s n m hm]
      simp [hm]

end

/-- A sweep when the battery is NORMAL again (R145). -/
def resumed (w : Sweep) : Sweep := { w with state := if w.state = .paused then .active else w.state }

/-- A sweep when the battery is not NORMAL (R145). -/
def paused (w : Sweep) : Sweep := { w with state := if w.state = .active then .paused else w.state }

theorem sw_pauseSweep_self (n : SweepNo) (s : State) :
    (pauseSweep n s).sw n = paused (s.sw n) := by
  unfold pauseSweep endTurnOf paused
  split
  · rename_i h
    have hset : ∀ u : State, u.sweep.sweeps = (s.setSw n { s.sw n with state := .paused }).sweep.sweeps →
        u.sw n = { s.sw n with state := .paused } := fun u hu => by
      rw [State.sw, hu]
      exact State.sw_setSw_self ..
    dsimp only
    split <;> split <;> exact hset _ rfl
  · rfl

theorem sw_pauseSweep_ne {n m : SweepNo} (h : m ≠ n) (s : State) : (pauseSweep n s).sw m = s.sw m := by
  have hset : ∀ u : State, u.sweep.sweeps = (s.setSw n { s.sw n with state := .paused }).sweep.sweeps → u.sw m = s.sw m := fun u hu => by
    rw [State.sw, hu]
    exact State.sw_setSw_ne _ _ h
  unfold pauseSweep endTurnOf
  split
  · dsimp only
    split <;> split <;> exact hset _ rfl
  · rfl

theorem pauseSweep_rest (n : SweepNo) (s : State) : { pauseSweep n s with sweep := s.sweep } = s := by
  unfold pauseSweep endTurnOf
  split
  · dsimp only
    split <;> split <;> rfl
  · rfl

theorem sw_resumeSweep_self (n : SweepNo) (s : State) :
    (resumeSweep n s).sw n = resumed (s.sw n) := by
  unfold resumeSweep resumed
  split
  · rw [State.sw_setSw_self]
  · rfl

theorem sw_resumeSweep_ne {n m : SweepNo} (h : m ≠ n) (s : State) : (resumeSweep n s).sw m = s.sw m := by
  unfold resumeSweep
  split
  · rw [State.sw_setSw_ne _ _ h]
  · rfl

theorem resumeSweep_rest (n : SweepNo) (s : State) : { resumeSweep n s with sweep := s.sweep } = s := by
  unfold resumeSweep
  split <;> rfl

section

variable (f : FeedState) (s : State)

theorem sw_sweepsFollow (n : SweepNo) : (sweepsFollow f s).sw n = if f = .normal then resumed (s.sw n) else paused (s.sw n) := by
  have hall : allSweeps.Nodup := List.nodup_finRange 4
  have hmem : n ∈ allSweeps := List.mem_finRange n
  unfold sweepsFollow
  split
  · rw [sw_foldl (g := resumed) (fun s n => sw_resumeSweep_self n s) (fun s _ _ h => sw_resumeSweep_ne h s) hall, if_pos hmem]
  · rw [sw_foldl (g := paused) (fun s n => sw_pauseSweep_self n s) (fun s _ _ h => sw_pauseSweep_ne h s) hall, if_pos hmem]

/-- The sweeps that follow a feed state are all that changes (R145). -/
theorem sweepsFollow_rest : { sweepsFollow f s with sweep := s.sweep } = s := by
  have hfold : ∀ (g : State → SweepNo → State), (∀ u n, { g u n with sweep := u.sweep } = u) → ∀ (ls : List SweepNo) (u : State),
      { ls.foldl g u with sweep := u.sweep } = u := fun g hg ls => by
    induction ls with
    | nil => exact fun u => rfl
    | cons n ls ih =>
      intro u
      have hput := congrArg (fun v : State => { v with sweep := u.sweep }) (ih (g u n))
      exact hput.trans (hg u n)
  unfold sweepsFollow
  split
  · exact hfold _ (fun u n => resumeSweep_rest n u) _ s
  · exact hfold _ (fun u n => pauseSweep_rest n u) _ s

end

/-! ### The end of the loss -/

/-- A line in ACQUIRE starts again when the battery leaves LOST (R183). -/
def restarted (r : Line) : Line := if r.state = .acquire then acquireFields r else r

theorem restartLine_eq (l : LineNo) (s : State) : restartLine l s = s.modLine l restarted := by
  by_cases h : (s.line l).state = .acquire
  · rw [restartLine, if_pos h]
    exact modLine_congr (if_pos h).symm
  · rw [restartLine, if_neg h]
    exact ((congrArg (s.setLine l) (if_neg h)).trans (setLine_line s l)).symm

/-! ### The lines under a change of feed state -/

section

variable {old new : FeedState} {s : State} {l : LineNo}

/-- Records that agree, the detector status apart, agree without their feed too. -/
theorem feedless_congr {x y : Line} {d : DetStatus} (h : { x with detStatus := d } = { y with detStatus := d }) (m : FeedMode) (b : Bool) :
    { x with detStatus := d, sentMode := m, recoveryDiscard := b } = { y with detStatus := d, sentMode := m, recoveryDiscard := b } := by
  have hput := congrArg (fun r : Line => { r with sentMode := m, recoveryDiscard := b }) h
  exact hput

/-- The lines lose the battery (R182): of a line that is not RINGING. -/
theorem feedLines_lost (hf : new = .lost ∧ old ≠ .lost) (h : (s.line l).state ≠ .ringing) (d : DetStatus) :
    { (feedLines old new s).line l with detStatus := d } = { lostLine (s.line l) with detStatus := d } := by
  obtain ⟨u, -, hbefore, -, hafter⟩ := forLines_turn servesLines_loseLine (fun l m s hm => .of_others (others_loseLine l s) hm)
    (List.nodup_finRange 64) (List.mem_finRange l) s
  have hst : (u.line l).state = (s.line l).state := hbefore.reads Line.state fun _ _ => rfl
  rw [feedLines, if_pos hf]
  refine (hafter d).trans ((loseLine_line l u (hst.symm ▸ h) d).trans ?_)
  rw [← lostLine_detStatus, hbefore d, lostLine_detStatus]

/-- The lines lose the battery (R182): of a RINGING line. -/
theorem feedLines_lost_ringing (hf : new = .lost ∧ old ≠ .lost) (h : (s.line l).state = .ringing) :
    (∀ d m b, { (feedLines old new s).line l with detStatus := d, sentMode := m, recoveryDiscard := b } =
      { lostLine (s.line l) with detStatus := d, sentMode := m, recoveryDiscard := b }) ∧
      ((feedLines old new s).line l).sentMode = (feedLines old new s).derivedMode l := by
  obtain ⟨u, -, hbefore, hserves, hafter⟩ := forLines_turn servesLines_loseLine (fun l m s hm => .of_others (others_loseLine l s) hm)
    (List.nodup_finRange 64) (List.mem_finRange l) s
  have hst : (u.line l).state = (s.line l).state := hbefore.reads Line.state fun _ _ => rfl
  obtain ⟨hline, hsent⟩ := loseLine_ringing l u (hst.trans h)
  rw [feedLines, if_pos hf]
  refine ⟨fun d m b => ?_, ?_⟩
  · have hlost : { lostLine (u.line l) with detStatus := d } = { lostLine (s.line l) with detStatus := d } := by
      rw [← lostLine_detStatus, hbefore d, lostLine_detStatus]
    exact (feedless_congr (hafter d) m b).trans ((hline d m b).trans (feedless_congr hlost m b))
  · have hmode : ((forLines allLines loseLine s).line l).sentMode = ((loseLine l u).line l).sentMode := hafter.reads Line.sentMode fun _ _ => rfl
    exact hmode.trans (hsent.trans (hserves.derivedMode hafter).symm)

/-- The battery leaves LOST (R183). -/
theorem feedLines_back (hf : old = .lost ∧ new ≠ .lost) : (feedLines old new s).line l = restarted (s.line l) := by
  have hfold : restartLine = fun l u => u.modLine l restarted := funext fun l => funext fun u => restartLine_eq l u
  rw [feedLines, if_neg fun hc => hf.2 hc.1, if_pos hf, hfold]
  exact (line_forLines_modLine (List.nodup_finRange 64) restarted s l).trans (if_pos (List.mem_finRange l))

/-- Any other change of feed state leaves the lines as they are. -/
theorem feedLines_apart (h1 : ¬ (new = .lost ∧ old ≠ .lost)) (h2 : ¬ (old = .lost ∧ new ≠ .lost)) : feedLines old new s = s := by
  rw [feedLines, if_neg h1, if_neg h2]

theorem servesLines_feedLines (old new : FeedState) (s : State) : ServesLines s (feedLines old new s) := by
  unfold feedLines
  split
  · exact forLines_rel ServesLines.refl (fun _ _ _ => ServesLines.trans) (fun l _ u => servesLines_loseLine l u) s
  · split
    · refine forLines_rel ServesLines.refl (fun _ _ _ => ServesLines.trans) (fun l _ u => ?_) s
      rw [restartLine_eq]
      exact servesLines_modLine l restarted u
    · exact ServesLines.refl s

end

/-- Settles O42: the event, the sweeps (`sw_sweepsFollow`), and the lines by their states (`feedLines_lost`, `feedLines_back`). -/
theorem feedChangesAreTaken : Obligations.FeedChangesAreTaken := by
  intro c s hdue acquired ended falls rises
  let s0 := { s with bat := { s.bat with feed := c.cls, run := none, due := none } }
  let s1 := deviceEvent c.start (.feed c.cls c.code) s0
  let s2 := sweepsFollow c.cls s1
  let t := feedLines s.bat.feed c.cls s2
  have hexec : exec .feedStateChange s = .next t := by
    change execFeedStateChange s = _
    rw [execFeedStateChange, hdue]
    rfl
  have hserves : ServesLines s2 t := servesLines_feedLines _ _ _
  have hrest : { s2 with sweep := s1.sweep } = s1 := sweepsFollow_rest c.cls s1
  have hline : ∀ l, s2.line l = s.line l := fun l => by
    have h := congrArg (fun u : State => u.line l) hrest
    exact h.trans (line_deviceEvent ..)
  have hkeeps := keeps_changeFeed c s
  refine ⟨t, hexec, ?_, ?_, fun n => ?_, fun l => ?_, hkeeps.ports.1, hkeeps.ports.2, ?_, ?_, ?_, ?_⟩
  · have h := congrArg State.bat hrest
    exact hserves.bat.trans (h.trans (deviceEvent_bat ..))
  · have hevent : JournalAs (writeEvent s.attachedPorts none c.start (.feed c.cls c.code) s) s1 :=
      (JournalAs.of_ports rfl fun _ => rfl : JournalAs s s0).writeEvent rfl ..
    exact hevent.trans ((JournalAs.of_sweep hrest).trans hserves.journal)
  · have h2 : t.sw n = s2.sw n := by simp only [State.sw, hserves.sweep]
    have h1 : s1.sw n = s.sw n := sw_deviceEvent ..
    rw [h2, sw_sweepsFollow, h1]
    unfold resumed paused
    split <;> rfl
  · intro r r'
    have hr : s2.line l = r := hline l
    refine ⟨fun hf => ⟨fun hst => ?_, fun hst => ?_, fun hst => ?_, fun hst => ?_⟩, fun hf => ?_, fun h1 h2 => ?_⟩
    · have hcall : lostLine r = ended r := by
        unfold lostLine
        rcases hst with hst | hst | hst <;> rw [hst] <;> rfl
      have hnot : (s2.line l).state ≠ .ringing := fun hc => by
        rw [hr] at hc
        rcases hst with hst | hst | hst <;> exact nomatch hst.symm.trans hc
      have h := feedLines_lost hf hnot r.detStatus
      rw [hr, hcall] at h
      exact h
    · have hring : lostLine r = acquireFields (endDialling (clearRinging r)) := by
        unfold lostLine
        rw [hst]
      obtain ⟨h, hsent⟩ := feedLines_lost_ringing hf (hr.symm ▸ hst)
      refine ⟨?_, hsent⟩
      have h := h r.detStatus r.sentMode r.recoveryDiscard
      rw [hr, hring] at h
      exact h
    · have hacquire : lostLine r = acquired r := by
        unfold lostLine
        rw [hst]
        rfl
      have hnot : (s2.line l).state ≠ .ringing := fun hc => by
        rw [hr] at hc
        exact nomatch hst.symm.trans hc
      have h := feedLines_lost hf hnot r.detStatus
      rw [hr, hacquire] at h
      exact h
    · have hstays : lostLine r = r := by
        unfold lostLine
        rcases hst with hst | hst <;> rw [hst]
      have hnot : (s2.line l).state ≠ .ringing := fun hc => by
        rw [hr] at hc
        rcases hst with hst | hst <;> exact nomatch hst.symm.trans hc
      have h := feedLines_lost hf hnot r.detStatus
      rw [hr, hstays] at h
      exact h
    · rw [show t.line l = restarted (s2.line l) from feedLines_back ⟨hf.2, hf.1⟩, hr]
      rfl
    · rw [show t = s2 from feedLines_apart h1 fun hc => h2 ⟨hc.2, hc.1⟩]
      exact hr
  · exact hserves.store.trans ((congrArg State.store hrest).trans (deviceEvent_store ..))
  · exact hserves.scan.trans ((congrArg State.scan hrest).trans (deviceEvent_scan ..))
  · exact hserves.test.trans ((congrArg State.test hrest).trans (deviceEvent_test ..))
  · exact hserves.tb.trans ((congrArg State.tb hrest).trans (deviceEvent_tb ..))

end Sys2Proof.Machine
end

