-- ==== Sys2Proof/Proofs/PoolAndLinks.lean ====
section
/-! PROOF. The Tone Pool apart from the rest of the state, the links under a recomputation, and one line's recomputation (R36, R110). -/

namespace Sys2Proof.Machine

/-! ### The Tone Pool apart from the rest of the state -/

/-- `t` has the time, the detectors, the Wait Queue and the detector statuses of `s`. -/
structure PoolSame (s t : State) : Prop where
  /-- the time -/
  now : t.now = s.now
  /-- the detectors and the queue -/
  pool : t.pool = s.pool
  /-- the statuses -/
  status : ∀ l, (t.line l).detStatus = (s.line l).detStatus

section

variable {s t u : State}

theorem PoolSame.refl (s : State) : PoolSame s s := ⟨rfl, rfl, fun _ => rfl⟩

theorem PoolSame.trans (h : PoolSame s t) (k : PoolSame t u) : PoolSame s u :=
  ⟨k.now.trans h.now, k.pool.trans h.pool, fun l => (k.status l).trans (h.status l)⟩

theorem poolSame_modLine {f : Line → Line} (hf : SparesStatus f) (l : LineNo) (s : State) : PoolSame s (s.modLine l f) :=
  ⟨rfl, rfl, detStatus_modLine hf s l⟩

theorem poolSame_tell (es : List Message) (s : State) : PoolSame s (tell es s) :=
  ⟨now_tell .., tell_pool .., fun l => by rw [line_tell]⟩

theorem poolSame_recomputeFeed (l : LineNo) (s : State) : PoolSame s (recomputeFeed l s) := by
  refine ⟨now_recomputeFeed .., recomputeFeed_pool .., fun m => ?_⟩
  by_cases hm : m = l
  · rw [hm, recomputeFeed_line_self, noteMode]
  · rw [recomputeFeed_line_ne hm]

variable (h : PoolSame s t)
include h

theorem PoolSame.setStatus (l : LineNo) (d : DetStatus) : PoolSame (s.setStatus l d) (t.setStatus l d) := by
  refine ⟨h.now, h.pool, fun m => ?_⟩
  by_cases hm : m = l
  · rw [hm, State.setStatus, State.setStatus, State.line_modLine_self, State.line_modLine_self]
  · rw [State.setStatus, State.setStatus, State.line_modLine_ne _ _ hm, State.line_modLine_ne _ _ hm, h.status m]

theorem PoolSame.setDet (d : DetNo) (r : Detector) : PoolSame (s.setDet d r) (t.setDet d r) :=
  ⟨h.now, congrArg (fun p : TonePool => { p with detectors := p.detectors.set d r }) h.pool, h.status⟩

theorem PoolSame.setQueue (q : List LineNo) : PoolSame (s.setQueue q) (t.setQueue q) :=
  ⟨h.now, congrArg (fun p : TonePool => { p with waitQueue := q }) h.pool, h.status⟩

theorem PoolSame.assignDet (d : DetNo) (l : LineNo) (b : Bool) : PoolSame (assignDet d l b s) (assignDet d l b t) := by
  unfold Machine.assignDet
  rw [h.now]
  exact (h.setDet d _).setStatus l _

theorem PoolSame.handOn (d : DetNo) : PoolSame (handOn d s) (handOn d t) := by
  unfold Machine.handOn
  rw [h.pool]
  cases s.pool.waitQueue with
  | nil => exact h
  | cons l rest => exact (h.setQueue rest).assignDet d l false

/-- A release sees the Tone Pool alone (R110). -/
theorem PoolSame.releaseUnlocked (l : LineNo) : PoolSame (releaseUnlocked l s) (releaseUnlocked l t) := by
  unfold Machine.releaseUnlocked releaseDet leaveQueue
  rw [h.status l, h.pool]
  cases (s.line l).detStatus with
  | assigned d => exact ((h.setDet d _).setStatus l _).handOn d
  | waiting => exact (h.setQueue _).setStatus l _
  | locked d | none => exact h

theorem PoolSame.releasedBy (l : LineNo) (q : Reasons) (r : Line) : PoolSame (releasedBy l q r s) (releasedBy l q r t) := by
  unfold Machine.releasedBy
  split
  · exact h.releaseUnlocked l
  · exact h

end

/-! ### The links -/

/-- The feed-control link of a bank. -/
def linkOf (b : Bank) (s : State) : List LinkCommand :=
  match b with
  | .zero => s.link0
  | .one => s.link1

/-- A recomputation's command on the link of a bank, where it sends one (R36, R37). -/
theorem linkOf_recomputeFeed (b : Bank) (l : LineNo) (s : State) :
    linkOf b (recomputeFeed l s) = linkOf b s ++
      if bankOf l = b ∧ s.derivedMode l ≠ (s.line l).sentMode then [⟨positionOf l, s.derivedMode l, .none⟩] else [] := by
  by_cases hm : s.derivedMode l = (s.line l).sentMode
  · rw [recomputeFeed_same hm, if_neg fun hc => hc.2 hm, List.append_nil]
  · rw [recomputeFeed, recomputeFeedWith_sends (.inl hm)]
    unfold sendCommand
    cases hb : bankOf l <;> cases b <;> simp [linkOf, hm]

theorem linkAfter_append (b : Bank) (ls : List LineNo) (l : LineNo) (s t u : State) (link : List LinkCommand)
    (h : ∀ m ∈ ls, t.derivedMode m = u.derivedMode m) :
    linkAfter b (ls ++ [l]) s t link = linkAfter b ls s u link ++
      if bankOf l = b ∧ t.derivedMode l ≠ (s.line l).sentMode then [⟨positionOf l, t.derivedMode l, .none⟩] else [] := by
  have hfilter : ls.filter (fun m => decide (bankOf m = b) && decide (t.derivedMode m ≠ (s.line m).sentMode)) =
      ls.filter (fun m => decide (bankOf m = b) && decide (u.derivedMode m ≠ (s.line m).sentMode)) :=
    List.filter_congr fun m hm => by rw [h m hm]
  have hmap : ∀ ks : List LineNo, (∀ m ∈ ks, m ∈ ls) → ks.map (fun m => (⟨positionOf m, t.derivedMode m, .none⟩ : LinkCommand)) =
      ks.map (fun m => ⟨positionOf m, u.derivedMode m, .none⟩) := fun ks hks => List.map_congr_left fun m hm => by rw [h m (hks m hm)]
  unfold linkAfter
  rw [List.filter_append, List.map_append, hfilter, hmap _ fun m hm => (List.mem_filter.1 hm).1, ← List.append_assoc]
  congr 1
  by_cases hl : bankOf l = b ∧ t.derivedMode l ≠ (s.line l).sentMode
  · rw [if_pos hl, List.filter_cons_of_pos (by simpa using hl)]
    rfl
  · rw [if_neg hl, List.filter_cons_of_neg (by simpa using hl)]
    rfl

/-! ### A line whose effective auto block changed -/

/-- The FAULT reason and the feed mode recomputed: the report, the detector of a call that ends, the record, the feed (R18, R36, R154). -/
theorem recomputed_eq (l : LineNo) (s : State) {q : Reasons} (hq : { (s.line l).reasons with fault := s.faultReason l } = q) :
    recomputeFeed l (recomputeReason l s) =
      recomputeFeed l (tell (reasonNotes l q s) ((releasedBy l q (s.line l) s).modLine l (reasonsTaken q))) := by
  rw [recomputeReason, hq]
  rcases setReasons_effect l q s with h | h <;> rw [h]
  exact recomputeFeed_idem l _

theorem callOf_servesLines {t u v : State} (h : ServesLines u v) : callOf t v = callOf t u := by
  have hput := congrArg (callOf t) h
  exact hput

theorem callOf_tell (t u : State) (es : List Message) : callOf t (tell es u) = callOf t u := by
  simp [callOf, feedOf, linesOf, portsOf]

theorem servesLines_releasedBy (l : LineNo) (q : Reasons) (r : Line) (s : State) : ServesLines s (releasedBy l q r s) := by
  unfold releasedBy
  split
  · exact servesLines_releaseUnlocked l s
  · exact ServesLines.refl s

theorem others_releasedBy (k l : LineNo) (q : Reasons) (r : Line) (s : State) : OtherLinesButDetector k s (releasedBy l q r s) := by
  unfold releasedBy
  split
  · exact others_releaseUnlocked k l s
  · exact others_refl k s

theorem keepsLine_releasedBy (m l : LineNo) (q : Reasons) (r : Line) (s : State) : KeepsLine m s (releasedBy l q r s) := fun d => by
  have h := all_of_others (fun k => others_releasedBy k l q r s) m
  rw [← h]

end Sys2Proof.Machine
end

