-- ==== Sys2Proof/Proofs/StoreWrites.lean ====
section
/-! PROOF. The lines that a write to the Profile Store concerns, one after the other, and O18. -/

namespace Sys2Proof.Machine

/-! ### The lines whose effective auto block a write changed -/

/-- A line's reason set under another Profile Store (R154). -/
def storeReasons (st : Store) (s : State) (l : LineNo) : Reasons :=
  { (s.line l).reasons with fault := (({ s with store := st } : State).effective l).autoBlock && isolatingFault (s.line l).faults }

/-- What the calls that end on the lines of a list release (R79). -/
def freedOn (st : Store) (s : State) (ls : List LineNo) : State :=
  (ls.filter (fun l => breaksCall (storeReasons st s l) (s.line l))).foldl (fun u l => releaseUnlocked l u) s

/-- The report of a line whose reason set changed (R78). -/
def noteReasons (st : Store) (s : State) (l : LineNo) (u : State) : State :=
  if storeReasons st s l = (s.line l).reasons then u else writeEvent (s.linePorts l) (some l) s.now (.blockChanged (storeReasons st s l)) u

/-- The lines of a list have been recomputed, one after the other, in a state `told` with the new store (R18, R36, R154). -/
structure Recomputed (st : Store) (s told : State) (ls : List LineNo) (u : State) : Prop where
  /-- the Tone Pool -/
  pool : PoolSame (freedOn st s ls) u
  /-- what is left alone -/
  rest : callOf told u = told
  /-- the ports -/
  ports : PortsKept s u
  /-- the journal -/
  journal : JournalAs (tellAll ls (noteReasons st s) told) u
  /-- the other lines -/
  others : ∀ m, m ∉ ls → KeepsLine m s u
  /-- the lines of the list -/
  lines : ∀ m ∈ ls, u.line m = noteMode (u.derivedMode m)
    { reasonsTaken (storeReasons st s m) (s.line m) with detStatus := (u.line m).detStatus }
  /-- the links -/
  links : ∀ b, linkOf b u = linkAfter b ls s u (linkOf b s)

section

variable {st : Store} {s told u : State} {ls : List LineNo} {l : LineNo}

theorem freedOn_append (st : Store) (s : State) (ls : List LineNo) (l : LineNo) :
    freedOn st s (ls ++ [l]) = releasedBy l (storeReasons st s l) (s.line l) (freedOn st s ls) := by
  unfold freedOn releasedBy
  rw [List.filter_append, List.foldl_append]
  split
  · rename_i h
    rw [List.filter_cons_of_pos (p := fun l => breaksCall (storeReasons st s l) (s.line l)) h]
    rfl
  · rename_i h
    rw [List.filter_cons_of_neg (p := fun l => breaksCall (storeReasons st s l) (s.line l)) h]
    rfl

theorem tellAll_append (ls : List LineNo) (l : LineNo) (f : LineNo → State → State) (u : State) :
    tellAll (ls ++ [l]) f u = f l (tellAll ls f u) := by
  rw [tellAll, List.foldl_append]
  rfl

theorem tellAll_tb (ls : List LineNo) (u : State) : (tellAll ls (noteReasons st s) u).tb = u.tb := by
  unfold tellAll
  induction ls generalizing u with
  | nil => rfl
  | cons l ls ih =>
    rw [List.foldl_cons, ih]
    unfold noteReasons
    split
    · rfl
    · exact writeEvent_tb ..

theorem linePorts_congr {t : State} (h : PortsKept s t) (hsub : (t.line l).subscription = (s.line l).subscription) :
    t.linePorts l = s.linePorts l := by
  have hport : ∀ q, t.attached q = s.attached q := fun q => by simp only [State.attached, (h.2 q).1]
  simp only [State.linePorts, hsub, hport]

/-- The next line of the list is recomputed. -/
theorem Recomputed.next (h : Recomputed st s told ls u) (hstore : told.store = st) (hnow : told.now = s.now) (hl : l ∉ ls) :
    Recomputed st s told (ls ++ [l]) (recomputeFeed l (recomputeReason l u)) := by
  let q := storeReasons st s l
  have hkept := h.others l hl
  have hreasons : (u.line l).reasons = (s.line l).reasons := hkept.reads Line.reasons fun _ _ => rfl
  have hfaults : (u.line l).faults = (s.line l).faults := hkept.reads Line.faults fun _ _ => rfl
  have hustore : u.store = st := by
    have hs := congrArg State.store h.rest
    exact Eq.trans hs hstore
  have hutb : u.tb = told.tb := by
    have ht := congrArg State.tb h.rest
    exact ht
  have hunow : u.now = s.now := (congrArg TimeBase.counter hutb).trans hnow
  have hq : { (u.line l).reasons with fault := u.faultReason l } = q := by
    have heff : u.effective l = ({ s with store := st } : State).effective l := effective_congr hustore l
    simp only [State.faultReason, hreasons, hfaults, heff, q, storeReasons]
  have hcall : releasedBy l q (u.line l) u = releasedBy l q (s.line l) u := by
    have hbreaks : breaksCall q (u.line l) = breaksCall q (s.line l) := hkept.reads (breaksCall q) fun _ _ => rfl
    simp only [releasedBy, hbreaks]
  let notes := reasonNotes l q u
  let u1 := releasedBy l q (s.line l) u
  let v := tell notes (u1.modLine l (reasonsTaken q))
  have hw : recomputeFeed l (recomputeReason l u) = recomputeFeed l v := by
    rw [recomputed_eq l u hq, hcall]
  have hnotes : ∀ x, tell notes x = noteReasons st s l x := fun x => by
    have hports : u.linePorts l = s.linePorts l := linePorts_congr h.ports (hkept.reads Line.subscription fun _ _ => rfl)
    simp only [notes, reasonNotes, noteReasons, hreasons, hports, hunow]
    by_cases hc : q = (s.line l).reasons
    · rw [if_pos hc]
      exact (if_pos hc).symm
    · rw [if_neg hc]
      exact (if_neg hc).symm
  have hserves1 : ServesLines u (u1.modLine l (reasonsTaken q)) :=
    (servesLines_releasedBy l q (s.line l) u).trans (servesLines_modLine l _ u1)
  have hserves2 : ServesLines v (recomputeFeed l v) := servesLines_recomputeFeed l v
  have hpool1 : PoolSame (freedOn st s (ls ++ [l])) u1 := by
    rw [freedOn_append]
    exact h.pool.releasedBy l q (s.line l)
  have hother : ∀ m, m ≠ l → KeepsLine m u (recomputeFeed l v) := fun m hm => by
    refine (keepsLine_releasedBy m l q (s.line l) u).trans ((KeepsLine.of_others (others_modLine l (reasonsTaken q) u1) hm).trans
      (KeepsLine.trans (fun d => ?_) (KeepsLine.of_others (others_recomputeFeed l v) hm)))
    simp only [v, line_tell]
  have hmode : ∀ m, m ≠ l → (recomputeFeed l v).derivedMode m = u.derivedMode m := fun m hm => by
    have hk := hother m hm
    have hvstore : (recomputeFeed l v).store = u.store :=
      hserves2.store.trans ((tell_store ..).trans hserves1.store)
    have hvscan : (recomputeFeed l v).scan = u.scan := hserves2.scan.trans ((tell_scan ..).trans hserves1.scan)
    refine derivedMode_eq (hk.reads _ fun _ _ => rfl) (hk.reads _ fun _ _ => rfl) (hk.reads _ fun _ _ => rfl) (hk.reads _ fun _ _ => rfl)
      hvstore ?_
    exact congrArg (fun c : Scan => ({ u with scan := c } : State).itemOn m) hvscan
  have hline : ∃ d, v.line l = { reasonsTaken q (s.line l) with detStatus := d } := by
    have hk1 := (hkept.trans (keepsLine_releasedBy l l q (s.line l) u)) (u1.line l).detStatus
    have heq : u1.line l = { s.line l with detStatus := (u1.line l).detStatus } := hk1
    refine ⟨(u1.line l).detStatus, ?_⟩
    rw [show v.line l = reasonsTaken q (u1.line l) by simp only [v, line_tell, State.line_modLine_self], heq]
    exact sparesStatus_reasonsTaken q _ _
  obtain ⟨d, hline⟩ := hline
  rw [hw]
  refine ⟨?_, ?_, ?_, ?_, fun m hm => ?_, fun m hm => ?_, fun b => ?_⟩
  · exact hpool1.trans ((poolSame_modLine (sparesStatus_reasonsTaken q) l u1).trans ((poolSame_tell notes _).trans (poolSame_recomputeFeed l v)))
  · rw [callOf_servesLines hserves2, callOf_tell, callOf_servesLines hserves1]
    exact h.rest
  · exact h.ports.trans ((PortsKept.of_eq hserves1.port).trans ((portsKept_tell notes _).trans (PortsKept.of_eq hserves2.port)))
  · rw [tellAll_append, ← hnotes]
    have hstart : JournalAs (tellAll ls (noteReasons st s) told) (u1.modLine l (reasonsTaken q)) := h.journal.trans hserves1.journal
    exact (hstart.tell (hserves1.tb.trans (hutb.trans (tellAll_tb ls told).symm)) notes).trans hserves2.journal
  · rw [List.mem_append, List.mem_singleton, not_or] at hm
    exact (h.others m hm.1).trans (hother m hm.2)
  · by_cases hml : m = l
    · subst hml
      rw [recomputeFeed_line_self, derivedMode_recomputeFeed, hline]
      rfl
    · have hm' : m ∈ ls := (List.mem_append.1 hm).resolve_right fun hc => hml (List.mem_singleton.1 hc)
      have heq : (recomputeFeed l v).line m = { u.line m with detStatus := ((recomputeFeed l v).line m).detStatus } := hother m hml _
      rw [hmode m hml, heq, h.lines m hm']
      rfl
  · have hfirst : linkOf b v = linkOf b u := by
      have hreleased : linkOf b u1 = linkOf b u := by
        simp only [u1]
        unfold releasedBy
        split
        · cases b <;> simp [linkOf]
        · rfl
      rw [← hreleased]
      cases b <;> simp [linkOf, v]
    rw [linkOf_recomputeFeed, hfirst, h.links b, linkAfter_append b ls l s _ u _ fun m hm => hmode m fun hc => hl (hc ▸ hm),
      derivedMode_recomputeFeed, hline, (reasonsTaken_sent q (s.line l)).1]

end

/-- The lines of a list recomputed one after the other. -/
theorem recomputed_lines {st : Store} {s told : State} (hstore : told.store = st) (htb : told.tb = s.tb)
    (hpool : told.pool = s.pool) (hlines : told.lines = s.lines) (hlinks : ∀ b, linkOf b told = linkOf b s) (hports : PortsKept s told)
    {ls : List LineNo} (hls : ls.Nodup) :
    Recomputed st s told ls (ls.foldl (fun u l => recomputeFeed l (recomputeReason l u)) told) := by
  induction ls using List.reverseRecOn with
  | nil =>
    have hline : ∀ m, told.line m = s.line m := fun m => by simp only [State.line, hlines]
    exact ⟨⟨congrArg TimeBase.counter htb, hpool, fun m => by rw [List.foldl_nil, hline]; rfl⟩, rfl, hports, JournalAs.refl told,
      fun m _ d => by rw [List.foldl_nil, hline], nofun, fun b => (hlinks b).trans (List.append_nil _).symm⟩
  | append_singleton ls l ih =>
    rw [List.nodup_append] at hls
    obtain ⟨hls, -, hne⟩ := hls
    rw [List.foldl_append]
    exact (ih hls).next hstore (congrArg TimeBase.counter htb) fun hc => hne l hc l (List.mem_singleton_self l) rfl

/-- Settles O18: the write and its report, then the lines it concerns in order (`recomputed_lines`). -/
theorem storeWritesRecompute : Obligations.StoreWritesRecompute := by
  intro w item st s put changed lines q freed told t
  have hfold : t = lines.foldl (fun u l => recomputeFeed l (recomputeReason l u)) told := by
    have hall : t = allLines.foldl (fun u l => recomputeAutoBlock s put l u) told := rfl
    rw [List.foldl_filter, hall]
    refine congrArg (fun f => allLines.foldl f told) (funext fun u => funext fun l => ?_)
    simp only [recomputeAutoBlock, changed]
    by_cases hc : (s.effective l).autoBlock = (put.effective l).autoBlock
    · rw [if_pos hc, if_neg (by simpa using hc)]
    · rw [if_neg hc, if_pos (by simpa using hc)]
  have hlines : told.lines = s.lines := writeEvent_lines ..
  have hports : PortsKept s told := portsKept_tell [⟨s.attachedPorts, none, s.now, .profileChanged w item⟩] put
  have hlinks : ∀ b, linkOf b told = linkOf b s := fun b => by cases b <;> simp [linkOf, told, put]
  have h : Recomputed st s told lines t := by
    rw [hfold]
    exact recomputed_lines (s := s) (told := told) (writeEvent_store ..) (writeEvent_tb ..) (writeEvent_pool ..) hlines hlinks hports
      ((List.nodup_finRange 64).filter _)
  have hmem : ∀ l, l ∈ lines ↔ changed l = true := fun l => by simp [lines, allLines]
  have hstatus : ∀ l, (t.line l).detStatus = (freed.line l).detStatus := h.pool.status
  refine ⟨?_, fun hnone => ?_, h.journal, fun l hl => ?_, fun l hl => ?_, h.pool.pool, h.links .zero, h.links .one, h.ports.2, h.ports.1,
    ?_, ?_, ?_, ?_, ?_⟩
  · have hstore := congrArg State.store h.rest
    exact Eq.trans hstore (writeEvent_store ..)
  · have hempty : lines = [] := List.filter_eq_nil_iff.2 fun l _ => by rw [hnone l]; nofun
    rw [hfold, hempty]
    rfl
  · have hk := h.others l (fun hc => Bool.false_ne_true (hl.symm.trans ((hmem l).1 hc))) (t.line l).detStatus
    rw [← hstatus l]
    exact hk
  · rw [← hstatus l]
    exact h.lines l ((hmem l).2 hl)
  · have hscan := congrArg State.scan h.rest
    exact Eq.trans hscan (writeEvent_scan ..)
  · have hsweep := congrArg State.sweep h.rest
    exact Eq.trans hsweep (writeEvent_sweep ..)
  · have htest := congrArg State.test h.rest
    exact Eq.trans htest (writeEvent_test ..)
  · have htb := congrArg State.tb h.rest
    exact Eq.trans htb (writeEvent_tb ..)
  · have hbat := congrArg State.bat h.rest
    exact Eq.trans hbat (writeEvent_bat ..)

end Sys2Proof.Machine
end

