-- ==== Sys2Proof/Proofs/LinesReturned.lean ====
section
/-! PROOF. Lines released one after the other with an empty Test Queue: records, shadow slots, events and links (R166 to R169). -/

namespace Sys2Proof.Machine

/-! ### Releases one after the other, with an empty Test Queue -/

/-- The record of a line that a release returns from the shadow `sh` (R166, R167). -/
def returnedLine (b : State) (m : LineNo) (sh : Shadow) (mode : FeedMode) : Line :=
  { returned (returnedReasons m .restore sh b) .restore sh (b.line m) with
    sentMode := mode, recoveryDiscard := (b.line m).recoveryDiscard || decide ((b.line m).sentMode = .ring) }

/-- The report of a line that the loss of Port T released to the record it has in `u` (R168, R169). -/
def noteReturned (b u : State) (l : LineNo) (v : State) : State :=
  let w := writeEvent (b.linePorts l) (some l) b.now (.holdReleased .restore .lapse (u.line l).state) v
  if (u.line l).reasons = (b.line l).reasons then w else writeEvent (b.linePorts l) (some l) b.now (.blockChanged (u.line l).reasons) w

/-- The lines of a list have been released one after the other, RESTORE, LAPSE (R166 to R169). -/
structure Returned (b : State) (ls : List LineNo) (u : State) : Prop where
  /-- what is left alone -/
  rest : feedOf b { u with test := b.test } = b
  /-- the Test Queue -/
  queue : u.test.queue = []
  /-- the ports -/
  ports : PortsKept b u
  /-- the pending sets -/
  absent : Absent .t u
  /-- the journal -/
  journal : JournalAs (tellAll ls (noteReturned b u) b) u
  /-- the other lines -/
  others : ∀ m, m ∉ ls → u.line m = b.line m
  /-- the lines of the list, and the shadow each came back from -/
  lines : ∀ m ∈ ls, ∃ sh, u.line m = returnedLine b m sh (u.derivedMode m) ∧
    ∀ n sh', (b.line m).shadowSlot = some n → b.test.shadows[n] = some sh' → (∀ k ∈ ls, k ≠ m → (b.line k).shadowSlot ≠ some n) → sh = sh'
  /-- the shadow slots that are freed -/
  freed : ∀ m ∈ ls, ∀ n : ShadowNo, (b.line m).shadowSlot = some n → u.test.shadows[n] = none
  /-- the other shadow slots -/
  kept : ∀ n : ShadowNo, (∀ m ∈ ls, (b.line m).shadowSlot ≠ some n) → u.test.shadows[n] = b.test.shadows[n]
  /-- the links -/
  links : ∀ k, linkOf k u = linkAfter k ls b u (linkOf k b)

section

variable {b u : State} {ls : List LineNo} {l : LineNo}

theorem dropItems_empty {u : State} (l : LineNo) (hq : u.test.queue = []) (hp : u.scan.testPart = 0) : dropItems l u = u := by
  unfold dropItems
  rw [hq, hp]
  have htest : ({ u.test with queue := [] } : TestUnit) = u.test := by rw [← hq]
  have hscan : ({ u.scan with testPart := 0 } : Scan) = u.scan := by rw [← hp]
  simp only [List.filter_nil, List.take_nil, List.length_nil, htest, hscan]

/-- A slot freed, if the line has one (R166 step 2). -/
theorem freeSlotOf_cases (l : LineNo) (u : State) :
    (∃ n, (u.line l).shadowSlot = some n ∧ freeSlotOf l u = u.setShadow n none) ∨ ((u.line l).shadowSlot = none ∧ freeSlotOf l u = u) := by
  unfold freeSlotOf
  cases h : (u.line l).shadowSlot with
  | none => exact .inr ⟨rfl, rfl⟩
  | some n => exact .inl ⟨n, rfl, rfl⟩

theorem freeSlotOf_rest (l : LineNo) (u : State) : { freeSlotOf l u with test := u.test } = u ∧ (freeSlotOf l u).test.queue = u.test.queue := by
  rcases freeSlotOf_cases l u with ⟨n, -, h⟩ | ⟨-, h⟩ <;> rw [h] <;> exact ⟨rfl, rfl⟩

theorem holdPorts_of_detached {u : State} (h : u.attached .t = false) (l : LineNo) : u.holdPorts l = u.linePorts l := by
  rw [State.holdPorts, h]
  rfl

theorem tellAll_congr {f g : LineNo → State → State} (h : ∀ m ∈ ls, f m = g m) (v : State) : tellAll ls f v = tellAll ls g v :=
  List.foldl_ext _ _ v fun _ m hm => congrFun (h m hm) _

theorem tellAll_noteReturned_tb (ls : List LineNo) (v : State) : (tellAll ls (noteReturned b u) v).tb = v.tb := by
  unfold tellAll
  induction ls generalizing v with
  | nil => rfl
  | cons l ls ih =>
    rw [List.foldl_cons, ih]
    unfold noteReturned
    dsimp only
    split <;> simp

/-- The shadow slots after one is freed. -/
theorem shadows_setShadow (n k : ShadowNo) (v : Option Shadow) (u : State) :
    (u.setShadow n v).test.shadows[k] = if k = n then v else u.test.shadows[k] := by
  have hget : (u.setShadow n v).test.shadows[k] = (u.test.shadows.set n v)[k] := rfl
  rw [hget]
  by_cases h : k = n
  · subst h
    simp
  · rw [if_neg h]
    simp [Fin.ext_iff.not.1 (Ne.symm h)]

/-- One more line is released, from the shadow `sh`, in a state `u` that gives `w` (R166 to R168). -/
structure ReturnedNext (b u : State) (l : LineNo) (sh : Shadow) (w : State) : Prop where
  /-- what is left alone -/
  rest : feedOf b { w with test := b.test } = feedOf b { u with test := b.test }
  /-- the Test Queue -/
  queue : w.test.queue = u.test.queue
  /-- the ports -/
  ports : PortsKept u w
  /-- the pending sets -/
  absent : Absent .t u → Absent .t w
  /-- the journal -/
  journal : ∀ j, JournalAs j u → j.tb = b.tb → JournalAs (noteReturned b w l j) w
  /-- the other lines -/
  others : ∀ m, m ≠ l → w.line m = u.line m ∧ w.derivedMode m = u.derivedMode m
  /-- the line -/
  line : w.line l = returnedLine b l sh (w.derivedMode l)
  /-- the shadow slots -/
  shadows : ∀ n : ShadowNo, w.test.shadows[n] = if (b.line l).shadowSlot = some n then none else u.test.shadows[n]
  /-- the links -/
  links : ∀ k, linkOf k w = linkOf k u ++
    if bankOf l = k ∧ w.derivedMode l ≠ (b.line l).sentMode then [⟨positionOf l, w.derivedMode l, .none⟩] else []

theorem Absent.tell {p : Port} {es : List Message} (hes : ∀ e ∈ es, e.pend.has p = false) {s : State} (h : Absent p s) : Absent p (tell es s) := by
  induction es generalizing s with
  | nil => exact h
  | cons e es ih => exact ih (fun e he => hes e (List.mem_cons_of_mem _ he)) (h.writeEvent _ _ _ _ (hes e List.mem_cons_self))

theorem Returned.release (h : Returned b ls u) (hempty : b.test.queue = [] ∧ b.scan.testPart = 0) (hdetached : b.attached .t = false)
    (hl : l ∉ ls) : ReturnedNext b u l (u.shadowFor l) (releaseLine l .restore .lapse u) := by
  let sh := u.shadowFor l
  let q := returnedReasons l .restore sh b
  have hline : u.line l = b.line l := h.others l hl
  have hstore : u.store = b.store := by
    have hs := congrArg State.store h.rest
    exact hs
  have hscan : u.scan = b.scan := by
    have hs := congrArg State.scan h.rest
    exact hs
  have htb : u.tb = b.tb := by
    have hs := congrArg State.tb h.rest
    exact hs
  have hnow : u.now = b.now := congrArg TimeBase.counter htb
  have hq : returnedReasons l .restore sh u = q := by
    have heff : u.effective l = b.effective l := effective_congr hstore l
    simp only [returnedReasons, hline, heff, q]
  have hports : u.linePorts l = b.linePorts l := linePorts_congr h.ports (congrArg Line.subscription hline)
  have hheld : u.holdPorts l = b.linePorts l := by
    have hatt : u.attached .t = false := by rw [← hdetached, State.attached, State.attached, (h.ports.2 .t).1]
    rw [holdPorts_of_detached hatt, hports]
  let notes := releaseNotes l q .restore sh .lapse u
  let u1 := freeSlotOf l u
  let v := u1.modLine l (returned q .restore sh)
  let w := tell notes (recomputeFeed l v)
  have hw : releaseLine l .restore .lapse u = w := by
    rw [releaseLine_eq .restore .lapse rfl hq, returnedState, dropItems_empty l h.queue (by rw [hscan]; exact hempty.2)]
  obtain ⟨hslot, hqueue⟩ := freeSlotOf_rest l u
  have hvline : v.line l = returned q .restore sh (b.line l) := by
    rw [State.line_modLine_self, line_freeSlotOf, hline]
  have hother : ∀ m, m ≠ l → w.line m = u.line m := fun m hm => by
    simp only [w, line_tell, recomputeFeed_line_ne hm, v, State.line_modLine_ne _ _ hm, u1, line_freeSlotOf]
  have hserves : ServesLines u1 (recomputeFeed l v) := (servesLines_modLine l _ u1).trans (servesLines_recomputeFeed l v)
  have hmode : ∀ m, m ≠ l → w.derivedMode m = u.derivedMode m := fun m hm => by
    have hwstore : w.store = u.store := by
      have hs := congrArg State.store hslot
      exact (tell_store ..).trans (hserves.store.trans hs)
    have hwscan : w.scan = u.scan := by
      have hs := congrArg State.scan hslot
      exact (tell_scan ..).trans (hserves.scan.trans hs)
    refine derivedMode_eq (by rw [hother m hm]) (by rw [hother m hm]) (by rw [hother m hm]) (by rw [hother m hm]) hwstore ?_
    exact congrArg (fun c : Scan => ({ u with scan := c } : State).itemOn m) hwscan
  have hself : w.derivedMode l = v.derivedMode l := by rw [derivedMode_tell, derivedMode_recomputeFeed]
  have hwline : w.line l = returnedLine b l sh (w.derivedMode l) := by
    have hring : (v.line l).state ≠ .ringing := by
      rw [hvline]
      exact (releasedTo_ne q .restore sh).1
    rw [line_tell, line_recomputeFeed_apart hring, hself, hvline]
    rfl
  have hnotes : ∀ x, noteReturned b w l x = tell notes x := fun x => by
    have hstate : (w.line l).state = (releasedTo q .restore sh).1 := by
      rw [hwline]
      rfl
    have hreasons : (w.line l).reasons = q := by
      rw [hwline]
      rfl
    simp only [noteReturned, hstate, hreasons, notes, releaseNotes, reasonNotes, hheld, hports, hnow, hline]
    split <;> rfl
  have htest : w.test = u1.test := (tell_test ..).trans hserves.test
  have hshadows : ∀ n : ShadowNo, w.test.shadows[n] = if (b.line l).shadowSlot = some n then none else u.test.shadows[n] := fun n => by
    have hcases : u1.test.shadows[n] = if (b.line l).shadowSlot = some n then none else u.test.shadows[n] := by
      rcases freeSlotOf_cases l u with ⟨k, hk, hfree⟩ | ⟨hnone, hfree⟩
      · simp only [u1]
        rw [hfree, shadows_setShadow, ← hline, hk]
        exact if_congr ⟨fun hc => by rw [hc], fun hc => (Option.some.inj hc).symm⟩ rfl rfl
      · simp only [u1]
        rw [hfree, ← hline, hnone, if_neg nofun]
    have hget := congrArg (fun x : TestUnit => x.shadows[n]) htest
    exact Eq.trans hget hcases
  have hpart : ∀ q, (recomputeFeed l v).port q = u.port q := fun q => by
    have hpp := congrArg (fun x : State => x.port q) hslot
    exact (hserves.port q).trans hpp
  have hjournal : (recomputeFeed l v).journal = u.journal := by
    have hj := congrArg State.journal hslot
    exact Eq.trans (recomputeFeed_journal ..) hj
  have hhas : ∀ e ∈ notes, e.pend.has .t = false := fun e he => by
    simp only [notes, releaseNotes, reasonNotes, hheld, hports] at he
    rcases List.mem_cons.1 he with rfl | he
    · rfl
    · split at he
      · cases he
      · rw [List.mem_singleton.1 he]
        rfl
  have hlinks : ∀ k, linkOf k v = linkOf k u := fun k => by
    have h0 := congrArg (linkOf k) hslot
    exact Eq.trans (by cases k <;> rfl) h0
  rw [hw]
  refine ⟨?_, ?_, ?_, fun ha => Absent.tell hhas fun e he => ha e (hjournal ▸ he), fun j hj hjtb => ?_, fun m hm => ⟨hother m hm, hmode m hm⟩,
    hwline, hshadows, fun k => ?_⟩
  · simp [feedOf, linesOf, portsOf, w, v, u1]
  · exact (congrArg TestUnit.queue htest).trans hqueue
  · exact (PortsKept.of_eq hpart).trans (portsKept_tell notes _)
  · rw [hnotes]
    refine JournalAs.tell (hj.trans (JournalAs.of_ports hjournal hpart)) ?_ notes
    rw [hserves.tb, hjtb, ← htb]
    have ht := congrArg State.tb hslot
    exact ht
  · have hsent : (v.line l).sentMode = (b.line l).sentMode := by
      rw [hvline]
      rfl
    have hwlink : linkOf k w = linkOf k (recomputeFeed l v) := by cases k <;> simp [linkOf, w]
    rw [hwlink, linkOf_recomputeFeed, hlinks, hself, hsent]

/-- The next line of the list is released. -/
theorem Returned.next (h : Returned b ls u) (hempty : b.test.queue = [] ∧ b.scan.testPart = 0) (hdetached : b.attached .t = false)
    (hl : l ∉ ls) : Returned b (ls ++ [l]) (releaseLine l .restore .lapse u) := by
  have hn := h.release hempty hdetached hl
  generalize releaseLine l .restore .lapse u = w at hn ⊢
  have hne : ∀ m ∈ ls, m ≠ l := fun m hm hc => hl (hc ▸ hm)
  have hstb : u.tb = b.tb := by
    have ht := congrArg State.tb h.rest
    exact ht
  have hslots : ∀ n : ShadowNo, (∀ m ∈ ls, (b.line m).shadowSlot ≠ some n) → u.test.shadows[n] = b.test.shadows[n] := h.kept
  refine ⟨hn.rest.trans h.rest, hn.queue.trans h.queue, h.ports.trans hn.ports, hn.absent h.absent, ?_, fun m hm => ?_, fun m hm => ?_,
    fun m hm n hslot => ?_, fun n hnone => ?_, fun k => ?_⟩
  · rw [tellAll_append]
    have hsame : tellAll ls (noteReturned b w) b = tellAll ls (noteReturned b u) b := by
      refine tellAll_congr (fun m hm => ?_) b
      have heq : w.line m = u.line m := (hn.others m (hne m hm)).1
      funext v
      simp only [noteReturned, heq]
    rw [hsame]
    exact hn.journal _ h.journal (tellAll_noteReturned_tb ls b)
  · rw [List.mem_append, List.mem_singleton, not_or] at hm
    rw [(hn.others m hm.2).1, h.others m hm.1]
  · rcases List.mem_append.1 hm with hm | hm
    · obtain ⟨sh, heq, huniq⟩ := h.lines m hm
      obtain ⟨h1, h2⟩ := hn.others m (hne m hm)
      exact ⟨sh, by rw [h1, h2, heq], fun n sh' hslot hsh' hothers =>
        huniq n sh' hslot hsh' fun k hk => hothers k (List.mem_append_left _ hk)⟩
    · obtain rfl := List.mem_singleton.1 hm
      refine ⟨u.shadowFor m, hn.line, fun n sh' hslot hsh' hothers => ?_⟩
      have hkept : u.test.shadows[n] = some sh' := by
        rw [hslots n fun k hk => hothers k (List.mem_append_left _ hk) (hne k hk), hsh']
      rw [State.shadowFor, h.others m hl, hslot]
      simp only [hkept, Option.getD_some]
  · rw [hn.shadows]
    split
    · rfl
    · rename_i hnot
      rcases List.mem_append.1 hm with hm | hm
      · exact h.freed m hm n hslot
      · exact absurd (List.mem_singleton.1 hm ▸ hslot) hnot
  · rw [hn.shadows, if_neg (hnone l (List.mem_append_right _ (List.mem_singleton_self l)))]
    exact h.kept n fun m hm => hnone m (List.mem_append_left _ hm)
  · rw [hn.links k, h.links k, linkAfter_append k ls l b w u _ fun m hm => (hn.others m (hne m hm)).2]

end

/-- The lines of a list released one after the other. -/
theorem returned_lines {b : State} (hempty : b.test.queue = [] ∧ b.scan.testPart = 0) (hdetached : b.attached .t = false) (habsent : Absent .t b)
    {ls : List LineNo} (hls : ls.Nodup) : Returned b ls (ls.foldl (fun u l => releaseLine l .restore .lapse u) b) := by
  induction ls using List.reverseRecOn with
  | nil =>
    exact ⟨rfl, hempty.1, PortsKept.refl b, habsent, JournalAs.refl b, fun _ _ => rfl, nofun, nofun, fun _ _ => rfl,
      fun k => (List.append_nil _).symm⟩
  | append_singleton ls l ih =>
    rw [List.nodup_append] at hls
    obtain ⟨hls, -, hne⟩ := hls
    rw [List.foldl_append]
    exact (ih hls).next hempty hdetached fun hc => hne l hc l (List.mem_singleton_self l) rfl

/-- A release leaves the other lines (R166 to R168). -/
theorem releaseLine_line_ne {l m : LineNo} (h : m ≠ l) (x : ReleaseMode) (why : ReleaseReason) (s : State) :
    (releaseLine l x why s).line m = s.line m := by
  rw [releaseLine_eq x why rfl rfl, line_tell, recomputeFeed_line_ne h, returnedState, State.line_modLine_ne _ _ h, line_freeSlotOf,
    line_dropItems]

/-- The HELD lines of a list are released in its order (R169). -/
theorem forLines_releases {ls : List LineNo} (hls : ls.Nodup) (s : State) :
    forLines ls (fun l u => if (u.line l).state = .held then releaseLine l .restore .lapse u else u) s =
      (ls.filter (fun l => decide ((s.line l).state = .held))).foldl (fun u l => releaseLine l .restore .lapse u) s := by
  induction ls generalizing s with
  | nil => rfl
  | cons l ls ih =>
    obtain ⟨hl, hls⟩ := List.nodup_cons.1 hls
    have hcons : forLines (l :: ls) (fun l u => if (u.line l).state = .held then releaseLine l .restore .lapse u else u) s =
        forLines ls (fun l u => if (u.line l).state = .held then releaseLine l .restore .lapse u else u)
          (if (s.line l).state = .held then releaseLine l .restore .lapse s else s) := rfl
    rw [hcons, ih hls]
    by_cases hst : (s.line l).state = .held
    · rw [if_pos hst, List.filter_cons_of_pos (by simpa using hst)]
      have hfilter : ls.filter (fun m => decide (((releaseLine l .restore .lapse s).line m).state = .held)) =
          ls.filter (fun m => decide ((s.line m).state = .held)) := List.filter_congr fun m hm => by
        have hne : m ≠ l := fun hc => hl (hc ▸ hm)
        rw [releaseLine_line_ne hne]
      rw [hfilter]
      rfl
    · rw [if_neg hst, List.filter_cons_of_neg (by simpa using hst)]

end Sys2Proof.Machine
end

