-- ==== Sys2Proof/Proofs/SlotsMadeAgain.lean ====
section
/-! PROOF. Slots made again for the lines of a list, at the boundary they began at (R22, R23, R33). -/

namespace Sys2Proof.Machine

/-! ### Slots made again -/

/-- The slot that began last (R20). -/
def State.lastSlot (s : State) : Nat := s.scan.nextSlot - 1

/-- The slot that began last began with the time unit in progress (R22). -/
def State.begun (s : State) : Bool :=
  decide (0 < s.scan.nextSlot ∧ s.lastSlot % 2 = 0 ∧ s.slotTime s.lastSlot = s.now)

theorem boundarySlot_eq (s : State) : s.boundarySlot = if s.begun then some s.lastSlot else none := by
  unfold State.boundarySlot State.begun State.lastSlot
  cases s.scan.nextSlot with
  | zero => rfl
  | succ k => simp

/-- A line's record after its slot is made again (R22, R23). -/
def remadeLine (s : State) (l : LineNo) : Line :=
  if s.begun = true ∧ s.lastSlot < 32 ∧ l ∈ slotLines s.lastSlot ∧ (s.line l).measuring.map (fun m => m.stamp) ≠ some (s.slotTime s.lastSlot)
    then loopStarted s.lastSlot s l else s.line l

/-- An item in progress on bank `c` after the slots of the lines of a list are made again (R22, R33). -/
def remadeItem (s : State) (ls : List LineNo) (c : Bank) (i : Item) : Item :=
  if s.begun = true ∧ 32 ≤ s.lastSlot ∧ i.line ∈ ls ∧ bankOf i.line = c then reseeSlot (s.derivedMode i.line) i else i

/-- The slots of the lines of a list have been made again (R22). -/
structure Remade (ls : List LineNo) (s t : State) : Prop where
  /-- lines and items in progress are all that changes -/
  frame : { t with lines := s.lines, scan := s.scan } = s
  /-- of the Scan Engine, the items alone -/
  scan : { t.scan with item0 := s.scan.item0, item1 := s.scan.item1 } = s.scan
  /-- the modes -/
  mode : ∀ m, t.derivedMode m = s.derivedMode m
  /-- the lines -/
  line : ∀ l, t.line l = if l ∈ ls then remadeLine s l else s.line l
  /-- the items -/
  items : ∀ c, t.bankItem c = (s.bankItem c).map (remadeItem s ls c)

section

variable {ls : List LineNo} {s : State}

/-- Operations that do the same in every state they meet. -/
theorem forLines_congr {f g : LineNo → State → State} {P : State → Prop} (hfg : ∀ l u, P u → f l u = g l u) (hkeep : ∀ l u, P u → P (g l u))
    (ls : List LineNo) {s : State} (hs : P s) : forLines ls f s = forLines ls g s := by
  unfold forLines
  induction ls generalizing s with
  | nil => rfl
  | cons l ls ih =>
    rw [List.foldl_cons, List.foldl_cons, hfg l s hs]
    exact ih (hkeep l s hs)

/-! ### A LOOP slot -/

theorem line_remakeLoop_ne (k : Nat) {l m : LineNo} (u : State) (h : m ≠ l) : (remakeLoop k l u).line m = u.line m := by
  unfold remakeLoop
  split
  · exact line_startLoop_ne k u h
  · rfl

theorem remakeLoop_rest (k : Nat) (l : LineNo) (u : State) : { remakeLoop k l u with lines := u.lines } = u := by
  unfold remakeLoop
  split
  · exact startLoop_rest k l u
  · rfl

theorem forLines_remakeLoop_rest (k : Nat) (ls : List LineNo) (u : State) : { forLines ls (remakeLoop k) u with lines := u.lines } = u :=
  forLines_rel (R := fun s t => { t with lines := s.lines } = s) (fun _ => rfl)
    (fun s t u h1 h2 => by
      have h := congrArg (fun x : State => { x with lines := s.lines }) h2
      exact h.trans h1)
    (fun l _ u => remakeLoop_rest k l u) u

/-- A LOOP slot made again, line by line (R22, R23). -/
theorem line_forLines_remakeLoop (k : Nat) (hls : ls.Nodup) (u : State) (l : LineNo) :
    (forLines ls (remakeLoop k) u).line l =
      if l ∈ ls ∧ l ∈ slotLines k ∧ (u.line l).measuring.map (fun m => m.stamp) ≠ some (u.slotTime k) then loopStarted k u l else u.line l := by
  have hother : ∀ m s, l ≠ m → (remakeLoop k m s).line l = s.line l := fun m s hm => line_remakeLoop_ne k s hm
  by_cases hl : l ∈ ls
  · obtain ⟨before, after, hbefore, hafter, -, -, heq⟩ := forLines_at (f := remakeLoop k) hls hl u
    have hline := line_forLines_ne hother hbefore u
    have hrest := forLines_remakeLoop_rest k before u
    have htime : (forLines before (remakeLoop k) u).slotTime k = u.slotTime k := by
      have hscan := congrArg State.scan hrest
      exact congrArg (fun c : Scan => timeAfter c.roundStart (k / 2)) hscan
    have hself : ∀ v : State, (remakeLoop k l v).line l =
        if l ∈ slotLines k ∧ (v.line l).measuring.map (fun m => m.stamp) ≠ some (v.slotTime k) then loopStarted k v l else v.line l := fun v => by
      unfold remakeLoop
      split
      · exact line_startLoop_self k l v
      · rfl
    rw [heq, line_forLines_ne hother hafter, hself, htime, hline, loopStarted_congr hline hrest]
    exact if_congr (and_iff_right hl).symm rfl rfl
  · rw [line_forLines_ne hother hl, if_neg fun hc => hl hc.1]

/-! ### An item's slot -/

theorem reseeSlot_keeps (m : FeedMode) (i : Item) : (reseeSlot m i).line = i.line ∧ (reseeSlot m i).kind = i.kind ∧ (reseeSlot m i).origin = i.origin :=
  ⟨rfl, rfl, rfl⟩

/-- An item in progress after its line's slot is made again (R33). -/
def reseenItem (u : State) (l : LineNo) (c : Bank) (i : Item) : Item :=
  if i.line = l ∧ bankOf l = c then reseeSlot (u.derivedMode l) i else i

theorem bankItem_remakeItem (u : State) (l : LineNo) (c : Bank) : (remakeItem l u).bankItem c = (u.bankItem c).map (reseenItem u l c) := by
  by_cases hc : c = bankOf l
  · subst hc
    cases hi : u.bankItem (bankOf l) with
    | none =>
      have hon : u.itemOn l = none := by simp [State.itemOn, hi]
      simp [remakeItem, hon, hi]
    | some i =>
      by_cases hl : i.line = l
      · have hon : u.itemOn l = some i := by simp [State.itemOn, hi, hl]
        simp [remakeItem, reseenItem, hon, hl]
      · have hon : u.itemOn l = none := by simp [State.itemOn, hi, hl]
        simp [remakeItem, reseenItem, hon, hl, hi]
  · have hsame : (u.bankItem c).map (reseenItem u l c) = u.bankItem c := by
      have hid : reseenItem u l c = id := by
        funext i
        exact if_neg fun h => hc h.2.symm
      rw [hid, Option.map_id, id]
    rw [hsame]
    unfold remakeItem
    cases u.itemOn l with
    | none => rfl
    | some i => exact State.bankItem_setBankItem_ne u _ hc

theorem remakeItem_rest (u : State) (l : LineNo) : { remakeItem l u with scan := u.scan } = u ∧
    { (remakeItem l u).scan with item0 := u.scan.item0, item1 := u.scan.item1 } = u.scan := by
  unfold remakeItem State.setBankItem
  split
  · cases bankOf l <;> exact ⟨rfl, rfl⟩
  · exact ⟨rfl, rfl⟩

/-- An item's slot made again changes no mode (R35). -/
theorem derivedMode_remakeItem (u : State) (l m : LineNo) : (remakeItem l u).derivedMode m = u.derivedMode m := by
  obtain ⟨hrest, -⟩ := remakeItem_rest u l
  have hline : (remakeItem l u).line m = u.line m := by
    have h := congrArg (fun x : State => x.line m) hrest
    exact h
  have hstore : (remakeItem l u).store = u.store := by
    have h := congrArg State.store hrest
    exact h
  refine derivedMode_congr (by rw [hline]; exact SameFeed.refl _) (congrArg Profile.autoBlock (effective_congr hstore m)) ?_
  rw [State.itemOn, State.itemOn, bankItem_remakeItem]
  cases u.bankItem (bankOf m) with
  | none => rfl
  | some i =>
    have hkeep : ∀ j : Item, j.line = i.line ∧ j.kind = i.kind ∧ j.origin = i.origin →
        ((some j).filter (fun i => decide (i.line = m))).map (fun i => (i.kind, i.origin)) =
          ((some i).filter (fun i => decide (i.line = m))).map (fun i => (i.kind, i.origin)) := fun j hj => by
      obtain ⟨h1, h2, h3⟩ := hj
      by_cases h : i.line = m
      · simp [Option.filter_some, h1, h2, h3, h]
      · simp [Option.filter_some, h1, h]
    refine hkeep _ ?_
    unfold reseenItem
    split
    · exact reseeSlot_keeps _ i
    · exact ⟨rfl, rfl, rfl⟩

/-- The items in progress after the slots of the lines of a list are made again. -/
theorem bankItem_forLines_remakeItem (hls : ls.Nodup) (u : State) (c : Bank) :
    (forLines ls remakeItem u).bankItem c =
      (u.bankItem c).map (fun i => if i.line ∈ ls ∧ bankOf i.line = c then reseeSlot (u.derivedMode i.line) i else i) := by
  induction ls generalizing u with
  | nil => cases h : u.bankItem c <;> simp [forLines, h]
  | cons l ls ih =>
    obtain ⟨hl, hls⟩ := List.nodup_cons.1 hls
    have hcons : forLines (l :: ls) remakeItem u = forLines ls remakeItem (remakeItem l u) := rfl
    rw [hcons, ih hls, bankItem_remakeItem, Option.map_map]
    refine congrArg (fun f => (u.bankItem c).map f) (funext fun i => ?_)
    simp only [Function.comp, derivedMode_remakeItem, reseenItem, List.mem_cons]
    by_cases hil : i.line = l
    · by_cases hb : bankOf l = c
      · simp [hil, hb, hl]
      · simp [hil, hb]
    · simp [hil]

/-! ### Both kinds of slot -/

theorem boundarySlot_remakeLoop (k : Nat) (l : LineNo) (u : State) : (remakeLoop k l u).boundarySlot = u.boundarySlot := by
  have h := congrArg State.boundarySlot (remakeLoop_rest k l u)
  exact h

theorem boundarySlot_remakeItem (l : LineNo) (u : State) : (remakeItem l u).boundarySlot = u.boundarySlot := by
  obtain ⟨hrest, hscan⟩ := remakeItem_rest u l
  have htb : (remakeItem l u).tb = u.tb := by
    have h := congrArg State.tb hrest
    exact h
  have hslot : (remakeItem l u).scan.nextSlot = u.scan.nextSlot := by
    have h := congrArg Scan.nextSlot hscan
    exact h
  have hround : (remakeItem l u).scan.roundStart = u.scan.roundStart := by
    have h := congrArg Scan.roundStart hscan
    exact h
  have hlast : (remakeItem l u).lastSlot = u.lastSlot := by rw [State.lastSlot, State.lastSlot, hslot]
  have hbegun : (remakeItem l u).begun = u.begun :=
    decide_eq_decide.2 (by rw [hslot, hlast, State.slotTime, State.slotTime, hround, State.now, State.now, htb])
  rw [boundarySlot_eq, boundarySlot_eq, hbegun, hlast]

/-- Where no slot has begun with the time unit in progress, none is made again. -/
theorem forLines_remakeSlot_of_not_begun (h : s.begun = false) (ls : List LineNo) : forLines ls remakeSlot s = s := by
  have hb : s.boundarySlot = none := by simp [boundarySlot_eq, h]
  have hstep : ∀ l : LineNo, remakeSlot l s = s := fun l => by rw [remakeSlot, hb]
  unfold forLines
  induction ls with
  | nil => rfl
  | cons l ls ih => rw [List.foldl_cons, hstep, ih]

theorem forLines_remakeSlot_of_loop (h : s.begun = true) (hlt : s.lastSlot < 32) (ls : List LineNo) :
    forLines ls remakeSlot s = forLines ls (remakeLoop s.lastSlot) s := by
  refine forLines_congr (P := fun u => u.boundarySlot = some s.lastSlot) (fun l u hu => ?_) (fun l u hu => ?_) ls ?_
  · rw [remakeSlot, hu]
    exact if_pos hlt
  · rw [boundarySlot_remakeLoop, hu]
  · simp [boundarySlot_eq, h]

theorem forLines_remakeSlot_of_item (h : s.begun = true) (hge : 32 ≤ s.lastSlot) (ls : List LineNo) :
    forLines ls remakeSlot s = forLines ls remakeItem s := by
  refine forLines_congr (P := fun u => u.boundarySlot = some s.lastSlot) (fun l u hu => ?_) (fun l u hu => ?_) ls ?_
  · rw [remakeSlot, hu]
    exact if_neg (Nat.not_lt.2 hge)
  · rw [boundarySlot_remakeItem, hu]
  · simp [boundarySlot_eq, h]

theorem sameFeed_loopStarted (k : Nat) (u : State) (l : LineNo) : SameFeed (u.line l) (loopStarted k u l) := by
  unfold loopStarted
  split <;> exact SameFeed.refl _

/-- A LOOP slot made again for the lines of a list. -/
theorem remade_of_loop (h : s.begun = true) (hlt : s.lastSlot < 32) (hls : ls.Nodup) : Remade ls s (forLines ls remakeSlot s) := by
  rw [forLines_remakeSlot_of_loop h hlt]
  have hrest := forLines_remakeLoop_rest s.lastSlot ls s
  have hline := line_forLines_remakeLoop s.lastSlot hls s
  generalize forLines ls (remakeLoop s.lastSlot) s = t at hrest hline ⊢
  have hscan : t.scan = s.scan := by
    have hs := congrArg State.scan hrest
    exact hs
  have hstore : t.store = s.store := by
    have hs := congrArg State.store hrest
    exact hs
  have hremade : ∀ l, t.line l = if l ∈ ls then remadeLine s l else s.line l := fun l => by
    rw [hline, remadeLine]
    by_cases hl : l ∈ ls
    · rw [if_pos hl]
      exact if_congr (by simp [hl, h, hlt]) rfl rfl
    · rw [if_neg hl, if_neg fun hc => hl hc.1]
  refine ⟨by rw [← hscan]; exact hrest, by rw [hscan], fun m => ?_, hremade, fun c => ?_⟩
  · have hitem : t.itemOn m = s.itemOn m := by
      have hs := congrArg (fun x : State => x.itemOn m) hrest
      exact hs
    refine derivedMode_congr ?_ (congrArg Profile.autoBlock (effective_congr hstore m)) (by rw [hitem])
    rw [hline]
    split
    · exact sameFeed_loopStarted ..
    · exact SameFeed.refl _
  · have hid : remadeItem s ls c = id := by
      funext i
      exact if_neg fun hc => absurd hc.2.1 (Nat.not_le.2 hlt)
    have hsame : t.bankItem c = s.bankItem c := by
      have hs := congrArg (fun x : State => x.bankItem c) hrest
      exact hs
    rw [hid, Option.map_id, id, hsame]

/-- The items' slots made again for the lines of a list. -/
theorem remade_of_item (h : s.begun = true) (hge : 32 ≤ s.lastSlot) (hls : ls.Nodup) : Remade ls s (forLines ls remakeSlot s) := by
  have hrel : { forLines ls remakeItem s with scan := s.scan } = s ∧
      { (forLines ls remakeItem s).scan with item0 := s.scan.item0, item1 := s.scan.item1 } = s.scan :=
    forLines_rel (R := fun s t => { t with scan := s.scan } = s ∧ { t.scan with item0 := s.scan.item0, item1 := s.scan.item1 } = s.scan)
      (fun _ => ⟨rfl, rfl⟩)
      (fun s t u h1 h2 => by
        obtain ⟨hst, hscan⟩ := h1
        obtain ⟨htu, hscan'⟩ := h2
        have hrest := congrArg (fun x : State => { x with scan := s.scan }) htu
        have hpart := congrArg (fun c : Scan => { c with item0 := s.scan.item0, item1 := s.scan.item1 }) hscan'
        exact ⟨hrest.trans hst, hpart.trans hscan⟩)
      (fun l _ u => remakeItem_rest u l) s
  have hmode : ∀ m, (forLines ls remakeItem s).derivedMode m = s.derivedMode m := fun m =>
    forLines_rel (R := fun s t => t.derivedMode m = s.derivedMode m) (fun _ => rfl) (fun _ _ _ h1 h2 => h2.trans h1)
      (fun l _ u => derivedMode_remakeItem u l m) s
  rw [forLines_remakeSlot_of_item h hge]
  have hitems := bankItem_forLines_remakeItem hls s
  generalize forLines ls remakeItem s = t at hrel hmode hitems ⊢
  obtain ⟨hrest, hscan⟩ := hrel
  have hlines : t.lines = s.lines := by
    have hs := congrArg State.lines hrest
    exact hs
  refine ⟨by rw [← hlines]; exact hrest, hscan, hmode, fun l => ?_, fun c => ?_⟩
  · have hline : t.line l = s.line l := State.line_congr hlines l
    have hnot : remadeLine s l = s.line l := if_neg fun hc => absurd hc.2.1 (Nat.not_lt.2 hge)
    rw [hline, hnot, ite_self]
  · rw [hitems c]
    refine congrArg (fun f => (s.bankItem c).map f) (funext fun i => ?_)
    exact if_congr (by simp [h, hge]) rfl rfl

/-- The slots of the lines of a list made again, one after the other (R22). -/
theorem remade_lines (hls : ls.Nodup) (s : State) : Remade ls s (forLines ls remakeSlot s) := by
  cases hb : s.begun with
  | false =>
    rw [forLines_remakeSlot_of_not_begun hb]
    have hline : ∀ l, remadeLine s l = s.line l := fun l => if_neg (by simp [hb])
    have hitem : ∀ c, remadeItem s ls c = id := fun c => funext fun i => if_neg (by simp [hb])
    refine ⟨rfl, rfl, fun _ => rfl, fun l => ?_, fun c => ?_⟩
    · rw [hline, ite_self]
    · rw [hitem, Option.map_id, id]
  | true =>
    by_cases hlt : s.lastSlot < 32
    · exact remade_of_loop hb hlt hls
    · exact remade_of_item hb (Nat.not_lt.1 hlt) hls

end

end Sys2Proof.Machine
end

