-- ==== Sys2Proof/Proofs/TestPortLost.lean ====
section
/-! PROOF. Port T's loss: what its releases start from, and what follows them (R22, R169, R188, R189). -/

namespace Sys2Proof.Machine

/-! ### The loss of Port T -/

theorem allLines_nodup : allLines.Nodup := List.nodup_finRange 64

/-- Port T has left ATTACHED, and the Test Queue is empty (R169, R188, R189). -/
def lossOf (x : PortState) (why : LapseCause) (s : State) : State := emptyQueue (leavePort .t x why s)

/-- What follows the releases `u` of the lines of a list: the slots made again, where one began at this boundary, and the ports' buffers (R22). -/
structure LossEnds (begun : Bool) (ls : List LineNo) (u t : State) : Prop where
  /-- the slot is the one that began -/
  now : begun = true → u.slotTime u.lastSlot = u.now
  /-- what is left alone -/
  rest : portsOf u { t with lines := u.lines, scan := u.scan } = u
  /-- of the Scan Engine, the items alone -/
  scan : { t.scan with item0 := u.scan.item0, item1 := u.scan.item1 } = u.scan
  /-- the ports -/
  ports : AttachmentsKept u t
  /-- the journal -/
  journal : JournalAs u t
  /-- the modes -/
  mode : ∀ m, t.derivedMode m = u.derivedMode m
  /-- the lines -/
  line : ∀ l, t.line l =
    if begun = true ∧ l ∈ ls ∧ u.lastSlot < 32 ∧ l ∈ slotLines u.lastSlot ∧ (u.line l).measuring.map (fun m => m.stamp) ≠ some (u.slotTime u.lastSlot)
      then loopStarted u.lastSlot u l else u.line l
  /-- the items -/
  items : ∀ c, t.bankItem c = (u.bankItem c).map (fun i =>
    if begun = true ∧ 32 ≤ u.lastSlot ∧ i.line ∈ ls ∧ bankOf i.line = c then reseeSlot (u.derivedMode i.line) i else i)

section

variable (x : PortState) (why : LapseCause) (s : State)

@[simp] theorem line_lossOf (l : LineNo) : (lossOf x why s).line l = s.line l := line_leavePort ..

@[simp] theorem effective_lossOf (l : LineNo) : (lossOf x why s).effective l = s.effective l :=
  effective_congr (leavePort_store ..) l

theorem detached_lossOf (h : x ≠ .attached) : (lossOf x why s).attached .t = false := by
  have hport : (lossOf x why s).port .t = { s.port .t with state := x, expiry := none } := port_leavePort_self .t x why s
  rw [State.attached, hport]
  exact decide_eq_false h

theorem linePorts_lossOf (l : LineNo) : (lossOf x why s).linePorts l = s.linePorts l := by
  have hline : (lossOf x why s).line l = s.line l := line_lossOf x why s l
  have hatt : ∀ q, q ≠ .t → (lossOf x why s).attached q = s.attached q := fun q hq => by
    have h := (attachmentKept_leavePort .t x why s hq).1
    exact congrArg (fun st => decide (st = PortState.attached)) h
  simp only [State.linePorts, hline, hatt .a nofun, hatt .b nofun]

/-- The releases of Port T's loss (R169). -/
theorem loseTestPort_eq : loseTestPort (leavePort .t x why s) = s.heldLines.foldl (fun u l => releaseLine l .restore .lapse u) (lossOf x why s) := by
  rw [loseTestPort, forLines_releases allLines_nodup]
  have hheld : allLines.filter (fun l => decide (((emptyQueue (leavePort .t x why s)).line l).state = .held)) = s.heldLines :=
    List.filter_congr fun l _ => by
      have hline : (emptyQueue (leavePort .t x why s)).line l = s.line l := line_lossOf x why s l
      rw [hline]
  rw [hheld]
  rfl

theorem heldLines_nodup : s.heldLines.Nodup := allLines_nodup.filter _

theorem mem_heldLines (l : LineNo) : l ∈ s.heldLines ↔ (s.line l).state = .held := by
  rw [State.heldLines, List.mem_filter, decide_eq_true_iff]
  exact and_iff_right (List.mem_finRange l)

theorem returned_loss (h : x ≠ .attached) : Returned (lossOf x why s) s.heldLines (loseTestPort (leavePort .t x why s)) := by
  rw [loseTestPort_eq]
  exact returned_lines ⟨rfl, rfl⟩ (detached_lossOf x why s h) (leavePort_absent .t x why s) (heldLines_nodup s)

theorem loseTestPort_recordOut (p : Port) (n : Nat) : loseTestPort (recordOut p n s) = recordOut p n (loseTestPort s) := by
  have hempty : emptyQueue (recordOut p n s) = recordOut p n (emptyQueue s) := by cases p <;> rfl
  rw [loseTestPort, loseTestPort, hempty]
  refine forLines_recordOut p n _ _ _ fun l u => ?_
  rw [line_recordOut]
  split
  · exact releaseLine_recordOut ..
  · rfl

/-- DETACH on Port T makes no slot again. -/
theorem lossEnds_detach (ls : List LineNo) (u : State) (n : Nat) : LossEnds false ls u (answered .t 0x02 .ok [] n u) := by
  refine ⟨nofun, rfl, rfl, fun q => attachmentKept_answered q, (JournalAs.refl u).answered, fun m => derivedMode_answered m, fun l => ?_, fun c => ?_⟩
  · rw [line_answered, if_neg fun hc => absurd hc.1 nofun]
  · have hid : (fun i : Item => if false = true ∧ 32 ≤ u.lastSlot ∧ i.line ∈ ls ∧ bankOf i.line = c then reseeSlot (u.derivedMode i.line) i else i) =
        id := funext fun i => if_neg fun hc => absurd hc.1 nofun
    rw [hid, Option.map_id, id]
    cases c <;> rfl

/-- The expiry makes the slots again that began at its boundary (R22). -/
theorem lossEnds_expiry {ls : List LineNo} (hls : ls.Nodup) (u : State) : LossEnds u.begun ls u (forLines ls remakeSlot u) := by
  have hr := remade_lines hls u
  generalize forLines ls remakeSlot u = t at hr ⊢
  have hport : ∀ q, t.port q = u.port q := fun q => by
    have h := congrArg (fun v : State => v.port q) hr.frame
    exact h
  have hjournal : t.journal = u.journal := by
    have h := congrArg State.journal hr.frame
    exact h
  refine ⟨fun hb => (of_decide_eq_true hb).2.2, congrArg (portsOf u) hr.frame, hr.scan, fun q => by rw [hport]; exact ⟨rfl, rfl, rfl, rfl, rfl⟩,
    JournalAs.of_ports hjournal hport, hr.mode, fun l => ?_, fun c => ?_⟩
  · rw [hr.line, remadeLine]
    by_cases hl : l ∈ ls
    · rw [if_pos hl]
      exact if_congr (by simp [hl]) rfl rfl
    · rw [if_neg hl, if_neg fun hc => hl hc.2.1]
  · rw [hr.items]
    rfl

end

section

variable {b u t : State} {ls : List LineNo} {begun : Bool} {l : LineNo}

theorem Returned.state (h : Returned b ls u) (hl : l ∈ ls) : (u.line l).state ≠ .ringing ∧ (u.line l).state ≠ .held := by
  obtain ⟨sh, hline, -⟩ := h.lines l hl
  rw [hline]
  exact releasedTo_ne (returnedReasons l .restore sh b) .restore sh

/-- The record of a released line once the slots are made again (R22, R23, R166, R167). -/
theorem LossEnds.returned (he : LossEnds begun ls u t) (h : Returned b ls u) (hl : l ∈ ls) {sh : Shadow}
    (hline : u.line l = returnedLine b l sh (u.derivedMode l)) :
    t.line l =
      if begun = true ∧ u.lastSlot < 32 ∧ l ∈ slotLines u.lastSlot ∧ (b.line l).measuring.map (fun m => m.stamp) ≠ some u.now ∧ t.derivedMode l = .normal
        then beginMeasuring u.now .normal (decide (u.bat.feed = .lost)) (returnedLine b l sh .normal)
        else returnedLine b l sh (t.derivedMode l) := by
  obtain ⟨hring, hheld⟩ := h.state hl
  have hmeasuring : (u.line l).measuring = (b.line l).measuring := by
    rw [hline]
    rfl
  have hmode := he.mode l
  rw [he.line l, hmeasuring, hmode]
  by_cases hagain : begun = true ∧ l ∈ ls ∧ u.lastSlot < 32 ∧ l ∈ slotLines u.lastSlot ∧
      (b.line l).measuring.map (fun m => m.stamp) ≠ some (u.slotTime u.lastSlot)
  · rw [if_pos hagain, loopStarted]
    obtain ⟨hbegun, -, hlt, hslot, hstamp⟩ := hagain
    rw [he.now hbegun] at hstamp ⊢
    by_cases hnormal : u.derivedMode l = .normal
    · have hmeas : u.measured l = true := by simp [State.measured, hheld, hnormal]
      rw [if_pos hmeas, if_pos ⟨hbegun, hlt, hslot, hstamp, hnormal⟩, hline, hnormal]
    · have hmeas : ¬ u.measured l = true := by simp [State.measured, hnormal, derivedMode_ne_ring hring]
      rw [if_neg hmeas, if_neg fun hc => hnormal hc.2.2.2.2, ← hline]
  · have hnot : ¬ (begun = true ∧ u.lastSlot < 32 ∧ l ∈ slotLines u.lastSlot ∧ (b.line l).measuring.map (fun m => m.stamp) ≠ some u.now ∧
        u.derivedMode l = .normal) := fun hc => by
      obtain ⟨hbegun, hlt, hslot, hstamp, -⟩ := hc
      exact hagain ⟨hbegun, hl, hlt, hslot, by rwa [he.now hbegun]⟩
    rw [if_neg hagain, if_neg hnot, ← hline]

/-- A state after the loss is not HELD anywhere. -/
theorem LossEnds.state_eq (he : LossEnds begun ls u t) (l : LineNo) : (t.line l).state = (u.line l).state ∧ (t.line l).reasons = (u.line l).reasons := by
  rw [he.line l]
  split
  · rw [loopStarted]
    split <;> exact ⟨rfl, rfl⟩
  · exact ⟨rfl, rfl⟩

end

end Sys2Proof.Machine
end

