-- ==== Sys2Proof/Proofs/TestPortReleases.lean ====
section
/-! PROOF. Port T's DETACH and window expiry: the lines given back (R22, R166 to R169, R188, R189). -/

namespace Sys2Proof.Machine

/-! ### What the loss leaves -/

section

variable {b u t : State} {ls : List LineNo} {begun : Bool} {l : LineNo}

theorem isTransient_eq (m : FeedMode) : isTransient m = decide (m = .highZ ∨ m = .diagUp ∨ m = .diagDown) := by cases m <;> rfl

theorem lossOf_parts (x : PortState) (why : LapseCause) (s : State) :
    (lossOf x why s).scan = { s.scan with testPart := 0 } ∧ (lossOf x why s).store = s.store ∧ (lossOf x why s).pool = s.pool ∧
      (lossOf x why s).sweep = s.sweep ∧ (lossOf x why s).tb = s.tb ∧ (lossOf x why s).bat = s.bat ∧
      (lossOf x why s).test.shadows = s.test.shadows := by
  have hscan := congrArg (fun k : Scan => { k with testPart := 0 }) (leavePort_scan .t x why s)
  have hshadows := congrArg TestUnit.shadows (leavePort_test .t x why s)
  exact ⟨hscan, leavePort_store .., leavePort_pool .., leavePort_sweep .., leavePort_tb .., leavePort_bat .., hshadows⟩

theorem linkOf_lossOf (x : PortState) (why : LapseCause) (s : State) (k : Bank) : linkOf k (lossOf x why s) = linkOf k s := by
  cases k
  · exact leavePort_link0 ..
  · exact leavePort_link1 ..

theorem Returned.parts (h : Returned b ls u) :
    u.scan = b.scan ∧ u.store = b.store ∧ u.pool = b.pool ∧ u.sweep = b.sweep ∧ u.tb = b.tb ∧ u.bat = b.bat := by
  have hscan := congrArg State.scan h.rest
  have hstore := congrArg State.store h.rest
  have hpool := congrArg State.pool h.rest
  have hsweep := congrArg State.sweep h.rest
  have htb := congrArg State.tb h.rest
  have hbat := congrArg State.bat h.rest
  exact ⟨hscan, hstore, hpool, hsweep, htb, hbat⟩

theorem LossEnds.parts (h : LossEnds begun ls u t) :
    t.test = u.test ∧ t.store = u.store ∧ t.pool = u.pool ∧ t.sweep = u.sweep ∧ t.tb = u.tb ∧ t.bat = u.bat := by
  have htest := congrArg State.test h.rest
  have hstore := congrArg State.store h.rest
  have hpool := congrArg State.pool h.rest
  have hsweep := congrArg State.sweep h.rest
  have htb := congrArg State.tb h.rest
  have hbat := congrArg State.bat h.rest
  exact ⟨htest, hstore, hpool, hsweep, htb, hbat⟩

theorem LossEnds.linkOf (h : LossEnds begun ls u t) (k : Bank) : Machine.linkOf k t = Machine.linkOf k u := by
  have hlink := congrArg (Machine.linkOf k) h.rest
  exact Eq.trans (by cases k <;> rfl) hlink

theorem linkAfter_congr {s s' t t' : State} (hs : ∀ l, s'.line l = s.line l) (ht : ∀ l, t'.derivedMode l = t.derivedMode l) (k : Bank)
    (ls : List LineNo) (link : List LinkCommand) : linkAfter k ls s' t' link = linkAfter k ls s t link := by
  simp only [linkAfter, hs, ht]

/-- The reports of the released lines follow what stands in the journal. -/
theorem journalAs_tellAll_noteReturned {v w : State} (h : JournalAs v w) (htb : w.tb = v.tb) (ls : List LineNo) :
    JournalAs (tellAll ls (noteReturned b u) v) (tellAll ls (noteReturned b u) w) := by
  unfold tellAll
  induction ls generalizing v w with
  | nil => exact h
  | cons l ls ih =>
    rw [List.foldl_cons, List.foldl_cons]
    have hfirst := h.writeEvent htb (b.linePorts l) (some l) b.now (.holdReleased .restore .lapse (u.line l).state)
    by_cases hq : (u.line l).reasons = (b.line l).reasons
    · have hnote : ∀ v, noteReturned b u l v =
          writeEvent (b.linePorts l) (some l) b.now (.holdReleased .restore .lapse (u.line l).state) v := fun v => if_pos hq
      rw [hnote, hnote]
      exact ih hfirst (by simp [htb])
    · have hnote : ∀ v, noteReturned b u l v = writeEvent (b.linePorts l) (some l) b.now (.blockChanged (u.line l).reasons)
          (writeEvent (b.linePorts l) (some l) b.now (.holdReleased .restore .lapse (u.line l).state) v) := fun v => if_neg hq
      rw [hnote, hnote]
      exact ih (hfirst.writeEvent (by simp [htb]) _ _ _ _) (by simp [htb])

theorem Remade.buffersKept (h : Remade ls u t) : BuffersKept u t := fun q => by
  have hport := congrArg (fun v : State => v.port q) h.frame
  have hq : t.port q = u.port q := hport
  rw [hq]
  exact ⟨rfl, rfl⟩

/-- A released line's record, field by field (R166, R167). -/
theorem returnedLine_eq (m : LineNo) (sh : Shadow) (mode : FeedMode) :
    let r := b.line m
    let q : Reasons := { r.reasons with fault := (b.effective m).autoBlock && isolatingFault sh.faults }
    let state : LineState := if q = ⟨false, false⟩ then (if sh.state = .idle then .idle else .acquire) else .blocked
    returnedLine b m sh mode =
      { r with
        state := state, loop := (if state = .idle then .opened else if state = .blocked then sh.loop else .unknown)
        reasons := q, shadowSlot := none, testFeed := none, faults := sh.faults, dialRecord := sh.dialRecord, overflow := sh.overflow
        baseline := sh.baseline, run := none, acquireCount := 0, breakStart := none, hangupExpiry := none, pulseCounter := 0
        pulseDiscard := false, digitOnset := none, lastMakeStart := none, interdigitExpiry := none, interdigitHeld := false
        firstDigitExpiry := none, sentMode := mode, recoveryDiscard := r.recoveryDiscard || decide (r.sentMode = .ring) } := by
  intro r q state
  have hto : releasedTo q .restore sh = (state, if state = .idle then .opened else if state = .blocked then sh.loop else .unknown) := by
    have hstate : state = if q.controller = false ∧ q.fault = false then (if ReleaseMode.restore = .restore ∧ sh.state = .idle then .idle else .acquire)
        else .blocked := by
      refine if_congr ⟨fun h => by rw [h]; exact ⟨rfl, rfl⟩, fun h => ?_⟩ (if_congr (by simp) rfl rfl) rfl
      have heq : ∀ z : Reasons, z.controller = false → z.fault = false → z = ⟨false, false⟩ := by
        rintro ⟨_, _⟩ rfl rfl
        rfl
      exact heq q h.1 h.2
    have h := releasedTo_eq q .restore sh
    dsimp only at h
    rw [← hstate] at h
    rw [h]
    exact congrArg (Prod.mk state) (if_congr Iff.rfl rfl (if_congr (by simp) rfl rfl))
  have hq : returnedReasons m .restore sh b = q := rfl
  rw [returnedLine, hq, returned, hto]
  rfl

end

/-! ### Port T's DETACH and its expiry -/

/-- Port T's DETACH or due expiry: it leaves, the HELD lines are released, and the expiry makes slots again (R169, R188, R189, R22). -/
theorem testPort_lost {c : Instr} {fill : List Byte} {s : State} (hatt : s.attached .t = true)
    (hc : c = .detach .t (frameTail [] fill) ∨ (c = .windowExpiry .t ∧ expiryDue s.now s.portT.expiry = true)) :
    ∃ x why begun t, exec c s = .next t ∧ x ≠ .attached ∧
      (c = .windowExpiry .t → x = .lapsed ∧ why = .lapse ∧ begun = (loseTestPort (leavePort .t x why s)).begun ∧
        BuffersKept (loseTestPort (leavePort .t x why s)) t) ∧
      (¬ c = .windowExpiry .t → x = .detached ∧ why = .detach ∧ begun = false ∧
        t = answered .t 0x02 .ok [] (frameBytes [] fill) (loseTestPort (leavePort .t x why s))) ∧
      LossEnds begun s.heldLines (loseTestPort (leavePort .t x why s)) t := by
  rcases hc with rfl | ⟨rfl, hdue⟩
  · refine ⟨.detached, .detach, false, _, ?_, nofun, nofun, fun _ => ⟨rfl, rfl, rfl, rfl⟩, lossEnds_detach _ _ _⟩
    refine serve_effect rfl (by decide) rfl (.inl hatt) ?_
    have hrule : ∀ u, leaveTest .t u = loseTestPort u := fun _ => rfl
    rw [hrule, leavePort_recordOut, loseTestPort_recordOut]
    rfl
  · let u := loseTestPort (leavePort .t .lapsed .lapse s)
    have hends := lossEnds_expiry (heldLines_nodup s) u
    refine ⟨.lapsed, .lapse, u.begun, forLines s.heldLines remakeSlot u, ?_, nofun, fun _ => ⟨rfl, rfl, rfl, fun q => ?_⟩, fun hn => absurd rfl hn, hends⟩
    · have hheld : (leavePort .t .lapsed .lapse s).heldLines = s.heldLines := List.filter_congr fun l _ => by rw [line_leavePort]
      change execWindowExpiry .t s = _
      rw [execWindowExpiry, if_pos ⟨hatt, hdue⟩, lapsePort]
      have hlapse : lapseTest .t (takeoverStep .t (leavePort .t .lapsed .lapse s)) =
        forLines (leavePort .t .lapsed .lapse s).heldLines remakeSlot u := rfl
      rw [hlapse, hheld]
    · have hkept : BuffersKept u (forLines s.heldLines remakeSlot u) := (remade_lines (heldLines_nodup s) u).buffersKept
      exact hkept q

/-- Settles O11: the port leaves, its HELD lines are released one after the other (`returned_lines`), and the expiry makes the slots again that
began at its boundary (`remade_lines`). -/
theorem testPortLossReleasesLines : Obligations.TestPortLossReleasesLines := by
  intro c fill s hatt hc expired held slot begun
  obtain ⟨x, why, bg, t, hexec, hx, hexp, hdet, hends⟩ := testPort_lost hatt hc
  have hret := returned_loss x why s hx
  generalize loseTestPort (leavePort .t x why s) = u at hexp hdet hends hret
  obtain ⟨hscan, hstore, hpool, hsweep, htb, hbat⟩ := hret.parts
  obtain ⟨htest', hstore', hpool', hsweep', htb', hbat'⟩ := hends.parts
  obtain ⟨hbscan, hbstore, hbpool, hbsweep, hbtb, hbbat, hbshadows⟩ := lossOf_parts x why s
  have hblink : ∀ k, linkOf k (lossOf x why s) = linkOf k s := linkOf_lossOf x why s
  have hbnow : (lossOf x why s).now = s.now := congrArg TimeBase.counter hbtb
  have huscan : u.scan = { s.scan with testPart := 0 } := hscan.trans hbscan
  have hunow : u.now = s.now := congrArg TimeBase.counter (htb.trans hbtb)
  have hlast : u.lastSlot = slot := by
    rw [State.lastSlot, huscan]
  have htime : u.slotTime slot = timeAfter s.scan.roundStart (slot / 2) := by
    rw [State.slotTime, huscan]
  have hbegun : bg = true ↔ begun := by
    by_cases hw : c = .windowExpiry .t
    · obtain ⟨-, -, hbg, -⟩ := hexp hw
      rw [hbg, State.begun, decide_eq_true_iff, hlast, htime, hunow, huscan]
      exact (and_iff_right hw).symm
    · obtain ⟨-, -, hbg, -⟩ := hdet hw
      rw [hbg]
      exact ⟨nofun, fun hb => absurd hb.1 hw⟩
  have hxwhy : x = (if expired then .lapsed else .detached) ∧ why = (if expired then .lapse else .detach) := by
    by_cases hw : c = .windowExpiry .t
    · obtain ⟨hx, hy, -⟩ := hexp hw
      exact ⟨hx.trans (if_pos hw).symm, hy.trans (if_pos hw).symm⟩
    · obtain ⟨hx, hy, -⟩ := hdet hw
      exact ⟨hx.trans (if_neg hw).symm, hy.trans (if_neg hw).symm⟩
  obtain ⟨hxif, hwhyif⟩ := hxwhy
  have hheld : ∀ l, l ∈ s.heldLines ↔ (s.line l).state = .held := mem_heldLines s
  have hbuffers : BuffersKept s u := fun q => by
    have h1 := buffersKept_leavePort .t x why s q
    have h2 := hret.ports.1 q
    exact ⟨h2.1.trans h1.1, h2.2.trans h1.2⟩
  have hports : AttachmentsKept (lossOf x why s) t := hret.ports.2.trans hends.ports
  have hself : (lossOf x why s).port .t = { s.port .t with state := x, expiry := none } := port_leavePort_self .t x why s
  have hother : ∀ q, q ≠ .t → AttachmentKept (s.port q) (t.port q) := fun q hq => by
    obtain ⟨h1, h2, h3, h4, h5⟩ := attachmentKept_leavePort .t x why s hq
    obtain ⟨k1, k2, k3, k4, k5⟩ := hports q
    exact ⟨k1.trans h1, k2.trans h2, k3.trans h3, k4.trans h4, k5.trans h5⟩
  obtain ⟨hp1, hp2, hp3, hp4, hp5⟩ := hports .t
  rw [hself] at hp1 hp2 hp3 hp4 hp5
  have hline_out : ∀ l, (s.line l).state ≠ .held → t.line l = s.line l := fun l hl => by
    have hnot : l ∉ s.heldLines := fun hm => hl ((hheld l).1 hm)
    rw [hends.line l, if_neg fun hh => hnot hh.2.1, hret.others l hnot, line_lossOf]
  refine ⟨t, hexec, fun hw => ?_, fun hw => ?_, hp1.trans hxif, hp3, hp2, hp4, hp5, hother .a nofun, hother .b nofun, ?_, fun l => ?_, hline_out,
    fun l n sh hl hslot hsh huniq => ?_, fun n hn => ?_, ?_, fun e he => ?_, ?_, ?_, fun k => ?_, ?_, ?_, ?_, ?_, ?_, ?_⟩
  · obtain ⟨-, -, -, heq⟩ := hdet hw
    rw [heq]
    exact replies_answered hbuffers
  · obtain ⟨-, -, -, hkept⟩ := hexp hw
    exact fun q => ⟨(hkept q).1.trans (hbuffers q).1, (hkept q).2.trans (hbuffers q).2⟩
  · rw [htest', hret.queue]
  · by_cases hl : (s.line l).state = .held
    · rw [(hends.state_eq l).1]
      exact (hret.state ((hheld l).2 hl)).2
    · rw [hline_out l hl]
      exact hl
  · intro r q state flag again
    have hm : l ∈ s.heldLines := (hheld l).2 hl
    have hbline : (lossOf x why s).line l = r := line_lossOf x why s l
    obtain ⟨sh', hrec, hsame⟩ := hret.lines l hm
    obtain rfl : sh' = sh := hsame n sh (by rw [hbline]; exact hslot) (by rw [hbshadows]; exact hsh) fun k hk hne => by
      rw [line_lossOf]
      exact huniq k hne ((hheld k).1 hk)
    have hfree : t.test.shadows[n] = none := by
      rw [htest']
      exact hret.freed l hm n (by rw [hbline]; exact hslot)
    refine ⟨hfree, ?_⟩
    have hagain : (bg = true ∧ u.lastSlot < 32 ∧ l ∈ slotLines u.lastSlot ∧
        ((lossOf x why s).line l).measuring.map (fun m => m.stamp) ≠ some u.now ∧ t.derivedMode l = .normal) ↔ again := by
      rw [hbline, hunow, hlast, hbegun]
      exact ⟨fun ⟨h1, h2, h3, h4, h5⟩ => ⟨h1, h2, (mem_slotLines h2 l).1 h3, h4, h5⟩,
        fun ⟨h1, h2, h3, h4, h5⟩ => ⟨h1, h2, (mem_slotLines h2 l).2 h3, h4, h5⟩⟩
    have hrecord := hends.returned hret hm hrec
    have hfields := fun mode => returnedLine_eq (b := lossOf x why s) l sh' mode
    simp only [hbline, effective_lossOf] at hfields
    have hmark : (if flag || decide (u.bat.feed = .lost) then Mark.discard else .valid) =
        if flag = true ∨ s.bat.feed = .lost then .discard else .valid :=
      if_congr (by rw [hbat, hbbat, Bool.or_eq_true, decide_eq_true_iff]) rfl rfl
    by_cases ha : again
    · have hnormal : t.derivedMode l = .normal := ha.2.2.2.2
      rw [hrecord, if_pos (hagain.2 ha), hfields, if_pos ha, if_pos ha, ← hmark, hnormal, hunow]
      rfl
    · rw [hrecord, if_neg (mt hagain.1 ha), hfields, if_neg ha, if_neg ha]
  · rw [htest', hret.kept n fun m hm => by rw [line_lossOf]; exact hn m ((hheld m).1 hm), hbshadows]
  · refine JournalAs.trans ?_ (hret.journal.trans hends.journal)
    have hnote : noteReturned (lossOf x why s) u = fun l v =>
        let w := writeEvent (s.linePorts l) (some l) s.now (.holdReleased .restore .lapse (t.line l).state) v
        if (t.line l).reasons = (s.line l).reasons then w
        else writeEvent (s.linePorts l) (some l) s.now (.blockChanged (t.line l).reasons) w := by
      funext l v
      obtain ⟨hst, hrs⟩ := hends.state_eq l
      simp only [noteReturned, linePorts_lossOf, hbnow, line_lossOf, hst, hrs]
    have hbase : JournalAs (writeEvent (s.attachedPorts.without .t) none s.now (.portLapsed .t (if expired then .lapse else .detach)) (dropPort .t s))
        (lossOf x why s) := by
      rw [← hwhyif]
      exact (journalAs_leavePort .t x why s).trans (JournalAs.of_ports rfl fun q => by cases q <;> rfl)
    have hall := journalAs_tellAll_noteReturned (b := lossOf x why s) (u := u) hbase (by simp [hbtb]) s.heldLines
    rw [hnote] at hall ⊢
    exact hall
  · exact hret.absent e (by rw [← hends.journal.1]; exact he)
  · exact (hends.linkOf .zero).trans ((hret.links .zero).trans (by rw [hblink, linkAfter_congr (line_lossOf x why s) (fun l => (hends.mode l).symm)]; rfl))
  · exact (hends.linkOf .one).trans ((hret.links .one).trans (by rw [hblink, linkAfter_congr (line_lossOf x why s) (fun l => (hends.mode l).symm)]; rfl))
  · have hitem : u.bankItem k = s.bankItem k := by
      have h := congrArg (fun x : Scan => ({ u with scan := x } : State).bankItem k) huscan
      exact h.trans (by cases k <;> rfl)
    rw [hends.items, hitem]
    refine congrArg (fun f => (s.bankItem k).map f) (funext fun i => ?_)
    rw [hlast, hends.mode i.line, ← isTransient_eq]
    exact if_congr (by rw [hbegun, hheld]) rfl rfl
  · have h := hends.scan
    rw [huscan] at h
    exact h
  · rw [hstore', hstore, hbstore]
  · rw [hpool', hpool, hbpool]
  · rw [hsweep', hsweep, hbsweep]
  · rw [htb', htb, hbtb]
  · rw [hbat', hbat, hbbat]

end Sys2Proof.Machine
end

