-- ==== Sys2Proof/Proofs/RoundsOfRequests.lean ====
section
/-! PROOF. The rounds of a request for an offer: an offer, a skipped visit, the end of a turn and of a pass (R139 to R144). -/

namespace Sys2Proof.Machine

/-! ### The rounds of a request -/

section

variable {fuel : Nat} {begun ended : List SweepNo} {s t : State} {n : SweepNo}

/-- A turn is held, and the line of the visit at its cursor is measured: it is offered (R140). -/
theorem requestOffer_offers (hh : s.sweep.holder = some n) (hv : visitable (s.line (visitLine (s.sw n) (s.sw n).cursor)).state = true) :
    requestOffer (fuel + 1) begun ended s =
      { s with sweep := { s.sweep with offer := some ⟨n, visitLine (s.sw n) (s.sw n).cursor, (s.sw n).kind⟩ } } := by
  unfold requestOffer
  rw [hh]
  exact if_pos hv

/-- A turn is held, and its visit is skipped without an end of pass (R140). -/
theorem requestOffer_skips (hh : s.sweep.holder = some n) (hv : visitable (s.line (visitLine (s.sw n) (s.sw n).cursor)).state = false)
    (hdue : passDue (skippedVisit (s.sw n)) = false) : requestOffer (fuel + 1) begun ended s = requestOffer fuel begun ended (skipVisit n s) := by
  rw [requestOffer, hh]
  dsimp only
  rw [hv, sw_skipVisit_self, hdue]
  rfl

/-- A turn is held, and its visit is skipped with the end of its pass (R142, R144). -/
theorem requestOffer_ends (hh : s.sweep.holder = some n) (hv : visitable (s.line (visitLine (s.sw n) (s.sw n).cursor)).state = false)
    (hdue : passDue (skippedVisit (s.sw n)) = true) :
    requestOffer (fuel + 1) begun ended s = requestOffer fuel begun (n :: ended) (endPass n (skipVisit n s)) := by
  rw [requestOffer, hh]
  dsimp only
  rw [hv, sw_skipVisit_self, hdue]
  rfl

/-- No turn is held, and no sweep may begin one (R139, R144). -/
theorem requestOffer_none (hh : s.sweep.holder = none) (hn : ∀ m, m ∉ ended → eligible (s.sw m) = false) :
    requestOffer (fuel + 1) begun ended s = s := by
  unfold requestOffer
  rw [hh]
  dsimp only
  rw [nextHolder_none s ended hn]

/-- No turn is held, and the next eligible sweep begins one (R139). -/
theorem requestOffer_begins (hh : s.sweep.holder = none) (hnext : s.nextHolder ended = some n) (hn : n ∉ begun) :
    requestOffer (fuel + 1) begun ended s = requestOffer fuel (n :: begun) ended (beginTurn n s) := by
  obtain ⟨helig, hfresh⟩ := nextHolder_eligible hnext
  rw [requestOffer, hh]
  dsimp only
  rw [hnext]
  refine if_neg fun hall => ?_
  have h := List.all_eq_true.1 hall n (List.mem_finRange n)
  simp [helig, hn, hfresh] at h

theorem askOffer_of_offer {o : Offer} (h : requestOffer requestFuel [] [] s = t) (ho : t.sweep.offer = some o) : askOffer s = t := by
  unfold askOffer
  dsimp only
  rw [h, ho]

theorem askOffer_of_none (h : requestOffer requestFuel [] [] s = t) (ho : t.sweep.offer = none) :
    askOffer s = { t with scan := { t.scan with noOffer := true } } := by
  unfold askOffer
  dsimp only
  rw [h, ho]

theorem eligible_eq_false {w : Sweep} (h : w.state ≠ .active ∨ w.closing = true) : eligible w = false := by
  rcases h with h | h <;> simp [eligible, h]

theorem visitable_eq_false {st : LineState} (h : st ≠ .idle ∧ st ≠ .blocked) : visitable st = false := by
  obtain ⟨h1, h2⟩ := h
  simp [visitable, h1, h2]

theorem visitable_iff {st : LineState} : visitable st = true ↔ st = .idle ∨ st = .blocked := by simp [visitable]

theorem visitable_of_not_busy {st : LineState} (h : ¬ (st ≠ .idle ∧ st ≠ .blocked)) : visitable st = true :=
  visitable_iff.2 (by tauto)

/-- With no turn held and no sweep eligible, a request ends without an offer (R139, R141). -/
theorem askOffer_quiet (ho : s.sweep.offer = none) (hh : s.sweep.holder = none) (hn : ∀ m, eligible (s.sw m) = false) :
    askOffer s = { s with scan := { s.scan with noOffer := true } } := by
  have hreq : requestOffer requestFuel [] [] s = s := requestOffer_none (fuel := 399) hh fun m _ => hn m
  exact askOffer_of_none hreq ho

/-- A turn is held, and its visit is offered at once (R140). -/
theorem askOffer_offers (hh : s.sweep.holder = some n) (hv : visitable (s.line (visitLine (s.sw n) (s.sw n).cursor)).state = true) :
    askOffer s = { s with sweep := { s.sweep with offer := some ⟨n, visitLine (s.sw n) (s.sw n).cursor, (s.sw n).kind⟩ } } :=
  askOffer_of_offer (requestOffer_offers (fuel := 399) hh hv) rfl

theorem passesDone_sweep (ds : List (SweepNo × Nat × Nat)) (s : State) : (passesDone ds s).sweep = s.sweep := by rw [passesDone_eq, tell_sweep]

theorem sw_passesDone (ds : List (SweepNo × Nat × Nat)) (s : State) (m : SweepNo) : (passesDone ds s).sw m = s.sw m := by
  rw [State.sw, passesDone_sweep]
  rfl

/-- The sweeps after one, in cyclic order. -/
theorem later_sweep_ne (n : SweepNo) : n + 1 ≠ n ∧ n + 2 ≠ n ∧ n + 3 ≠ n := by
  revert n
  decide

/-- A CYCLIC sweep whose pass has ended is offered its visit 0 at the next request (R144). -/
theorem askOffer_first_visit {n : SweepNo} {t : State} (hh : t.sweep.holder = none) (hl : t.sweep.lastServed = n) (hn : eligible (t.sw n) = true)
    (hothers : ∀ m, m ≠ n → eligible (t.sw m) = false) (hv : visitable (t.line (visitLine (t.sw n) (t.sw n).cursor)).state = true) :
    askOffer t = { t with
      sweep := { t.sweep with holder := some n, used := 0, offer := some ⟨n, visitLine (t.sw n) (t.sw n).cursor, (t.sw n).kind⟩ } } := by
  obtain ⟨h1, h2, h3⟩ := later_sweep_ne n
  have hnext : t.nextHolder [] = some n := by
    unfold State.nextHolder
    rw [hl]
    simp [hothers _ h1, hothers _ h2, hothers _ h3, hn]
  have hbegin := requestOffer_begins (fuel := 399) (begun := []) hh hnext List.not_mem_nil
  have hoffers := requestOffer_offers (fuel := 398) (begun := [n]) (ended := []) (s := beginTurn n t) (n := n) rfl hv
  have hreq : requestOffer requestFuel [] [] t = _ := hbegin.trans hoffers
  exact askOffer_of_offer hreq rfl

/-! ### A visit skipped, and what follows -/

variable (hh : s.sweep.holder = some n) (hbusy : visitable (s.line (visitLine (s.sw n) (s.sw n).cursor)).state = false)
include hh hbusy

/-- The visit after a skipped one is offered in the same turn (R140). -/
theorem askOffer_skips_one (hlt : (s.sw n).cursor + 1 < (s.sw n).count) (hopen : (s.sw n).closing = false)
    (hused : s.sweep.used + 1 < (s.sw n).blockLength)
    (hv : visitable (s.line (visitLine (s.sw n) ((s.sw n).cursor + 1))).state = true) :
    askOffer s = { s.setSw n { s.sw n with skipped := (s.sw n).skipped + 1, cursor := (s.sw n).cursor + 1 } with
      sweep := { (s.setSw n { s.sw n with skipped := (s.sw n).skipped + 1, cursor := (s.sw n).cursor + 1 }).sweep with
        used := s.sweep.used + 1, offer := some ⟨n, visitLine (s.sw n) ((s.sw n).cursor + 1), (s.sw n).kind⟩ } } := by
  let w := s.sw n
  have hskipped : skippedVisit w = { w with skipped := w.skipped + 1, cursor := w.cursor + 1 } := if_pos hlt
  have hdue : passDue (skippedVisit w) = false := by
    rw [hskipped]
    simp [passDue, w, hopen]
  have hends : turnEnds n (s.setSw n (skippedVisit w)) = false := by
    have hused' : (s.setSw n (skippedVisit w)).sweep.used = s.sweep.used := rfl
    rw [turnEnds, State.sw_setSw_self, hused', hskipped]
    simp [w, hopen, hused]
  have hskip : skipVisit n s = { s.setSw n (skippedVisit w) with
      sweep := { (s.setSw n (skippedVisit w)).sweep with used := s.sweep.used + 1 } } := by
    have h := useVisit_eq n (s.setSw n (skippedVisit w))
    rw [hends] at h
    exact h
  have hheld : (skipVisit n s).sweep.holder = some n := by
    rw [hskip]
    exact hh
  have hsw : (skipVisit n s).sw n = { w with skipped := w.skipped + 1, cursor := w.cursor + 1 } := (sw_skipVisit_self n s).trans hskipped
  have hline : ∀ l, (skipVisit n s).line l = s.line l := fun l => by
    rw [hskip]
    rfl
  have hoffers : requestOffer 399 [] [] (skipVisit n s) = _ := requestOffer_offers (fuel := 398) hheld (by rw [hsw, hline]; exact hv)
  have hreq : requestOffer requestFuel [] [] s = _ := (requestOffer_skips (fuel := 399) hh hbusy hdue).trans hoffers
  rw [askOffer_of_offer hreq rfl, hsw, hskip, hskipped]
  rfl

omit hh hbusy in
/-- A skipped visit does not enter the reports of passes' ends. -/
theorem passesDone_skipVisit (n : SweepNo) (s : State) (ds : List (SweepNo × Nat × Nat)) :
    passesDone ds (skipVisit n s) = { passesDone ds s with sweep := (skipVisit n s).sweep } := by
  have hkind : ∀ m, ((skipVisit n s).sw m).kind = (s.sw m).kind := fun m => by
    by_cases hm : m = n
    · rw [hm, sw_skipVisit_self, skippedVisit_kind]
    · rw [sw_skipVisit_ne _ hm]
  rw [passesDone_eq, passesDone_eq, doneNotes_of_rest (s := s) (skipVisit_rest n s s.sweep) hkind, tell_withSweep]
  exact congrArg (tell _) (skipVisit_rest n s (skipVisit n s).sweep)

/-- The turn that a skipped visit ends: the sweep, the turn, and what the end of its pass writes (R139, R140, R142, R144). -/
theorem requestOffer_ends_turn (hends : turnEnds n (s.setSw n (skippedVisit (s.sw n))) = true) (fuel : Nat) :
    let dealt := skippedVisit (s.sw n)
    let u := if dealt.closing = true ∧ (s.sw n).items = 0 then (passesDone [(n, (s.sw n).measured, (s.sw n).skipped + 1)] s).setSw n (passEnded dealt)
      else s.setSw n dealt
    ∃ ended, (∀ m, m ≠ n → m ∉ ended) ∧ ((dealt.closing = true ∧ (s.sw n).items = 0) → n ∈ ended) ∧
      requestOffer (fuel + 1) [] [] s = requestOffer fuel [] ended
        { u with sweep := { u.sweep with holder := none, used := s.sweep.used + 1, lastServed := n } } := by
  intro dealt u
  have hskip : skipVisit n s = { s.setSw n dealt with
      sweep := { (s.setSw n dealt).sweep with holder := none, used := s.sweep.used + 1, lastServed := n } } := by
    have h := useVisit_eq n (s.setSw n dealt)
    rw [hends] at h
    exact h
  have hdue : passDue dealt = true ↔ dealt.closing = true ∧ (s.sw n).items = 0 := by
    rw [passDue_iff, skippedVisit_items]
  by_cases hd : passDue dealt = true
  · refine ⟨[n], fun m hm hc => hm (List.mem_singleton.1 hc), fun _ => List.mem_singleton_self n, ?_⟩
    rw [requestOffer_ends hh hbusy hd]
    congr 1
    rw [show u = _ from if_pos (hdue.1 hd), endPass_eq, sw_skipVisit_self, skippedVisit_measured, skippedVisit_skipped]
    rw [passesDone_skipVisit, hskip]
    simp [State.setSw, passesDone_sweep, dealt]
  · refine ⟨[], fun m _ => List.not_mem_nil, fun h => absurd (hdue.2 h) hd, ?_⟩
    rw [requestOffer_skips hh hbusy (Bool.eq_false_iff.2 hd), hskip, show u = _ from if_neg fun h => hd (hdue.2 h)]

omit hh hbusy in
/-- A sweep whose visit is skipped, field by field (R140, R142). -/
theorem skippedVisit_eq (w : Sweep) : skippedVisit w = { w with
    skipped := w.skipped + 1, cursor := if w.cursor + 1 < w.count then w.cursor + 1 else w.cursor
    closing := w.closing || decide (w.count ≤ w.cursor + 1) } := by
  unfold skippedVisit passOn
  by_cases h : w.cursor + 1 < w.count
  · rw [if_pos h, if_pos h, decide_eq_false (Nat.not_le.2 h), Bool.or_false]
  · rw [if_neg h, if_neg h, decide_eq_true (Nat.not_lt.1 h), Bool.or_true]

/-- The next sweep in turn is eligible: it begins a turn, and its visit is offered (R139, R140). -/
theorem askOffer_next_turn (hends : turnEnds n (s.setSw n (skippedVisit (s.sw n))) = true) (helig : eligible (s.sw (n + 1)) = true)
    (hv : visitable (s.line (visitLine (s.sw (n + 1)) (s.sw (n + 1)).cursor)).state = true) :
    let dealt := skippedVisit (s.sw n)
    let u := if dealt.closing = true ∧ (s.sw n).items = 0 then (passesDone [(n, (s.sw n).measured, (s.sw n).skipped + 1)] s).setSw n (passEnded dealt)
      else s.setSw n dealt
    askOffer s = { u with
      sweep := { u.sweep with
        holder := some (n + 1), used := 0, lastServed := n
        offer := some ⟨n + 1, visitLine (s.sw (n + 1)) (s.sw (n + 1)).cursor, (s.sw (n + 1)).kind⟩ } } := by
  intro dealt u
  obtain ⟨ended, hended, -, hturn⟩ := requestOffer_ends_turn hh hbusy hends 399
  obtain ⟨hne, -⟩ := later_sweep_ne n
  have hline : ∀ l, u.line l = s.line l := fun l => by
    simp only [u]
    split
    · rw [passesDone_eq]
      exact line_tell ..
    · rfl
  have hsw : u.sw (n + 1) = s.sw (n + 1) := by
    simp only [u]
    split
    · rw [State.sw_setSw_ne _ _ hne, sw_passesDone]
    · rw [State.sw_setSw_ne _ _ hne]
  let v : State := { u with sweep := { u.sweep with holder := none, used := s.sweep.used + 1, lastServed := n } }
  have hvsw : v.sw (n + 1) = s.sw (n + 1) := hsw
  have hnext : v.nextHolder ended = some (n + 1) := by
    have hfirst : (eligible (v.sw (n + 1)) && !ended.contains (n + 1)) = true := by
      rw [hvsw, helig]
      simpa using hended (n + 1) hne
    exact List.find?_cons_of_pos (p := fun m => eligible (v.sw m) && !ended.contains m) hfirst
  have hbegin := requestOffer_begins (fuel := 398) (begun := []) (s := v) rfl hnext List.not_mem_nil
  have hoffers := requestOffer_offers (fuel := 397) (begun := [n + 1]) (ended := ended) (s := beginTurn (n + 1) v) (n := n + 1) rfl
    (by rw [show (beginTurn (n + 1) v).sw (n + 1) = s.sw (n + 1) from hvsw, show (beginTurn (n + 1) v).line _ = s.line _ from hline _]; exact hv)
  have hreq : requestOffer requestFuel [] [] s = _ := hturn.trans (hbegin.trans hoffers)
  rw [askOffer_of_offer hreq rfl, show (beginTurn (n + 1) v).sw (n + 1) = s.sw (n + 1) from hvsw]
  rfl

/-- No other sweep is eligible, and the pass whose last visit was skipped has ended: the request ends without an offer (R142, R144). -/
theorem askOffer_last_pass (ho : s.sweep.offer = none) (hlast : (s.sw n).count ≤ (s.sw n).cursor + 1) (hitems : (s.sw n).items = 0)
    (hothers : ∀ m, m ≠ n → eligible (s.sw m) = false) :
    let u := (passesDone [(n, (s.sw n).measured, (s.sw n).skipped + 1)] s).setSw n (passEnded (s.sw n))
    askOffer s = { u with
      sweep := { u.sweep with holder := none, used := s.sweep.used + 1, lastServed := n }, scan := { s.scan with noOffer := true } } := by
  intro u
  have hcloses : (skippedVisit (s.sw n)).closing = true := by
    rw [skippedVisit_eq]
    simp [hlast]
  have hends : turnEnds n (s.setSw n (skippedVisit (s.sw n))) = true := by simp [turnEnds, hcloses]
  obtain ⟨ended, -, hin, hturn⟩ := requestOffer_ends_turn hh hbusy hends 399
  rw [if_pos ⟨hcloses, hitems⟩, passEnded_skippedVisit] at hturn
  have hscan : (passesDone [(n, (s.sw n).measured, (s.sw n).skipped + 1)] s).scan = s.scan := by rw [passesDone_eq, tell_scan]
  let v : State := { u with sweep := { u.sweep with holder := none, used := s.sweep.used + 1, lastServed := n } }
  have hvsw : ∀ m, m ≠ n → v.sw m = s.sw m := fun m hm => by
    have h : u.sw m = s.sw m := by
      simp only [u]
      rw [State.sw_setSw_ne _ _ hm, sw_passesDone]
    exact h
  have hnone : requestOffer 399 [] ended v = v := requestOffer_none (fuel := 398) rfl fun m hm => by
    have hne : m ≠ n := fun hc => hm (hc ▸ hin ⟨hcloses, hitems⟩)
    rw [hvsw m hne, hothers m hne]
  have hoffer : v.sweep.offer = none := by
    have h : u.sweep.offer = (passesDone [(n, (s.sw n).measured, (s.sw n).skipped + 1)] s).sweep.offer := rfl
    exact h.trans (by rw [passesDone_sweep, ho])
  rw [askOffer_of_none (hturn.trans hnone) hoffer]
  have hvscan : v.scan = s.scan := hscan
  rw [hvscan]

end

end Sys2Proof.Machine
end

