-- ==== Sys2Proof/Proofs/IssuesKept.lean ====
section
/-! PROOF. What the issues of a slot keep (R27 to R31, R139 to R144). -/

namespace Sys2Proof.Machine

/-! ### What the issues of a slot keep -/

/-- No turn is held, and no sweep may begin one (R139). -/
def NoTurn (s : State) : Prop := s.sweep.holder = none ∧ ∀ n, eligible (s.sw n) = false

/-- What the issues of a slot keep, whichever items they put in progress (R27 to R31). -/
structure Issued (s t : State) : Prop where
  /-- the slots -/
  nextSlot : t.scan.nextSlot = s.scan.nextSlot
  /-- the Profile Store -/
  store : t.store = s.store
  /-- the battery -/
  bat : t.bat = s.bat
  /-- the Time Base -/
  tb : t.tb = s.tb
  /-- the ports -/
  ports : PortsKept s t
  /-- the lines' states, and their measurements in progress -/
  state : ∀ l, (t.line l).state = (s.line l).state ∧ (t.line l).measuring = (s.line l).measuring
  /-- a bank that has an item in progress: the item, the link, the lines -/
  held : ∀ c i, s.bankItem c = some i → t.bankItem c = some i ∧ linkOf c t = linkOf c s ∧ ∀ l, bankOf l = c → t.line l = s.line l
  /-- the Test Queue -/
  queue : t.test.queue <:+ s.test.queue
  /-- with no test part left, the Test Access Unit -/
  test : s.scan.testPart = 0 → t.test = s.test ∧ t.scan.testPart = 0
  /-- the sweeps' kinds -/
  kind : ∀ n, (t.sw n).kind = (s.sw n).kind
  /-- the sweeps with no item in progress -/
  items : ∀ n, (t.sw n).items = 0 → (s.sw n).items = 0
  /-- the journal -/
  journal : ∃ ds, (∀ d ∈ ds, (s.sw d.1).items = 0) ∧ JournalAs (passesDone ds s) t
  /-- where no turn can begin, none does -/
  quiet : NoTurn s → NoTurn t ∧ JournalAs s t

section

variable {s t u : State}

theorem Issued.refl (s : State) : Issued s s :=
  ⟨rfl, rfl, rfl, rfl, PortsKept.refl s, fun _ => ⟨rfl, rfl⟩, fun _ _ h => ⟨h, rfl, fun _ _ => rfl⟩, List.suffix_refl _, fun h => ⟨rfl, h⟩,
    fun _ => rfl, fun _ h => h, ⟨[], nofun, JournalAs.refl s⟩, fun h => ⟨h, JournalAs.refl s⟩⟩

theorem attached_of_portsKept (h : PortsKept s t) (q : Port) : t.attached q = s.attached q :=
  congrArg (fun st => decide (st = PortState.attached)) (h.2 q).1

theorem Issued.trans (h : Issued s t) (k : Issued t u) : Issued s u := by
  refine ⟨k.nextSlot.trans h.nextSlot, k.store.trans h.store, k.bat.trans h.bat, k.tb.trans h.tb, h.ports.trans k.ports,
    fun l => ⟨(k.state l).1.trans (h.state l).1, (k.state l).2.trans (h.state l).2⟩, fun c i hi => ?_, k.queue.trans h.queue, fun hp => ?_,
    fun n => (k.kind n).trans (h.kind n), fun n hn => h.items n (k.items n hn), ?_, fun hq => ?_⟩
  · obtain ⟨hi, hlink, hline⟩ := h.held c i hi
    obtain ⟨hi', hlink', hline'⟩ := k.held c i hi
    exact ⟨hi', hlink'.trans hlink, fun l hl => (hline' l hl).trans (hline l hl)⟩
  · obtain ⟨htest, hpart⟩ := h.test hp
    obtain ⟨htest', hpart'⟩ := k.test hpart
    exact ⟨htest'.trans htest, hpart'⟩
  · obtain ⟨ds, hds, hj⟩ := h.journal
    obtain ⟨es, hes, hk⟩ := k.journal
    have hnote : doneNote t = doneNote s :=
      funext (doneNote_congr (attached_of_portsKept h.ports) (congrArg TimeBase.counter h.tb) h.kind)
    have htb : t.tb = (passesDone ds s).tb := by rw [passesDone_eq, tell_tb, h.tb]
    have happend : passesDone (ds ++ es) s = tell (es.map (doneNote s)) (passesDone ds s) := by
      rw [passesDone_eq, passesDone_eq, List.map_append, tell_append]
    have hrest : passesDone es t = tell (es.map (doneNote s)) t := by rw [passesDone_eq, hnote]
    refine ⟨ds ++ es, fun d hd => (List.mem_append.1 hd).elim (hds d) fun hd => h.items d.1 (hes d hd), ?_⟩
    rw [happend]
    exact (hj.tell htb _).trans (hrest ▸ hk)
  · obtain ⟨hq', hj⟩ := h.quiet hq
    obtain ⟨hq'', hk⟩ := k.quiet hq'
    exact ⟨hq'', hj.trans hk⟩

/-- The mode of a line whose bank has an item in progress (R35). -/
theorem Issued.derivedMode (h : Issued s t) {l : LineNo} {i : Item} (hi : s.bankItem (bankOf l) = some i) : t.derivedMode l = s.derivedMode l := by
  obtain ⟨hi', -, hline⟩ := h.held _ i hi
  have hl := hline l rfl
  refine derivedMode_eq (by rw [hl]) (by rw [hl]) (by rw [hl]) (by rw [hl]) h.store ?_
  rw [State.itemOn, State.itemOn, hi, hi']

/-- A step of the issue that touches neither feeds nor Test Queue nor journal. -/
theorem Issued.of_sweep (hrest : { t with sweep := s.sweep } = s) (hkind : ∀ n, (t.sw n).kind = (s.sw n).kind)
    (hitems : ∀ n, (t.sw n).items = 0 → (s.sw n).items = 0) (hquiet : NoTurn s → NoTurn t) : Issued s t := by
  have hscan : t.scan = s.scan := by
    have h := congrArg State.scan hrest
    exact h
  have hstore := congrArg State.store hrest
  have hbat := congrArg State.bat hrest
  have htb := congrArg State.tb hrest
  have hlines : t.lines = s.lines := by
    have h := congrArg State.lines hrest
    exact h
  have htest : t.test = s.test := by
    have h := congrArg State.test hrest
    exact h
  have hport : ∀ q, t.port q = s.port q := fun q => by
    have h := congrArg (fun v : State => v.port q) hrest
    exact h
  have hlink : ∀ c, linkOf c t = linkOf c s := fun c => by
    have h := congrArg (linkOf c) hrest
    exact Eq.trans (by cases c <;> rfl) h
  have hjournal : JournalAs s t := JournalAs.of_sweep hrest
  have hline : ∀ l, t.line l = s.line l := State.line_congr hlines
  refine ⟨by rw [hscan], hstore, hbat, htb, PortsKept.of_eq hport, fun l => by rw [hline]; exact ⟨rfl, rfl⟩, fun c i hi => ⟨?_, hlink c, fun l _ => hline l⟩,
    by rw [htest], fun hp => ⟨htest, by rw [hscan]; exact hp⟩, hkind, hitems, ⟨[], nofun, hjournal⟩, fun hq => ⟨hquiet hq, hjournal⟩⟩
  have hbank := bankItem_congr hscan c
  rw [hbank, hi]

end

/-! ### The steps of an issue -/

section

variable {s : State}

theorem line_issueItem_ne (o : Origin) (k : ItemKind) (slot : Nat) {l m : LineNo} (h : m ≠ l) : (issueItem l k o slot s).line m = s.line m := by
  have hsee : ∀ c u, (seeBank c u).line m = u.line m := fun c u => by
    unfold seeBank
    split
    · exact line_setBankItem ..
    · rfl
  rw [issueItem, hsee, recomputeFeedWith_line_ne _ h, line_setBankItem]

/-- The item that an issue puts in progress, before its first slot (R31). -/
def freshItem (l : LineNo) (k : ItemKind) (o : Origin) (slot : Nat) : Item := ⟨l, k, o, slot + itemSlots k - 1, false, false, false, false⟩

/-- A line's item is in progress, and its feed mode follows (R31, R36, R37). -/
def feedIssue (l : LineNo) (k : ItemKind) (o : Origin) (slot : Nat) (s : State) : State :=
  recomputeFeedWith (issueOrder k) l (s.setBankItem (bankOf l) (some (freshItem l k o slot)))

theorem bankItem_feedIssue (l : LineNo) (k : ItemKind) (o : Origin) (slot : Nat) (c : Bank) :
    (feedIssue l k o slot s).bankItem c = (s.setBankItem (bankOf l) (some (freshItem l k o slot))).bankItem c :=
  bankItem_congr (recomputeFeedWith_scan ..) c

/-- An issue: the item in progress, the feed, and the item's first slot (R31). -/
theorem issueItem_eq (l : LineNo) (k : ItemKind) (o : Origin) (slot : Nat) :
    issueItem l k o slot s = (feedIssue l k o slot s).setBankItem (bankOf l)
      (some (seeSlot ((feedIssue l k o slot s).derivedMode l) (freshItem l k o slot))) := by
  have hitem : (feedIssue l k o slot s).bankItem (bankOf l) = some (freshItem l k o slot) := by
    rw [bankItem_feedIssue, State.bankItem_setBankItem_self]
  have hfold : issueItem l k o slot s = seeBank (bankOf l) (feedIssue l k o slot s) := rfl
  rw [hfold, seeBank, hitem]
  rfl

/-- The first slot of an item changes no mode (R35). -/
theorem derivedMode_issueItem (l : LineNo) (k : ItemKind) (o : Origin) (slot : Nat) :
    (issueItem l k o slot s).derivedMode l = (feedIssue l k o slot s).derivedMode l := by
  have hline : (issueItem l k o slot s).line l = (feedIssue l k o slot s).line l := by rw [issueItem_eq, line_setBankItem]
  have hstore : (issueItem l k o slot s).store = (feedIssue l k o slot s).store := by rw [issueItem_eq, State.setBankItem_store]
  refine derivedMode_congr (by rw [hline]; exact SameFeed.refl _) (congrArg Profile.autoBlock (effective_congr hstore l)) ?_
  rw [State.itemOn, State.itemOn, bankItem_feedIssue, State.bankItem_setBankItem_self, issueItem_eq, State.bankItem_setBankItem_self]
  simp [Option.filter_some, seeSlot, reseeSlot, freshItem]

/-- The line after its item has issued (R36). -/
theorem line_issueItem_self (l : LineNo) (k : ItemKind) (o : Origin) (slot : Nat) :
    (issueItem l k o slot s).line l = noteMode ((issueItem l k o slot s).derivedMode l) (s.line l) := by
  rw [derivedMode_issueItem, issueItem_eq, line_setBankItem, feedIssue, recomputeFeedWith_line_self, derivedMode_recomputeFeedWith,
    line_setBankItem]

/-- The command that an issue sends on its bank's link (R31, R36, R37). -/
theorem linkOf_issueItem (l : LineNo) (k : ItemKind) (o : Origin) (slot : Nat) (c : Bank) :
    linkOf c (issueItem l k o slot s) = linkOf c s ++
      if bankOf l = c ∧ ((issueItem l k o slot s).derivedMode l ≠ (s.line l).sentMode ∨ issueOrder k ≠ .none)
        then [⟨positionOf l, (issueItem l k o slot s).derivedMode l, issueOrder k⟩] else [] := by
  let v := s.setBankItem (bankOf l) (some (freshItem l k o slot))
  have hmode : (issueItem l k o slot s).derivedMode l = v.derivedMode l := by
    rw [derivedMode_issueItem, feedIssue, derivedMode_recomputeFeedWith]
  have hsee : linkOf c (issueItem l k o slot s) = linkOf c (recomputeFeedWith (issueOrder k) l v) := by
    rw [issueItem_eq]
    cases c
    · exact State.setBankItem_link0 ..
    · exact State.setBankItem_link1 ..
  have hv : linkOf c v = linkOf c s := by
    cases c
    · exact State.setBankItem_link0 ..
    · exact State.setBankItem_link1 ..
  have hline : v.line l = s.line l := line_setBankItem ..
  rw [hsee, hmode, ← hv, ← hline]
  by_cases hm : v.derivedMode l ≠ (v.line l).sentMode ∨ issueOrder k ≠ .none
  · rw [recomputeFeedWith_sends hm]
    unfold sendCommand
    cases hb : bankOf l <;> cases c <;> simp [linkOf, hm]
  · have hsame : recomputeFeedWith (issueOrder k) l v = v := if_pos (by tauto)
    rw [hsame, if_neg fun hc => hm hc.2, List.append_nil]

/-- Of the Scan Engine, an issue changes its bank's item alone (R31). -/
theorem issueItem_scan (l : LineNo) (k : ItemKind) (o : Origin) (slot : Nat) :
    (issueItem l k o slot s).scan.nextSlot = s.scan.nextSlot ∧ (issueItem l k o slot s).scan.testPart = s.scan.testPart ∧
      (issueItem l k o slot s).scan.noOffer = s.scan.noOffer := by
  have hset : ∀ (u : State) c i, (u.setBankItem c i).scan.nextSlot = u.scan.nextSlot ∧ (u.setBankItem c i).scan.testPart = u.scan.testPart ∧
      (u.setBankItem c i).scan.noOffer = u.scan.noOffer := fun u c i => by cases c <;> exact ⟨rfl, rfl, rfl⟩
  obtain ⟨h1, h2, h3⟩ := hset (feedIssue l k o slot s) (bankOf l) (some (seeSlot ((feedIssue l k o slot s).derivedMode l) (freshItem l k o slot)))
  obtain ⟨k1, k2, k3⟩ := hset s (bankOf l) (some (freshItem l k o slot))
  have hscan : (feedIssue l k o slot s).scan = (s.setBankItem (bankOf l) (some (freshItem l k o slot))).scan := recomputeFeedWith_scan ..
  rw [issueItem_eq, h1, h2, h3, hscan]
  exact ⟨k1, k2, k3⟩

/-- An issue writes no event, and touches neither sweeps nor Test Queue. -/
theorem issueItem_keeps (l : LineNo) (k : ItemKind) (o : Origin) (slot : Nat) :
    (issueItem l k o slot s).journal = s.journal ∧ (∀ q, (issueItem l k o slot s).port q = s.port q) ∧
      (issueItem l k o slot s).sweep = s.sweep ∧ (issueItem l k o slot s).test = s.test := by
  refine ⟨?_, fun q => ?_, ?_, ?_⟩ <;> simp [issueItem_eq, feedIssue]

/-- An item issues (R31). -/
theorem issued_issueItem {l : LineNo} {k : ItemKind} {slot : Nat} (o : Origin) (h : s.canIssue l k slot = true) :
    Issued s (issueItem l k o slot s) := by
  have hfree : s.bankItem (bankOf l) = none := by
    simp only [State.canIssue, Bool.and_eq_true, Option.isNone_iff_eq_none] at h
    exact h.1.1
  obtain ⟨hjournal, hport, hsweep, htest⟩ := issueItem_keeps (s := s) l k o slot
  obtain ⟨hslot, hpart, -⟩ := issueItem_scan (s := s) l k o slot
  have hsw : ∀ n, (issueItem l k o slot s).sw n = s.sw n := fun n => by simp only [State.sw, hsweep]
  have hj : JournalAs s (issueItem l k o slot s) := JournalAs.of_ports hjournal hport
  refine ⟨hslot, by simp [issueItem_eq, feedIssue], by simp [issueItem_eq, feedIssue], by simp [issueItem_eq, feedIssue], PortsKept.of_eq hport,
    fun m => ?_, fun c i hi => ?_, by rw [htest], fun hp => ⟨htest, by rw [hpart]; exact hp⟩, fun n => by rw [hsw], fun n hn => by rw [← hsw]; exact hn,
    ⟨[], nofun, hj⟩, fun hq => ⟨⟨by rw [hsweep]; exact hq.1, fun n => by rw [hsw]; exact hq.2 n⟩, hj⟩⟩
  · by_cases hm : m = l
    · rw [hm, line_issueItem_self]
      exact ⟨rfl, rfl⟩
    · rw [line_issueItem_ne o k slot hm]
      exact ⟨rfl, rfl⟩
  · have hc : c ≠ bankOf l := fun hc => by
      rw [hc, hfree] at hi
      cases hi
    refine ⟨?_, ?_, fun m hm => line_issueItem_ne o k slot fun hml => hc (by rw [← hm, hml])⟩
    · rw [issueItem_eq, State.bankItem_setBankItem_ne _ _ hc, bankItem_feedIssue, State.bankItem_setBankItem_ne _ _ hc, hi]
    · rw [linkOf_issueItem, if_neg fun hb => hc hb.1.symm, List.append_nil]

/-- The first item of the Test Queue leaves it (R27). -/
theorem issued_takeTestItem {x : TestItem} {rest : List TestItem} (hq : s.test.queue = x :: rest) (hp : 0 < s.scan.testPart) :
    Issued s (takeTestItem rest s) :=
  ⟨rfl, rfl, rfl, rfl, PortsKept.of_eq fun _ => rfl, fun _ => ⟨rfl, rfl⟩,
    fun c _ hi => ⟨by cases c <;> exact hi, by cases c <;> rfl, fun _ _ => rfl⟩, by rw [hq]; exact List.suffix_cons x rest,
    fun h0 => absurd h0 (Nat.pos_iff_ne_zero.1 hp), fun _ => rfl, fun _ h => h, ⟨[], nofun, JournalAs.refl s⟩, fun h => ⟨h, JournalAs.refl s⟩⟩

/-- An offer has issued (R142). -/
theorem issued_issueVisit (n : SweepNo) : Issued s (issueVisit n s) := by
  have hpass : ∀ w, (passOn w).kind = w.kind ∧ (eligible w = false → eligible { passOn w with items := w.items + 1 } = false) := fun w => by
    unfold passOn
    split
    · exact ⟨rfl, fun h => h⟩
    · exact ⟨rfl, fun _ => by simp [eligible]⟩
  have hsw : ∀ m, (issueVisit n s).sw m = if m = n then { passOn (s.sw n) with items := (s.sw n).items + 1 } else s.sw m := fun m => by
    by_cases hm : m = n
    · rw [if_pos hm, hm, issueVisit, sw_useVisit, State.sw_setSw_self]
    · rw [if_neg hm, issueVisit, sw_useVisit, State.sw_setSw_ne _ _ hm]
      rfl
  refine Issued.of_sweep ?_ (fun m => ?_) (fun m hm => ?_) fun hq => ⟨?_, fun m => ?_⟩
  · rw [issueVisit, useVisit_eq]
    rfl
  · rw [hsw]
    split
    · rename_i h
      rw [h]
      exact (hpass _).1
    · rfl
  · rw [hsw] at hm
    split at hm
    · cases hm
    · exact hm
  · obtain ⟨hheld, -⟩ := hq
    rw [issueVisit, useVisit_eq]
    dsimp only
    split
    · rfl
    · exact hheld
  · rw [hsw]
    split
    · exact (hpass _).2 (hq.2 n)
    · exact hq.2 m

/-- The kinds and the items in progress of the sweeps, through a request for an offer (R140 to R144). -/
theorem sw_requestOffer (fuel : Nat) (begun ended : List SweepNo) (s : State) (n : SweepNo) :
    ((requestOffer fuel begun ended s).sw n).kind = (s.sw n).kind ∧ ((requestOffer fuel begun ended s).sw n).items = (s.sw n).items := by
  refine requestOffer_keeps (P := fun u => (u.sw n).kind = (s.sw n).kind ∧ (u.sw n).items = (s.sw n).items) (fun _ _ h _ => h)
    (fun m u h _ => ?_) (fun m u h _ => ?_) (fun _ _ _ _ h _ => h) fuel begun ended s ⟨rfl, rfl⟩
  · by_cases hm : n = m
    · subst hm
      rw [sw_skipVisit_self, skippedVisit_kind, skippedVisit_items]
      exact h
    · rw [sw_skipVisit_ne _ hm]
      exact h
  · by_cases hm : n = m
    · subst hm
      rw [sw_endPass_self]
      exact h
    · rw [sw_endPass_ne hm]
      exact h

/-- An offer is asked for (R141). -/
theorem issued_askOffer (ho : s.sweep.offer = none) : Issued s (askOffer s) := by
  obtain ⟨ds, hds, hrest⟩ := askOffer_rest s
  have hsw : ∀ n, (askOffer s).sw n = (requestOffer requestFuel [] [] s).sw n := fun n => by
    unfold askOffer
    dsimp only
    split <;> rfl
  have hslot : (askOffer s).scan.nextSlot = s.scan.nextSlot ∧ (askOffer s).scan.testPart = s.scan.testPart ∧
      ∀ c, (askOffer s).bankItem c = s.bankItem c := by
    obtain ⟨es, t, hreq, hask⟩ := askOffer_requested s
    have hscan : t.scan = s.scan := by
      have h := congrArg State.scan hreq.rest
      rw [tell_scan] at h
      exact h
    have hnext : t.scan.nextSlot = s.scan.nextSlot := congrArg Scan.nextSlot hscan
    have hpart : t.scan.testPart = s.scan.testPart := congrArg Scan.testPart hscan
    have hbank := bankItem_congr hscan
    rw [hask]
    split
    · exact ⟨hnext, hpart, fun c => Eq.trans (by cases c <;> rfl) (hbank c)⟩
    · exact ⟨hnext, hpart, hbank⟩
  obtain ⟨hnext, hpart, hbank⟩ := hslot
  rw [passesDone_eq] at hrest
  have hstore := (congrArg State.store hrest).trans (tell_store ..)
  have hbat := (congrArg State.bat hrest).trans (tell_bat ..)
  have htb := (congrArg State.tb hrest).trans (tell_tb ..)
  have htest : (askOffer s).test = s.test := (congrArg State.test hrest).trans (tell_test ..)
  have hline : ∀ l, (askOffer s).line l = s.line l := State.line_congr (askOffer_lines s)
  have hlink : ∀ c, linkOf c (askOffer s) = linkOf c s := fun c => by
    cases c
    · exact (congrArg State.link0 hrest).trans (tell_link0 ..)
    · exact (congrArg State.link1 hrest).trans (tell_link1 ..)
  have hjournal : JournalAs (passesDone ds s) (askOffer s) := by
    rw [passesDone_eq]
    have hj := congrArg State.journal hrest
    have hg := fun q => congrArg (fun u : State => (u.port q).gap) hrest
    exact ⟨hj, hg⟩
  refine ⟨hnext, hstore, hbat, htb, (keeps_askOffer s).ports, fun l => by rw [hline]; exact ⟨rfl, rfl⟩,
    fun c i hi => ⟨by rw [hbank, hi], hlink c, fun l _ => hline l⟩, by rw [htest], fun hp => ⟨htest, by rw [hpart, hp]⟩,
    fun n => by rw [hsw]; exact (sw_requestOffer ..).1, fun n hn => ?_, ⟨ds, hds, hjournal⟩, fun hq => ?_⟩
  · rw [hsw, (sw_requestOffer ..).2] at hn
    exact hn
  · rw [askOffer_quiet ho hq.1 hq.2]
    exact ⟨hq, JournalAs.of_ports rfl fun _ => rfl⟩

theorem wantOffer_cases (s : State) : wantOffer s = s ∨ (s.sweep.offer = none ∧ s.scan.noOffer = false ∧ wantOffer s = askOffer s) := by
  unfold wantOffer
  cases ho : s.sweep.offer with
  | some o => exact .inl rfl
  | none =>
    cases hn : s.scan.noOffer with
    | true => exact .inl rfl
    | false => exact .inr ⟨rfl, rfl, rfl⟩

theorem issued_wantOffer (s : State) : Issued s (wantOffer s) := by
  rcases wantOffer_cases s with h | ⟨ho, -, h⟩ <;> rw [h]
  · exact Issued.refl s
  · exact issued_askOffer ho

/-- The issues of a slot, in sequence order (R27 to R30). -/
theorem issued_issueLoop (slot fuel : Nat) (s : State) : Issued s (issueLoop slot fuel s) := by
  induction fuel generalizing s with
  | zero => exact Issued.refl s
  | succ fuel ih =>
    unfold issueLoop
    split
    next hp =>
      cases hq : s.test.queue with
      | nil => exact Issued.refl s
      | cons x rest =>
        dsimp only
        split
        next h => exact ((issued_takeTestItem hq hp).trans (issued_issueItem (s := takeTestItem rest s) .test h)).trans (ih _)
        next => exact Issued.refl s
    next =>
      dsimp only
      split
      next => exact issued_wantOffer s
      next o _ =>
        split
        next h => exact (((issued_wantOffer s).trans (issued_issueItem _ h)).trans (issued_issueVisit _)).trans (ih _)
        next => exact issued_wantOffer s

end

end Sys2Proof.Machine
end

