-- ==== Sys2Proof/Proofs/SweepSlotStarts.lean ====
section
/-! PROOF. The start of a sweep slot: the first item that issues, and the items in progress (R22, R27 to R33). -/

namespace Sys2Proof.Machine

/-! ### The rounds of the issues of a slot -/

section

variable {slot fuel : Nat} {s : State}

theorem issueLoop_test {x : TestItem} {rest : List TestItem} (hp : 0 < s.scan.testPart) (hq : s.test.queue = x :: rest)
    (hc : (s.canIssue x.line x.kind slot) = true) :
    issueLoop slot (fuel + 1) s = issueLoop slot fuel (issueItem x.line x.kind .test slot (takeTestItem rest s)) := by
  rw [issueLoop, if_pos hp, hq]
  exact if_pos hc

theorem issueLoop_offer {o : Offer} (hp : s.scan.testPart = 0) (ho : (wantOffer s).sweep.offer = some o)
    (hc : (wantOffer s).canIssue o.line (sweepItem o.kind) slot = true) :
    issueLoop slot (fuel + 1) s = issueLoop slot fuel (issueOffer o slot (wantOffer s)) := by
  rw [issueLoop, if_neg (by omega)]
  dsimp only
  rw [ho]
  exact if_pos hc

theorem issueLoop_waits {o : Offer} (hp : s.scan.testPart = 0) (ho : (wantOffer s).sweep.offer = some o)
    (hc : (wantOffer s).canIssue o.line (sweepItem o.kind) slot = false) : issueLoop slot (fuel + 1) s = wantOffer s := by
  rw [issueLoop, if_neg (by omega)]
  dsimp only
  rw [ho]
  exact if_neg (by simp [hc])

theorem issueLoop_no_offer (hp : s.scan.testPart = 0) (ho : (wantOffer s).sweep.offer = none) : issueLoop slot (fuel + 1) s = wantOffer s := by
  rw [issueLoop, if_neg (by omega)]
  dsimp only
  rw [ho]

theorem wantOffer_of_offer {o : Offer} (ho : s.sweep.offer = some o) : wantOffer s = s := by rw [wantOffer, ho]

theorem wantOffer_asks (ho : s.sweep.offer = none) (hn : s.scan.noOffer = false) : wantOffer s = askOffer s := by
  rw [wantOffer, ho]
  exact if_neg (by simp [hn])

theorem canIssue_of_free {l : LineNo} {k : ItemKind} (h0 : s.scan.item0 = none) (h1 : s.scan.item1 = none) (hfit : slot + itemSlots k ≤ 40) :
    s.canIssue l k slot = true := by
  have hbank : s.bankItem (bankOf l) = none := by
    cases bankOf l
    · exact h0
    · exact h1
  have hfits : slot + itemSlots k ≤ Config.roundSlots := hfit
  simp [State.canIssue, State.sourceFree, hbank, h0, h1, hfits]

/-! ### The start of a sweep slot -/

/-- A slot has begun (R20). -/
def slotBegun (s : State) : State := { s with scan := { s.scan with nextSlot := s.scan.nextSlot + 1 } }

/-- The state in which the issues of a sweep slot begin, both banks free (R27). -/
def sweepSlotBegun (s : State) : State :=
  { s with
    scan := { s.scan with
      nextSlot := s.scan.nextSlot + 1
      testPart := if s.scan.nextSlot = 32 then s.test.queue.length else s.scan.testPart } }

theorem exec_slotStart (hdue : s.slotDue = true) (h32 : 32 ≤ s.scan.nextSlot) :
    exec .slotStart s = .next (issueLoop s.scan.nextSlot 3 (fixTestPart s.scan.nextSlot (seeBank .one (seeBank .zero (slotBegun s))))) := by
  have hge : ¬ s.scan.nextSlot < Config.sweepSlot := Nat.not_lt.2 h32
  change execSlotStart s = _
  rw [execSlotStart, if_pos hdue, startSlot, if_neg hge]
  rfl

theorem exec_slotStart_free (hdue : s.slotDue = true) (h32 : 32 ≤ s.scan.nextSlot) (h0 : s.scan.item0 = none) (h1 : s.scan.item1 = none) :
    exec .slotStart s = .next (issueLoop s.scan.nextSlot 3 (sweepSlotBegun s)) := by
  have hsee : ∀ (c : Bank) (u : State), u.bankItem c = none → seeBank c u = u := fun c u h => by rw [seeBank, h]
  rw [exec_slotStart hdue h32, hsee .zero (slotBegun s) h0, hsee .one (slotBegun s) h1]
  unfold fixTestPart sweepSlotBegun
  by_cases h : s.scan.nextSlot = 32
  · have hsweep : s.scan.nextSlot = Config.sweepSlot := h
    rw [if_pos hsweep, if_pos h]
    rfl
  · have hsweep : ¬ s.scan.nextSlot = Config.sweepSlot := h
    rw [if_neg hsweep, if_neg h]
    rfl

/-! ### The item that issues -/

/-- The first item of a slot has issued in `w`, and the other issues of the slot have followed (R31, R36, R37). -/
theorem issued_first {w t : State} {l : LineNo} {k : ItemKind} {o : Origin} (h : Issued (issueItem l k o slot w) t) :
    t.bankItem (bankOf l) = some (seeSlot (t.derivedMode l) (freshItem l k o slot)) ∧ (t.line l).sentMode = t.derivedMode l ∧
      linkOf (bankOf l) t = linkOf (bankOf l) w ++
        (if k = .diagUp ∨ k = .diagDown then [⟨positionOf l, t.derivedMode l, .connect⟩]
        else if t.derivedMode l = (w.line l).sentMode then [] else [⟨positionOf l, t.derivedMode l, .none⟩]) := by
  have hitem : (issueItem l k o slot w).bankItem (bankOf l) =
      some (seeSlot ((issueItem l k o slot w).derivedMode l) (freshItem l k o slot)) := by
    rw [derivedMode_issueItem, issueItem_eq, State.bankItem_setBankItem_self]
  obtain ⟨hitem', hlink, hline⟩ := h.held _ _ hitem
  have hmode : t.derivedMode l = (issueItem l k o slot w).derivedMode l := h.derivedMode hitem
  refine ⟨by rw [hmode]; exact hitem', by rw [hline l rfl, hmode, line_issueItem_self]; rfl, ?_⟩
  rw [hlink, linkOf_issueItem, hmode]
  congr 1
  have horder : issueOrder k = if k = .diagUp ∨ k = .diagDown then .connect else .none := by cases k <;> rfl
  by_cases hdiag : k = .diagUp ∨ k = .diagDown
  · rw [if_pos hdiag] at horder ⊢
    rw [horder, if_pos ⟨rfl, .inr nofun⟩]
  · rw [if_neg hdiag] at horder ⊢
    rw [horder]
    by_cases hm : (issueItem l k o slot w).derivedMode l = (w.line l).sentMode
    · rw [if_pos hm, if_neg fun hc => hc.2.elim (fun hn => hn hm) fun hn => hn rfl]
    · rw [if_neg hm, if_pos ⟨rfl, .inl hm⟩]

theorem linkOf_bankOf (l : LineNo) (s : State) : linkOf (bankOf l) s = if l.val < 32 then s.link0 else s.link1 := by
  unfold bankOf
  split <;> rfl

/-- The mark of an item after its first slot (R33). -/
theorem disturbed_freshItem (m : FeedMode) (l : LineNo) (k : ItemKind) (o : Origin) (slot : Nat) :
    (seeSlot m (freshItem l k o slot)).disturbed = decide (m ≠ itemMode k) := Bool.false_or _

/-- The ends of passes are reported alike in a state that differs in the scan and the Test Queue. -/
theorem journalAs_passesDone {s w : State} (hp : ∀ q, w.port q = s.port q) (hj : w.journal = s.journal) (htb : w.tb = s.tb) (hsw : w.sweep = s.sweep)
    (ds : List (SweepNo × Nat × Nat)) : JournalAs (passesDone ds s) (passesDone ds w) := by
  have hnote : doneNote w = doneNote s := funext (doneNote_congr (attached_of_portsKept (PortsKept.of_eq hp)) (congrArg TimeBase.counter htb)
    fun n => by simp only [State.sw, hsw])
  rw [passesDone_eq, passesDone_eq, hnote]
  exact (JournalAs.of_ports hj hp).tell htb _

/-! ### A further slot -/

theorem derivedMode_seeBank (c : Bank) (u : State) (m : LineNo) : (seeBank c u).derivedMode m = u.derivedMode m := by
  cases hi : u.bankItem c with
  | none => rw [seeBank, hi]
  | some i =>
    have hsee : seeBank c u = u.setBankItem c (some (seeSlot (u.derivedMode i.line) i)) := by rw [seeBank, hi]
    have hline : (seeBank c u).line m = u.line m := by rw [hsee, line_setBankItem]
    have hstore : (seeBank c u).store = u.store := by rw [hsee, State.setBankItem_store]
    refine derivedMode_congr (by rw [hline]; exact SameFeed.refl _) (congrArg Profile.autoBlock (effective_congr hstore m)) ?_
    rw [State.itemOn, State.itemOn, hsee]
    by_cases hc : bankOf m = c
    · rw [hc, State.bankItem_setBankItem_self, hi]
      by_cases hl : i.line = m <;> simp [Option.filter_some, seeSlot, reseeSlot, hl]
    · rw [State.bankItem_setBankItem_ne _ _ hc]

theorem bankItem_seeBank (c d : Bank) (u : State) :
    (seeBank c u).bankItem d = if c = d then (u.bankItem d).map (fun i => seeSlot (u.derivedMode i.line) i) else u.bankItem d := by
  unfold seeBank
  by_cases hc : c = d
  · subst hc
    rw [if_pos rfl]
    cases hi : u.bankItem c with
    | none => exact hi
    | some i => exact State.bankItem_setBankItem_self ..
  · rw [if_neg hc]
    cases hi : u.bankItem c with
    | none => rfl
    | some i => exact State.bankItem_setBankItem_ne _ _ (Ne.symm hc)

/-- Each item in progress sees the slot that starts (R22, R33). -/
theorem bankItem_slotStart (u : State) (k : Nat) (c : Bank) :
    (fixTestPart k (seeBank .one (seeBank .zero u))).bankItem c = (u.bankItem c).map (fun i => seeSlot (u.derivedMode i.line) i) := by
  have hfix : ∀ v : State, (fixTestPart k v).bankItem c = v.bankItem c := fun v => by
    unfold fixTestPart
    split
    · cases c <;> rfl
    · rfl
  rw [hfix, bankItem_seeBank, bankItem_seeBank]
  cases c <;> simp [derivedMode_seeBank]

end

end Sys2Proof.Machine
end

