-- ==== Sys2Proof/Proofs/TurnAfterIssue.lean ====
section
/-! PROOF. The turn after an offer has issued (R29, R139 to R142). -/

namespace Sys2Proof.Machine

/-! ### The turn after an issue -/

section

variable {v : State} {n : SweepNo} {slot fuel : Nat}

theorem issueVisit_eq {w : Sweep} {ends : Bool} (hw : { passOn (v.sw n) with items := (v.sw n).items + 1 } = w)
    (hends : (decide (w.blockLength ≤ v.sweep.used + 1) || w.closing) = ends) :
    issueVisit n v = { v.setSw n w with
      sweep := { (v.setSw n w).sweep with
        used := v.sweep.used + 1, offer := none
        holder := if ends then none else v.sweep.holder, lastServed := if ends then n else v.sweep.lastServed } } := by
  have hturn : turnEnds n ((withdrawOffer v).setSw n w) = ends := by
    rw [turnEnds, State.sw_setSw_self]
    exact hends
  have h := useVisit_eq n ((withdrawOffer v).setSw n w)
  rw [hturn] at h
  rw [issueVisit, hw]
  exact h

/-- The last visit of a pass has issued: the pass begins closing, and the turn ends (R139, R142). -/
theorem issueVisit_closes (hlast : (v.sw n).count ≤ (v.sw n).cursor + 1) :
    issueVisit n v = { v.setSw n { v.sw n with items := (v.sw n).items + 1, closing := true } with
      sweep := { (v.setSw n { v.sw n with items := (v.sw n).items + 1, closing := true }).sweep with
        used := v.sweep.used + 1, offer := none, holder := none, lastServed := n } } := by
  have hpass : passOn (v.sw n) = { v.sw n with closing := true } := if_neg (Nat.not_lt.2 hlast)
  exact issueVisit_eq (ends := true) (by rw [hpass]) (Bool.or_true _)

/-- A visit has issued that ends neither the pass nor the turn (R139, R142). -/
theorem issueVisit_goes_on (hlt : (v.sw n).cursor + 1 < (v.sw n).count) (hopen : (v.sw n).closing = false)
    (hused : v.sweep.used + 1 < (v.sw n).blockLength) :
    issueVisit n v = { v.setSw n { v.sw n with items := (v.sw n).items + 1, cursor := (v.sw n).cursor + 1 } with
      sweep := { (v.setSw n { v.sw n with items := (v.sw n).items + 1, cursor := (v.sw n).cursor + 1 }).sweep with
        used := v.sweep.used + 1, offer := none } } := by
  have hpass : passOn (v.sw n) = { v.sw n with cursor := (v.sw n).cursor + 1 } := if_pos hlt
  have hends : decide ((v.sw n).blockLength ≤ v.sweep.used + 1) = false := decide_eq_false (Nat.not_le.2 hused)
  exact issueVisit_eq (ends := false) (by rw [hpass]) (by rw [hends, hopen]; rfl)

/-- The last visit of the only eligible sweep has issued: no offer follows in this round (R139, R141). -/
theorem issueLoop_turn_over (hpart : v.scan.testPart = 0) (hno : v.scan.noOffer = false) (hlast : (v.sw n).count ≤ (v.sw n).cursor + 1)
    (hothers : ∀ m, m ≠ n → eligible (v.sw m) = false) :
    issueLoop slot (fuel + 1) (issueVisit n v) = { issueVisit n v with scan := { v.scan with noOffer := true } } := by
  have hv := issueVisit_closes hlast
  generalize hu : issueVisit n v = u at hv
  have hscan : u.scan = v.scan := by rw [hv]; rfl
  have hoffer : u.sweep.offer = none := by rw [hv]
  have hholder : u.sweep.holder = none := by rw [hv]
  have hsw : ∀ m, u.sw m = (v.setSw n { v.sw n with items := (v.sw n).items + 1, closing := true }).sw m := fun m => by rw [hv]; rfl
  have hquiet : ∀ m, eligible (u.sw m) = false := fun m => by
    rw [hsw]
    by_cases hm : m = n
    · rw [hm, State.sw_setSw_self]
      simp [eligible]
    · rw [State.sw_setSw_ne _ _ hm, hothers m hm]
  have hwant : wantOffer u = { u with scan := { v.scan with noOffer := true } } := by
    rw [wantOffer_asks hoffer (by rw [hscan, hno]), askOffer_quiet hoffer hholder hquiet, hscan]
  have hnone : (wantOffer u).sweep.offer = none := by
    rw [hwant]
    exact hoffer
  rw [issueLoop_no_offer (by rw [hscan, hpart]) hnone, hwant]

/-- The next visit of the turn is offered, and waits for its bank (R29, R140). -/
theorem issueLoop_turn_on {i : Item} (hpart : v.scan.testPart = 0) (hno : v.scan.noOffer = false) (hheld : v.sweep.holder = some n)
    (hlt : (v.sw n).cursor + 1 < (v.sw n).count) (hopen : (v.sw n).closing = false) (hused : v.sweep.used + 1 < (v.sw n).blockLength)
    (hv : visitable (v.line (visitLine (v.sw n) ((v.sw n).cursor + 1))).state = true)
    (hitem : v.bankItem (bankOf (visitLine (v.sw n) ((v.sw n).cursor + 1))) = some i) :
    issueLoop slot (fuel + 1) (issueVisit n v) = { issueVisit n v with
      sweep := { (issueVisit n v).sweep with offer := some ⟨n, visitLine (v.sw n) ((v.sw n).cursor + 1), (v.sw n).kind⟩ } } := by
  have heq := issueVisit_goes_on hlt hopen hused
  generalize hu : issueVisit n v = u at heq
  have hscan : u.scan = v.scan := by rw [heq]; rfl
  have hoffer : u.sweep.offer = none := by rw [heq]
  have hholder : u.sweep.holder = some n := by
    rw [heq]
    exact hheld
  have hline : ∀ l, u.line l = v.line l := fun l => by rw [heq]; rfl
  have hsw : u.sw n = { v.sw n with items := (v.sw n).items + 1, cursor := (v.sw n).cursor + 1 } := by
    have h : u.sw n = (v.setSw n { v.sw n with items := (v.sw n).items + 1, cursor := (v.sw n).cursor + 1 }).sw n := by
      rw [heq]
      rfl
    rw [h, State.sw_setSw_self]
  have hvisit : visitLine (u.sw n) (u.sw n).cursor = visitLine (v.sw n) ((v.sw n).cursor + 1) := by
    rw [hsw]
    rfl
  have hask := askOffer_offers (s := u) hholder (by rw [hvisit, hline, hv])
  have hkind : (u.sw n).kind = (v.sw n).kind := by rw [hsw]
  rw [hvisit, hkind] at hask
  have hwant : wantOffer u = askOffer u := wantOffer_asks hoffer (by rw [hscan, hno])
  have hbank : ∀ c, (wantOffer u).bankItem c = v.bankItem c := fun c => by
    rw [hwant, hask]
    exact bankItem_congr hscan c
  have hcannot : (wantOffer u).canIssue (visitLine (v.sw n) ((v.sw n).cursor + 1)) (sweepItem (v.sw n).kind) slot = false := by
    simp [State.canIssue, hbank, hitem]
  have hpending : (wantOffer u).sweep.offer = some ⟨n, visitLine (v.sw n) ((v.sw n).cursor + 1), (v.sw n).kind⟩ := by rw [hwant, hask]
  rw [issueLoop_waits (by rw [hscan, hpart]) hpending hcannot, hwant, hask]

end

end Sys2Proof.Machine
end

