-- ==== Sys2Proof/Proofs/ItemsInOrder.lean ====
section
/-! PROOF. Items issue in order, and requests for offers (R25 to R37, R139 to R144). -/

namespace Sys2Proof.Machine

/-! ### Items issue in order -/

/-- What the issues of a slot leave of the state in which the slot began (R27 to R31). -/
theorem issued_since {s w t : State} (h : Issued w t) (hw : { w with scan := s.scan, test := s.test } = s) :
    (∀ l, (t.line l).state = (s.line l).state ∧ (t.line l).measuring = (s.line l).measuring) ∧ t.bat = s.bat ∧
      (∃ ds, (∀ d ∈ ds, (s.sw d.1).items = 0) ∧ JournalAs (passesDone ds s) t) ∧ (NoTurn s → JournalAs s t) := by
  have hline : ∀ l, w.line l = s.line l := fun l => by
    have h := congrArg (fun u : State => u.line l) hw
    exact h
  have hbat : w.bat = s.bat := by
    have h := congrArg State.bat hw
    exact h
  have htb : w.tb = s.tb := by
    have h := congrArg State.tb hw
    exact h
  have hjournal : w.journal = s.journal := by
    have h := congrArg State.journal hw
    exact h
  have hport : ∀ q, w.port q = s.port q := fun q => by
    have h := congrArg (fun u : State => u.port q) hw
    exact h
  have hsweep : w.sweep = s.sweep := by
    have h := congrArg State.sweep hw
    exact h
  have hsw : ∀ n, w.sw n = s.sw n := fun n => by simp only [State.sw, hsweep]
  obtain ⟨ds, hds, hj⟩ := h.journal
  refine ⟨fun l => by rw [← hline]; exact h.state l, h.bat.trans hbat,
    ⟨ds, fun d hd => by rw [← hsw]; exact hds d hd, (journalAs_passesDone hport hjournal htb hsweep ds).trans hj⟩, fun hq => ?_⟩
  have hquiet : NoTurn w := ⟨by rw [hsweep]; exact hq.1, fun n => by rw [hsw]; exact hq.2 n⟩
  exact (JournalAs.of_ports hjournal hport).trans (h.quiet hquiet).2

/-- A test item issues first (R27, R31). -/
theorem slotStart_test {s : State} {x : TestItem} {rest : List TestItem} (hdue : s.slotDue = true) (h0 : s.scan.item0 = none)
    (h1 : s.scan.item1 = none) (hq : s.test.queue = x :: rest)
    (hpart : s.scan.nextSlot = 32 ∨ (32 < s.scan.nextSlot ∧ 0 < s.scan.testPart)) (hfit : s.scan.nextSlot + itemSlots x.kind ≤ 40) :
    ∃ t, exec .slotStart s = .next t ∧
      Issued (issueItem x.line x.kind .test s.scan.nextSlot (takeTestItem rest (sweepSlotBegun s))) t ∧
      Issued (takeTestItem rest (sweepSlotBegun s)) t := by
  have h32 : 32 ≤ s.scan.nextSlot := by omega
  have hp : 0 < (sweepSlotBegun s).scan.testPart := by
    change 0 < if s.scan.nextSlot = 32 then s.test.queue.length else s.scan.testPart
    split
    · rw [hq]
      exact Nat.succ_pos _
    · omega
  have hcan : (sweepSlotBegun s).canIssue x.line x.kind s.scan.nextSlot = true := canIssue_of_free h0 h1 hfit
  have hcan' : (takeTestItem rest (sweepSlotBegun s)).canIssue x.line x.kind s.scan.nextSlot = true := canIssue_of_free h0 h1 hfit
  have hissued := issued_issueLoop s.scan.nextSlot 2 (issueItem x.line x.kind .test s.scan.nextSlot (takeTestItem rest (sweepSlotBegun s)))
  refine ⟨_, ?_, hissued, (issued_issueItem .test hcan').trans hissued⟩
  rw [exec_slotStart_free hdue h32 h0 h1, issueLoop_test (fuel := 2) hp hq hcan]

/-- With no test item left, the pending offer issues (R27, R31, R142). -/
theorem slotStart_offer {s : State} {o : Offer} (hdue : s.slotDue = true) (h0 : s.scan.item0 = none) (h1 : s.scan.item1 = none)
    (ho : s.sweep.offer = some o) (hpart : (s.scan.nextSlot = 32 ∧ s.test.queue = []) ∨ (32 < s.scan.nextSlot ∧ s.scan.testPart = 0))
    (hfit : s.scan.nextSlot + itemSlots (sweepItem o.kind) ≤ 40) :
    let v := issueItem o.line (sweepItem o.kind) (.sweep o.sweep) s.scan.nextSlot (sweepSlotBegun s)
    exec .slotStart s = .next (issueLoop s.scan.nextSlot 2 (issueVisit o.sweep v)) ∧ (sweepSlotBegun s).scan.testPart = 0 ∧
      Issued v (issueLoop s.scan.nextSlot 2 (issueVisit o.sweep v)) ∧ Issued (sweepSlotBegun s) v := by
  intro v
  have h32 : 32 ≤ s.scan.nextSlot := by omega
  have hp : (sweepSlotBegun s).scan.testPart = 0 := by
    change (if s.scan.nextSlot = 32 then s.test.queue.length else s.scan.testPart) = 0
    rcases hpart with ⟨hk, hempty⟩ | ⟨hk, hzero⟩
    · rw [if_pos hk, hempty]
      rfl
    · rw [if_neg (by omega), hzero]
  have hcan : (sweepSlotBegun s).canIssue o.line (sweepItem o.kind) s.scan.nextSlot = true := canIssue_of_free h0 h1 hfit
  have hwant : wantOffer (sweepSlotBegun s) = sweepSlotBegun s := wantOffer_of_offer ho
  refine ⟨?_, hp, (issued_issueVisit o.sweep).trans (issued_issueLoop _ 2 _), issued_issueItem _ hcan⟩
  rw [exec_slotStart_free hdue h32 h0 h1, issueLoop_offer (fuel := 2) hp (by rw [hwant]; exact ho) (by rw [hwant]; exact hcan), hwant]
  rfl

/-- The offer that issued was the last visit of the only eligible sweep (R139, R142). -/
theorem offer_closes_pass {s : State} {o : Offer} {k : ItemKind} {slot : Nat} (hno : s.scan.noOffer = false)
    (hp : (sweepSlotBegun s).scan.testPart = 0) (hlast : (s.sw o.sweep).count ≤ (s.sw o.sweep).cursor + 1)
    (hothers : ∀ m, m ≠ o.sweep → (s.sw m).state ≠ .active ∨ (s.sw m).closing = true) :
    let t := issueLoop slot 2 (issueVisit o.sweep (issueItem o.line k (.sweep o.sweep) slot (sweepSlotBegun s)))
    t.sw o.sweep = { s.sw o.sweep with items := (s.sw o.sweep).items + 1, closing := true } ∧ (∀ m, m ≠ o.sweep → t.sw m = s.sw m) ∧
      t.sweep.holder = none ∧ t.sweep.lastServed = o.sweep ∧ t.sweep.used = s.sweep.used + 1 ∧ t.sweep.offer = none ∧
      t.scan.noOffer = true ∧ JournalAs s t := by
  obtain ⟨hjournal, hport, hsweep, -⟩ := issueItem_keeps (s := sweepSlotBegun s) o.line k (.sweep o.sweep) slot
  obtain ⟨-, hpart, hnone⟩ := issueItem_scan (s := sweepSlotBegun s) o.line k (.sweep o.sweep) slot
  generalize issueItem o.line k (.sweep o.sweep) slot (sweepSlotBegun s) = v at hjournal hport hsweep hpart hnone ⊢
  have hsw : ∀ m, v.sw m = s.sw m := fun m => by
    rw [State.sw, hsweep]
    rfl
  have hused : v.sweep.used = s.sweep.used := congrArg SweepUnit.used hsweep
  intro t
  have ht : t = { issueVisit o.sweep v with scan := { v.scan with noOffer := true } } :=
    issueLoop_turn_over (hpart.trans hp) (hnone.trans hno) (by rw [hsw]; exact hlast) fun m hm => by rw [hsw]; exact eligible_eq_false (hothers m hm)
  rw [issueVisit_closes (by rw [hsw]; exact hlast), hsw, hused] at ht
  rw [ht]
  refine ⟨State.sw_setSw_self _ _ _, fun m hm => ?_, rfl, rfl, rfl, rfl, rfl, JournalAs.of_ports hjournal hport⟩
  exact (State.sw_setSw_ne _ _ hm).trans (hsw m)

/-- The offer that issued leaves visits of its turn, the next of them on the same bank (R139, R140, R142). -/
theorem offer_goes_on {s : State} {o : Offer} {k : ItemKind} {slot : Nat} (hno : s.scan.noOffer = false)
    (hp : (sweepSlotBegun s).scan.testPart = 0) (hheld : s.sweep.holder = some o.sweep)
    (hlt : (s.sw o.sweep).cursor + 1 < (s.sw o.sweep).count) (hopen : (s.sw o.sweep).closing = false)
    (hblock : s.sweep.used + 1 < (s.sw o.sweep).blockLength)
    (hbank : bankOf (visitLine (s.sw o.sweep) ((s.sw o.sweep).cursor + 1)) = bankOf o.line)
    (hidle : visitable (s.line (visitLine (s.sw o.sweep) ((s.sw o.sweep).cursor + 1))).state = true) :
    let t := issueLoop slot 2 (issueVisit o.sweep (issueItem o.line k (.sweep o.sweep) slot (sweepSlotBegun s)))
    t.sw o.sweep = { s.sw o.sweep with items := (s.sw o.sweep).items + 1, cursor := (s.sw o.sweep).cursor + 1 } ∧
      (∀ m, m ≠ o.sweep → t.sw m = s.sw m) ∧ t.sweep.holder = some o.sweep ∧ t.sweep.lastServed = s.sweep.lastServed ∧
      t.sweep.used = s.sweep.used + 1 ∧
      t.sweep.offer = some ⟨o.sweep, visitLine (s.sw o.sweep) ((s.sw o.sweep).cursor + 1), (s.sw o.sweep).kind⟩ ∧
      t.scan.noOffer = false ∧ JournalAs s t := by
  obtain ⟨hjournal, hport, hsweep, -⟩ := issueItem_keeps (s := sweepSlotBegun s) o.line k (.sweep o.sweep) slot
  obtain ⟨-, hpart, hnone⟩ := issueItem_scan (s := sweepSlotBegun s) o.line k (.sweep o.sweep) slot
  have hitem : ∃ i, (issueItem o.line k (.sweep o.sweep) slot (sweepSlotBegun s)).bankItem (bankOf o.line) = some i :=
    ⟨_, by rw [issueItem_eq, State.bankItem_setBankItem_self]⟩
  have hstate : ∀ l, ((issueItem o.line k (.sweep o.sweep) slot (sweepSlotBegun s)).line l).state = (s.line l).state := fun l => by
    by_cases hl : l = o.line
    · rw [hl, line_issueItem_self]
      rfl
    · rw [line_issueItem_ne _ _ _ hl]
      rfl
  generalize issueItem o.line k (.sweep o.sweep) slot (sweepSlotBegun s) = v at hjournal hport hsweep hpart hnone hitem hstate ⊢
  have hsw : ∀ m, v.sw m = s.sw m := fun m => by
    rw [State.sw, hsweep]
    rfl
  obtain ⟨i, hi⟩ := hitem
  have hused : v.sweep.used = s.sweep.used := congrArg SweepUnit.used hsweep
  have hserved : v.sweep.lastServed = s.sweep.lastServed := congrArg SweepUnit.lastServed hsweep
  have hholder : v.sweep.holder = some o.sweep := (congrArg SweepUnit.holder hsweep).trans hheld
  intro t
  have ht : t = { issueVisit o.sweep v with
      sweep := { (issueVisit o.sweep v).sweep with
        offer := some ⟨o.sweep, visitLine (v.sw o.sweep) ((v.sw o.sweep).cursor + 1), (v.sw o.sweep).kind⟩ } } :=
    issueLoop_turn_on (hpart.trans hp) (hnone.trans hno) hholder (by rw [hsw]; exact hlt) (by rw [hsw]; exact hopen)
      (by rw [hsw, hused]; exact hblock) (by rw [hsw, hstate]; exact hidle) (by rw [hsw, hbank]; exact hi)
  rw [issueVisit_goes_on (by rw [hsw]; exact hlt) (by rw [hsw]; exact hopen) (by rw [hsw, hused]; exact hblock), hsw, hused] at ht
  rw [ht]
  refine ⟨State.sw_setSw_self _ _ _, fun m hm => ?_, hholder, hserved, rfl, rfl, hnone.trans hno,
    JournalAs.of_ports hjournal hport⟩
  exact (State.sw_setSw_ne _ _ hm).trans (hsw m)

/-- A visit skipped at the end of the pass or of the block ends the turn (R139, R140). -/
theorem turnEnds_skipped {s : State} {n : SweepNo} (h : (s.sw n).count ≤ (s.sw n).cursor + 1 ∨ (s.sw n).blockLength ≤ s.sweep.used + 1) :
    turnEnds n (s.setSw n (skippedVisit (s.sw n))) = true := by
  have hused : (s.setSw n (skippedVisit (s.sw n))).sweep.used = s.sweep.used := rfl
  rw [turnEnds, State.sw_setSw_self, hused, skippedVisit_eq]
  rcases h with h | h <;> simp [h]

/-- What a request leaves: the offer, the mark of a round without offers, the passes that it ended (R140 to R144). -/
theorem askOffer_offer {s : State} (ho : s.sweep.offer = none) :
    let t := askOffer s
    (∀ o, t.sweep.offer = some o →
      t.sweep.holder = some o.sweep ∧ o.line = visitLine (t.sw o.sweep) (t.sw o.sweep).cursor ∧ o.kind = (t.sw o.sweep).kind ∧
      ((s.line o.line).state = .idle ∨ (s.line o.line).state = .blocked)) ∧
    (t.sweep.offer = none → t.scan.noOffer = true) ∧
    ∃ ds, (ds.map Prod.fst).Nodup ∧ { t with sweep := s.sweep, scan := s.scan } = passesDone ds s ∧
      ∀ d ∈ ds, PassOf (s.sw d.1) (t.sw d.1) d.2 := by
  obtain ⟨ds, t, hreq, hask⟩ := askOffer_requested s
  have hline : ∀ l, t.line l = s.line l := fun l => by
    have h := congrArg (fun u : State => u.line l) hreq.rest
    exact h.trans (line_tell ..)
  have hrest : { t with sweep := s.sweep, scan := s.scan } = passesDone ds s := by
    have hscan : (tell (ds.map (doneNote s)) s).scan = s.scan := tell_scan ..
    rw [passesDone_eq, ← hscan]
    exact congrArg (fun u : State => { u with scan := (tell (ds.map (doneNote s)) s).scan }) hreq.rest
  have hoffers : ∀ o, t.sweep.offer = some o →
      t.sweep.holder = some o.sweep ∧ o.line = visitLine (t.sw o.sweep) (t.sw o.sweep).cursor ∧ o.kind = (t.sw o.sweep).kind ∧
        ((s.line o.line).state = .idle ∨ (s.line o.line).state = .blocked) := fun o h => by
    obtain ⟨h1, h2, h3, h4⟩ := hreq.offers ho o h
    rw [hline] at h4
    exact ⟨h1, h2, h3, visitable_iff.1 h4⟩
  dsimp only
  rw [hask]
  split
  · exact ⟨hoffers, fun _ => rfl, ds, hreq.nodup, hrest, hreq.passes⟩
  · rename_i hsome
    exact ⟨hoffers, fun h => absurd h hsome, ds, hreq.nodup, hrest, hreq.passes⟩

/-- Settles O34: the issues of a slot (`issued_issueLoop`), and the rounds of a request (`requestOffer_requested`). -/
theorem itemsIssueInOrder : Obligations.ItemsIssueInOrder := by
  refine ⟨fun s x rest hdue h0 h1 hq hpart hfit => ?_, fun s o hdue h0 h1 ho hheld hno hpart => ?_, fun s b i hdue h32 hi hb => ?_,
    fun s n ho hheld => ?_, fun s ho => ?_, fun s ho hnone hothers => ?_⟩
  · obtain ⟨t, hexec, hlater, hall⟩ := slotStart_test hdue h0 h1 hq hpart hfit
    obtain ⟨hitem, hsent, hlink⟩ := issued_first hlater
    obtain ⟨hstate, hbat, hreports, hquiet⟩ := issued_since (s := s) hall rfl
    rw [linkOf_bankOf, linkOf_bankOf] at hlink
    exact ⟨t, _, hexec, hitem, rfl, rfl, rfl, rfl, disturbed_freshItem .., hsent, hlink, hall.queue, hall.nextSlot, hstate, hbat, hreports,
      fun hholder hothers => hquiet ⟨hholder, fun n => eligible_eq_false (hothers n)⟩⟩
  · intro w next kind hfit
    have hkind : kind = sweepItem o.kind := by
      simp only [kind]
      cases o.kind <;> rfl
    obtain ⟨hexec, hp, hlater, hfirst⟩ := slotStart_offer hdue h0 h1 ho hpart (hkind ▸ hfit)
    obtain ⟨hitem, hsent, -⟩ := issued_first hlater
    have hall := hfirst.trans hlater
    obtain ⟨hstate, hbat, hreports, -⟩ := issued_since (s := s) hall rfl
    refine ⟨_, _, hexec, hitem, rfl, hkind.symm, rfl, by rw [hkind]; rfl, by rw [hkind]; exact disturbed_freshItem .., hsent, hall.nextSlot, (hall.test hp).1, hbat,
      hreports, hstate, fun hlast hothers => ?_, fun hlt hopen hused hbank hidle => ?_⟩
    · exact offer_closes_pass hno hp hlast hothers
    · exact offer_goes_on hno hp hheld hlt hopen hused hbank (visitable_iff.2 hidle)
  · intro mode
    have hbank := bankItem_slotStart (slotBegun s) s.scan.nextSlot b
    have hbegun : (slotBegun s).bankItem b = some i := by
      rw [← hi]
      cases b <;> rfl
    rw [hbegun, Option.map_some] at hbank
    obtain ⟨hitem, -⟩ := (issued_issueLoop s.scan.nextSlot 3 _).held b _ hbank
    refine ⟨_, exec_slotStart hdue h32, hitem.trans ?_⟩
    have hmode : (slotBegun s).derivedMode i.line = mode := rfl
    rw [hmode, seeSlot, reseeSlot, isTransient_eq]
  · intro w busy hbusy
    refine ⟨fun hlt hopen hused hv => ?_, fun hends hactive hopen hv => ?_, fun hlast hitems hactive hothers => ?_⟩
    · exact askOffer_skips_one hheld (visitable_eq_false hbusy) hlt hopen hused (visitable_of_not_busy hv)
    · have hnext := askOffer_next_turn hheld (visitable_eq_false hbusy) (turnEnds_skipped hends) (by simp [eligible, hactive, hopen]) (visitable_of_not_busy hv)
      rw [skippedVisit_eq] at hnext
      exact hnext
    · intro u t
      refine ⟨askOffer_last_pass hheld (visitable_eq_false hbusy) ho hlast hitems fun m hm => eligible_eq_false (hothers m hm), fun hcyclic hv => ?_⟩
      have hsw : t.sw n = passEnded w := State.sw_setSw_self _ _ _
      have hsw' : ∀ m, m ≠ n → t.sw m = s.sw m := fun m hm => (State.sw_setSw_ne _ _ hm).trans (sw_passesDone ..)
      have hline : ∀ l, t.line l = s.line l := fun l => by
        have h : t.line l = (passesDone [(n, w.measured, w.skipped + 1)] s).line l := rfl
        rw [h, passesDone_eq, line_tell]
      have hfirst := askOffer_first_visit (n := n) (t := t) rfl rfl (by rw [hsw]; simp [eligible, passEnded, hactive, hcyclic])
        (fun m hm => by rw [hsw' m hm]; exact eligible_eq_false (hothers m hm)) (by rw [hsw, hline]; exact visitable_of_not_busy hv)
      rw [hsw] at hfirst
      exact hfirst
  · exact askOffer_offer ho
  · exact askOffer_quiet ho hnone fun n => eligible_eq_false (hothers n)

end Sys2Proof.Machine
end
